-- ==== Sys2Proof/Word.lean ====
section
/-! DEFINITION. The word types of the machine and their plainest arithmetic (R6, R19, R20). -/

namespace Sys2Proof

/-- A byte, the smallest addressable unit (R84). -/
abbrev Byte := BitVec 8
/-- A 32-bit word (R6): an instruction word, an e-slot, a lane value. -/
abbrev W32 := BitVec 32
/-- A 64-bit doubleword: a general register, a control register, a virtual address. -/
abbrev W64 := BitVec 64
/-- A 6-bit operand specifier (R193). -/
abbrev Spec := BitVec 6

/-- Bits `lo + len - 1` down to `lo` of a number: the field of a word or a descriptor (R6). -/
def bitsOf (w lo len : Nat) : Nat := w / 2 ^ lo % 2 ^ len

/-- One bit of a number. -/
def bitAt (w i : Nat) : Bool := bitsOf w i 1 == 1

end Sys2Proof
end

