-- ==== Sys2Proof/Syntax.lean ====
section
/-! DEFINITION. The instructions and events of the Amimor: one constructor for each row of
spec/opcode_table.json. The first 227 are instruction words, their arguments the fields of the word
(R191, R201-R203); the others are steps of the package's units, which have no word. -/

namespace Sys2Proof

/-- A core by die, cluster index (row * 8 + column) and core number: 0-7 lane cores, 8 stager, 9 issuer
(R4, R5, R327). -/
structure CoreId where
  die : BitVec 2
  clu : BitVec 6
  core : BitVec 4
  deriving DecidableEq, Repr, Inhabited

/-- Who writes a die's control space (R48): the host, a task by its task number, or a unit of the device or a port, which
has no staging buffer. -/
inductive Writer where
  | host
  | task (key : Nat)
  | unit
  deriving DecidableEq, Repr

/-- The control-space offsets that take 32-byte commands (R48, R419). -/
inductive CmdSlot where
  | invalidate | page | preempt | launch | attest
  deriving DecidableEq, Repr

/-- What a plain register write names (R237, R436): a control register of the current task, or a
doubleword of a die's control space written by some writer. -/
inductive RegTarget where
  | creg (n : BitVec 12)
  | control (w : Writer) (die : BitVec 2) (off : BitVec 30)
  deriving DecidableEq, Repr

/-- A Rilah flit (R393): header, payload, link check. -/
structure Flit where
  hdr : W64
  payload : List Byte
  check : W64
  deriving DecidableEq, Repr, Inhabited

/-- A Rilah packet (R395): the four header doublewords and the payload. -/
structure Packet where
  h0 : W64
  h1 : W64
  h2 : W64
  h3 : W64
  data : List Byte
  deriving DecidableEq, Repr, Inhabited

/-- Where a packet comes in: port, traffic class and network (R397, R401). -/
structure Ingress where
  port : BitVec 4
  cls : BitVec 2
  net : BitVec 2
  deriving DecidableEq, Repr, Inhabited

/-- One constructor for each row of the opcode table: the words with fields, the events the machine itself
queues, the other events, then the rows without arguments. -/
inductive Instr where
  /-- ADD: Writes a + b modulo 2^64 to d. (R217) -/
  | add (d a b : Spec)
  /-- SUB: Writes a - b modulo 2^64 to d. (R217) -/
  | sub (d a b : Spec)
  /-- AND: Writes the bitwise AND of a and b to d. (R217) -/
  | and (d a b : Spec)
  /-- OR: Writes the bitwise OR of a and b to d. (R217) -/
  | or (d a b : Spec)
  /-- XOR: Writes the bitwise XOR of a and b to d. (R217) -/
  | xor (d a b : Spec)
  /-- ANDN: Writes a AND NOT b to d. (R217) -/
  | andn (d a b : Spec)
  /-- ORN: Writes a OR NOT b to d. (R217) -/
  | orn (d a b : Spec)
  /-- SHL: Shifts a left by b[5:0]. (R217) -/
  | shl (d a b : Spec)
  /-- SHR: Shifts a right logically by b[5:0]. (R217) -/
  | shr (d a b : Spec)
  /-- SAR: Shifts a right arithmetically by b[5:0]. (R217) -/
  | sar (d a b : Spec)
  /-- ROL: Rotates a left by b[5:0]. (R217) -/
  | rol (d a b : Spec)
  /-- MUL: Writes bits 63:0 of a times b. (R217) -/
  | mul (d a b : Spec)
  /-- MULH: Writes the high 64 bits of the signed product. (R217) -/
  | mulh (d a b : Spec)
  /-- MULHZ: Writes the high 64 bits of the unsigned product. (R217) -/
  | mulhz (d a b : Spec)
  /-- DIV: Signed division truncated toward zero, with defined division by zero. (R218) -/
  | div (d a b : Spec)
  /-- DIVZ: Unsigned division with defined division by zero. (R218) -/
  | divz (d a b : Spec)
  /-- REM: Signed remainder taking the sign of a. (R218) -/
  | rem (d a b : Spec)
  /-- REMZ: Unsigned remainder. (R218) -/
  | remz (d a b : Spec)
  /-- MIN: Writes the signed minimum of a and b. (R217) -/
  | min (d a b : Spec)
  /-- MAX: Writes the signed maximum of a and b. (R217) -/
  | max (d a b : Spec)
  /-- MINZ: Writes the unsigned minimum of a and b. (R217) -/
  | minz (d a b : Spec)
  /-- MAXZ: Writes the unsigned maximum of a and b. (R217) -/
  | maxz (d a b : Spec)
  /-- CLZ: Counts leading zero bits of a. (R217) -/
  | clz (d a : Spec)
  /-- CTZ: Counts trailing zero bits of a. (R217) -/
  | ctz (d a : Spec)
  /-- POPC: Counts the 1 bits of a. (R217) -/
  | popc (d a : Spec)
  /-- BREV: Reverses the bit order of a. (R217) -/
  | brev (d a : Spec)
  /-- BSWAP: Reverses the byte order of a. (R217) -/
  | bswap (d a : Spec)
  /-- EXT: Extracts a bit field of a at position and length given by b. (R219) -/
  | ext (d a b : Spec)
  /-- INS: Inserts low bits of a into d at the field given by b. (R219) -/
  | ins (d a b : Spec)
  /-- CRC: Performs one CRC-32C step over eight data bytes. (R220) -/
  | crc (d a b : Spec)
  /-- SEL: Writes a when predicate N holds and b otherwise. (R221) -/
  | sel (d a b : Spec) (p : BitVec 3)
  /-- ADDI: Adds a sign-extended immediate to a. (R222) -/
  | addi (d a : Spec) (i : BitVec 14)
  /-- ANDI: ANDs a with a sign-extended immediate. (R222) -/
  | andi (d a : Spec) (i : BitVec 14)
  /-- ORI: ORs a with a sign-extended immediate. (R222) -/
  | ori (d a : Spec) (i : BitVec 14)
  /-- XORI: XORs a with a sign-extended immediate. (R222) -/
  | xori (d a : Spec) (i : BitVec 14)
  /-- SHLI: Shifts a left by an immediate amount. (R223) -/
  | shli (d a n : BitVec 6)
  /-- SHRI: Shifts a right logically by an immediate amount. (R223) -/
  | shri (d a n : BitVec 6)
  /-- SARI: Shifts a right arithmetically by an immediate amount. (R223) -/
  | sari (d a n : BitVec 6)
  /-- LDI: Loads a sign-extended 20-bit immediate into d. (R224) -/
  | ldi (d : Spec) (i : BitVec 20)
  /-- LDHI: Replaces bits 63:20 of d with the immediate and keeps bits 19:0. (R224) -/
  | ldhi (d : Spec) (i : BitVec 20)
  /-- ADDPC: Writes the address of the word plus four times the immediate. (R224) -/
  | addpc (d : Spec) (i : BitVec 20)
  /-- CMP: Compares a and b under the condition in fn and writes a predicate. (R225) -/
  | cmp (p : BitVec 3) (a b : Spec) (c : BitVec 8)
  /-- CMPI: Compares a with an immediate under a condition and writes a predicate. (R225) -/
  | cmpi (c p : BitVec 3) (a : Spec) (i : BitVec 14)
  /-- PAND: ANDs two predicates. (R226) -/
  | pand (d a b : BitVec 3)
  /-- POR: ORs two predicates. (R226) -/
  | por (d a b : BitVec 3)
  /-- PXOR: XORs two predicates. (R226) -/
  | pxor (d a b : BitVec 3)
  /-- PNOT: Inverts a predicate. (R226) -/
  | pnot (d a : BitVec 3)
  /-- PSAVE: Packs the predicates into a scalar register. (R227) -/
  | psave (d : Spec)
  /-- PLOAD: Sets p1-p7 from bits of a scalar source. (R227) -/
  | pload (a : Spec)
  /-- BP: Branches when a predicate has the given sense. (R228) -/
  | bp (s : BitVec 1) (p : BitVec 3) (o : BitVec 20)
  /-- BZ: Branches when a scalar source is zero. (R228) -/
  | bz (t : Spec) (o : BitVec 20)
  /-- BNZ: Branches when a scalar source is nonzero. (R228) -/
  | bnz (t : Spec) (o : BitVec 20)
  /-- J: Jumps PC-relative. (R229) -/
  | j (o : BitVec 26)
  /-- CALL: Enters a new call depth at a PC-relative target, sliding the window. (R230) -/
  | call (o : BitVec 26)
  /-- JR: Jumps to the address in a. (R229) -/
  | jr (a : Spec)
  /-- CALLR: Enters a new call depth at the address in a. (R230) -/
  | callr (a : Spec)
  /-- TRAP: Raises the TRAP cause with its code, resuming after it. (R234) -/
  | trap (c : BitVec 12)
  /-- BRK: Raises the BRK cause with its code at its own address. (R234) -/
  | brk (c : BitVec 12)
  /-- CRD: Reads a numbered control register into d. (R236) -/
  | crd (d : Spec) (n : BitVec 12)
  /-- CWR: Writes a numbered control register from the d-field source. (R237) -/
  | cwr (d : Spec) (n : BitVec 12)
  /-- LD: Loads and sign-extends 1 to 8 bytes. (R239) -/
  | ld (d a : Spec) (z : BitVec 2) (o : BitVec 12)
  /-- LDZ: Loads and zero-extends 1 to 4 bytes. (R239) -/
  | ldz (d a : Spec) (z : BitVec 2) (o : BitVec 12)
  /-- ST: Stores 1 to 8 bytes, held privately until a boundary. (R239) -/
  | st (d a : Spec) (z : BitVec 2) (o : BitVec 12)
  /-- LDX: Indexed sign-extending load. (R240) -/
  | ldx (d a b : Spec) (z h : BitVec 2)
  /-- LDZX: Indexed zero-extending load. (R240) -/
  | ldzx (d a b : Spec) (z h : BitVec 2)
  /-- STX: Indexed store. (R240) -/
  | stx (d a b : Spec) (z h : BitVec 2)
  /-- LDFE: Full/empty load in plain, consume or read-if-full mode. (R242) -/
  | ldfe (d a : Spec) (p : BitVec 3) (m : BitVec 4)
  /-- STFE: Full/empty store in plain, produce or fill mode. (R243) -/
  | stfe (d a : Spec) (p : BitVec 3) (m : BitVec 4)
  /-- PREF: Prefetch hint with no visible effect. (R244) -/
  | pref (a : Spec) (i : BitVec 4)
  /-- FADD: IEEE addition rounded once. (R246) -/
  | fadd (d a b : Spec) (f : BitVec 2)
  /-- FSUB: IEEE subtraction rounded once. (R246) -/
  | fsub (d a b : Spec) (f : BitVec 2)
  /-- FMUL: IEEE multiplication rounded once. (R246) -/
  | fmul (d a b : Spec) (f : BitVec 2)
  /-- FDIV: IEEE division rounded once. (R246) -/
  | fdiv (d a b : Spec) (f : BitVec 2)
  /-- FSQRT: IEEE square root rounded once. (R246) -/
  | fsqrt (d a : Spec) (f : BitVec 2)
  /-- FMA: Fused a times b plus d. (R246) -/
  | fma (d a b : Spec) (f : BitVec 2)
  /-- FMS: Fused a times b minus d. (R246) -/
  | fms (d a b : Spec) (f : BitVec 2)
  /-- FNMA: Fused minus a times b plus d. (R246) -/
  | fnma (d a b : Spec) (f : BitVec 2)
  /-- FMIN: IEEE minimumNumber. (R247) -/
  | fmin (d a b : Spec) (f : BitVec 2)
  /-- FMAX: IEEE maximumNumber. (R247) -/
  | fmax (d a b : Spec) (f : BitVec 2)
  /-- FEQ: Writes a predicate for floating equality. (R248) -/
  | feq (p : BitVec 3) (a b : Spec) (f : BitVec 2)
  /-- FLT: Writes a predicate for floating less-than. (R248) -/
  | flt (p : BitVec 3) (a b : Spec) (f : BitVec 2)
  /-- FLE: Writes a predicate for floating less-or-equal. (R248) -/
  | fle (p : BitVec 3) (a b : Spec) (f : BitVec 2)
  /-- FUN: Writes a predicate that either operand is NaN. (R248) -/
  | fun (p : BitVec 3) (a b : Spec) (f : BitVec 2)
  /-- FCLASS: Writes a one-hot class mask of a. (R249) -/
  | fclass (d a : Spec) (f : BitVec 2)
  /-- FSGNJ: Injects b's sign into a. (R250) -/
  | fsgnj (d a b : Spec) (f : BitVec 2)
  /-- FSGNJN: Injects the inverse of b's sign into a. (R250) -/
  | fsgnjn (d a b : Spec) (f : BitVec 2)
  /-- FSGNJX: XORs b's sign into a. (R250) -/
  | fsgnjx (d a b : Spec) (f : BitVec 2)
  /-- FCVT: Converts between IEEE, integer and FP8 formats by selector. (R251) -/
  | fcvt (d a s : BitVec 6) (f : BitVec 2)
  /-- EADD: Long-float addition with cancellation check. (R253) -/
  | eadd (d a b : Spec)
  /-- ESUB: Long-float subtraction with cancellation check. (R253) -/
  | esub (d a b : Spec)
  /-- EMUL: Long-float multiplication. (R253) -/
  | emul (d a b : Spec)
  /-- EDIV: Long-float division. (R253) -/
  | ediv (d a b : Spec)
  /-- ESQRT: Long-float square root. (R253) -/
  | esqrt (d a : Spec)
  /-- EFMA: Long-float fused multiply-add with D from the destination. (R253) -/
  | efma (d a b : Spec)
  /-- ENEG: Negates a long float at the result length. (R253) -/
  | eneg (d a : Spec)
  /-- EABS: Absolute value of a long float at the result length. (R253) -/
  | eabs (d a : Spec)
  /-- ECMP: Compares two long floats and writes a predicate. (R255) -/
  | ecmp (c p : BitVec 3) (a b : Spec)
  /-- ERND: Rounds a long float to an integral value. (R256) -/
  | ernd (d a : Spec)
  /-- ECVTE: Converts an IEEE value to a long float. (R257) -/
  | ecvte (d a s : BitVec 6)
  /-- ECVTF: Converts a long float to an IEEE value. (R257) -/
  | ecvtf (d a s : BitVec 6)
  /-- ECVTI: Converts a long float to a 64-bit integer. (R257) -/
  | ecvti (d a s : BitVec 6)
  /-- ECVTL: Converts a 64-bit integer to a long float. (R257) -/
  | ecvtl (d a s : BitVec 6)
  /-- EMOV: Moves a long float, rounding to the result length. (R253) -/
  | emov (d a : Spec)
  /-- ECLASS: Writes the class and length code of a long float. (R258) -/
  | eclass (d a : Spec)
  /-- PRECSET: Sets the result length code and guard of PREC. (R17) -/
  | precset (a : Spec)
  /-- ELD: Loads a long-float element into e-slots. (R259) -/
  | eld (d a : Spec) (i : BitVec 14)
  /-- EST: Stores a long-float element from e-slots. (R259) -/
  | est (d a : Spec) (i : BitVec 14)
  /-- ELDS: Loads a long float and steps the base by a stride. (R260) -/
  | elds (d a b : Spec)
  /-- ESTS: Stores a long float and steps the base by a stride. (R260) -/
  | ests (d a b : Spec)
  /-- VADD: Elementwise vector addition. (R265) -/
  | vadd (d a b : Spec) (t : BitVec 2)
  /-- VSUB: Elementwise vector subtraction. (R265) -/
  | vsub (d a b : Spec) (t : BitVec 2)
  /-- VMUL: Elementwise vector multiplication. (R265) -/
  | vmul (d a b : Spec) (t : BitVec 2)
  /-- VFMA: Elementwise fused multiply-add. (R265) -/
  | vfma (d a b : Spec) (t : BitVec 2)
  /-- VMIN: Elementwise minimum. (R265) -/
  | vmin (d a b : Spec) (t : BitVec 2)
  /-- VMAX: Elementwise maximum. (R265) -/
  | vmax (d a b : Spec) (t : BitVec 2)
  /-- VAND: Elementwise bitwise AND on i32. (R265) -/
  | vand (d a b : Spec)
  /-- VOR: Elementwise bitwise OR on i32. (R265) -/
  | vor (d a b : Spec)
  /-- VXOR: Elementwise bitwise XOR on i32. (R265) -/
  | vxor (d a b : Spec)
  /-- VSHL: Elementwise left shift on i32. (R265) -/
  | vshl (d a b : Spec)
  /-- VSHR: Elementwise logical right shift on i32. (R265) -/
  | vshr (d a b : Spec)
  /-- VSAR: Elementwise arithmetic right shift on i32. (R265) -/
  | vsar (d a b : Spec)
  /-- VEQ: Elementwise equality mask. (R266) -/
  | veq (d a b : Spec) (t : BitVec 2)
  /-- VLT: Elementwise less-than mask. (R266) -/
  | vlt (d a b : Spec) (t : BitVec 2)
  /-- VLE: Elementwise less-or-equal mask. (R266) -/
  | vle (d a b : Spec) (t : BitVec 2)
  /-- VSEL: Selects elements of a or b by the top bit of d. (R266) -/
  | vsel (d a b : Spec) (t : BitVec 2)
  /-- VRED: Reduces the elements of a by a fixed tree into a scalar. (R267) -/
  | vred (d a o : BitVec 6) (t : BitVec 2)
  /-- VSHUF: Permutes elements of a by indices in b. (R268) -/
  | vshuf (d a b : Spec) (t : BitVec 2)
  /-- VBCAST: Broadcasts a scalar into every element. (R268) -/
  | vbcast (d a : Spec) (t : BitVec 2)
  /-- VEXT: Extracts element j of a into a scalar. (R268) -/
  | vext (d a b : Spec) (t : BitVec 2)
  /-- VSACC: Lane scale-and-accumulate of i32 partial sums into binary32. (R269) -/
  | vsacc (d a b : Spec)
  /-- VLD: Contiguous vector load. (R270) -/
  | vld (d a : Spec) (n : BitVec 4)
  /-- VST: Contiguous vector store, held privately. (R270) -/
  | vst (d a : Spec) (n : BitVec 4)
  /-- VLDS: Strided vector load. (R270) -/
  | vlds (d a b : Spec) (n : BitVec 4)
  /-- VSTS: Strided vector store. (R270) -/
  | vsts (d a b : Spec) (n : BitVec 4)
  /-- VGATH: Vector gather by signed offsets. (R270) -/
  | vgath (d a b : Spec) (n : BitVec 4)
  /-- VSCAT: Vector scatter by signed offsets. (R270) -/
  | vscat (d a b : Spec) (n : BitVec 4)
  /-- VAMO: Applies one 32-bit atomic per lane in ascending order, resumable from VDONE. (R273) -/
  | vamo (d a b : Spec) (o : BitVec 4)
  /-- VCVT: Converts each lane by selector. (R275) -/
  | vcvt (d a s : BitVec 6)
  /-- VQNT: Quantises each lane by a shift to a narrow code. (R276) -/
  | vqnt (d a s : BitVec 6)
  /-- VDQ: Dequantises each lane's code to binary32. (R276) -/
  | vdq (d a s : BitVec 6)
  /-- VSTAT: Adds lane statistics into a statistics block. (R277) -/
  | vstat (d a b : Spec)
  /-- VEXP2: Correctly rounded 2^x per lane. (R278) -/
  | vexp2 (d a : Spec)
  /-- VLOG2: Correctly rounded log2 per lane. (R278) -/
  | vlog2 (d a : Spec)
  /-- VRCP: Correctly rounded reciprocal per lane. (R278) -/
  | vrcp (d a : Spec)
  /-- VRSQ: Correctly rounded reciprocal square root per lane. (R278) -/
  | vrsq (d a : Spec)
  /-- VTANH: Correctly rounded tanh per lane. (R278) -/
  | vtanh (d a : Spec)
  /-- LCLAIM: Claims lanes from the cluster pool and sets VLEN. (R140) -/
  | lclaim (d a : Spec)
  /-- MXMODE: Sets the matrix mode word and clears B, descriptors, halves and latches. (R289) -/
  | mxmode (a : Spec)
  /-- MXZP: Loads the group descriptors. (R290) -/
  | mxzp (a : Spec)
  /-- MXWLD: Loads the resident B cells, dense or sparse. (R291) -/
  | mxwld (s : BitVec 1) (a : Spec)
  /-- MXFEED: Fills a row-buffer half with 32 A rows. (R292) -/
  | mxfeed (h : BitVec 1) (a b : Spec)
  /-- MXRUN: Starts a matrix run on a half that replaces the latches. (R293) -/
  | mxrun (s h : BitVec 1)
  /-- MXUPROG: Loads the recurrence microprogram. (R297) -/
  | mxuprog (a : Spec)
  /-- MXREC: Starts a recurrence run on a half. (R298) -/
  | mxrec (h : BitVec 1)
  /-- MXSACC: Scale-and-accumulates a column group into a tile. (R294) -/
  | mxsacc (t : BitVec 3) (a b : Spec)
  /-- MXDRAIN: Writes a tile or raw partial sums to memory. (R295) -/
  | mxdrain (d a b : Spec)
  /-- MXSAVE: Writes the MX image to memory. (R300) -/
  | mxsave (a : Spec)
  /-- MXREST: Restores MX state from an image. (R300) -/
  | mxrest (a : Spec)
  /-- MXSTAT: Waits for no run and writes MXSTATE. (R296) -/
  | mxstat (d : Spec)
  /-- PHASE: A boundary at the given scope. (R303) -/
  | phase (s : BitVec 2)
  /-- CTRADD: Adds an amount to a counter at its home, saturating. (R97) -/
  | ctradd (a b : Spec) (s o : BitVec 2)
  /-- CTRWAIT: Waits until a counter reaches a target, a yield point. (R98) -/
  | ctrwait (a b : Spec) (s o : BitVec 2)
  /-- CTRRD: Reads a counter value and saturation flag. (R304) -/
  | ctrrd (d a : Spec) (p : BitVec 3) (s o : BitVec 2)
  /-- TRPUSH: Pushes an entry into a trough with release. (R305) -/
  | trpush (d a b : Spec) (s o : BitVec 2)
  /-- TRPOP: Pops an entry from a trough with acquire. (R305) -/
  | trpop (d a b : Spec) (s o : BitVec 2)
  /-- TRSTAT: Reads a trough's counters or flags. (R306) -/
  | trstat (d a b : Spec) (s : BitVec 2)
  /-- AADD: Atomic add at the word's home, returning the old word. (R307) -/
  | aadd (d a b : Spec) (s : BitVec 2) (z : BitVec 1)
  /-- AMIN: Atomic signed minimum. (R307) -/
  | amin (d a b : Spec) (s : BitVec 2) (z : BitVec 1)
  /-- AMAX: Atomic signed maximum. (R307) -/
  | amax (d a b : Spec) (s : BitVec 2) (z : BitVec 1)
  /-- AMINZ: Atomic unsigned minimum. (R307) -/
  | aminz (d a b : Spec) (s : BitVec 2) (z : BitVec 1)
  /-- AMAXZ: Atomic unsigned maximum. (R307) -/
  | amaxz (d a b : Spec) (s : BitVec 2) (z : BitVec 1)
  /-- AAND: Atomic bitwise AND. (R307) -/
  | aand (d a b : Spec) (s : BitVec 2) (z : BitVec 1)
  /-- AOR: Atomic bitwise OR. (R307) -/
  | aor (d a b : Spec) (s : BitVec 2) (z : BitVec 1)
  /-- AXOR: Atomic bitwise XOR. (R307) -/
  | axor (d a b : Spec) (s : BitVec 2) (z : BitVec 1)
  /-- ASWAP: Atomic swap. (R307) -/
  | aswap (d a b : Spec) (s : BitVec 2) (z : BitVec 1)
  /-- AFADD: Atomic binary32 add rounded under RNE at the home. (R307) -/
  | afadd (d a b : Spec) (s : BitVec 2)
  /-- ACAS: Atomic compare-and-swap against d. (R307) -/
  | acas (d a b : Spec) (s : BitVec 2) (z : BitVec 1)
  /-- UFLOAD: Loads a configured update function into a slot of a set of update units. (R309) -/
  | ufload (d a b : Spec) (s : BitVec 2) (z : BitVec 1)
  /-- UPD: Applies a configured update function to a word at its home. (R310) -/
  | upd (d a b : Spec) (s : BitVec 2) (z : BitVec 1)
  /-- CPY: Forks a copy engine operation copying b bytes from a to d. (R313) -/
  | cpy (d a b c : BitVec 6)
  /-- CPY2D: Forks a two-dimensional copy from a command block. (R315) -/
  | cpy2d (a c : BitVec 6)
  /-- CPYM: Forks a multicast copy into scratchpads of the quadrant. (R315) -/
  | cpym (a c : BitVec 6)
  /-- CPYX: Forks a checked copy keeping CRC-32C running values. (R316) -/
  | cpyx (a c : BitVec 6)
  /-- GATH: Forks a gather of indexed elements. (R315) -/
  | gath (a c : BitVec 6)
  /-- IORD: Forks an I/O engine storage or network read. (R320) -/
  | iord (a c : BitVec 6)
  /-- IOWR: Forks an I/O engine storage or network write. (R320) -/
  | iowr (a c : BitVec 6)
  /-- WSLOAD: Forks a load of the eDRAM weight store. (R321) -/
  | wsload (a c : BitVec 6)
  /-- TAGWAITANY: Waits until any masked tag is set, joining its operations. (R326) -/
  | tagwaitany (a : Spec)
  /-- TAGWAITALL: Waits until all masked tags are set, joining their operations. (R326) -/
  | tagwaitall (a : Spec)
  /-- TAGFF: Finds, clears and reports the lowest set masked tag. (R326) -/
  | tagff (d a : Spec)
  /-- TAGCLR: Clears masked tag bits. (R326) -/
  | tagclr (a : Spec)
  /-- SEND: Sends a packet of memory words to a route descriptor. (R329) -/
  | send (d a b : Spec) (n c : BitVec 1)
  /-- SENDV: Sends a packet from vector lanes. (R329) -/
  | sendv (d a : Spec) (n c : BitVec 1)
  /-- BIND: Binds a channel of the core to a route tag, entry and priority. (R331) -/
  | bind (n a b : Spec) (p : BitVec 1)
  /-- UNBIND: Drops a channel binding of the task's instance. (R331) -/
  | unbind (n : Spec)
  /-- CHLEN: Reads the unread byte count of the channel's packet. (R332) -/
  | chlen (d n : Spec)
  /-- CHSKIP: Discards bytes of the channel's packet. (R332) -/
  | chskip (n b : Spec)
  /-- MIGRATE: Moves the task to another lane core after a boundary. (R113) -/
  | migrate (a : Spec)
  /-- LPATCH: Writes RW fields of a disarmed launch record. (R335) -/
  | lpatch (d a b : Spec)
  /-- LARM: Arms a launch record, creating an instance. (R149) -/
  | larm (d a : Spec)
  /-- LCANCEL: Cancels WAITING and READY instances of a record. (R153) -/
  | lcancel (d a : Spec)
  /-- LSTAT: Reads a launch record's state. (R337) -/
  | lstat (d a : Spec)
  /-- FPBIND: Binds or unbinds a field port at the graft engine. (R347) -/
  | fpbind (a c : BitVec 6)
  /-- FPSEND: Contributes a snapshot to a port's open window. (R348) -/
  | fpsend (a c : BitVec 6)
  /-- FPTAKE: Delivers a closed window remapped in a chosen form. (R349) -/
  | fptake (a c : BitVec 6)
  /-- FPSTAT: Reads a port's counters into its record. (R350) -/
  | fpstat (a c : BitVec 6)
  /-- GADD: Adds one G-block into another. (R365) -/
  | gadd (d a b : Spec)
  /-- GSCHUR: Eliminates variables of a G-block by Schur complement. (R366) -/
  | gschur (d a b : Spec)
  /-- GDAMP: Damps a message record into an old block. (R368) -/
  | gdamp (d a : Spec)
  /-- GRES: Writes the largest elementwise difference of two blocks. (R369) -/
  | gres (d a b : Spec)
  /-- GMEAN: Solves a G-block for its mean vector. (R370) -/
  | gmean (d a : Spec)
  /-- GSEND: Sends a G-block as a message record with release. (R371) -/
  | gsend (d a b : Spec)
  /-- GPOP: Appends a channel record to or takes the oldest entry from a node mailbox. (R372) -/
  | gpop (d a b : Spec)
  /-- HIMM: Pending hint widening the next immediate. (R196) -/
  | himm (p : BitVec 22)
  /-- HLIVE: Pending hint declaring register liveness. (R132) -/
  | hlive (p : BitVec 22)
  /-- HNT: Pending hint giving a line placement policy. (R195) -/
  | hnt (p : BitVec 2)
  /-- HPRED: Pending hint guarding the next instruction on a predicate. (R10) -/
  | hpred (s : BitVec 1) (p : BitVec 3)
  /-- HORD: Pending hint giving ordering and key to SEND or an AMO. (R195) -/
  | hord (o : BitVec 2) (k : BitVec 16)
  /-- HPRI: Pending hint giving a priority class to SEND or LARM. (R195) -/
  | hpri (c : BitVec 2)
  /-- HINT_RESERVED: Hint of kind 6-15 acting as a no-op. (R195) -/
  | hintReserved (k : BitVec 4) (p : BitVec 22)
  /-- PREEMPT_SAVE_DONE: After load replies arrive, contexts and MX image are saved and the counter added. (R382) -/
  | preemptSaveDone (rec : BitVec 14) (gen : BitVec 16) (ctrpa : W64)
  /-- REGISTER_WRITE: Write to a register or control-space word with no behaviour of its own. (R237) -/
  | registerWrite (target : RegTarget) (val : W64)
  /-- MEMBERSHIP_KEY_WRITE: Sets one or two job keys of a link's membership table. (R405) -/
  | membershipKeyWrite (link : BitVec 4) (index : BitVec 10) (wide : BitVec 1) (val : W64)
  /-- WC_ENTRY_TIMEOUT: A write-combining entry reaches WCWAIT and closes by read-modify-write. (R68) -/
  | wcEntryTimeout (sector : BitVec 52)
  /-- RETRY_REPEAT: A refused waiting access is repeated 1024 cycles later as a new arrival. (R78) -/
  | retryRepeat (task : Nat)
  /-- LOAD_REPLY: A load reply arrives and clears the pending register. (R216) -/
  | loadReply (task : Nat) (reg : Spec)
  /-- TASK_WAKE: A WAITING task whose condition holds becomes READY. (R160) -/
  | taskWake (task : Nat)
  /-- TASK_CHOSEN: A lane core chooses a READY task, loading its window if needed. (R135) -/
  | taskChosen (core : CoreId)
  /-- DISPATCH_SLOT: Per-cycle dispatch slot choosing a class and dispatching one unit. (R156) -/
  | dispatchSlot (die : BitVec 2)
  /-- MX_RUN_END: A matrix run completes its 32 rows and sets LV. (R293) -/
  | mxRunEnd (task : Nat)
  /-- MX_REC_END: A recurrence run completes and ORs its flags. (R298) -/
  | mxRecEnd (task : Nat)
  /-- ENGINE_OPERATION_START: An engine takes a message from its inbox and starts work. (R155) -/
  | engineOperationStart (op : Nat)
  /-- ENGINE_COMPLETION: An engine operation writes its record, sets its tag and adds its counter. (R322) -/
  | engineCompletion (op : Nat) (peer : BitVec 16)
  /-- GRAFT_HELD_RESUME: A held FPSEND or FPTAKE resumes when a window frees or closes. (R351) -/
  | graftHeldResume (op : Nat)
  /-- CHANNEL_PACKET_ARRIVAL: A packet reaches a core's channel queue or is discarded if unbound. (R137) -/
  | channelPacketArrival (send : Nat)
  /-- ACTIVATION_START: A queued packet starts a handler activation after the previous one ends. (R138) -/
  | activationStart (core : CoreId) (chan : BitVec 4)
  /-- FLIT_RECEIVE: A flit arrives and is checked, reassembled or discarded with NAK. (R394) -/
  | flitReceive (link : BitVec 4) (flit : Flit)
  /-- FLIT_SLOT: A link sender chooses a K, U or B flit for a slot. (R400) -/
  | flitSlot (link : BitVec 4)
  /-- FABRIC_MSG: MSG packet delivered to a target core's channel. (R397) -/
  | fabricMsg (link : Ingress) (pkt : Packet)
  /-- FABRIC_WRITE: WRITE packet translated and performed at the ingress. (R406) -/
  | fabricWrite (link : BitVec 4) (pkt : Packet)
  /-- FABRIC_READ: READ packet translated and performed at the ingress. (R406) -/
  | fabricRead (link : BitVec 4) (pkt : Packet)
  /-- FABRIC_DATA: DATA reply ending a read at its source. (R398) -/
  | fabricData (link : BitVec 4) (pkt : Packet)
  /-- FABRIC_DONE: DONE reply ending a request at its source with a status. (R398) -/
  | fabricDone (link : BitVec 4) (pkt : Packet)
  /-- PAGE_COMMAND_COMPLETION: A page command finishes zeroing every page of its span and adds its counter with release at system scope. (R72) -/
  | pageCommandCompletion (ctrpa : W64)
  /-- COMMAND_STAGING_WRITE: Writes doublewords 0-2 of a 32-byte command into the writer's staging buffer. (R48) -/
  | commandStagingWrite (w : Writer) (die : BitVec 2) (slot : CmdSlot) (dw : BitVec 2) (val : W64)
  /-- INVALIDATE_PAGES: Invalidation command KIND 0 dropping page translations in a VA span. (R49) -/
  | invalidatePages (asid : BitVec 16) (vabase valen ctrpa : W64)
  /-- INVALIDATE_ASID_PAGES: Invalidation command KIND 1 dropping all pages of an ASID. (R49) -/
  | invalidateAsidPages (asid : BitVec 16) (ctrpa : W64)
  /-- INVALIDATE_ASID_RANGES: Invalidation command KIND 2 dropping range entries of an ASID. (R49) -/
  | invalidateAsidRanges (asid : BitVec 16) (ctrpa : W64)
  /-- INVALIDATE_ASID_ALL: Invalidation command KIND 3 dropping everything of an ASID. (R49) -/
  | invalidateAsidAll (asid : BitVec 16) (ctrpa : W64)
  /-- INVALIDATE_ALL: Invalidation command KIND 4 dropping everything of every ASID. (R49) -/
  | invalidateAll (ctrpa : W64)
  /-- SET_FORMAT_AND_OWNER: Page command KIND 0 zeroing changed pages and recording format and owner. (R72) -/
  | setFormatAndOwner (lay : BitVec 1) (cmp : BitVec 2) (owner : BitVec 16) (pabase palen ctrpa : W64)
  /-- ZERO_ONLY: Page command KIND 1 zeroing every page of the span. (R72) -/
  | zeroOnly (pabase palen ctrpa : W64)
  /-- PRE_EMPT: Pre-emption command stopping every task of an instance. (R382) -/
  | preEmpt (rec : BitVec 14) (gen : BitVec 16) (ctrpa : W64)
  /-- RESUME: Pre-emption command making saved tasks READY and restoring state. (R383) -/
  | resume (rec : BitVec 14) (gen : BitVec 16) (ctrpa : W64)
  /-- LAUNCH_CMD_ARM: Host launch command arming a record as LARM. (R435) -/
  | launchCmdArm (pv : BitVec 1) (pcls : BitVec 2) (rec : BitVec 14) (statpa ctrpa : W64)
  /-- LAUNCH_CMD_CANCEL: Host launch command cancelling as LCANCEL. (R435) -/
  | launchCmdCancel (rec : BitVec 14) (statpa ctrpa : W64)
  /-- LAUNCH_CMD_STATE: Host launch command reading state as LSTAT. (R435) -/
  | launchCmdState (rec : BitVec 14) (statpa ctrpa : W64)
  /-- ATTESTATION_COMMAND: Writes a signed attestation report and adds its counter. (R419) -/
  | attestationCommand (noncepa reppa ctrpa : W64)
  /-- HOST_MEM_READ: Host CXL.mem read served at the home slice. (R118) -/
  | hostMemRead (pa : BitVec 52) (n : BitVec 16)
  /-- HOST_MEM_WRITE: Host CXL.mem write settled at system scope. (R118) -/
  | hostMemWrite (pa : BitVec 52) (data : List Byte)
  /-- LAUNCH_RECORD_HOST_WRITE: Host write of a launch record doubleword, ignored while LIVE is nonzero. (R142) -/
  | launchRecordHostWrite (rec : BitVec 14) (dw : BitVec 6) (val : W64)
  /-- WSREFSET: Write of WSREF pausing the refresh schedule by the SHIFT change. (R61) -/
  | wsrefset (val : W64)
  /-- EBUDGET_WRITE: Write of EBUDGET that starts a new energy window. (R158) -/
  | ebudgetWrite (val : W64)
  /-- SUPV_WRITE: Write of SUPV checked for management ASID and core. (R165) -/
  | supvWrite (val : W64)
  /-- RMODE_WRITE: Write of RMODE refusing modes 5-7. (R165) -/
  | rmodeWrite (val : W64)
  /-- CFLAGS_CLEAR: W1C write clearing cluster flags. (R168) -/
  | cflagsClear (val : W64)
  /-- ERRINJ_WRITE: Arms a one-time bit flip in a later copy. (R317) -/
  | errinjWrite (val : W64)
  /-- EGDEPTH_WRITE: Sets per-network send depths, refusing values outside 1-8. (R330) -/
  | egdepthWrite (val : W64)
  /-- RILAH_ID_WRITE: Host writes the device's Rilah identifier. (R389) -/
  | rilahIdWrite (die : BitVec 2) (val : W64)
  /-- LCTL_WRITE: Writes UBUDGET and ENC of a link control register. (R409) -/
  | lctlWrite (link : BitVec 4) (val : W64)
  /-- SWREQ: Requests a key switch at the next frame boundary. (R410) -/
  | swreq (link : BitVec 4)
  /-- KEY_SLOT_WRITE: Loads a key or salt of a link slot, ignored for the sending slot. (R409) -/
  | keySlotWrite (link : BitVec 4) (off : BitVec 8) (val : W64)
  /-- WS_REFRESH: Refresh schedule position moves a bank group into or out of refresh. (R60) -/
  | wsRefresh (die : BitVec 2) (cycles : BitVec 32)
  /-- PAGE_WALK: A walk engine walks tables for a miss and delivers the outcome to joined accesses. (R42) -/
  | pageWalk (die : BitVec 2) (asid : BitVec 16) (va : W64)
  /-- TLB_MISS_RETRY: A core retries a lookup when the miss queue was full. (R42) -/
  | tlbMissRetry (core : CoreId) (asid : BitVec 16) (va : W64)
  /-- FORWARDED_REPLY: Old core forwards a load reply to the migrated task's new core. (R114) -/
  | forwardedReply (task : Nat) (reg : Spec)
  /-- EVENT_SAMPLE: Per-µs sampling of an instance's event source, firing it at the threshold. (R156) -/
  | eventSample (rec : BitVec 14) (gen : BitVec 16) (value : W64)
  /-- ENERGY_WINDOW: A new energy window starts every WIN µs, lifting deferral. (R158) -/
  | energyWindow (die : BitVec 2)
  /-- SENSOR_UPDATE: Die updates ENERGY and temperature mirrors at least once per µs. (R421) -/
  | sensorUpdate (die : BitVec 2) (energy : BitVec 32) (temp : BitVec 16)
  /-- THERMAL_TRIP: Temperature reaches 115 °C and the paddock stops dispatching. (R422) -/
  | thermalTrip (die : BitVec 2)
  /-- THERMAL_RECOVER: Temperature falls below 105 °C and dispatch resumes. (R422) -/
  | thermalRecover (die : BitVec 2)
  /-- CLUSTER_FAILURE: An uncorrectable core-side error takes a cluster offline. (R388) -/
  | clusterFailure (die : BitVec 2) (clu : BitVec 6)
  /-- IDLE_FLIT: K flit IDLE. (R394) -/
  | idleFlit (link : BitVec 4)
  /-- XOFF: K flit stopping a class and network at the sender. (R399) -/
  | xoff (link : BitVec 4) (cls net : BitVec 2)
  /-- XON: K flit allowing a class and network again. (R399) -/
  | xon (link : BitVec 4) (cls net : BitVec 2)
  /-- NAK: K flit causing replay from the named LSEQ. (R394) -/
  | nak (link : BitVec 4) (lseq : BitVec 12)
  /-- ACK: K flit acknowledging in-order flits and kept answers. (R394) -/
  | ack (link : BitVec 4) (lseq : BitVec 12)
  /-- TAG_FLIT: K flit closing an encrypted frame and verifying its GCM tag. (R412) -/
  | tagFlit (link : BitVec 4) (tag : BitVec 128) (ctr : W64)
  /-- E2E_RETRY_TIMEOUT: An unanswered request is sent again after 64 µs, or ends REMOTE after 8 sends. (R403) -/
  | e2eRetryTimeout (dev : BitVec 16) (pid : BitVec 32)
  /-- LINK_TRAIN_TIMEOUT: A link not trained within 20 µs becomes down. (R394) -/
  | linkTrainTimeout (link : BitVec 4)
  /-- LINK_DOWN: A link goes down and discards partial packets and held flits. (R404) -/
  | linkDown (link : BitVec 4)
  /-- LINK_UP: A link completes training. (R409) -/
  | linkUp (link : BitVec 4)
  /-- HOME_ACKNOWLEDGEMENT: A home acknowledges a published store transaction or a home-performed operation, lowering USC and letting the next home operation issue. (R91) -/
  | homeAcknowledgement (task : Nat)
  /-- RET: Returns to the caller's window, or ends the task at depth 0. (R231) -/
  | ret
  /-- DONE: Ends the task with a system-scope boundary. (R233) -/
  | done
  /-- YIELD: Moves the task to READY behind the cluster's ready tasks. (R134) -/
  | yield
  /-- NOP: Does nothing. (R233) -/
  | nop
  /-- ERET: Leaves a trap handler, restoring pending hints and resuming at TEPC. (R235) -/
  | eret
  /-- IDLE: Acts as NOP and may pause issue for up to 16 cycles. (R233) -/
  | idle
  /-- LRELEASE: Returns every held lane zeroed and sets VLEN to 0. (R264) -/
  | lrelease
  /-- RETRY: BOOTST write verifying the recovery window's image. (R417) -/
  | retry
  /-- DEVICE_RESET: Reset: boot ROM checks the firmware image in order. (R417) -/
  | deviceReset
  /-- STAGE_READY: Boot firmware finishes its steps and sets BOOTST.STAGE to 3, after which the paddock may dispatch. (R418) -/
  | stageReady
  deriving DecidableEq, Repr

end Sys2Proof
end

