-- ==== Sys2Proof/WellFormed.lean ====
section
/-! DEFINITION. Which terms are instructions: the values of sub-fields that R195 and R203 assign, and the
ranges of the events' arguments (14 links, ten cores, a flit's 32 payload bytes). -/

namespace Sys2Proof

/-- Whether every sub-field holds an assigned value (R195, R203) and every event argument is in range. -/
def wellFormed : Instr → Bool
  | .add _ _ _ => true
  | .sub _ _ _ => true
  | .and _ _ _ => true
  | .or _ _ _ => true
  | .xor _ _ _ => true
  | .andn _ _ _ => true
  | .orn _ _ _ => true
  | .shl _ _ _ => true
  | .shr _ _ _ => true
  | .sar _ _ _ => true
  | .rol _ _ _ => true
  | .mul _ _ _ => true
  | .mulh _ _ _ => true
  | .mulhz _ _ _ => true
  | .div _ _ _ => true
  | .divz _ _ _ => true
  | .rem _ _ _ => true
  | .remz _ _ _ => true
  | .min _ _ _ => true
  | .max _ _ _ => true
  | .minz _ _ _ => true
  | .maxz _ _ _ => true
  | .clz _ _ => true
  | .ctz _ _ => true
  | .popc _ _ => true
  | .brev _ _ => true
  | .bswap _ _ => true
  | .ext _ _ _ => true
  | .ins _ _ _ => true
  | .crc _ _ _ => true
  | .sel _ _ _ _ => true
  | .addi _ _ _ => true
  | .andi _ _ _ => true
  | .ori _ _ _ => true
  | .xori _ _ _ => true
  | .shli _ _ _ => true
  | .shri _ _ _ => true
  | .sari _ _ _ => true
  | .ldi _ _ => true
  | .ldhi _ _ => true
  | .addpc _ _ => true
  | .cmp _ _ _ c => decide (c.toNat < 7)
  | .cmpi c _ _ _ => c != 7
  | .pand _ _ _ => true
  | .por _ _ _ => true
  | .pxor _ _ _ => true
  | .pnot _ _ => true
  | .psave _ => true
  | .pload _ => true
  | .bp _ _ _ => true
  | .bz _ _ => true
  | .bnz _ _ => true
  | .j _ => true
  | .call _ => true
  | .jr _ => true
  | .callr _ => true
  | .ret => true
  | .done => true
  | .yield => true
  | .nop => true
  | .trap _ => true
  | .eret => true
  | .brk _ => true
  | .idle => true
  | .crd _ _ => true
  | .cwr _ _ => true
  | .ld _ _ _ _ => true
  | .ldz _ _ z _ => z != 3
  | .st _ _ _ _ => true
  | .ldx _ _ _ _ _ => true
  | .ldzx _ _ _ z _ => z != 3
  | .stx _ _ _ _ _ => true
  | .ldfe _ _ _ m => m == 0 || m == 1 || m == 3
  | .stfe _ _ _ m => m == 0 || m == 2 || m == 4
  | .pref _ i => decide (i.toNat < 2)
  | .fadd _ _ _ _ => true
  | .fsub _ _ _ _ => true
  | .fmul _ _ _ _ => true
  | .fdiv _ _ _ _ => true
  | .fsqrt _ _ _ => true
  | .fma _ _ _ _ => true
  | .fms _ _ _ _ => true
  | .fnma _ _ _ _ => true
  | .fmin _ _ _ _ => true
  | .fmax _ _ _ _ => true
  | .feq _ _ _ _ => true
  | .flt _ _ _ _ => true
  | .fle _ _ _ _ => true
  | .fun _ _ _ _ => true
  | .fclass _ _ _ => true
  | .fsgnj _ _ _ _ => true
  | .fsgnjn _ _ _ _ => true
  | .fsgnjx _ _ _ _ => true
  | .fcvt _ _ s _ => decide (s.toNat < 12)
  | .eadd _ _ _ => true
  | .esub _ _ _ => true
  | .emul _ _ _ => true
  | .ediv _ _ _ => true
  | .esqrt _ _ => true
  | .efma _ _ _ => true
  | .eneg _ _ => true
  | .eabs _ _ => true
  | .ecmp _ _ _ _ => true
  | .ernd _ _ => true
  | .ecvte _ _ _ => true
  | .ecvtf _ _ _ => true
  | .ecvti _ _ _ => true
  | .ecvtl _ _ _ => true
  | .emov _ _ => true
  | .eclass _ _ => true
  | .precset _ => true
  | .eld _ _ _ => true
  | .est _ _ _ => true
  | .elds _ _ _ => true
  | .ests _ _ _ => true
  | .vadd _ _ _ _ => true
  | .vsub _ _ _ _ => true
  | .vmul _ _ _ _ => true
  | .vfma _ _ _ _ => true
  | .vmin _ _ _ _ => true
  | .vmax _ _ _ _ => true
  | .vand _ _ _ => true
  | .vor _ _ _ => true
  | .vxor _ _ _ => true
  | .vshl _ _ _ => true
  | .vshr _ _ _ => true
  | .vsar _ _ _ => true
  | .veq _ _ _ _ => true
  | .vlt _ _ _ _ => true
  | .vle _ _ _ _ => true
  | .vsel _ _ _ _ => true
  | .vred _ _ _ _ => true
  | .vshuf _ _ _ _ => true
  | .vbcast _ _ _ => true
  | .vext _ _ _ _ => true
  | .vsacc _ _ _ => true
  | .vld _ _ n => decide (n.toNat < 3)
  | .vst _ _ n => decide (n.toNat < 3)
  | .vlds _ _ _ n => decide (n.toNat < 3)
  | .vsts _ _ _ n => decide (n.toNat < 3)
  | .vgath _ _ _ n => decide (n.toNat < 3)
  | .vscat _ _ _ n => decide (n.toNat < 3)
  | .vamo _ _ _ o => decide (o.toNat < 10)
  | .vcvt _ _ _ => true
  | .vqnt _ _ _ => true
  | .vdq _ _ _ => true
  | .vstat _ _ _ => true
  | .vexp2 _ _ => true
  | .vlog2 _ _ => true
  | .vrcp _ _ => true
  | .vrsq _ _ => true
  | .vtanh _ _ => true
  | .lclaim _ _ => true
  | .lrelease => true
  | .mxmode _ => true
  | .mxzp _ => true
  | .mxwld _ _ => true
  | .mxfeed _ _ _ => true
  | .mxrun _ _ => true
  | .mxuprog _ => true
  | .mxrec _ => true
  | .mxsacc _ _ _ => true
  | .mxdrain d _ _ => decide (d.toNat / 16 ≠ 1)
  | .mxsave _ => true
  | .mxrest _ => true
  | .mxstat _ => true
  | .phase _ => true
  | .ctradd _ _ _ _ => true
  | .ctrwait _ _ _ _ => true
  | .ctrrd _ _ _ _ _ => true
  | .trpush _ _ _ _ _ => true
  | .trpop _ _ _ _ _ => true
  | .trstat _ _ _ _ => true
  | .aadd _ _ _ _ _ => true
  | .amin _ _ _ _ _ => true
  | .amax _ _ _ _ _ => true
  | .aminz _ _ _ _ _ => true
  | .amaxz _ _ _ _ _ => true
  | .aand _ _ _ _ _ => true
  | .aor _ _ _ _ _ => true
  | .axor _ _ _ _ _ => true
  | .aswap _ _ _ _ _ => true
  | .afadd _ _ _ _ => true
  | .acas _ _ _ _ _ => true
  | .ufload _ _ _ _ _ => true
  | .upd _ _ _ _ _ => true
  | .cpy _ _ _ _ => true
  | .cpy2d _ _ => true
  | .cpym _ _ => true
  | .cpyx _ _ => true
  | .gath _ _ => true
  | .iord _ _ => true
  | .iowr _ _ => true
  | .wsload _ _ => true
  | .tagwaitany _ => true
  | .tagwaitall _ => true
  | .tagff _ _ => true
  | .tagclr _ => true
  | .send _ _ _ _ _ => true
  | .sendv _ _ _ _ => true
  | .bind _ _ _ _ => true
  | .unbind _ => true
  | .chlen _ _ => true
  | .chskip _ _ => true
  | .migrate _ => true
  | .lpatch _ _ _ => true
  | .larm _ _ => true
  | .lcancel _ _ => true
  | .lstat _ _ => true
  | .fpbind _ _ => true
  | .fpsend _ _ => true
  | .fptake _ _ => true
  | .fpstat _ _ => true
  | .gadd _ _ _ => true
  | .gschur _ _ _ => true
  | .gdamp _ _ => true
  | .gres _ _ _ => true
  | .gmean _ _ => true
  | .gsend _ _ _ => true
  | .gpop _ _ _ => true
  | .himm _ => true
  | .hlive _ => true
  | .hnt p => p != 3
  | .hpred _ _ => true
  | .hord _ _ => true
  | .hpri _ => true
  | .hintReserved k _ => decide (6 ≤ k.toNat)
  | .commandStagingWrite _ _ _ dw _ => dw != 3
  | .invalidatePages _ _ _ _ => true
  | .invalidateAsidPages _ _ => true
  | .invalidateAsidRanges _ _ => true
  | .invalidateAsidAll _ _ => true
  | .invalidateAll _ => true
  | .setFormatAndOwner _ _ _ _ _ _ => true
  | .zeroOnly _ _ _ => true
  | .preEmpt _ _ _ => true
  | .preemptSaveDone _ _ _ => true
  | .resume _ _ _ => true
  | .launchCmdArm _ _ _ _ _ => true
  | .launchCmdCancel _ _ _ => true
  | .launchCmdState _ _ _ => true
  | .attestationCommand _ _ _ => true
  | .hostMemRead _ _ => true
  | .hostMemWrite _ data => decide (data.length ≤ 64)
  | .launchRecordHostWrite _ _ _ => true
  | .wsrefset _ => true
  | .ebudgetWrite _ => true
  | .supvWrite _ => true
  | .rmodeWrite _ => true
  | .cflagsClear _ => true
  | .errinjWrite _ => true
  | .egdepthWrite _ => true
  | .registerWrite _ _ => true
  | .rilahIdWrite _ _ => true
  | .membershipKeyWrite link _ _ _ => decide (link.toNat < 14)
  | .lctlWrite link _ => decide (link.toNat < 14)
  | .swreq link => decide (link.toNat < 14)
  | .keySlotWrite link _ _ => decide (link.toNat < 14)
  | .retry => true
  | .deviceReset => true
  | .wsRefresh _ _ => true
  | .wcEntryTimeout _ => true
  | .retryRepeat _ => true
  | .pageWalk _ _ _ => true
  | .tlbMissRetry core _ _ => decide (core.core.toNat < 10)
  | .loadReply _ _ => true
  | .forwardedReply _ _ => true
  | .taskWake _ => true
  | .taskChosen core => decide (core.core.toNat < 10)
  | .dispatchSlot _ => true
  | .eventSample _ _ _ => true
  | .energyWindow _ => true
  | .sensorUpdate _ _ _ => true
  | .thermalTrip _ => true
  | .thermalRecover _ => true
  | .mxRunEnd _ => true
  | .mxRecEnd _ => true
  | .engineOperationStart _ => true
  | .engineCompletion _ _ => true
  | .graftHeldResume _ => true
  | .channelPacketArrival _ => true
  | .activationStart core _ => decide (core.core.toNat < 10)
  | .clusterFailure _ _ => true
  | .flitReceive link flit => decide (link.toNat < 14) && decide (flit.payload.length ≤ 240)
  | .flitSlot link => decide (link.toNat < 14)
  | .idleFlit link => decide (link.toNat < 14)
  | .xoff link _ _ => decide (link.toNat < 14)
  | .xon link _ _ => decide (link.toNat < 14)
  | .nak link _ => decide (link.toNat < 14)
  | .ack link _ => decide (link.toNat < 14)
  | .tagFlit link _ _ => decide (link.toNat < 14)
  | .fabricMsg link pkt => decide (link.port.toNat < 14 ∧ (link.cls = 1 ∨ link.cls = 2) ∧ link.net.toNat < 2) &&
      decide (pkt.data.length ≤ if link.cls = 1 then 928 else 15328)
  | .fabricWrite link pkt => decide (link.toNat < 14) && decide (pkt.data.length ≤ 15328)
  | .fabricRead link pkt => decide (link.toNat < 14) && decide (pkt.data.length ≤ 15328)
  | .fabricData link pkt => decide (link.toNat < 14) && decide (pkt.data.length ≤ 15328)
  | .fabricDone link pkt => decide (link.toNat < 14) && decide (pkt.data.length ≤ 15328)
  | .e2eRetryTimeout _ _ => true
  | .linkTrainTimeout link => decide (link.toNat < 14)
  | .linkDown link => decide (link.toNat < 14)
  | .linkUp link => decide (link.toNat < 14)
  | .homeAcknowledgement _ => true
  | .pageCommandCompletion _ => true
  | .stageReady => true

/-- A well-formed instruction or event. -/
abbrev WellFormed (i : Instr) : Prop := wellFormed i = true

end Sys2Proof
end

