-- ==== Sys2Proof/Decode.lean ====
section
/-! DEFINITION. The decoder (R191, R199, R201-R203), total on every word and refusing by name, and the encoder
written from the same tables. A word is a natural number below 2^32, its bits numbered as R6 numbers them. -/

namespace Sys2Proof

/-- Why a word is no instruction: each raises the illegal-instruction trap (R199 step 1). -/
inductive Reject where
  | reservedMajor
  | unassigned
  | unusedField
  deriving DecidableEq, Repr

/-- A field of a word as a bit vector. -/
def fld (w lo len : Nat) : BitVec len := BitVec.ofNat len (bitsOf w lo len)

/-- Major 0x01, INT (R203). -/
def decodeInt (w : Nat) : Except Reject Instr :=
  if bitsOf w 0 8 = 0 then .ok (.add (fld w 20 6) (fld w 14 6) (fld w 8 6))
  else if bitsOf w 0 8 = 1 then .ok (.sub (fld w 20 6) (fld w 14 6) (fld w 8 6))
  else if bitsOf w 0 8 = 2 then .ok (.and (fld w 20 6) (fld w 14 6) (fld w 8 6))
  else if bitsOf w 0 8 = 3 then .ok (.or (fld w 20 6) (fld w 14 6) (fld w 8 6))
  else if bitsOf w 0 8 = 4 then .ok (.xor (fld w 20 6) (fld w 14 6) (fld w 8 6))
  else if bitsOf w 0 8 = 5 then .ok (.andn (fld w 20 6) (fld w 14 6) (fld w 8 6))
  else if bitsOf w 0 8 = 6 then .ok (.orn (fld w 20 6) (fld w 14 6) (fld w 8 6))
  else if bitsOf w 0 8 = 7 then .ok (.shl (fld w 20 6) (fld w 14 6) (fld w 8 6))
  else if bitsOf w 0 8 = 8 then .ok (.shr (fld w 20 6) (fld w 14 6) (fld w 8 6))
  else if bitsOf w 0 8 = 9 then .ok (.sar (fld w 20 6) (fld w 14 6) (fld w 8 6))
  else if bitsOf w 0 8 = 10 then .ok (.rol (fld w 20 6) (fld w 14 6) (fld w 8 6))
  else if bitsOf w 0 8 = 11 then .ok (.mul (fld w 20 6) (fld w 14 6) (fld w 8 6))
  else if bitsOf w 0 8 = 12 then .ok (.mulh (fld w 20 6) (fld w 14 6) (fld w 8 6))
  else if bitsOf w 0 8 = 13 then .ok (.mulhz (fld w 20 6) (fld w 14 6) (fld w 8 6))
  else if bitsOf w 0 8 = 14 then .ok (.div (fld w 20 6) (fld w 14 6) (fld w 8 6))
  else if bitsOf w 0 8 = 15 then .ok (.divz (fld w 20 6) (fld w 14 6) (fld w 8 6))
  else if bitsOf w 0 8 = 16 then .ok (.rem (fld w 20 6) (fld w 14 6) (fld w 8 6))
  else if bitsOf w 0 8 = 17 then .ok (.remz (fld w 20 6) (fld w 14 6) (fld w 8 6))
  else if bitsOf w 0 8 = 18 then .ok (.min (fld w 20 6) (fld w 14 6) (fld w 8 6))
  else if bitsOf w 0 8 = 19 then .ok (.max (fld w 20 6) (fld w 14 6) (fld w 8 6))
  else if bitsOf w 0 8 = 20 then .ok (.minz (fld w 20 6) (fld w 14 6) (fld w 8 6))
  else if bitsOf w 0 8 = 21 then .ok (.maxz (fld w 20 6) (fld w 14 6) (fld w 8 6))
  else if bitsOf w 0 8 = 22 then if bitsOf w 8 6 = 0 then .ok (.clz (fld w 20 6) (fld w 14 6)) else .error .unusedField
  else if bitsOf w 0 8 = 23 then if bitsOf w 8 6 = 0 then .ok (.ctz (fld w 20 6) (fld w 14 6)) else .error .unusedField
  else if bitsOf w 0 8 = 24 then if bitsOf w 8 6 = 0 then .ok (.popc (fld w 20 6) (fld w 14 6)) else .error .unusedField
  else if bitsOf w 0 8 = 25 then if bitsOf w 8 6 = 0 then .ok (.brev (fld w 20 6) (fld w 14 6)) else .error .unusedField
  else if bitsOf w 0 8 = 26 then if bitsOf w 8 6 = 0 then .ok (.bswap (fld w 20 6) (fld w 14 6)) else .error .unusedField
  else if bitsOf w 0 8 = 27 then .ok (.ext (fld w 20 6) (fld w 14 6) (fld w 8 6))
  else if bitsOf w 0 8 = 28 then .ok (.ins (fld w 20 6) (fld w 14 6) (fld w 8 6))
  else if bitsOf w 0 8 = 29 then .ok (.crc (fld w 20 6) (fld w 14 6) (fld w 8 6))
  else if bitsOf w 3 5 = 8 then .ok (.sel (fld w 20 6) (fld w 14 6) (fld w 8 6) (fld w 0 3))
  else .error .unassigned

/-- Major 0x02, ADDI (R203). -/
def decodeAddi (w : Nat) : Except Reject Instr :=
  .ok (.addi (fld w 20 6) (fld w 14 6) (fld w 0 14))

/-- Major 0x03, ANDI (R203). -/
def decodeAndi (w : Nat) : Except Reject Instr :=
  .ok (.andi (fld w 20 6) (fld w 14 6) (fld w 0 14))

/-- Major 0x04, ORI (R203). -/
def decodeOri (w : Nat) : Except Reject Instr :=
  .ok (.ori (fld w 20 6) (fld w 14 6) (fld w 0 14))

/-- Major 0x05, XORI (R203). -/
def decodeXori (w : Nat) : Except Reject Instr :=
  .ok (.xori (fld w 20 6) (fld w 14 6) (fld w 0 14))

/-- Major 0x06, SHI (R203). -/
def decodeShi (w : Nat) : Except Reject Instr :=
  if bitsOf w 12 2 = 0 then if bitsOf w 8 4 = 0 then if bitsOf w 6 2 = 0 then .ok (.shli (fld w 20 6) (fld w 14 6) (fld w 0 6)) else .error .unassigned else .error .unusedField
  else if bitsOf w 12 2 = 1 then if bitsOf w 8 4 = 0 then if bitsOf w 6 2 = 0 then .ok (.shri (fld w 20 6) (fld w 14 6) (fld w 0 6)) else .error .unassigned else .error .unusedField
  else if bitsOf w 12 2 = 2 then if bitsOf w 8 4 = 0 then if bitsOf w 6 2 = 0 then .ok (.sari (fld w 20 6) (fld w 14 6) (fld w 0 6)) else .error .unassigned else .error .unusedField
  else .error .unassigned

/-- Major 0x07, LDI (R203). -/
def decodeLdi (w : Nat) : Except Reject Instr :=
  .ok (.ldi (fld w 20 6) (fld w 0 20))

/-- Major 0x08, LDHI (R203). -/
def decodeLdhi (w : Nat) : Except Reject Instr :=
  .ok (.ldhi (fld w 20 6) (fld w 0 20))

/-- Major 0x09, ADDPC (R203). -/
def decodeAddpc (w : Nat) : Except Reject Instr :=
  .ok (.addpc (fld w 20 6) (fld w 0 20))

/-- Major 0x0A, CMP (R203). -/
def decodeCmp (w : Nat) : Except Reject Instr :=
  if bitsOf w 23 3 = 0 then if ((fld w 0 8).toNat < 7) then .ok (.cmp (fld w 20 3) (fld w 14 6) (fld w 8 6) (fld w 0 8)) else .error .unassigned else .error .unusedField

/-- Major 0x0B, CMPI (R203). -/
def decodeCmpi (w : Nat) : Except Reject Instr :=
  if (fld w 23 3) != 7 then .ok (.cmpi (fld w 23 3) (fld w 20 3) (fld w 14 6) (fld w 0 14)) else .error .unassigned

/-- Major 0x0C, PRED (R203). -/
def decodePred (w : Nat) : Except Reject Instr :=
  if bitsOf w 0 8 = 0 then if bitsOf w 11 3 = 0 ∧ bitsOf w 17 3 = 0 ∧ bitsOf w 23 3 = 0 then .ok (.pand (fld w 20 3) (fld w 14 3) (fld w 8 3)) else .error .unusedField
  else if bitsOf w 0 8 = 1 then if bitsOf w 11 3 = 0 ∧ bitsOf w 17 3 = 0 ∧ bitsOf w 23 3 = 0 then .ok (.por (fld w 20 3) (fld w 14 3) (fld w 8 3)) else .error .unusedField
  else if bitsOf w 0 8 = 2 then if bitsOf w 11 3 = 0 ∧ bitsOf w 17 3 = 0 ∧ bitsOf w 23 3 = 0 then .ok (.pxor (fld w 20 3) (fld w 14 3) (fld w 8 3)) else .error .unusedField
  else if bitsOf w 0 8 = 3 then if bitsOf w 8 6 = 0 ∧ bitsOf w 17 3 = 0 ∧ bitsOf w 23 3 = 0 then .ok (.pnot (fld w 20 3) (fld w 14 3)) else .error .unusedField
  else if bitsOf w 0 8 = 4 then if bitsOf w 8 12 = 0 then .ok (.psave (fld w 20 6)) else .error .unusedField
  else if bitsOf w 0 8 = 5 then if bitsOf w 8 6 = 0 ∧ bitsOf w 20 6 = 0 then .ok (.pload (fld w 14 6)) else .error .unusedField
  else .error .unassigned

/-- Major 0x0D, BP (R203). -/
def decodeBp (w : Nat) : Except Reject Instr :=
  if bitsOf w 23 2 = 0 then .ok (.bp (fld w 25 1) (fld w 20 3) (fld w 0 20)) else .error .unusedField

/-- Major 0x0E, BZ (R203). -/
def decodeBz (w : Nat) : Except Reject Instr :=
  .ok (.bz (fld w 20 6) (fld w 0 20))

/-- Major 0x0F, BNZ (R203). -/
def decodeBnz (w : Nat) : Except Reject Instr :=
  .ok (.bnz (fld w 20 6) (fld w 0 20))

/-- Major 0x10, J (R203). -/
def decodeJ (w : Nat) : Except Reject Instr :=
  .ok (.j (fld w 0 26))

/-- Major 0x11, CALL (R203). -/
def decodeCall (w : Nat) : Except Reject Instr :=
  .ok (.call (fld w 0 26))

/-- Major 0x12, CTL (R203). -/
def decodeCtl (w : Nat) : Except Reject Instr :=
  if bitsOf w 0 8 = 0 then if bitsOf w 8 6 = 0 ∧ bitsOf w 20 6 = 0 then .ok (.jr (fld w 14 6)) else .error .unusedField
  else if bitsOf w 0 8 = 1 then if bitsOf w 8 6 = 0 ∧ bitsOf w 20 6 = 0 then .ok (.callr (fld w 14 6)) else .error .unusedField
  else if bitsOf w 0 8 = 2 then if bitsOf w 8 18 = 0 then .ok .ret else .error .unusedField
  else if bitsOf w 0 8 = 3 then if bitsOf w 8 18 = 0 then .ok .done else .error .unusedField
  else if bitsOf w 0 8 = 4 then if bitsOf w 8 18 = 0 then .ok .yield else .error .unusedField
  else if bitsOf w 0 8 = 5 then if bitsOf w 8 18 = 0 then .ok .nop else .error .unusedField
  else if bitsOf w 0 8 = 6 then if bitsOf w 8 6 = 0 then .ok (.trap (fld w 14 12)) else .error .unusedField
  else if bitsOf w 0 8 = 7 then if bitsOf w 8 18 = 0 then .ok .eret else .error .unusedField
  else if bitsOf w 0 8 = 8 then if bitsOf w 8 6 = 0 then .ok (.brk (fld w 14 12)) else .error .unusedField
  else if bitsOf w 0 8 = 9 then if bitsOf w 8 18 = 0 then .ok .idle else .error .unusedField
  else .error .unassigned

/-- Major 0x13, CRD (R203). -/
def decodeCrd (w : Nat) : Except Reject Instr :=
  if bitsOf w 12 8 = 0 then .ok (.crd (fld w 20 6) (fld w 0 12)) else .error .unusedField

/-- Major 0x14, CWR (R203). -/
def decodeCwr (w : Nat) : Except Reject Instr :=
  if bitsOf w 12 8 = 0 then .ok (.cwr (fld w 20 6) (fld w 0 12)) else .error .unusedField

/-- Major 0x15, LD (R203). -/
def decodeLd (w : Nat) : Except Reject Instr :=
  .ok (.ld (fld w 20 6) (fld w 14 6) (fld w 12 2) (fld w 0 12))

/-- Major 0x16, LDZ (R203). -/
def decodeLdz (w : Nat) : Except Reject Instr :=
  if (fld w 12 2) != 3 then .ok (.ldz (fld w 20 6) (fld w 14 6) (fld w 12 2) (fld w 0 12)) else .error .unassigned

/-- Major 0x17, ST (R203). -/
def decodeSt (w : Nat) : Except Reject Instr :=
  .ok (.st (fld w 20 6) (fld w 14 6) (fld w 12 2) (fld w 0 12))

/-- Major 0x18, MEMX (R203). -/
def decodeMemx (w : Nat) : Except Reject Instr :=
  if bitsOf w 4 4 = 0 then .ok (.ldx (fld w 20 6) (fld w 14 6) (fld w 8 6) (fld w 2 2) (fld w 0 2))
  else if bitsOf w 4 4 = 1 then if (fld w 2 2) != 3 then .ok (.ldzx (fld w 20 6) (fld w 14 6) (fld w 8 6) (fld w 2 2) (fld w 0 2)) else .error .unassigned
  else if bitsOf w 4 4 = 2 then .ok (.stx (fld w 20 6) (fld w 14 6) (fld w 8 6) (fld w 2 2) (fld w 0 2))
  else if bitsOf w 4 4 = 3 then if bitsOf w 11 3 = 0 then if (fld w 0 4) == 0 || (fld w 0 4) == 1 || (fld w 0 4) == 3 then .ok (.ldfe (fld w 20 6) (fld w 14 6) (fld w 8 3) (fld w 0 4)) else .error .unassigned else .error .unusedField
  else if bitsOf w 4 4 = 4 then if bitsOf w 11 3 = 0 then if (fld w 0 4) == 0 || (fld w 0 4) == 2 || (fld w 0 4) == 4 then .ok (.stfe (fld w 20 6) (fld w 14 6) (fld w 8 3) (fld w 0 4)) else .error .unassigned else .error .unusedField
  else if bitsOf w 4 4 = 5 then if bitsOf w 8 6 = 0 ∧ bitsOf w 20 6 = 0 then if ((fld w 0 4).toNat < 2) then .ok (.pref (fld w 14 6) (fld w 0 4)) else .error .unassigned else .error .unusedField
  else .error .unassigned

/-- Major 0x19, FP (R203). -/
def decodeFp (w : Nat) : Except Reject Instr :=
  if bitsOf w 2 6 = 0 then .ok (.fadd (fld w 20 6) (fld w 14 6) (fld w 8 6) (fld w 0 2))
  else if bitsOf w 2 6 = 1 then .ok (.fsub (fld w 20 6) (fld w 14 6) (fld w 8 6) (fld w 0 2))
  else if bitsOf w 2 6 = 2 then .ok (.fmul (fld w 20 6) (fld w 14 6) (fld w 8 6) (fld w 0 2))
  else if bitsOf w 2 6 = 3 then .ok (.fdiv (fld w 20 6) (fld w 14 6) (fld w 8 6) (fld w 0 2))
  else if bitsOf w 2 6 = 4 then if bitsOf w 8 6 = 0 then .ok (.fsqrt (fld w 20 6) (fld w 14 6) (fld w 0 2)) else .error .unusedField
  else if bitsOf w 2 6 = 5 then .ok (.fma (fld w 20 6) (fld w 14 6) (fld w 8 6) (fld w 0 2))
  else if bitsOf w 2 6 = 6 then .ok (.fms (fld w 20 6) (fld w 14 6) (fld w 8 6) (fld w 0 2))
  else if bitsOf w 2 6 = 7 then .ok (.fnma (fld w 20 6) (fld w 14 6) (fld w 8 6) (fld w 0 2))
  else if bitsOf w 2 6 = 8 then .ok (.fmin (fld w 20 6) (fld w 14 6) (fld w 8 6) (fld w 0 2))
  else if bitsOf w 2 6 = 9 then .ok (.fmax (fld w 20 6) (fld w 14 6) (fld w 8 6) (fld w 0 2))
  else if bitsOf w 2 6 = 10 then if bitsOf w 23 3 = 0 then .ok (.feq (fld w 20 3) (fld w 14 6) (fld w 8 6) (fld w 0 2)) else .error .unusedField
  else if bitsOf w 2 6 = 11 then if bitsOf w 23 3 = 0 then .ok (.flt (fld w 20 3) (fld w 14 6) (fld w 8 6) (fld w 0 2)) else .error .unusedField
  else if bitsOf w 2 6 = 12 then if bitsOf w 23 3 = 0 then .ok (.fle (fld w 20 3) (fld w 14 6) (fld w 8 6) (fld w 0 2)) else .error .unusedField
  else if bitsOf w 2 6 = 13 then if bitsOf w 23 3 = 0 then .ok (.fun (fld w 20 3) (fld w 14 6) (fld w 8 6) (fld w 0 2)) else .error .unusedField
  else if bitsOf w 2 6 = 14 then if bitsOf w 8 6 = 0 then .ok (.fclass (fld w 20 6) (fld w 14 6) (fld w 0 2)) else .error .unusedField
  else if bitsOf w 2 6 = 15 then .ok (.fsgnj (fld w 20 6) (fld w 14 6) (fld w 8 6) (fld w 0 2))
  else if bitsOf w 2 6 = 16 then .ok (.fsgnjn (fld w 20 6) (fld w 14 6) (fld w 8 6) (fld w 0 2))
  else if bitsOf w 2 6 = 17 then .ok (.fsgnjx (fld w 20 6) (fld w 14 6) (fld w 8 6) (fld w 0 2))
  else if bitsOf w 2 6 = 18 then if ((fld w 8 6).toNat < 12) then .ok (.fcvt (fld w 20 6) (fld w 14 6) (fld w 8 6) (fld w 0 2)) else .error .unassigned
  else .error .unassigned

/-- Major 0x1A, LONG (R203). -/
def decodeLong (w : Nat) : Except Reject Instr :=
  if bitsOf w 0 8 = 0 then .ok (.eadd (fld w 20 6) (fld w 14 6) (fld w 8 6))
  else if bitsOf w 0 8 = 1 then .ok (.esub (fld w 20 6) (fld w 14 6) (fld w 8 6))
  else if bitsOf w 0 8 = 2 then .ok (.emul (fld w 20 6) (fld w 14 6) (fld w 8 6))
  else if bitsOf w 0 8 = 3 then .ok (.ediv (fld w 20 6) (fld w 14 6) (fld w 8 6))
  else if bitsOf w 0 8 = 4 then if bitsOf w 8 6 = 0 then .ok (.esqrt (fld w 20 6) (fld w 14 6)) else .error .unusedField
  else if bitsOf w 0 8 = 5 then .ok (.efma (fld w 20 6) (fld w 14 6) (fld w 8 6))
  else if bitsOf w 0 8 = 6 then if bitsOf w 8 6 = 0 then .ok (.eneg (fld w 20 6) (fld w 14 6)) else .error .unusedField
  else if bitsOf w 0 8 = 7 then if bitsOf w 8 6 = 0 then .ok (.eabs (fld w 20 6) (fld w 14 6)) else .error .unusedField
  else if bitsOf w 0 8 = 8 then .ok (.ecmp (fld w 23 3) (fld w 20 3) (fld w 14 6) (fld w 8 6))
  else if bitsOf w 0 8 = 9 then if bitsOf w 8 6 = 0 then .ok (.ernd (fld w 20 6) (fld w 14 6)) else .error .unusedField
  else if bitsOf w 0 8 = 10 then .ok (.ecvte (fld w 20 6) (fld w 14 6) (fld w 8 6))
  else if bitsOf w 0 8 = 11 then .ok (.ecvtf (fld w 20 6) (fld w 14 6) (fld w 8 6))
  else if bitsOf w 0 8 = 12 then .ok (.ecvti (fld w 20 6) (fld w 14 6) (fld w 8 6))
  else if bitsOf w 0 8 = 13 then .ok (.ecvtl (fld w 20 6) (fld w 14 6) (fld w 8 6))
  else if bitsOf w 0 8 = 14 then if bitsOf w 8 6 = 0 then .ok (.emov (fld w 20 6) (fld w 14 6)) else .error .unusedField
  else if bitsOf w 0 8 = 15 then if bitsOf w 8 6 = 0 then .ok (.eclass (fld w 20 6) (fld w 14 6)) else .error .unusedField
  else if bitsOf w 0 8 = 16 then if bitsOf w 8 6 = 0 ∧ bitsOf w 20 6 = 0 then .ok (.precset (fld w 14 6)) else .error .unusedField
  else .error .unassigned

/-- Major 0x1B, ELD (R203). -/
def decodeEld (w : Nat) : Except Reject Instr :=
  .ok (.eld (fld w 20 6) (fld w 14 6) (fld w 0 14))

/-- Major 0x1C, EST (R203). -/
def decodeEst (w : Nat) : Except Reject Instr :=
  .ok (.est (fld w 20 6) (fld w 14 6) (fld w 0 14))

/-- Major 0x1D, ESTR (R203). -/
def decodeEstr (w : Nat) : Except Reject Instr :=
  if bitsOf w 0 8 = 0 then .ok (.elds (fld w 20 6) (fld w 14 6) (fld w 8 6))
  else if bitsOf w 0 8 = 1 then .ok (.ests (fld w 20 6) (fld w 14 6) (fld w 8 6))
  else .error .unassigned

/-- Major 0x1E, VEC (R203). -/
def decodeVec (w : Nat) : Except Reject Instr :=
  if bitsOf w 2 6 = 0 then .ok (.vadd (fld w 20 6) (fld w 14 6) (fld w 8 6) (fld w 0 2))
  else if bitsOf w 2 6 = 1 then .ok (.vsub (fld w 20 6) (fld w 14 6) (fld w 8 6) (fld w 0 2))
  else if bitsOf w 2 6 = 2 then .ok (.vmul (fld w 20 6) (fld w 14 6) (fld w 8 6) (fld w 0 2))
  else if bitsOf w 2 6 = 3 then .ok (.vfma (fld w 20 6) (fld w 14 6) (fld w 8 6) (fld w 0 2))
  else if bitsOf w 2 6 = 4 then .ok (.vmin (fld w 20 6) (fld w 14 6) (fld w 8 6) (fld w 0 2))
  else if bitsOf w 2 6 = 5 then .ok (.vmax (fld w 20 6) (fld w 14 6) (fld w 8 6) (fld w 0 2))
  else if bitsOf w 2 6 = 6 then if bitsOf w 0 2 = 0 then .ok (.vand (fld w 20 6) (fld w 14 6) (fld w 8 6)) else .error .unassigned
  else if bitsOf w 2 6 = 7 then if bitsOf w 0 2 = 0 then .ok (.vor (fld w 20 6) (fld w 14 6) (fld w 8 6)) else .error .unassigned
  else if bitsOf w 2 6 = 8 then if bitsOf w 0 2 = 0 then .ok (.vxor (fld w 20 6) (fld w 14 6) (fld w 8 6)) else .error .unassigned
  else if bitsOf w 2 6 = 9 then if bitsOf w 0 2 = 0 then .ok (.vshl (fld w 20 6) (fld w 14 6) (fld w 8 6)) else .error .unassigned
  else if bitsOf w 2 6 = 10 then if bitsOf w 0 2 = 0 then .ok (.vshr (fld w 20 6) (fld w 14 6) (fld w 8 6)) else .error .unassigned
  else if bitsOf w 2 6 = 11 then if bitsOf w 0 2 = 0 then .ok (.vsar (fld w 20 6) (fld w 14 6) (fld w 8 6)) else .error .unassigned
  else if bitsOf w 2 6 = 12 then .ok (.veq (fld w 20 6) (fld w 14 6) (fld w 8 6) (fld w 0 2))
  else if bitsOf w 2 6 = 13 then .ok (.vlt (fld w 20 6) (fld w 14 6) (fld w 8 6) (fld w 0 2))
  else if bitsOf w 2 6 = 14 then .ok (.vle (fld w 20 6) (fld w 14 6) (fld w 8 6) (fld w 0 2))
  else if bitsOf w 2 6 = 15 then .ok (.vsel (fld w 20 6) (fld w 14 6) (fld w 8 6) (fld w 0 2))
  else if bitsOf w 2 6 = 16 then .ok (.vred (fld w 20 6) (fld w 14 6) (fld w 8 6) (fld w 0 2))
  else if bitsOf w 2 6 = 17 then .ok (.vshuf (fld w 20 6) (fld w 14 6) (fld w 8 6) (fld w 0 2))
  else if bitsOf w 2 6 = 18 then if bitsOf w 8 6 = 0 then .ok (.vbcast (fld w 20 6) (fld w 14 6) (fld w 0 2)) else .error .unusedField
  else if bitsOf w 2 6 = 19 then .ok (.vext (fld w 20 6) (fld w 14 6) (fld w 8 6) (fld w 0 2))
  else if bitsOf w 2 6 = 20 then if bitsOf w 0 2 = 1 then .ok (.vsacc (fld w 20 6) (fld w 14 6) (fld w 8 6)) else .error .unassigned
  else .error .unassigned

/-- Major 0x1F, VMEM (R203). -/
def decodeVmem (w : Nat) : Except Reject Instr :=
  if bitsOf w 4 4 = 0 then if bitsOf w 8 6 = 0 then if ((fld w 0 4).toNat < 3) then .ok (.vld (fld w 20 6) (fld w 14 6) (fld w 0 4)) else .error .unassigned else .error .unusedField
  else if bitsOf w 4 4 = 1 then if bitsOf w 8 6 = 0 then if ((fld w 0 4).toNat < 3) then .ok (.vst (fld w 20 6) (fld w 14 6) (fld w 0 4)) else .error .unassigned else .error .unusedField
  else if bitsOf w 4 4 = 2 then if ((fld w 0 4).toNat < 3) then .ok (.vlds (fld w 20 6) (fld w 14 6) (fld w 8 6) (fld w 0 4)) else .error .unassigned
  else if bitsOf w 4 4 = 3 then if ((fld w 0 4).toNat < 3) then .ok (.vsts (fld w 20 6) (fld w 14 6) (fld w 8 6) (fld w 0 4)) else .error .unassigned
  else if bitsOf w 4 4 = 4 then if ((fld w 0 4).toNat < 3) then .ok (.vgath (fld w 20 6) (fld w 14 6) (fld w 8 6) (fld w 0 4)) else .error .unassigned
  else if bitsOf w 4 4 = 5 then if ((fld w 0 4).toNat < 3) then .ok (.vscat (fld w 20 6) (fld w 14 6) (fld w 8 6) (fld w 0 4)) else .error .unassigned
  else if bitsOf w 4 4 = 6 then if ((fld w 0 4).toNat < 10) then .ok (.vamo (fld w 20 6) (fld w 14 6) (fld w 8 6) (fld w 0 4)) else .error .unassigned
  else .error .unassigned

/-- Major 0x20, VCONV (R203). -/
def decodeVconv (w : Nat) : Except Reject Instr :=
  if bitsOf w 0 8 = 0 then .ok (.vcvt (fld w 20 6) (fld w 14 6) (fld w 8 6))
  else if bitsOf w 0 8 = 1 then .ok (.vqnt (fld w 20 6) (fld w 14 6) (fld w 8 6))
  else if bitsOf w 0 8 = 2 then .ok (.vdq (fld w 20 6) (fld w 14 6) (fld w 8 6))
  else if bitsOf w 0 8 = 3 then .ok (.vstat (fld w 20 6) (fld w 14 6) (fld w 8 6))
  else if bitsOf w 0 8 = 4 then if bitsOf w 8 6 = 0 then .ok (.vexp2 (fld w 20 6) (fld w 14 6)) else .error .unusedField
  else if bitsOf w 0 8 = 5 then if bitsOf w 8 6 = 0 then .ok (.vlog2 (fld w 20 6) (fld w 14 6)) else .error .unusedField
  else if bitsOf w 0 8 = 6 then if bitsOf w 8 6 = 0 then .ok (.vrcp (fld w 20 6) (fld w 14 6)) else .error .unusedField
  else if bitsOf w 0 8 = 7 then if bitsOf w 8 6 = 0 then .ok (.vrsq (fld w 20 6) (fld w 14 6)) else .error .unusedField
  else if bitsOf w 0 8 = 8 then if bitsOf w 8 6 = 0 then .ok (.vtanh (fld w 20 6) (fld w 14 6)) else .error .unusedField
  else .error .unassigned

/-- Major 0x21, LANE (R203). -/
def decodeLane (w : Nat) : Except Reject Instr :=
  if bitsOf w 0 8 = 0 then if bitsOf w 8 6 = 0 then .ok (.lclaim (fld w 20 6) (fld w 14 6)) else .error .unusedField
  else if bitsOf w 0 8 = 1 then if bitsOf w 8 18 = 0 then .ok .lrelease else .error .unusedField
  else .error .unassigned

/-- Major 0x22, MX (R203). -/
def decodeMx (w : Nat) : Except Reject Instr :=
  if bitsOf w 0 8 = 0 then if bitsOf w 8 6 = 0 ∧ bitsOf w 20 6 = 0 then .ok (.mxmode (fld w 14 6)) else .error .unusedField
  else if bitsOf w 0 8 = 1 then if bitsOf w 8 6 = 0 ∧ bitsOf w 20 6 = 0 then .ok (.mxzp (fld w 14 6)) else .error .unusedField
  else if bitsOf w 0 8 = 2 then if bitsOf w 8 6 = 0 ∧ bitsOf w 20 1 = 0 ∧ bitsOf w 22 4 = 0 then .ok (.mxwld (fld w 21 1) (fld w 14 6)) else .error .unusedField
  else if bitsOf w 0 8 = 3 then if bitsOf w 21 5 = 0 then .ok (.mxfeed (fld w 20 1) (fld w 14 6) (fld w 8 6)) else .error .unusedField
  else if bitsOf w 0 8 = 4 then if bitsOf w 8 12 = 0 ∧ bitsOf w 22 4 = 0 then .ok (.mxrun (fld w 21 1) (fld w 20 1)) else .error .unusedField
  else if bitsOf w 0 8 = 5 then if bitsOf w 8 6 = 0 ∧ bitsOf w 20 6 = 0 then .ok (.mxuprog (fld w 14 6)) else .error .unusedField
  else if bitsOf w 0 8 = 6 then if bitsOf w 8 12 = 0 ∧ bitsOf w 21 5 = 0 then .ok (.mxrec (fld w 20 1)) else .error .unusedField
  else if bitsOf w 0 8 = 7 then if bitsOf w 23 3 = 0 then .ok (.mxsacc (fld w 20 3) (fld w 14 6) (fld w 8 6)) else .error .unusedField
  else if bitsOf w 0 8 = 8 then if ((fld w 20 6).toNat / 16 ≠ 1) then .ok (.mxdrain (fld w 20 6) (fld w 14 6) (fld w 8 6)) else .error .unassigned
  else if bitsOf w 0 8 = 9 then if bitsOf w 8 6 = 0 ∧ bitsOf w 20 6 = 0 then .ok (.mxsave (fld w 14 6)) else .error .unusedField
  else if bitsOf w 0 8 = 10 then if bitsOf w 8 6 = 0 ∧ bitsOf w 20 6 = 0 then .ok (.mxrest (fld w 14 6)) else .error .unusedField
  else if bitsOf w 0 8 = 11 then if bitsOf w 8 12 = 0 then .ok (.mxstat (fld w 20 6)) else .error .unusedField
  else .error .unassigned

/-- Major 0x23, SYNC (R203). -/
def decodeSync (w : Nat) : Except Reject Instr :=
  if bitsOf w 4 4 = 0 then if bitsOf w 8 18 = 0 then if bitsOf w 0 2 = 0 then .ok (.phase (fld w 2 2)) else .error .unassigned else .error .unusedField
  else if bitsOf w 4 4 = 1 then if bitsOf w 20 6 = 0 then .ok (.ctradd (fld w 14 6) (fld w 8 6) (fld w 2 2) (fld w 0 2)) else .error .unusedField
  else if bitsOf w 4 4 = 2 then if bitsOf w 20 6 = 0 then .ok (.ctrwait (fld w 14 6) (fld w 8 6) (fld w 2 2) (fld w 0 2)) else .error .unusedField
  else if bitsOf w 4 4 = 3 then if bitsOf w 11 3 = 0 then .ok (.ctrrd (fld w 20 6) (fld w 14 6) (fld w 8 3) (fld w 2 2) (fld w 0 2)) else .error .unusedField
  else if bitsOf w 4 4 = 4 then .ok (.trpush (fld w 20 6) (fld w 14 6) (fld w 8 6) (fld w 2 2) (fld w 0 2))
  else if bitsOf w 4 4 = 5 then .ok (.trpop (fld w 20 6) (fld w 14 6) (fld w 8 6) (fld w 2 2) (fld w 0 2))
  else if bitsOf w 4 4 = 6 then if bitsOf w 0 2 = 0 then .ok (.trstat (fld w 20 6) (fld w 14 6) (fld w 8 6) (fld w 2 2)) else .error .unassigned
  else .error .unassigned

/-- Major 0x24, AMO (R203). -/
def decodeAmo (w : Nat) : Except Reject Instr :=
  if bitsOf w 4 4 = 0 then if bitsOf w 1 1 = 0 then .ok (.aadd (fld w 20 6) (fld w 14 6) (fld w 8 6) (fld w 2 2) (fld w 0 1)) else .error .unassigned
  else if bitsOf w 4 4 = 1 then if bitsOf w 1 1 = 0 then .ok (.amin (fld w 20 6) (fld w 14 6) (fld w 8 6) (fld w 2 2) (fld w 0 1)) else .error .unassigned
  else if bitsOf w 4 4 = 2 then if bitsOf w 1 1 = 0 then .ok (.amax (fld w 20 6) (fld w 14 6) (fld w 8 6) (fld w 2 2) (fld w 0 1)) else .error .unassigned
  else if bitsOf w 4 4 = 3 then if bitsOf w 1 1 = 0 then .ok (.aminz (fld w 20 6) (fld w 14 6) (fld w 8 6) (fld w 2 2) (fld w 0 1)) else .error .unassigned
  else if bitsOf w 4 4 = 4 then if bitsOf w 1 1 = 0 then .ok (.amaxz (fld w 20 6) (fld w 14 6) (fld w 8 6) (fld w 2 2) (fld w 0 1)) else .error .unassigned
  else if bitsOf w 4 4 = 5 then if bitsOf w 1 1 = 0 then .ok (.aand (fld w 20 6) (fld w 14 6) (fld w 8 6) (fld w 2 2) (fld w 0 1)) else .error .unassigned
  else if bitsOf w 4 4 = 6 then if bitsOf w 1 1 = 0 then .ok (.aor (fld w 20 6) (fld w 14 6) (fld w 8 6) (fld w 2 2) (fld w 0 1)) else .error .unassigned
  else if bitsOf w 4 4 = 7 then if bitsOf w 1 1 = 0 then .ok (.axor (fld w 20 6) (fld w 14 6) (fld w 8 6) (fld w 2 2) (fld w 0 1)) else .error .unassigned
  else if bitsOf w 4 4 = 8 then if bitsOf w 1 1 = 0 then .ok (.aswap (fld w 20 6) (fld w 14 6) (fld w 8 6) (fld w 2 2) (fld w 0 1)) else .error .unassigned
  else if bitsOf w 4 4 = 9 then if bitsOf w 0 2 = 0 then .ok (.afadd (fld w 20 6) (fld w 14 6) (fld w 8 6) (fld w 2 2)) else .error .unassigned
  else if bitsOf w 4 4 = 10 then if bitsOf w 1 1 = 0 then .ok (.acas (fld w 20 6) (fld w 14 6) (fld w 8 6) (fld w 2 2) (fld w 0 1)) else .error .unassigned
  else if bitsOf w 4 4 = 11 then if bitsOf w 1 1 = 0 then .ok (.ufload (fld w 20 6) (fld w 14 6) (fld w 8 6) (fld w 2 2) (fld w 0 1)) else .error .unassigned
  else if bitsOf w 4 4 = 12 then if bitsOf w 1 1 = 0 then .ok (.upd (fld w 20 6) (fld w 14 6) (fld w 8 6) (fld w 2 2) (fld w 0 1)) else .error .unassigned
  else .error .unassigned

/-- Major 0x25, COPY (R203). -/
def decodeCopy (w : Nat) : Except Reject Instr :=
  if bitsOf w 0 2 = 0 then .ok (.cpy (fld w 20 6) (fld w 14 6) (fld w 8 6) (fld w 2 6))
  else if bitsOf w 0 2 = 1 then if bitsOf w 8 6 = 0 ∧ bitsOf w 20 6 = 0 then .ok (.cpy2d (fld w 14 6) (fld w 2 6)) else .error .unusedField
  else if bitsOf w 0 2 = 2 then if bitsOf w 8 6 = 0 ∧ bitsOf w 20 6 = 0 then .ok (.cpym (fld w 14 6) (fld w 2 6)) else .error .unusedField
  else if bitsOf w 0 2 = 3 then if bitsOf w 8 6 = 0 ∧ bitsOf w 20 6 = 0 then .ok (.cpyx (fld w 14 6) (fld w 2 6)) else .error .unusedField
  else .error .unassigned

/-- Major 0x26, COPY2 (R203). -/
def decodeCopy2 (w : Nat) : Except Reject Instr :=
  if bitsOf w 0 2 = 0 then if bitsOf w 8 6 = 0 ∧ bitsOf w 20 6 = 0 then .ok (.gath (fld w 14 6) (fld w 2 6)) else .error .unusedField
  else if bitsOf w 0 2 = 1 then if bitsOf w 8 6 = 0 ∧ bitsOf w 20 6 = 0 then .ok (.iord (fld w 14 6) (fld w 2 6)) else .error .unusedField
  else if bitsOf w 0 2 = 2 then if bitsOf w 8 6 = 0 ∧ bitsOf w 20 6 = 0 then .ok (.iowr (fld w 14 6) (fld w 2 6)) else .error .unusedField
  else if bitsOf w 0 2 = 3 then if bitsOf w 8 6 = 0 ∧ bitsOf w 20 6 = 0 then .ok (.wsload (fld w 14 6) (fld w 2 6)) else .error .unusedField
  else .error .unassigned

/-- Major 0x27, TAG (R203). -/
def decodeTag (w : Nat) : Except Reject Instr :=
  if bitsOf w 0 8 = 0 then if bitsOf w 8 6 = 0 ∧ bitsOf w 20 6 = 0 then .ok (.tagwaitany (fld w 14 6)) else .error .unusedField
  else if bitsOf w 0 8 = 1 then if bitsOf w 8 6 = 0 ∧ bitsOf w 20 6 = 0 then .ok (.tagwaitall (fld w 14 6)) else .error .unusedField
  else if bitsOf w 0 8 = 2 then if bitsOf w 8 6 = 0 then .ok (.tagff (fld w 20 6) (fld w 14 6)) else .error .unusedField
  else if bitsOf w 0 8 = 3 then if bitsOf w 8 6 = 0 ∧ bitsOf w 20 6 = 0 then .ok (.tagclr (fld w 14 6)) else .error .unusedField
  else .error .unassigned

/-- Major 0x28, MSG (R203). -/
def decodeMsg (w : Nat) : Except Reject Instr :=
  if bitsOf w 4 4 = 0 then if bitsOf w 1 1 = 0 ∧ bitsOf w 3 1 = 0 then .ok (.send (fld w 20 6) (fld w 14 6) (fld w 8 6) (fld w 2 1) (fld w 0 1)) else .error .unassigned
  else if bitsOf w 4 4 = 1 then if bitsOf w 8 6 = 0 then if bitsOf w 1 1 = 0 ∧ bitsOf w 3 1 = 0 then .ok (.sendv (fld w 20 6) (fld w 14 6) (fld w 2 1) (fld w 0 1)) else .error .unassigned else .error .unusedField
  else if bitsOf w 4 4 = 2 then if bitsOf w 1 3 = 0 then .ok (.bind (fld w 20 6) (fld w 14 6) (fld w 8 6) (fld w 0 1)) else .error .unassigned
  else if bitsOf w 4 4 = 3 then if bitsOf w 8 12 = 0 then if bitsOf w 0 4 = 0 then .ok (.unbind (fld w 20 6)) else .error .unassigned else .error .unusedField
  else if bitsOf w 4 4 = 4 then if bitsOf w 8 6 = 0 then if bitsOf w 0 4 = 0 then .ok (.chlen (fld w 20 6) (fld w 14 6)) else .error .unassigned else .error .unusedField
  else if bitsOf w 4 4 = 5 then if bitsOf w 20 6 = 0 then if bitsOf w 0 4 = 0 then .ok (.chskip (fld w 14 6) (fld w 8 6)) else .error .unassigned else .error .unusedField
  else if bitsOf w 4 4 = 6 then if bitsOf w 8 6 = 0 ∧ bitsOf w 20 6 = 0 then if bitsOf w 0 4 = 0 then .ok (.migrate (fld w 14 6)) else .error .unassigned else .error .unusedField
  else .error .unassigned

/-- Major 0x29, LAUNCH (R203). -/
def decodeLaunch (w : Nat) : Except Reject Instr :=
  if bitsOf w 0 8 = 0 then .ok (.lpatch (fld w 20 6) (fld w 14 6) (fld w 8 6))
  else if bitsOf w 0 8 = 1 then if bitsOf w 8 6 = 0 then .ok (.larm (fld w 20 6) (fld w 14 6)) else .error .unusedField
  else if bitsOf w 0 8 = 2 then if bitsOf w 8 6 = 0 then .ok (.lcancel (fld w 20 6) (fld w 14 6)) else .error .unusedField
  else if bitsOf w 0 8 = 3 then if bitsOf w 8 6 = 0 then .ok (.lstat (fld w 20 6) (fld w 14 6)) else .error .unusedField
  else .error .unassigned

/-- Major 0x2A, PORT (R203). -/
def decodePort (w : Nat) : Except Reject Instr :=
  if bitsOf w 0 2 = 0 then if bitsOf w 8 6 = 0 ∧ bitsOf w 20 6 = 0 then .ok (.fpbind (fld w 14 6) (fld w 2 6)) else .error .unusedField
  else if bitsOf w 0 2 = 1 then if bitsOf w 8 6 = 0 ∧ bitsOf w 20 6 = 0 then .ok (.fpsend (fld w 14 6) (fld w 2 6)) else .error .unusedField
  else if bitsOf w 0 2 = 2 then if bitsOf w 8 6 = 0 ∧ bitsOf w 20 6 = 0 then .ok (.fptake (fld w 14 6) (fld w 2 6)) else .error .unusedField
  else if bitsOf w 0 2 = 3 then if bitsOf w 8 6 = 0 ∧ bitsOf w 20 6 = 0 then .ok (.fpstat (fld w 14 6) (fld w 2 6)) else .error .unusedField
  else .error .unassigned

/-- Major 0x2B, GNODE (R203). -/
def decodeGnode (w : Nat) : Except Reject Instr :=
  if bitsOf w 0 8 = 0 then .ok (.gadd (fld w 20 6) (fld w 14 6) (fld w 8 6))
  else if bitsOf w 0 8 = 1 then .ok (.gschur (fld w 20 6) (fld w 14 6) (fld w 8 6))
  else if bitsOf w 0 8 = 2 then if bitsOf w 8 6 = 0 then .ok (.gdamp (fld w 20 6) (fld w 14 6)) else .error .unusedField
  else if bitsOf w 0 8 = 3 then .ok (.gres (fld w 20 6) (fld w 14 6) (fld w 8 6))
  else if bitsOf w 0 8 = 4 then if bitsOf w 8 6 = 0 then .ok (.gmean (fld w 20 6) (fld w 14 6)) else .error .unusedField
  else if bitsOf w 0 8 = 5 then .ok (.gsend (fld w 20 6) (fld w 14 6) (fld w 8 6))
  else if bitsOf w 0 8 = 6 then .ok (.gpop (fld w 20 6) (fld w 14 6) (fld w 8 6))
  else .error .unassigned

/-- Major 0x3F, HINT (R203). -/
def decodeHint (w : Nat) : Except Reject Instr :=
  if bitsOf w 22 4 = 0 then .ok (.himm (fld w 0 22))
  else if bitsOf w 22 4 = 1 then .ok (.hlive (fld w 0 22))
  else if bitsOf w 22 4 = 2 then if bitsOf w 2 6 = 0 ∧ bitsOf w 8 14 = 0 then if (fld w 0 2) != 3 then .ok (.hnt (fld w 0 2)) else .error .unassigned else .error .unusedField
  else if bitsOf w 22 4 = 3 then if bitsOf w 4 4 = 0 ∧ bitsOf w 8 14 = 0 then .ok (.hpred (fld w 3 1) (fld w 0 3)) else .error .unusedField
  else if bitsOf w 22 4 = 4 then if bitsOf w 16 4 = 0 then .ok (.hord (fld w 20 2) (fld w 0 16)) else .error .unusedField
  else if bitsOf w 22 4 = 5 then if bitsOf w 2 6 = 0 ∧ bitsOf w 8 14 = 0 then .ok (.hpri (fld w 0 2)) else .error .unusedField
  else .ok (.hintReserved (fld w 22 4) (fld w 0 22))

/-- The decoder (R191, R199 step 1, R203): the instruction of a word, or why the word is none. -/
def decode (w : Nat) : Except Reject Instr :=
  if bitsOf w 26 6 = 1 then decodeInt w
  else if bitsOf w 26 6 = 2 then decodeAddi w
  else if bitsOf w 26 6 = 3 then decodeAndi w
  else if bitsOf w 26 6 = 4 then decodeOri w
  else if bitsOf w 26 6 = 5 then decodeXori w
  else if bitsOf w 26 6 = 6 then decodeShi w
  else if bitsOf w 26 6 = 7 then decodeLdi w
  else if bitsOf w 26 6 = 8 then decodeLdhi w
  else if bitsOf w 26 6 = 9 then decodeAddpc w
  else if bitsOf w 26 6 = 10 then decodeCmp w
  else if bitsOf w 26 6 = 11 then decodeCmpi w
  else if bitsOf w 26 6 = 12 then decodePred w
  else if bitsOf w 26 6 = 13 then decodeBp w
  else if bitsOf w 26 6 = 14 then decodeBz w
  else if bitsOf w 26 6 = 15 then decodeBnz w
  else if bitsOf w 26 6 = 16 then decodeJ w
  else if bitsOf w 26 6 = 17 then decodeCall w
  else if bitsOf w 26 6 = 18 then decodeCtl w
  else if bitsOf w 26 6 = 19 then decodeCrd w
  else if bitsOf w 26 6 = 20 then decodeCwr w
  else if bitsOf w 26 6 = 21 then decodeLd w
  else if bitsOf w 26 6 = 22 then decodeLdz w
  else if bitsOf w 26 6 = 23 then decodeSt w
  else if bitsOf w 26 6 = 24 then decodeMemx w
  else if bitsOf w 26 6 = 25 then decodeFp w
  else if bitsOf w 26 6 = 26 then decodeLong w
  else if bitsOf w 26 6 = 27 then decodeEld w
  else if bitsOf w 26 6 = 28 then decodeEst w
  else if bitsOf w 26 6 = 29 then decodeEstr w
  else if bitsOf w 26 6 = 30 then decodeVec w
  else if bitsOf w 26 6 = 31 then decodeVmem w
  else if bitsOf w 26 6 = 32 then decodeVconv w
  else if bitsOf w 26 6 = 33 then decodeLane w
  else if bitsOf w 26 6 = 34 then decodeMx w
  else if bitsOf w 26 6 = 35 then decodeSync w
  else if bitsOf w 26 6 = 36 then decodeAmo w
  else if bitsOf w 26 6 = 37 then decodeCopy w
  else if bitsOf w 26 6 = 38 then decodeCopy2 w
  else if bitsOf w 26 6 = 39 then decodeTag w
  else if bitsOf w 26 6 = 40 then decodeMsg w
  else if bitsOf w 26 6 = 41 then decodeLaunch w
  else if bitsOf w 26 6 = 42 then decodePort w
  else if bitsOf w 26 6 = 43 then decodeGnode w
  else if bitsOf w 26 6 = 63 then decodeHint w
  else .error .reservedMajor

/-- A field at its place in a word. -/
def put (f : BitVec n) (lo : Nat) : Nat := f.toNat * 2 ^ lo

/-- The word of an instruction (R191-R203); an event has none. -/
def encode : Instr → Option Nat
  | .add d a b => some ((0x04000000 : Nat) + put d 20 + put a 14 + put b 8)
  | .sub d a b => some ((0x04000001 : Nat) + put d 20 + put a 14 + put b 8)
  | .and d a b => some ((0x04000002 : Nat) + put d 20 + put a 14 + put b 8)
  | .or d a b => some ((0x04000003 : Nat) + put d 20 + put a 14 + put b 8)
  | .xor d a b => some ((0x04000004 : Nat) + put d 20 + put a 14 + put b 8)
  | .andn d a b => some ((0x04000005 : Nat) + put d 20 + put a 14 + put b 8)
  | .orn d a b => some ((0x04000006 : Nat) + put d 20 + put a 14 + put b 8)
  | .shl d a b => some ((0x04000007 : Nat) + put d 20 + put a 14 + put b 8)
  | .shr d a b => some ((0x04000008 : Nat) + put d 20 + put a 14 + put b 8)
  | .sar d a b => some ((0x04000009 : Nat) + put d 20 + put a 14 + put b 8)
  | .rol d a b => some ((0x0400000A : Nat) + put d 20 + put a 14 + put b 8)
  | .mul d a b => some ((0x0400000B : Nat) + put d 20 + put a 14 + put b 8)
  | .mulh d a b => some ((0x0400000C : Nat) + put d 20 + put a 14 + put b 8)
  | .mulhz d a b => some ((0x0400000D : Nat) + put d 20 + put a 14 + put b 8)
  | .div d a b => some ((0x0400000E : Nat) + put d 20 + put a 14 + put b 8)
  | .divz d a b => some ((0x0400000F : Nat) + put d 20 + put a 14 + put b 8)
  | .rem d a b => some ((0x04000010 : Nat) + put d 20 + put a 14 + put b 8)
  | .remz d a b => some ((0x04000011 : Nat) + put d 20 + put a 14 + put b 8)
  | .min d a b => some ((0x04000012 : Nat) + put d 20 + put a 14 + put b 8)
  | .max d a b => some ((0x04000013 : Nat) + put d 20 + put a 14 + put b 8)
  | .minz d a b => some ((0x04000014 : Nat) + put d 20 + put a 14 + put b 8)
  | .maxz d a b => some ((0x04000015 : Nat) + put d 20 + put a 14 + put b 8)
  | .clz d a => some ((0x04000016 : Nat) + put d 20 + put a 14)
  | .ctz d a => some ((0x04000017 : Nat) + put d 20 + put a 14)
  | .popc d a => some ((0x04000018 : Nat) + put d 20 + put a 14)
  | .brev d a => some ((0x04000019 : Nat) + put d 20 + put a 14)
  | .bswap d a => some ((0x0400001A : Nat) + put d 20 + put a 14)
  | .ext d a b => some ((0x0400001B : Nat) + put d 20 + put a 14 + put b 8)
  | .ins d a b => some ((0x0400001C : Nat) + put d 20 + put a 14 + put b 8)
  | .crc d a b => some ((0x0400001D : Nat) + put d 20 + put a 14 + put b 8)
  | .sel d a b p => some ((0x04000040 : Nat) + put d 20 + put a 14 + put b 8 + put p 0)
  | .addi d a i => some ((0x08000000 : Nat) + put d 20 + put a 14 + put i 0)
  | .andi d a i => some ((0x0C000000 : Nat) + put d 20 + put a 14 + put i 0)
  | .ori d a i => some ((0x10000000 : Nat) + put d 20 + put a 14 + put i 0)
  | .xori d a i => some ((0x14000000 : Nat) + put d 20 + put a 14 + put i 0)
  | .shli d a n => some ((0x18000000 : Nat) + put d 20 + put a 14 + put n 0)
  | .shri d a n => some ((0x18001000 : Nat) + put d 20 + put a 14 + put n 0)
  | .sari d a n => some ((0x18002000 : Nat) + put d 20 + put a 14 + put n 0)
  | .ldi d i => some ((0x1C000000 : Nat) + put d 20 + put i 0)
  | .ldhi d i => some ((0x20000000 : Nat) + put d 20 + put i 0)
  | .addpc d i => some ((0x24000000 : Nat) + put d 20 + put i 0)
  | .cmp p a b c => some ((0x28000000 : Nat) + put p 20 + put a 14 + put b 8 + put c 0)
  | .cmpi c p a i => some ((0x2C000000 : Nat) + put c 23 + put p 20 + put a 14 + put i 0)
  | .pand d a b => some ((0x30000000 : Nat) + put d 20 + put a 14 + put b 8)
  | .por d a b => some ((0x30000001 : Nat) + put d 20 + put a 14 + put b 8)
  | .pxor d a b => some ((0x30000002 : Nat) + put d 20 + put a 14 + put b 8)
  | .pnot d a => some ((0x30000003 : Nat) + put d 20 + put a 14)
  | .psave d => some ((0x30000004 : Nat) + put d 20)
  | .pload a => some ((0x30000005 : Nat) + put a 14)
  | .bp s p o => some ((0x34000000 : Nat) + put s 25 + put p 20 + put o 0)
  | .bz t o => some ((0x38000000 : Nat) + put t 20 + put o 0)
  | .bnz t o => some ((0x3C000000 : Nat) + put t 20 + put o 0)
  | .j o => some ((0x40000000 : Nat) + put o 0)
  | .call o => some ((0x44000000 : Nat) + put o 0)
  | .jr a => some ((0x48000000 : Nat) + put a 14)
  | .callr a => some ((0x48000001 : Nat) + put a 14)
  | .ret => some ((0x48000002 : Nat))
  | .done => some ((0x48000003 : Nat))
  | .yield => some ((0x48000004 : Nat))
  | .nop => some ((0x48000005 : Nat))
  | .trap c => some ((0x48000006 : Nat) + put c 14)
  | .eret => some ((0x48000007 : Nat))
  | .brk c => some ((0x48000008 : Nat) + put c 14)
  | .idle => some ((0x48000009 : Nat))
  | .crd d n => some ((0x4C000000 : Nat) + put d 20 + put n 0)
  | .cwr d n => some ((0x50000000 : Nat) + put d 20 + put n 0)
  | .ld d a z o => some ((0x54000000 : Nat) + put d 20 + put a 14 + put z 12 + put o 0)
  | .ldz d a z o => some ((0x58000000 : Nat) + put d 20 + put a 14 + put z 12 + put o 0)
  | .st d a z o => some ((0x5C000000 : Nat) + put d 20 + put a 14 + put z 12 + put o 0)
  | .ldx d a b z h => some ((0x60000000 : Nat) + put d 20 + put a 14 + put b 8 + put z 2 + put h 0)
  | .ldzx d a b z h => some ((0x60000010 : Nat) + put d 20 + put a 14 + put b 8 + put z 2 + put h 0)
  | .stx d a b z h => some ((0x60000020 : Nat) + put d 20 + put a 14 + put b 8 + put z 2 + put h 0)
  | .ldfe d a p m => some ((0x60000030 : Nat) + put d 20 + put a 14 + put p 8 + put m 0)
  | .stfe d a p m => some ((0x60000040 : Nat) + put d 20 + put a 14 + put p 8 + put m 0)
  | .pref a i => some ((0x60000050 : Nat) + put a 14 + put i 0)
  | .fadd d a b f => some ((0x64000000 : Nat) + put d 20 + put a 14 + put b 8 + put f 0)
  | .fsub d a b f => some ((0x64000004 : Nat) + put d 20 + put a 14 + put b 8 + put f 0)
  | .fmul d a b f => some ((0x64000008 : Nat) + put d 20 + put a 14 + put b 8 + put f 0)
  | .fdiv d a b f => some ((0x6400000C : Nat) + put d 20 + put a 14 + put b 8 + put f 0)
  | .fsqrt d a f => some ((0x64000010 : Nat) + put d 20 + put a 14 + put f 0)
  | .fma d a b f => some ((0x64000014 : Nat) + put d 20 + put a 14 + put b 8 + put f 0)
  | .fms d a b f => some ((0x64000018 : Nat) + put d 20 + put a 14 + put b 8 + put f 0)
  | .fnma d a b f => some ((0x6400001C : Nat) + put d 20 + put a 14 + put b 8 + put f 0)
  | .fmin d a b f => some ((0x64000020 : Nat) + put d 20 + put a 14 + put b 8 + put f 0)
  | .fmax d a b f => some ((0x64000024 : Nat) + put d 20 + put a 14 + put b 8 + put f 0)
  | .feq p a b f => some ((0x64000028 : Nat) + put p 20 + put a 14 + put b 8 + put f 0)
  | .flt p a b f => some ((0x6400002C : Nat) + put p 20 + put a 14 + put b 8 + put f 0)
  | .fle p a b f => some ((0x64000030 : Nat) + put p 20 + put a 14 + put b 8 + put f 0)
  | .fun p a b f => some ((0x64000034 : Nat) + put p 20 + put a 14 + put b 8 + put f 0)
  | .fclass d a f => some ((0x64000038 : Nat) + put d 20 + put a 14 + put f 0)
  | .fsgnj d a b f => some ((0x6400003C : Nat) + put d 20 + put a 14 + put b 8 + put f 0)
  | .fsgnjn d a b f => some ((0x64000040 : Nat) + put d 20 + put a 14 + put b 8 + put f 0)
  | .fsgnjx d a b f => some ((0x64000044 : Nat) + put d 20 + put a 14 + put b 8 + put f 0)
  | .fcvt d a s f => some ((0x64000048 : Nat) + put d 20 + put a 14 + put s 8 + put f 0)
  | .eadd d a b => some ((0x68000000 : Nat) + put d 20 + put a 14 + put b 8)
  | .esub d a b => some ((0x68000001 : Nat) + put d 20 + put a 14 + put b 8)
  | .emul d a b => some ((0x68000002 : Nat) + put d 20 + put a 14 + put b 8)
  | .ediv d a b => some ((0x68000003 : Nat) + put d 20 + put a 14 + put b 8)
  | .esqrt d a => some ((0x68000004 : Nat) + put d 20 + put a 14)
  | .efma d a b => some ((0x68000005 : Nat) + put d 20 + put a 14 + put b 8)
  | .eneg d a => some ((0x68000006 : Nat) + put d 20 + put a 14)
  | .eabs d a => some ((0x68000007 : Nat) + put d 20 + put a 14)
  | .ecmp c p a b => some ((0x68000008 : Nat) + put c 23 + put p 20 + put a 14 + put b 8)
  | .ernd d a => some ((0x68000009 : Nat) + put d 20 + put a 14)
  | .ecvte d a s => some ((0x6800000A : Nat) + put d 20 + put a 14 + put s 8)
  | .ecvtf d a s => some ((0x6800000B : Nat) + put d 20 + put a 14 + put s 8)
  | .ecvti d a s => some ((0x6800000C : Nat) + put d 20 + put a 14 + put s 8)
  | .ecvtl d a s => some ((0x6800000D : Nat) + put d 20 + put a 14 + put s 8)
  | .emov d a => some ((0x6800000E : Nat) + put d 20 + put a 14)
  | .eclass d a => some ((0x6800000F : Nat) + put d 20 + put a 14)
  | .precset a => some ((0x68000010 : Nat) + put a 14)
  | .eld d a i => some ((0x6C000000 : Nat) + put d 20 + put a 14 + put i 0)
  | .est d a i => some ((0x70000000 : Nat) + put d 20 + put a 14 + put i 0)
  | .elds d a b => some ((0x74000000 : Nat) + put d 20 + put a 14 + put b 8)
  | .ests d a b => some ((0x74000001 : Nat) + put d 20 + put a 14 + put b 8)
  | .vadd d a b t => some ((0x78000000 : Nat) + put d 20 + put a 14 + put b 8 + put t 0)
  | .vsub d a b t => some ((0x78000004 : Nat) + put d 20 + put a 14 + put b 8 + put t 0)
  | .vmul d a b t => some ((0x78000008 : Nat) + put d 20 + put a 14 + put b 8 + put t 0)
  | .vfma d a b t => some ((0x7800000C : Nat) + put d 20 + put a 14 + put b 8 + put t 0)
  | .vmin d a b t => some ((0x78000010 : Nat) + put d 20 + put a 14 + put b 8 + put t 0)
  | .vmax d a b t => some ((0x78000014 : Nat) + put d 20 + put a 14 + put b 8 + put t 0)
  | .vand d a b => some ((0x78000018 : Nat) + put d 20 + put a 14 + put b 8)
  | .vor d a b => some ((0x7800001C : Nat) + put d 20 + put a 14 + put b 8)
  | .vxor d a b => some ((0x78000020 : Nat) + put d 20 + put a 14 + put b 8)
  | .vshl d a b => some ((0x78000024 : Nat) + put d 20 + put a 14 + put b 8)
  | .vshr d a b => some ((0x78000028 : Nat) + put d 20 + put a 14 + put b 8)
  | .vsar d a b => some ((0x7800002C : Nat) + put d 20 + put a 14 + put b 8)
  | .veq d a b t => some ((0x78000030 : Nat) + put d 20 + put a 14 + put b 8 + put t 0)
  | .vlt d a b t => some ((0x78000034 : Nat) + put d 20 + put a 14 + put b 8 + put t 0)
  | .vle d a b t => some ((0x78000038 : Nat) + put d 20 + put a 14 + put b 8 + put t 0)
  | .vsel d a b t => some ((0x7800003C : Nat) + put d 20 + put a 14 + put b 8 + put t 0)
  | .vred d a o t => some ((0x78000040 : Nat) + put d 20 + put a 14 + put o 8 + put t 0)
  | .vshuf d a b t => some ((0x78000044 : Nat) + put d 20 + put a 14 + put b 8 + put t 0)
  | .vbcast d a t => some ((0x78000048 : Nat) + put d 20 + put a 14 + put t 0)
  | .vext d a b t => some ((0x7800004C : Nat) + put d 20 + put a 14 + put b 8 + put t 0)
  | .vsacc d a b => some ((0x78000051 : Nat) + put d 20 + put a 14 + put b 8)
  | .vld d a n => some ((0x7C000000 : Nat) + put d 20 + put a 14 + put n 0)
  | .vst d a n => some ((0x7C000010 : Nat) + put d 20 + put a 14 + put n 0)
  | .vlds d a b n => some ((0x7C000020 : Nat) + put d 20 + put a 14 + put b 8 + put n 0)
  | .vsts d a b n => some ((0x7C000030 : Nat) + put d 20 + put a 14 + put b 8 + put n 0)
  | .vgath d a b n => some ((0x7C000040 : Nat) + put d 20 + put a 14 + put b 8 + put n 0)
  | .vscat d a b n => some ((0x7C000050 : Nat) + put d 20 + put a 14 + put b 8 + put n 0)
  | .vamo d a b o => some ((0x7C000060 : Nat) + put d 20 + put a 14 + put b 8 + put o 0)
  | .vcvt d a s => some ((0x80000000 : Nat) + put d 20 + put a 14 + put s 8)
  | .vqnt d a s => some ((0x80000001 : Nat) + put d 20 + put a 14 + put s 8)
  | .vdq d a s => some ((0x80000002 : Nat) + put d 20 + put a 14 + put s 8)
  | .vstat d a b => some ((0x80000003 : Nat) + put d 20 + put a 14 + put b 8)
  | .vexp2 d a => some ((0x80000004 : Nat) + put d 20 + put a 14)
  | .vlog2 d a => some ((0x80000005 : Nat) + put d 20 + put a 14)
  | .vrcp d a => some ((0x80000006 : Nat) + put d 20 + put a 14)
  | .vrsq d a => some ((0x80000007 : Nat) + put d 20 + put a 14)
  | .vtanh d a => some ((0x80000008 : Nat) + put d 20 + put a 14)
  | .lclaim d a => some ((0x84000000 : Nat) + put d 20 + put a 14)
  | .lrelease => some ((0x84000001 : Nat))
  | .mxmode a => some ((0x88000000 : Nat) + put a 14)
  | .mxzp a => some ((0x88000001 : Nat) + put a 14)
  | .mxwld s a => some ((0x88000002 : Nat) + put s 21 + put a 14)
  | .mxfeed h a b => some ((0x88000003 : Nat) + put h 20 + put a 14 + put b 8)
  | .mxrun s h => some ((0x88000004 : Nat) + put s 21 + put h 20)
  | .mxuprog a => some ((0x88000005 : Nat) + put a 14)
  | .mxrec h => some ((0x88000006 : Nat) + put h 20)
  | .mxsacc t a b => some ((0x88000007 : Nat) + put t 20 + put a 14 + put b 8)
  | .mxdrain d a b => some ((0x88000008 : Nat) + put d 20 + put a 14 + put b 8)
  | .mxsave a => some ((0x88000009 : Nat) + put a 14)
  | .mxrest a => some ((0x8800000A : Nat) + put a 14)
  | .mxstat d => some ((0x8800000B : Nat) + put d 20)
  | .phase s => some ((0x8C000000 : Nat) + put s 2)
  | .ctradd a b s o => some ((0x8C000010 : Nat) + put a 14 + put b 8 + put s 2 + put o 0)
  | .ctrwait a b s o => some ((0x8C000020 : Nat) + put a 14 + put b 8 + put s 2 + put o 0)
  | .ctrrd d a p s o => some ((0x8C000030 : Nat) + put d 20 + put a 14 + put p 8 + put s 2 + put o 0)
  | .trpush d a b s o => some ((0x8C000040 : Nat) + put d 20 + put a 14 + put b 8 + put s 2 + put o 0)
  | .trpop d a b s o => some ((0x8C000050 : Nat) + put d 20 + put a 14 + put b 8 + put s 2 + put o 0)
  | .trstat d a b s => some ((0x8C000060 : Nat) + put d 20 + put a 14 + put b 8 + put s 2)
  | .aadd d a b s z => some ((0x90000000 : Nat) + put d 20 + put a 14 + put b 8 + put s 2 + put z 0)
  | .amin d a b s z => some ((0x90000010 : Nat) + put d 20 + put a 14 + put b 8 + put s 2 + put z 0)
  | .amax d a b s z => some ((0x90000020 : Nat) + put d 20 + put a 14 + put b 8 + put s 2 + put z 0)
  | .aminz d a b s z => some ((0x90000030 : Nat) + put d 20 + put a 14 + put b 8 + put s 2 + put z 0)
  | .amaxz d a b s z => some ((0x90000040 : Nat) + put d 20 + put a 14 + put b 8 + put s 2 + put z 0)
  | .aand d a b s z => some ((0x90000050 : Nat) + put d 20 + put a 14 + put b 8 + put s 2 + put z 0)
  | .aor d a b s z => some ((0x90000060 : Nat) + put d 20 + put a 14 + put b 8 + put s 2 + put z 0)
  | .axor d a b s z => some ((0x90000070 : Nat) + put d 20 + put a 14 + put b 8 + put s 2 + put z 0)
  | .aswap d a b s z => some ((0x90000080 : Nat) + put d 20 + put a 14 + put b 8 + put s 2 + put z 0)
  | .afadd d a b s => some ((0x90000090 : Nat) + put d 20 + put a 14 + put b 8 + put s 2)
  | .acas d a b s z => some ((0x900000A0 : Nat) + put d 20 + put a 14 + put b 8 + put s 2 + put z 0)
  | .ufload d a b s z => some ((0x900000B0 : Nat) + put d 20 + put a 14 + put b 8 + put s 2 + put z 0)
  | .upd d a b s z => some ((0x900000C0 : Nat) + put d 20 + put a 14 + put b 8 + put s 2 + put z 0)
  | .cpy d a b c => some ((0x94000000 : Nat) + put d 20 + put a 14 + put b 8 + put c 2)
  | .cpy2d a c => some ((0x94000001 : Nat) + put a 14 + put c 2)
  | .cpym a c => some ((0x94000002 : Nat) + put a 14 + put c 2)
  | .cpyx a c => some ((0x94000003 : Nat) + put a 14 + put c 2)
  | .gath a c => some ((0x98000000 : Nat) + put a 14 + put c 2)
  | .iord a c => some ((0x98000001 : Nat) + put a 14 + put c 2)
  | .iowr a c => some ((0x98000002 : Nat) + put a 14 + put c 2)
  | .wsload a c => some ((0x98000003 : Nat) + put a 14 + put c 2)
  | .tagwaitany a => some ((0x9C000000 : Nat) + put a 14)
  | .tagwaitall a => some ((0x9C000001 : Nat) + put a 14)
  | .tagff d a => some ((0x9C000002 : Nat) + put d 20 + put a 14)
  | .tagclr a => some ((0x9C000003 : Nat) + put a 14)
  | .send d a b n c => some ((0xA0000000 : Nat) + put d 20 + put a 14 + put b 8 + put n 2 + put c 0)
  | .sendv d a n c => some ((0xA0000010 : Nat) + put d 20 + put a 14 + put n 2 + put c 0)
  | .bind n a b p => some ((0xA0000020 : Nat) + put n 20 + put a 14 + put b 8 + put p 0)
  | .unbind n => some ((0xA0000030 : Nat) + put n 20)
  | .chlen d n => some ((0xA0000040 : Nat) + put d 20 + put n 14)
  | .chskip n b => some ((0xA0000050 : Nat) + put n 14 + put b 8)
  | .migrate a => some ((0xA0000060 : Nat) + put a 14)
  | .lpatch d a b => some ((0xA4000000 : Nat) + put d 20 + put a 14 + put b 8)
  | .larm d a => some ((0xA4000001 : Nat) + put d 20 + put a 14)
  | .lcancel d a => some ((0xA4000002 : Nat) + put d 20 + put a 14)
  | .lstat d a => some ((0xA4000003 : Nat) + put d 20 + put a 14)
  | .fpbind a c => some ((0xA8000000 : Nat) + put a 14 + put c 2)
  | .fpsend a c => some ((0xA8000001 : Nat) + put a 14 + put c 2)
  | .fptake a c => some ((0xA8000002 : Nat) + put a 14 + put c 2)
  | .fpstat a c => some ((0xA8000003 : Nat) + put a 14 + put c 2)
  | .gadd d a b => some ((0xAC000000 : Nat) + put d 20 + put a 14 + put b 8)
  | .gschur d a b => some ((0xAC000001 : Nat) + put d 20 + put a 14 + put b 8)
  | .gdamp d a => some ((0xAC000002 : Nat) + put d 20 + put a 14)
  | .gres d a b => some ((0xAC000003 : Nat) + put d 20 + put a 14 + put b 8)
  | .gmean d a => some ((0xAC000004 : Nat) + put d 20 + put a 14)
  | .gsend d a b => some ((0xAC000005 : Nat) + put d 20 + put a 14 + put b 8)
  | .gpop d a b => some ((0xAC000006 : Nat) + put d 20 + put a 14 + put b 8)
  | .himm p => some ((0xFC000000 : Nat) + put p 0)
  | .hlive p => some ((0xFC400000 : Nat) + put p 0)
  | .hnt p => some ((0xFC800000 : Nat) + put p 0)
  | .hpred s p => some ((0xFCC00000 : Nat) + put s 3 + put p 0)
  | .hord o k => some ((0xFD000000 : Nat) + put o 20 + put k 0)
  | .hpri c => some ((0xFD400000 : Nat) + put c 0)
  | .hintReserved k p => some ((0xFC000000 : Nat) + put k 22 + put p 0)
  | .commandStagingWrite _ _ _ _ _ => none
  | .invalidatePages _ _ _ _ => none
  | .invalidateAsidPages _ _ => none
  | .invalidateAsidRanges _ _ => none
  | .invalidateAsidAll _ _ => none
  | .invalidateAll _ => none
  | .setFormatAndOwner _ _ _ _ _ _ => none
  | .zeroOnly _ _ _ => none
  | .preEmpt _ _ _ => none
  | .preemptSaveDone _ _ _ => none
  | .resume _ _ _ => none
  | .launchCmdArm _ _ _ _ _ => none
  | .launchCmdCancel _ _ _ => none
  | .launchCmdState _ _ _ => none
  | .attestationCommand _ _ _ => none
  | .hostMemRead _ _ => none
  | .hostMemWrite _ _ => none
  | .launchRecordHostWrite _ _ _ => none
  | .wsrefset _ => none
  | .ebudgetWrite _ => none
  | .supvWrite _ => none
  | .rmodeWrite _ => none
  | .cflagsClear _ => none
  | .errinjWrite _ => none
  | .egdepthWrite _ => none
  | .registerWrite _ _ => none
  | .rilahIdWrite _ _ => none
  | .membershipKeyWrite _ _ _ _ => none
  | .lctlWrite _ _ => none
  | .swreq _ => none
  | .keySlotWrite _ _ _ => none
  | .retry => none
  | .deviceReset => none
  | .wsRefresh _ _ => none
  | .wcEntryTimeout _ => none
  | .retryRepeat _ => none
  | .pageWalk _ _ _ => none
  | .tlbMissRetry _ _ _ => none
  | .loadReply _ _ => none
  | .forwardedReply _ _ => none
  | .taskWake _ => none
  | .taskChosen _ => none
  | .dispatchSlot _ => none
  | .eventSample _ _ _ => none
  | .energyWindow _ => none
  | .sensorUpdate _ _ _ => none
  | .thermalTrip _ => none
  | .thermalRecover _ => none
  | .mxRunEnd _ => none
  | .mxRecEnd _ => none
  | .engineOperationStart _ => none
  | .engineCompletion _ _ => none
  | .graftHeldResume _ => none
  | .channelPacketArrival _ => none
  | .activationStart _ _ => none
  | .clusterFailure _ _ => none
  | .flitReceive _ _ => none
  | .flitSlot _ => none
  | .idleFlit _ => none
  | .xoff _ _ _ => none
  | .xon _ _ _ => none
  | .nak _ _ => none
  | .ack _ _ => none
  | .tagFlit _ _ _ => none
  | .fabricMsg _ _ => none
  | .fabricWrite _ _ => none
  | .fabricRead _ _ => none
  | .fabricData _ _ => none
  | .fabricDone _ _ => none
  | .e2eRetryTimeout _ _ => none
  | .linkTrainTimeout _ => none
  | .linkDown _ => none
  | .linkUp _ => none
  | .homeAcknowledgement _ => none
  | .pageCommandCompletion _ => none
  | .stageReady => none

/-- The instruction of four bytes in memory order (R6, R191). -/
def decodeBytes (b : List Byte) : Except Reject Instr :=
  decode (b.foldr (fun x n => x.toNat + 256 * n) 0)

/-- The instruction the decoder reads from the `nbits` low bits of `w`: a table row has one 32-bit word. -/
def decodeTableWord (nbits w : Nat) : Option Instr :=
  match decode (w % 2 ^ nbits) with
  | .ok i => some i
  | .error _ => none

end Sys2Proof
end

