-- ==== Sys2Proof/Config.lean ====
section
/-! DEFINITION. What the spec leaves to the implementation or leaves open, as constants without a body:
nothing can evaluate them, so a statement about the model holds for every value they could have. The free
values are drawn with the state's counter `tick` (log entry 4). -/

namespace Sys2Proof.Config

/-- The index drawn where the spec allows one of several choices. -/
opaque freeIndex : Nat → Nat
/-- Whether the read drawn at a tick sees the write event with a position and a first PA, where R92 allows both. -/
opaque freeSee : Nat → Nat → Nat → Bool
/-- Whether a register that HLIVE declared dead reads as its old value or as zero (R132). -/
opaque freeKeep : Nat → Bool
/-- Where in a launch's context area the image of a saved named region lies (R26), which R128 does not say: record, cluster,
offset of the region in its window; from `CTXBASE`. -/
opaque regionPlace : Nat → Nat → Nat → W64
/-- The die and the cluster that a request over the fabric names (R46, R434), from the four doublewords of its header: R395
gives the header no field for them (log entry 28). -/
opaque requestCluster : W64 → W64 → W64 → W64 → BitVec 2 × BitVec 6
/-- A byte whose value the spec does not give. -/
opaque freeByte : Nat → Byte
/-- A doubleword whose value the spec does not give. -/
opaque freeWord : Nat → W64
/-- The host addresses of HDM ranges 0 and 1, which the host assigns (R413). -/
opaque hdmBase : Nat → W64
/-- The host-visible address of a list of PRP entries that an NVMe command names (R320). -/
opaque prpList : List W64 → W64
/-- The doorbell value that follows a submission (R320): queue entry, position. -/
opaque doorbell : List W64 → Nat → W64
/-- PA of the ASID table, which boot firmware writes into every die's `ASIDTBL` (R34, R418). -/
opaque asidTable : BitVec 52
/-- Faulty register banks of a lane core at boot (R387): die, row * 9 + column of the part with its spare column 8, core. -/
opaque badBanks : Nat → Nat → Nat → Nat
/-- Failed vector lanes of a cluster's 136 at boot (R387). -/
opaque badLanes : Nat → Nat → Nat
/-- Whether a core of a cluster has failed at boot for another reason than its banks (R387). -/
opaque badCore : Nat → Nat → Nat → Bool
/-- Whether a die's self-test fails at boot (R420). -/
opaque badDie : Nat → Bool
/-- The fused key hash of R417, 48 bytes. -/
opaque fusedKeyHash : List Byte
/-- The fused minimum `SVN` of R417. -/
opaque fusedMinSvn : BitVec 16
/-- The seed of the identity Ed25519 key (R419), which a fused device secret and the measurement give in a way that the spec
does not state. -/
opaque edSeed : List Byte → List Byte
/-- The seed of the identity ML-DSA-65 key (R419), as `edSeed`. -/
opaque dsaSeed : List Byte → List Byte
/-- The 32 random bytes of an ML-DSA-65 signature (R419), by the counter `tick`. -/
opaque signRandom : Nat → List Byte

end Sys2Proof.Config
end

