-- ==== Sys2Proof/Machine/Exact.lean ====
section
/-! DEFINITION. Exact values before rounding (R182): NaN, a signed infinity, or a signed fraction.
A finite value is `num / den` with `den` nonzero; `neg` is its sign, which matters for zero (R183). -/

namespace Sys2Proof.Machine

/-- An exact value: what an operation computes before its one rounding (R182). -/
inductive Exact where
  | nan
  | inf (neg : Bool)
  | fin (neg : Bool) (num den : Nat)
  deriving DecidableEq, Repr, Inhabited

end Sys2Proof.Machine
end

