-- ==== Sys2Proof/Machine/State.lean ====
section
/-! DEFINITION. The state of the package as plain data: the tasks with their register contexts, memory and
its publication order, translations, launch records and instances, engines, graft graphs, channels, the
Rilah links and the boot registers; the state after reset; and the names a step can stop with. -/

namespace Sys2Proof.Machine

/-- Why a step faults. No step of this model faults: every failing access of the spec traps, reports a
status or delivers zero (R39, R45, R80). The name exists for the host's interface. Safe. -/
inductive Fault where
  /-- Raised by no step. Safe. -/
  | unreachable
  deriving DecidableEq, Repr

/-- Why a step refuses. -/
inductive Refusal where
  /-- An instruction without a meaning yet; raised by its arm of `exec` only. Safe. -/
  | notModelled (mnemonic : String)
  deriving DecidableEq, Repr

/-- A scope (R85). -/
inductive Scope where
  | core | cluster | die | system
  deriving DecidableEq, Repr, Inhabited

/-- A domain of agents (R85): the agents for which a published store is settled (R90). -/
inductive Domain where
  | core (c : CoreId)
  | cluster (die : BitVec 2) (clu : BitVec 6)
  | die (die : BitVec 2)
  | system
  deriving DecidableEq, Repr, Inhabited

/-- The pending hints of a task (R195): payloads by kind. -/
structure Hints where
  himm : Option (BitVec 22) := none
  hlive : Option (BitVec 22) := none
  hnt : Option (BitVec 2) := none
  hpred : Option (BitVec 4) := none
  hord : Option (BitVec 2 × BitVec 16) := none
  hpri : Option (BitVec 2) := none
  deriving DecidableEq, Repr, Inhabited

/-- One held store (R86): the bytes of one access, kept at the PA its translation gave (R50). -/
structure HeldStore where
  pa : Nat
  data : List Byte
  deriving DecidableEq, Repr, Inhabited

/-- Task states (R133). `saved parked` remembers whether the task was PARKED (R383). -/
inductive Status where
  | ready | running | waiting | suspended | parked | ended
  | saved (parked : Bool)
  deriving DecidableEq, Repr, Inhabited

/-- Progress of an engine operation (R155, R311, R322, R351). -/
inductive OpState where
  | queued | held | remote | finished
  deriving DecidableEq, Repr, Inhabited

/-- An engine operation (R83, R105): the command, who issued it and from where, its block, and what its
completion record will hold (R323). `tag = none` for a message the paddock built (R325); `parts` counts remote
requests not yet answered, `got` the source bytes as read by offset, `seen` what it has read of each byte (R94), `flip` the byte and bit `ERRINJ` inverts,
`wsDie` the die whose weight-store controller a `WSLOAD` holds (R321). -/
structure EngineOp where
  id : Nat
  task : Nat
  core : CoreId
  asid : BitVec 16
  jobkey : BitVec 32
  ctx : W64
  launch : W64
  cmd : Nat
  tag : Option (BitVec 6)
  blk : List W64
  reply : Option W64
  snapshot : Nat
  st : OpState := .queued
  status : Nat := 0
  cause : Nat := 0
  bytes : Nat := 0
  dw2 : W64 := 0
  errva : Option W64 := none
  failedVa : Option W64 := none
  fpv : Bool := false
  dws : List W64 := [0, 0, 0, 0]
  parts : Nat := 0
  got : List (Nat × List Byte) := []
  seen : List (Nat × Nat) := []
  flip : Option (Nat × Nat) := none
  wsDie : Option Nat := none
  deriving DecidableEq, Repr, Inhabited

/-- What a WAITING task waits for (R134); `trapped` is a waiting trough access whose slot fails to translate
(R102), and the trap it raises; `ownCore` is a READY task that goes on only on the core it is at (R113). `inbox` is no yield
point: the task, still RUNNING, waits to put a message into a full inbox (R311), upon which its packet is `pkt` and `pops`
entries have left each queue; an abandoned instruction pops nothing. A resumed task that is READY or RUNNING keeps the wait it
is to issue again (R79, R98). -/
inductive WaitOn where
  | nothing
  | tagAny (mask : W64)
  | tagAll (mask : W64)
  | home
  | resumeWord
  | trapped (cause : BitVec 8) (val : W64)
  | ownCore
  | inbox (op : EngineOp) (pkt : List W32) (pops : List Nat)
  deriving DecidableEq, Repr, Inhabited

/-- The matrix unit's state, which belongs to an issuer task (R280). Lists shorter than their extent read
as zero beyond their end. `latch` is indexed (col * NS + s) * 32 + r, `tiles` by
4096 * t + 128 * r + x, `desc` by col * NG + g, with NS and NG those of the mode's greatest K; `runPc` is the address of the
instruction that started the last run (R166); a run in progress has its latches done up to row and K-step `latched`, the rest
when it ends or stops; `carry` is the t of each column of a recurrence's row that is done in part (R298, R299). -/
structure Mx where
  mode : W64 := 0
  bcells : List Byte := []
  desc : List W32 := []
  half0 : List (List Byte) := []
  half1 : List (List Byte) := []
  latch : List W32 := []
  scales : List (List Byte) := []
  tiles : List W32 := []
  uprog : List W32 := []
  mxstate : W64 := 0
  runFlags : BitVec 5 := 0
  runPc : W64 := 0
  latched : Nat × Nat := (0, 0)
  carry : List W32 := []
  deriving DecidableEq, Repr, Inhabited

/-- A task and its register context (R127, R128). `resident` is false while its context area is the
authoritative copy of its registers (R386), of which `live` tells the ones written there (R132). `g` is the current window,
`saved` the older frames: g8-g23 of each caller, innermost first, so its length is the call depth (R129, R230); of these the
outermost `outFrames` are no longer in the register file, and their copy is the register stack's (R130, R131). `slotsIn`
says that the e-slots have an image in the long-slot file, `slotsOut` that their copy is the context area's. `stalled` says
that the instruction at the pc waits without a yield point (R284), `hintsSaved` that `THINT` and `THINTX` hold hints that a
pre-emption saved (R198), `operands` the vectors that a vector atomic in progress has popped from channels (R274). -/
structure Task where
  key : Nat := 0
  core : CoreId := ⟨0, 0, 0⟩
  status : Status := .ended
  high : Bool := false
  ctx : W64 := 0
  pc : W64 := 0
  g : Vector W64 32 := Vector.replicate 32 0
  saved : List (Vector W64 16) := []
  p : BitVec 8 := 1
  e : Vector W32 64 := Vector.replicate 64 0
  lanes : List (Vector W32 32) := []
  laneImage : List (Vector W32 32) := []
  hints : Hints := {}
  tid : W64 := 0
  lvl : Vector W64 8 := Vector.replicate 8 0
  launch : W64 := 0
  prec : W64 := 0
  rmode : W64 := 0
  fstat : W64 := 0
  fena : W64 := 0
  tags : W64 := 0
  usc : W64 := 0
  slim : W64 := 0
  sbase : W64 := 0
  tepc : W64 := 0
  tcause : W64 := 0
  tval : W64 := 0
  tstat : W64 := 0
  thint : W64 := 0
  thintx : W64 := 0
  tvec : W64 := 0
  wcwait : W64 := 256
  vdone : W64 := 0
  egdepth : W64 := 0x88
  asid : BitVec 16 := 0
  jobkey : BitVec 32 := 0
  held : List HeldStore := []
  snapshot : Nat := 0
  seen : List (Nat × Nat) := []
  outstanding : List Spec := []
  resident : Bool := true
  outFrames : Nat := 0
  slotsIn : Bool := false
  slotsOut : Bool := false
  stalled : Bool := false
  hintsSaved : Bool := false
  live : BitVec 22 := BitVec.allOnes 22
  pktChan : Option (BitVec 4) := none
  pkt : List W32 := []
  operands : Option (List Nat × List Nat) := none
  waitOn : WaitOn := .nothing
  activation : Option (CoreId × BitVec 4) := none
  mx : Mx := {}
  deriving DecidableEq, Repr, Inhabited

/-- Who made a write event (R83). -/
inductive Agent where
  | task (key : Nat)
  | other
  deriving DecidableEq, Repr, Inhabited

/-- A write event of the publication order (R89): its position, its bytes, the bytes they replaced (for the
initial value of R92) and the domains it is settled for (R90). -/
structure WriteEvent where
  pos : Nat
  agent : Agent
  pa : Nat
  data : List Byte
  prev : List Byte
  domains : List Domain
  deriving DecidableEq, Repr, Inhabited

/-- Physical page metadata (R38, R73). -/
structure PageMeta where
  cmp : BitVec 2 := 0
  lay : BitVec 1 := 0
  owner : BitVec 16 := 0
  deriving DecidableEq, Repr, Inhabited

/-- An open write-combining entry (R68): the sector, which of its bytes were written, the `WCWAIT` it uses. -/
structure WcEntry where
  sector : Nat
  written : BitVec 64
  wait : BitVec 16
  deriving DecidableEq, Repr, Inhabited

/-- A held translation (R41): ASID, VA base and length, PA base, leaf attribute bits 11:2. -/
structure TlbEntry where
  asid : BitVec 16
  va : Nat
  len : Nat
  pa : Nat
  attr : Nat
  deriving DecidableEq, Repr, Inhabited

/-- An access waiting at a home (R77, R78, R98, R103, R167). -/
inductive WaitKind where
  | consume (d : Spec) (p : BitVec 3)
  | produce (data : W64) (p : BitVec 3)
  | counter (target : W64) (acq : Bool)
  | push (d : Spec) (entry : Nat) (esz : BitVec 2) (acq : Bool)
  | pop (d : Spec) (entry : Nat) (esz : BitVec 2)
  | park (target : Nat)
  | remoteRead (src : BitVec 16) (pid jkey : BitVec 32)
  | remoteWrite (src : BitVec 16) (pid jkey : BitVec 32) (data : W64)
  deriving DecidableEq, Repr, Inhabited

/-- A retry-list entry (R78): the waiting task, the word it waits on and how, and the VAs its instruction named, the word's
and a trough entry's, with which the access is issued again after a resumption (R79, R98). -/
structure Waiter where
  task : Nat
  pa : Nat
  kind : WaitKind
  va : W64 := 0
  entry : W64 := 0
  deriving DecidableEq, Repr, Inhabited

/-- A configured update function in a slot (R309): the issuer's ASID and the eight words of the image. -/
structure UfSlot where
  slot : BitVec 3
  asid : BitVec 16
  prog : List W32
  deriving DecidableEq, Repr, Inhabited

/-- A launch (R437): one record with one `XASID`. -/
structure Launch where
  recNo : BitVec 14
  xasid : BitVec 16
  deriving DecidableEq, Repr, Inhabited

/-- A cluster that anything has happened on; `id` is die * 64 + index. -/
structure Cluster where
  id : Nat
  cflags : BitVec 5 := 0
  last : Option Launch := none
  uf : List UfSlot := []
  queues : List (List W64) := [[], [], [], [], [], [], [], []]
  deriving DecidableEq, Repr, Inhabited

/-- A writer's staging buffer at one command offset (R48). -/
structure Staging where
  writer : Writer
  slot : CmdSlot
  dw0 : W64 := 0
  dw1 : W64 := 0
  dw2 : W64 := 0
  deriving DecidableEq, Repr

/-- The registers and counts of one die; `errSeen` counts the commands `ERRINJ` has passed (R317), `wsPos` and
`wsPause` are the refresh schedule's position and the pause still to come (R60, R61). -/
structure Die where
  asidTbl : Nat := 0
  supv : W64 := 0
  wsShift : Nat := 0
  wsPos : Nat := 0
  wsPause : Nat := 0
  energy : Nat := 0
  ebudget : W64 := 1000
  winEnergy : Nat := 0
  errinj : W64 := 0
  errSeen : Nat := 0
  temp : BitVec 16 := 0
  hot : Bool := false
  slotNo : Nat := 0
  intCount : W64 := 0
  intPa : W64 := 0
  intKind : W64 := 0
  unbound : W64 := 0
  recLost : W64 := 0
  terms : W64 := 0
  termLaunch : W64 := 0
  termWord : W64 := 0
  termEpc : W64 := 0
  termVal : W64 := 0
  offline : BitVec 64 := 0
  enabled : BitVec 64 := BitVec.allOnes 64
  keyDrops : W64 := 0
  tntDrops : W64 := 0
  opDrops : W64 := 0
  rid : BitVec 16 := 0
  wsLoading : Bool := false
  staging : List Staging := []
  ioq : List (Nat × W64) := []
  uf : List UfSlot := []
  deriving DecidableEq, Repr

/-- Instance states (R148). -/
inductive InstState where
  | waiting | ready | dispatched
  deriving DecidableEq, Repr, Inhabited

/-- A part of an instance in one die's paddock (R154): its next unit and the end of its units; `fresh` while none of them
has been dispatched, so that the part counts as a READY instance. -/
structure Part where
  die : BitVec 2
  next : Nat
  stop : Nat
  fresh : Bool := true
  deriving DecidableEq, Repr, Inhabited

/-- A named region's bytes and full words as a pre-emption saved them (R26): cluster, offset in its window, the VA of its
image in the launch's context area, the offsets of the words that are full. -/
structure SavedRegion where
  clu : Nat
  off : Nat
  va : W64 := 0
  data : List Byte
  full : List Nat
  deriving DecidableEq, Repr, Inhabited

/-- A launch instance (R148, R149): the parts of its units not yet dispatched that are in a paddock, and `outside` those
that wait for space in one (R154), `bad` when a unit ended in error, `pre` while pre-empted (R382), `lost` units to place again (R159),
`quads` the quadrants its level-2 units took (R155), `resuming` the counters of a resume that waits for room
(R383), `regions` its saved named regions (R26). -/
structure Instance where
  recNo : BitVec 14
  gen : BitVec 16
  st : InstState
  pending : Nat
  event : Bool
  cls : BitVec 2
  parts : List Part := []
  outside : List Part := []
  bad : Bool := false
  pre : Bool := false
  lost : List Nat := []
  quads : List (Nat × Nat) := []
  resuming : List W64 := []
  regions : List SavedRegion := []
  deriving DecidableEq, Repr, Inhabited

/-- A forwarding entry of a core (R114): the task that moved away and the destinations of its outstanding loads. -/
structure Forward where
  core : CoreId
  task : Nat
  dests : List Spec
  deriving DecidableEq, Repr, Inhabited

/-- A channel binding (R137, R138) with what its activations copy from the binding task. -/
structure Binding where
  core : CoreId
  chan : BitVec 4
  tag : BitVec 16
  entry : W64
  high : Bool
  launch : W64
  tid : W64
  lvl : Vector W64 8
  deriving DecidableEq, Repr, Inhabited

/-- A packet queued on a core's channel (R137). -/
structure QPacket where
  core : CoreId
  chan : BitVec 4
  data : List W32
  deriving DecidableEq, Repr, Inhabited

/-- An outstanding send (R329); `left` counts down the instructions of its RUNNING sender during which R424 keeps it
outstanding, 256 cycles at 16 each. -/
structure SendRec where
  id : Nat
  task : Nat
  net : BitVec 1
  cls : BitVec 1
  route : W64
  data : List W32
  key : BitVec 16
  pri : BitVec 2
  asid : BitVec 16
  jobkey : BitVec 32
  left : Nat
  deriving DecidableEq, Repr, Inhabited

/-- A bound field port as its graft engine keeps it (R339, R340, R343): the kept descriptor doublewords,
the table copy, the open window's sums and the closed windows with their averages. `area` holds the bytes of the
state area as the engine left them, `dirty` whether it has found them changed, `ruined` whether it has found
every word of them failed (R343). `window` and `recNo` tell what the local window named for the command that bound it (R434). -/
structure Port where
  asid : BitVec 16
  desc : W64
  group : W64
  eng : BitVec 4
  dws : List W64
  nsc : Nat
  nrc : Nat
  rowp : List Nat
  coli : List Nat
  wgt : List W32
  sums : List Exact
  acc : Nat := 0
  opened : Nat := 0
  closed : List (Int × List Exact) := []
  nsend : Nat := 0
  ntake : Nat := 0
  nsat : Nat := 0
  nnan : Nat := 0
  worst : W64 := 0
  heldSend : Option Nat := none
  heldTake : Option Nat := none
  area : List Byte := []
  dirty : Bool := false
  ruined : Bool := false
  window : Option (Nat × Nat) := none
  recNo : Option Nat := none
  deriving DecidableEq, Repr, Inhabited

/-- A reassembly context of an input port (R401); `reserved` when its packet is on the second hop of a detour, for which
the port has space of its own (R391). -/
structure Reassembly where
  cls : BitVec 2
  net : BitVec 2
  flits : List Flit
  tainted : Bool := false
  reserved : Bool := false
  deriving DecidableEq, Repr, Inhabited

/-- The flits of a packet that waits to be sent, with the input port that holds them if it came in by one (R399); `reserved`
when they are held in the space that port has for the second hop of a detour (R391). -/
structure Queued where
  src : Option (BitVec 4) := none
  flits : List Flit
  reserved : Bool := false
  deriving DecidableEq, Repr, Inhabited

/-- A Rilah link (R393-R412) with both of its directions. Sending: packets and K flits that wait, the packets in
progress (`openU`, `openB`), the retry buffer `replay`, of each class the first doubleword of the packet whose first flit
has left it last (`tailU`, `tailB`), the flits of it to send again (`resend`), the pairs the peer
has stopped (`xoff`), the open frame's flits as sent, the flit of the last slot (`out`). Receiving: the pairs this
port has stopped, the open frame's flits, the reassembly contexts. -/
structure Link where
  up : Bool := false
  down : Bool := false
  ksend : BitVec 1 := 0
  swreq : Bool := false
  enc : Bool := false
  ubudget : BitVec 6 := 15
  lframes : W64 := 0
  ltagf : W64 := 0
  lreplay : W64 := 0
  ka : List W64 := [0, 0, 0, 0]
  kb : List W64 := [0, 0, 0, 0]
  kasalt : W64 := 0
  kbsalt : W64 := 0
  loaded : Bool := false
  keys : List (Nat × W32) := []
  sendK : List Flit := []
  sendU : List Queued := []
  sendB : List Queued := []
  openU : Bool := false
  openB : Bool := false
  count : Nat := 0
  txSeq : BitVec 12 := 0
  rxSeq : BitVec 12 := 0
  nakked : Bool := false
  replay : List Flit := []
  tailU : W64 := 0
  tailB : W64 := 0
  resend : List Flit := []
  xoff : List (BitVec 2 × BitVec 2) := []
  stopped : List (BitVec 2 × BitVec 2) := []
  txFrame : List Flit := []
  mark : Bool := false
  out : Option Flit := none
  rxFrame : List Flit := []
  ctxs : List Reassembly := []
  deriving DecidableEq, Repr, Inhabited

/-- Who waits for the answer of a fabric request (R398): a send, or a part of an engine operation at an offset of
its data stream, which asks for bytes at the remote `va` and whose read data goes to `dst`. -/
inductive ReqOwner where
  | send (id : Nat)
  | op (id : Nat) (dst va : W64) (off : Nat)
  deriving DecidableEq, Repr, Inhabited

/-- What a request asks for (R395, R397). -/
structure Ask where
  op : Nat
  fem : Nat := 0
  pri : BitVec 2 := 0
  asid : BitVec 16
  key : BitVec 16 := 0
  jkey : BitVec 32
  addr : W64
  data : List Byte
  cls : Nat
  net : Nat
  deriving DecidableEq, Repr

/-- A request that waits at its source die for room in the retry area or the reply space (R403, R407). -/
structure Backlog where
  die : BitVec 2
  dev : BitVec 16
  ask : Ask
  owner : ReqOwner
  deriving DecidableEq, Repr

/-- A request kept for end-to-end retry at its source die (R403). -/
structure Request where
  die : BitVec 2
  dev : BitVec 16
  pid : BitVec 32
  pkt : Packet
  urgent : Bool
  net : BitVec 2
  sends : Nat
  owner : ReqOwner
  deriving DecidableEq, Repr, Inhabited

/-- The answer kept at the destination of a performed request (R403), with the link on which it was last sent. -/
structure Answer where
  src : BitVec 16
  pid : BitVec 32
  reply : Packet
  link : Option Nat := none
  deriving DecidableEq, Repr, Inhabited

/-- A packet that has come in whole, and may wait to be performed (R137, R402): its port, class and network, whether it
is tainted (R412), and the position at which it came in (R93). -/
structure Arrival where
  link : BitVec 4
  cls : BitVec 2
  net : BitVec 2
  pkt : Packet
  tnt : Bool := false
  pos : Nat := 0
  deriving DecidableEq, Repr, Inhabited

/-- Boot registers and images (R416-R418). -/
structure Boot where
  stage : BitVec 4 := 0
  fail : BitVec 8 := 0
  svn : BitVec 16 := 0
  flash : List Byte := []
  recovery : List (Nat × W64) := []
  retry : Bool := false
  image : List Byte := []
  deriving DecidableEq, Repr, Inhabited

/-- Which move comes next, before the current task issues: an event, an instruction of the running task of a core
(log entry 2), a command that waits in the queue of its offset on a die (R48), the ROM's verification of an image, the
recovery window's or the flash's (R417), or another look at the packet of a source that a port holds (R137, R402). -/
inductive Turn where
  | event (i : Instr)
  | core (c : CoreId)
  | command (die : Nat) (slot : CmdSlot) (d0 d1 d2 d3 : W64)
  | verify (recovery : Bool)
  | held (src : BitVec 16) (pid : BitVec 32)
  deriving DecidableEq, Repr

/-- The package. -/
structure State where
  task : Task
  tasks : List Task
  ready : List Nat
  nextKey : Nat
  mem : List Host.Cell
  full : List Nat
  metas : List (Nat × PageMeta)
  sectors : List (Nat × Byte)
  wcs : List WcEntry
  failed : List (Nat × BitVec 2)
  writes : List WriteEvent
  pos : Nat
  l1 : List (CoreId × TlbEntry)
  rtlb : List (CoreId × TlbEntry)
  dtlb : List (BitVec 2 × TlbEntry)
  waiters : List Waiter
  refusedWaits : List Waiter
  withdrawn : List Waiter
  dies : Vector Die 4
  clusters : List Cluster
  badBanks : List (CoreId × Nat)
  forwards : List Forward
  dieMask : BitVec 4
  recs : List (Nat × W64)
  recLast : List (Nat × W64)
  insts : List Instance
  bindings : List Binding
  chq : List QPacket
  sends : List SendRec
  nextId : Nat
  ops : List EngineOp
  ioTail : List (Nat × Nat)
  ports : List Port
  links : Vector Link 14
  requests : List Request
  backlog : List Backlog
  nextPid : List (Nat × BitVec 32)
  lastKeyed : List (Nat × BitVec 32)
  answers : List Answer
  heldPkts : List Arrival
  performed : List (BitVec 16 × BitVec 32)
  boot : Boot
  hostData : List Byte
  hostSeen : List (Nat × Nat)
  portSeen : List (Nat × List (Nat × Nat))
  agenda : List Turn
  turns : Nat
  tick : Nat
  deriving DecidableEq, Repr

/-- The package right after device reset: no task, no launch, memory with nothing listed, every register at
the reset value its rule gives (INVENTORY.md names each), boot stage 0 (R417). -/
def State.reset : State where
  task := {}
  tasks := []
  ready := []
  nextKey := 1
  mem := []
  full := []
  metas := []
  sectors := []
  wcs := []
  failed := []
  writes := []
  pos := 1
  l1 := []
  rtlb := []
  dtlb := []
  waiters := []
  refusedWaits := []
  withdrawn := []
  dies := Vector.replicate 4 {}
  clusters := []
  badBanks := []
  forwards := []
  dieMask := 0xF
  recs := []
  recLast := []
  insts := []
  bindings := []
  chq := []
  sends := []
  nextId := 0
  ops := []
  ioTail := []
  ports := []
  links := Vector.replicate 14 {}
  requests := []
  backlog := []
  nextPid := []
  lastKeyed := []
  answers := []
  heldPkts := []
  performed := []
  boot := {}
  hostData := []
  hostSeen := []
  portSeen := []
  agenda := []
  turns := 0
  tick := 0

end Sys2Proof.Machine
end

