-- ==== Sys2Proof/Machine/Bits.lean ====
section
/-! DEFINITION. Byte order, sign extension and small list and vector helpers the machine uses (R6). -/

namespace Sys2Proof.Machine

/-- Little-endian value of bytes (R6). -/
def leNat (b : List Byte) : Nat := b.foldr (fun x n => x.toNat + 256 * n) 0

/-- The `n` little-endian bytes of a number (R6). -/
def leBytes : Nat → Nat → List Byte
  | 0, _ => []
  | n + 1, v => BitVec.ofNat 8 v :: leBytes n (v / 256)

/-- Sign extension of the low `w` bits of a number to a doubleword. -/
def sext64 (w v : Nat) : W64 :=
  let x := v % 2 ^ w
  if w = 0 then 0 else if x < 2 ^ (w - 1) then BitVec.ofNat 64 x else BitVec.ofInt 64 ((x : Int) - (2 ^ w : Nat))

/-- The signed value of the low `w` bits of a number. -/
def signedNat (w v : Nat) : Int :=
  let x := v % 2 ^ w
  if 2 * x < 2 ^ w then (x : Int) else (x : Int) - (2 ^ w : Nat)

/-- `n` copies taken by index, as a list: `[f 0, …, f (n-1)]`. -/
def tabulate (n : Nat) (f : Nat → α) : List α := (List.range n).map f

/-- A vector from its elements by index, for 8. -/
def vec8 (f : Nat → α) : Vector α 8 := #v[f 0, f 1, f 2, f 3, f 4, f 5, f 6, f 7]

/-- A vector from its elements by index, for 16. -/
def vec16 (f : Nat → α) : Vector α 16 :=
  #v[f 0, f 1, f 2, f 3, f 4, f 5, f 6, f 7, f 8, f 9, f 10, f 11, f 12, f 13, f 14, f 15]

/-- A vector from its elements by index, for 32. -/
def vec32 (f : Nat → α) : Vector α 32 :=
  #v[f 0, f 1, f 2, f 3, f 4, f 5, f 6, f 7, f 8, f 9, f 10, f 11, f 12, f 13, f 14, f 15,
    f 16, f 17, f 18, f 19, f 20, f 21, f 22, f 23, f 24, f 25, f 26, f 27, f 28, f 29, f 30, f 31]

/-- A vector from its elements by index. -/
def vecOf (n : Nat) (f : Nat → α) : Vector α n := ⟨(tabulate n f).toArray, by simp [tabulate]⟩

/-- Element `n` of a vector, or the default beyond its end. -/
def vget [Inhabited α] (v : Vector α k) (n : Nat) : α := v.toArray.getD n default

/-- A vector with element `n` replaced; beyond its end nothing changes. -/
def vset (v : Vector α k) (n : Nat) (x : α) : Vector α k := v.setIfInBounds n x

/-- The value listed for a key, if any. -/
def lookupKey [BEq κ] (l : List (κ × α)) (k : κ) : Option α := (l.find? (fun p => p.1 == k)).map (·.2)

/-- A key list with the value of one key replaced or added. -/
def setKey [BEq κ] (l : List (κ × α)) (k : κ) (v : α) : List (κ × α) :=
  (k, v) :: l.filter (fun p => !(p.1 == k))

/-- A list with element `n` replaced; beyond its end nothing changes. -/
def lset (l : List α) (n : Nat) (x : α) : List α := l.set n x

/-- Element `n` of a list, or the default. -/
def lget [Inhabited α] (l : List α) (n : Nat) : α := l.getD n default

/-- A list cut or filled up with `d` to length `n`. -/
def padTo (n : Nat) (d : α) (l : List α) : List α := (l ++ List.replicate (n - l.length) d).take n

/-- Cuts a list into pieces of `n`, at most `fuel` of them. -/
def chunks (n : Nat) : Nat → List α → List (List α)
  | 0, _ => []
  | fuel + 1, l => if l.isEmpty then [] else l.take n :: chunks n fuel (l.drop n)

/-- Bits `lo + len - 1` to `lo` of a doubleword as a number. -/
def fieldOf (w : W64) (lo len : Nat) : Nat := bitsOf w.toNat lo len

/-- A doubleword with one field replaced. -/
def withField (w : W64) (lo len v : Nat) : W64 :=
  BitVec.ofNat 64 (w.toNat % 2 ^ lo + (v % 2 ^ len) * 2 ^ lo + w.toNat / 2 ^ (lo + len) * 2 ^ (lo + len))

/-- Whether the bits of a doubleword outside the listed `(lo, len)` fields are zero. -/
def reservedZero (w : Nat) (fields : List (Nat × Nat)) : Bool :=
  w == (fields.map fun f => bitsOf w f.1 f.2 * 2 ^ f.1).sum

/-- Sorted insertion of a key in an ascending list of numbers. -/
def insertNat (x : Nat) : List Nat → List Nat
  | [] => [x]
  | y :: ys => if x < y then x :: y :: ys else if x = y then y :: ys else y :: insertNat x ys

end Sys2Proof.Machine
end

