-- ==== Sys2Proof/Machine/Control.lean ====
section
/-! DEFINITION. The physical map (R40), accessors of dies, clusters, tasks and launch records (R142, R143),
and what a read of the die control space returns (R436). -/

namespace Sys2Proof.Machine

/-- A region of the physical map (R40) with its place: die, cluster, offset in the control space, expander. -/
inductive Region where
  | hbm (die : Nat)
  | weight (die : Nat)
  | scratch (die clu : Nat)
  | control (die off : Nat)
  | far (x : Nat)
  | hole
  deriving DecidableEq, Repr

/-- The region of a PA (R40). -/
def regionOf (pa : Nat) : Region :=
  if pa < 0x8000000000 then .hbm (pa / 0x2000000000)
  else if pa < 0x8080000000 then .weight ((pa - 0x8000000000) / 0x20000000)
  else if 0x8100000000 ≤ pa ∧ pa < 0x8140000000 then
    .scratch ((pa - 0x8100000000) / 0x10000000) ((pa - 0x8100000000) / 0x400000 % 64)
  else if 0xF000000000 ≤ pa ∧ pa < 0xF100000000 then
    .control ((pa - 0xF000000000) / 0x40000000) ((pa - 0xF000000000) % 0x40000000)
  else if 0x100000000000 ≤ pa ∧ pa < 0x1C0000000000 then .far ((pa - 0x100000000000) / 0x18000000000)
  else .hole

/-- First PA of a cluster's scratchpad (R40). -/
def scratchBase (die clu : Nat) : Nat := 0x8100000000 + die * 0x10000000 + clu * 0x400000

/-- Whether full/empty bits exist at a PA (R76): HBM, far tier, scratchpads. -/
def hasFullBits (pa : Nat) : Bool :=
  match regionOf pa with
  | .hbm _ | .scratch .. | .far _ => true
  | _ => false

/-- The home slice of a PA on its home die (R55). Slices cache lines and hold nothing else that shows in the state
(log entry 20), but for the update functions loaded at die scope (R309). -/
def homeSlice (pa : Nat) : Nat :=
  (bitsOf pa 6 6 ^^^ bitsOf pa 12 6) ^^^ (bitsOf pa 18 6 ^^^ bitsOf pa 24 6)

/-- The die on which a PA's home lies (R55, R78). -/
def homeDie (pa : Nat) : Nat :=
  match regionOf pa with
  | .hbm d | .weight d | .scratch d _ | .control d _ => d
  | .far x => x / 2
  | .hole => 0

/-- A die of the package. -/
def State.die (s : State) (d : Nat) : Die := s.dies[d % 4]'(Nat.mod_lt _ (by decide))

/-- Changes one die. -/
def State.setDie (s : State) (d : Nat) (f : Die → Die) : State :=
  { s with dies := s.dies.set (d % 4) (f (s.die d)) (Nat.mod_lt _ (by decide)) }

/-- A Rilah link of the device (R389). -/
def State.link (s : State) (n : Nat) : Link := s.links[n % 14]'(Nat.mod_lt _ (by decide))

/-- Changes one link. -/
def State.setLink (s : State) (n : Nat) (f : Link → Link) : State :=
  { s with links := s.links.set (n % 14) (f (s.link n)) (Nat.mod_lt _ (by decide)) }

/-- Core `k` of a die's cluster. -/
def coreAt (d clu k : Nat) : CoreId := ⟨BitVec.ofNat 2 d, BitVec.ofNat 6 clu, BitVec.ofNat 4 k⟩

/-- The package index of a cluster. -/
def clusterId (c : CoreId) : Nat := c.die.toNat * 64 + c.clu.toNat

/-- A cluster by its package index; one nothing happened on is at its reset state. -/
def State.cluster (s : State) (id : Nat) : Cluster := (s.clusters.find? (·.id == id)).getD { id := id }

/-- Changes one cluster. -/
def State.setCluster (s : State) (id : Nat) (f : Cluster → Cluster) : State :=
  { s with clusters := f (s.cluster id) :: s.clusters.filter (·.id != id) }

/-- Every task of the package. -/
def State.allTasks (s : State) : List Task := s.task :: s.tasks

/-- A task by its number. -/
def State.taskOf (s : State) (key : Nat) : Option Task := s.allTasks.find? (·.key == key)

/-- Changes the current task. -/
def State.setTask (s : State) (f : Task → Task) : State := { s with task := f s.task }

/-- Changes the task with a number, wherever it is. -/
def State.updTask (s : State) (key : Nat) (f : Task → Task) : State :=
  if s.task.key = key then { s with task := f s.task }
  else { s with tasks := s.tasks.map fun t => if t.key = key then f t else t }

/-- Makes another task the current one, keeping the former in the list. -/
def State.swapTo (s : State) (key : Nat) : State :=
  if s.task.key = key then s
  else match s.tasks.find? (·.key == key) with
    | none => s
    | some t => { s with task := t, tasks := s.task :: s.tasks.filter (·.key != key) }

/-- Makes another task the current one; a former one that has ended is gone. -/
def State.switchTo (s : State) (key : Nat) : State :=
  let s' := s.swapTo key
  if s.task.status = .ended ∧ s'.task.key ≠ s.task.key then { s' with tasks := s'.tasks.filter (·.key != s.task.key) }
  else s'

/-- Runs a change of state as another task, then makes the former task current again. -/
def State.asTask (s : State) (key : Nat) (f : State → State) : State := (f (s.swapTo key)).swapTo s.task.key

/-- Appends turns to those that come next (log entry 2). -/
def State.push (s : State) (t : List Turn) : State := { s with agenda := s.agenda ++ t }

/-- Appends one event. -/
def State.pushEvent (s : State) (i : Instr) : State := s.push [.event i]

/-- Draws the next free choice among `n` (log entry 4). -/
def State.draw (s : State) (n : Nat) : Nat × State :=
  (Config.freeIndex s.tick % n, { s with tick := s.tick + 1 })

/-- Key of a doubleword of a launch record (R142, R143). -/
def recKey (r dw : Nat) : Nat := r * 64 + dw

/-- A doubleword of a launch record (R143); one nothing has written is zero (log entry 12). -/
def State.recDw (s : State) (r dw : Nat) : W64 := (lookupKey s.recs (recKey r dw)).getD 0

/-- Writes a doubleword of a launch record. -/
def State.setRecDw (s : State) (r dw : Nat) (v : W64) : State :=
  { s with recs := setKey s.recs (recKey r dw) v }

/-- A field of a launch record (R143). -/
def State.recField (s : State) (r dw lo len : Nat) : Nat := fieldOf (s.recDw r dw) lo len

/-- Writes a field of a launch record. -/
def State.setRecField (s : State) (r dw lo len v : Nat) : State :=
  s.setRecDw r dw (withField (s.recDw r dw) lo len v)

/-- `LIVE` of a record (R143). -/
def State.live (s : State) (r : Nat) : Nat := s.recField r 0 40 8
/-- `GEN` of a record (R143). -/
def State.gen (s : State) (r : Nat) : Nat := s.recField r 0 48 16
/-- `CRED` of a record (R143). -/
def State.cred (s : State) (r : Nat) : Nat := s.recField r 0 32 8
/-- `WORK` of a record (R143). -/
def State.work (s : State) (r : Nat) : Nat := s.recField r 3 0 25
/-- `UNIT` of a record (R143). -/
def State.unit (s : State) (r : Nat) : Nat := s.recField r 0 17 3
/-- `XASID` of a record (R143). -/
def State.xasid (s : State) (r : Nat) : BitVec 16 := BitVec.ofNat 16 (s.recField r 4 32 16)
/-- The launch a record is, with its `XASID` (R437). -/
def State.launchOf (s : State) (r : BitVec 14) : Launch := ⟨r, s.xasid r.toNat⟩

/-- The `k`-th key of a link's membership table (R405). -/
def Link.key (l : Link) (k : Nat) : W32 := (lookupKey l.keys k).getD 0

/-- The registers of a link's block as they read (R409): keys read zero. -/
def Link.reg (l : Link) (off : Nat) : W64 :=
  if off = 0 then
    BitVec.ofNat 64 (l.up.toNat + 2 * l.down.toNat + 4 * l.ksend.toNat + 8 * l.swreq.toNat +
      16 * l.enc.toNat + 256 * l.ubudget.toNat)
  else if off = 0x08 then l.lframes
  else if off = 0x10 then l.ltagf
  else if off = 0x18 then l.lreplay
  else if off = 0x40 then l.kasalt
  else if off = 0x80 then l.kbsalt
  else 0

/-- A doubleword of a die's control space as a read returns it (R436); an offset no rule describes reads
zero. -/
def State.controlDw (s : State) (die off : Nat) : W64 :=
  let d := s.die die
  if off = 0x100 then
    if die = 0 then
      BitVec.ofNat 64 (s.boot.stage.toNat + 256 * s.boot.fail.toNat + 65536 * s.boot.svn.toNat + 2 ^ 32 * s.boot.retry.toNat)
    else 0
  else if off = 0x2000 then d.intCount
  else if off = 0x2008 then d.intPa
  else if off = 0x2010 then d.intKind
  else if off = 0x2018 then d.unbound
  else if off = 0x2020 then d.recLost
  else if off = 0x2028 then d.terms
  else if off = 0x2040 then d.termLaunch
  else if off = 0x2048 then d.termWord
  else if off = 0x2050 then d.termEpc
  else if off = 0x2058 then d.termVal
  else if off = 0x2060 then d.offline
  else if off = 0x2068 then d.enabled
  else if off = 0x2070 then BitVec.ofNat 64 d.energy
  else if off = 0x2078 then BitVec.ofNat 64 d.temp.toNat
  else if 0x3000 ≤ off ∧ off < 0x3200 then
    BitVec.ofNat 64 (s.cluster (die * 64 + (off - 0x3000) / 8)).cflags.toNat
  else if 0x4000 ≤ off ∧ off < 0x8000 then (lookupKey d.ioq ((off - 0x4000) / 8)).getD 0
  else if 0x8000 ≤ off ∧ off < 0x8E00 then
    let n := (off - 0x8000) / 0x100
    if n % 4 = die then (s.link n).reg (off % 0x100) else 0
  else if off = 0x8F00 then BitVec.ofNat 64 d.rid.toNat
  else if off = 0x8F08 then d.keyDrops
  else if off = 0x8F10 then d.tntDrops
  else if off = 0x8F18 then d.opDrops
  else if 0x10000 ≤ off ∧ off < 0x1E000 then
    let n := (off - 0x10000) / 0x1000
    let k := off % 0x1000 / 4
    if n % 4 = die then
      BitVec.ofNat 64 (((s.link n).key k).toNat + 2 ^ 32 * ((s.link n).key (k + 1)).toNat)
    else 0
  else if 0x100000 ≤ off ∧ off < 0x300000 then
    let i := (off - 0x100000) / 512
    s.recDw (die * 4096 + i) (off % 512 / 8)
  else if 0x10000000 ≤ off ∧ off < 0x14000000 then
    if die = 0 ∧ s.boot.stage = 15 then (lookupKey s.boot.recovery (off - 0x10000000)).getD 0 else 0
  else 0

/-- The command offset that an offset of the control space lies in (R48, R419). -/
def slotAt (off : Nat) : Option CmdSlot :=
  match off / 32 with
  | 0x80 => some .invalidate
  | 0x82 => some .page
  | 0x84 => some .preempt
  | 0x86 => some .attest
  | 0x88 => some .launch
  | _ => none

/-- The first offset of a command (R48, R419). -/
def slotOffset : CmdSlot → Nat
  | .invalidate => 0x1000
  | .page => 0x1040
  | .preempt => 0x1080
  | .attest => 0x10C0
  | .launch => 0x1100

/-- A writer's staging buffer at a command offset of a die (R48). -/
def State.stagingOf (s : State) (w : Writer) (d : Nat) (slot : CmdSlot) : Staging :=
  ((s.die d).staging.find? fun b => b.writer == w && b.slot == slot).getD { writer := w, slot := slot }

/-- What is left for the host of the control space while an image is refused (R417): `BOOTST` and the recovery window. -/
def barOpen (off : Nat) : Bool := off == 0x100 || decide (0x10000000 ≤ off ∧ off < 0x14000000)

/-- A doubleword of a die's control space as a reader finds it (R417, R436). DEDUCED (log entry 32): at a command offset it
reads what it has staged there itself. -/
def State.controlRead (s : State) (w : Writer) (die off : Nat) : W64 :=
  if s.boot.stage = 15 ∧ w = .host ∧ !barOpen off then 0
  else match slotAt off with
    | none => s.controlDw die off
    | some slot =>
      let b := s.stagingOf w die slot
      lget [b.dw0, b.dw1, b.dw2, 0] (off % 32 / 8)

/-- A byte of the control space as a reader finds it (R436). -/
def State.controlByte (s : State) (w : Writer) (pa : Nat) : Byte :=
  match regionOf pa with
  | .control die off => BitVec.ofNat 8 (bitsOf (s.controlRead w die (off / 8 * 8)).toNat (8 * (off % 8)) 8)
  | _ => 0

/-- The byte of memory at a PA (log entry 1), or of the control space (R436). -/
def State.byteAt (s : State) (pa : Nat) : Byte :=
  match regionOf pa with
  | .control die off => BitVec.ofNat 8 (bitsOf (s.controlDw die (off / 8 * 8)).toNat (8 * (off % 8)) 8)
  | _ => (lookupKey s.mem pa).getD 0

/-- `n` bytes at a PA. -/
def State.bytesAt (s : State) (pa n : Nat) : List Byte := tabulate n fun i => s.byteAt (pa + i)

/-- The doubleword at a PA. -/
def State.wordAt (s : State) (pa : Nat) : W64 := BitVec.ofNat 64 (leNat (s.bytesAt pa 8))

end Sys2Proof.Machine
end

