-- ==== Sys2Proof/Machine/Mem.lean ====
section
/-! DEFINITION. Physical memory: its canonical form (log entry 1), full/empty bits (R76), integrity failures
(R80), the sector code and its write-combining entries (R64-R69), write events (R89) and the read rule
(R92-R94). -/

namespace Sys2Proof.Machine

/-- Sets one byte of a canonical memory; the value an unlisted address reads as is not listed. -/
def memSet : List Host.Cell → Nat → Byte → List Host.Cell
  | [], a, b => if b = 0 then [] else [(a, b)]
  | (x, y) :: m, a, b =>
    if a < x then (if b = 0 then (x, y) :: m else (a, b) :: (x, y) :: m)
    else if a = x then (if b = 0 then m else (a, b) :: m)
    else (x, y) :: memSet m a b

/-- Sets consecutive bytes. -/
def memSetBytes : List Host.Cell → Nat → List Byte → List Host.Cell
  | m, _, [] => m
  | m, a, b :: bs => memSetBytes (memSet m a b) (a + 1) bs

/-- The canonical form: addresses strictly rising, no entry equal to what an unlisted address reads as. -/
def Memory.wf : List Host.Cell → Bool
  | [] => true
  | [(_, y)] => y != 0
  | (x, y) :: (x', y') :: m => y != 0 && decide (x < x') && Memory.wf ((x', y') :: m)

/-- The full/empty bit of the word at a PA (R76). -/
def State.isFull (s : State) (pa : Nat) : Bool := s.full.contains (pa / 8 * 8)

/-- Sets the full/empty bit of the word at a PA; the weight store and the control space have none. -/
def State.setFull (s : State) (pa : Nat) (b : Bool) : State :=
  if hasFullBits pa then
    { s with full := if b then insertNat (pa / 8 * 8) s.full else s.full.filter (· != pa / 8 * 8) }
  else s

/-- Metadata of the page that holds a PA (R38, R73). -/
def State.pageMeta (s : State) (pa : Nat) : PageMeta := (lookupKey s.metas (pa / 4096)).getD {}

/-- First PA and length of the unit that a failure of a kind makes zero (R80): a weight-store line, the sector of a
failed mode byte (R73), else a word. -/
def unitOf (f : Nat × BitVec 2) : Nat × Nat :=
  match regionOf f.1, f.2 with
  | .weight _, _ => (f.1 / 64 * 64, 64)
  | _, 2 => (f.1 / 64 * 64, 64)
  | _, _ => (f.1 / 8 * 8, 8)

/-- The failed units that `n` bytes at a PA touch, lowest first (R80). -/
def State.failedIn (s : State) (pa n : Nat) : List (Nat × BitVec 2) :=
  s.failed.filter fun f => decide ((unitOf f).1 < pa + n ∧ pa < (unitOf f).1 + (unitOf f).2)

/-- Bytes with those of a range of addresses zero, the first byte standing at `at_`. -/
def zeroIn (pa n at_ : Nat) (data : List Byte) : List Byte :=
  data.zipIdx.map fun b => if decide (pa ≤ at_ + b.2 ∧ at_ + b.2 < pa + n) then 0 else b.1

/-- A write event whose bytes in a zeroed range are zero, before it and after it. -/
def WriteEvent.zeroed (pa n : Nat) (e : WriteEvent) : WriteEvent :=
  { e with data := zeroIn pa n e.pa e.data, prev := zeroIn pa n e.pa e.prev }

/-- Hardware zeroes `n` bytes at a PA (R72, R80, R81): from here on no read returns what any earlier write event left
there (R82, R92). -/
def State.scrub (s : State) (pa n : Nat) : State :=
  { s with mem := memSetBytes s.mem pa (List.replicate n 0),
           writes := (s.writes.filter fun e => !decide (pa ≤ e.pa ∧ e.pa + e.data.length ≤ pa + n)).map (·.zeroed pa n) }

/-- Meets an integrity failure: the unit is rewritten as zero, empty, and logged (R80). DEDUCED (log entry 35): the die
that counts and records it is the home die of the failed unit. -/
def State.meetFailure (s : State) (f : Nat × BitVec 2) : State :=
  let u := unitOf f
  let s := { s.scrub u.1 u.2 with failed := s.failed.filter (· != f) }
  let s := (List.range (u.2 / 8)).foldl (fun s k => s.setFull (u.1 + 8 * k) false) s
  s.setDie (homeDie u.1) fun d =>
    { d with intCount := d.intCount + 1, intPa := BitVec.ofNat 64 u.1, intKind := f.2.setWidth 64 }

/-- An access that reads `n` bytes at a PA meets every failure there (R80). -/
def State.meetFailures (s : State) (pa n : Nat) : State := (s.failedIn pa n).foldl State.meetFailure s

/-- The elements of a sector: 16 of 32 bits or 8 of 64 (R64). -/
def sectorElems (wide : Bool) (b : List Byte) : List Nat :=
  let w := if wide then 8 else 4
  tabulate (64 / w) fun i => leNat ((b.drop (i * w)).take w)

/-- Whether every element is element 0 plus a delta of `bits` bits (R65, R66). -/
def deltasFit (wide : Bool) (bits : Nat) (b : List Byte) : Bool :=
  let w := if wide then 64 else 32
  let e := sectorElems wide b
  e.all fun x =>
    let d := signedNat w (x + 2 ^ w - lget e 0)
    decide (-(2 ^ (bits - 1) : Nat) ≤ d ∧ d < (2 ^ (bits - 1) : Nat))

/-- The mode byte the encoder gives a whole sector (R64, R66). -/
def sectorMode (b : List Byte) : Byte :=
  if b.all (· == 0) then 0x20
  else if (sectorElems true b).all (· == lget (sectorElems true b) 0) then 0x90
  else if (sectorElems false b).all (· == lget (sectorElems false b) 0) then 0x80
  else if deltasFit true 8 b then 0x50
  else if deltasFit false 8 b then 0x40
  else if deltasFit true 16 b then 0x70
  else if deltasFit false 16 b then 0x60
  else 0x00

/-- Bytes of a delta in the modes 010 and 011 (R65). -/
def deltaBytes (mode : Nat) : Nat := if mode = 2 then 1 else 2

/-- The encoded bytes of a sector under a mode byte, from slot byte 0 (R65): base, then the deltas in element order. -/
def slotBytes (m : Byte) (b : List Byte) : List Byte :=
  let wide := bitAt m.toNat 4
  let w := if wide then 8 else 4
  let e := sectorElems wide b
  let mode := bitsOf m.toNat 5 3
  if mode = 0 then b
  else if mode = 1 then []
  else if mode = 4 then leBytes w (lget e 0)
  else leBytes w (lget e 0) ++ (e.map fun x => leBytes (deltaBytes mode) (x + 2 ^ (8 * w) - lget e 0)).flatten

/-- The 64 bytes that a sector's slot decodes to (R65). -/
def unslot (m : Byte) (slot : List Byte) : List Byte :=
  let w := if bitAt m.toNat 4 then 8 else 4
  let mode := bitsOf m.toNat 5 3
  let base := leNat (slot.take w)
  if mode = 0 then slot
  else if mode = 1 then List.replicate 64 0
  else if mode = 4 then (List.replicate (64 / w) (leBytes w base)).flatten
  else
    let k := deltaBytes mode
    (tabulate (64 / w) fun i => leBytes w
      (base + (sext64 (8 * k) (leNat ((slot.drop (w + k * i)).take k))).toNat)).flatten

/-- Granules of 32 bytes that a read of a sector fetches (R65, R67). -/
def slotGranules (m : Byte) (b : List Byte) : Nat := ((slotBytes m b).length + 31) / 32

/-- The PA at which the base die stores the byte of a PA: in tiled layout, row r's chunk j stands in chunk position
j XOR (r mod 8) of its row (R70). -/
def State.storedAt (s : State) (pa : Nat) : Nat :=
  if (s.pageMeta pa).lay = 1 then pa / 128 * 128 + 16 * Nat.xor (pa / 16 % 8) (pa / 128 % 8) + pa % 16 else pa

/-- The 64 bytes of a stored sector (R64, R70); the chunk map is its own inverse. -/
def State.storedSector (s : State) (sec : Nat) : List Byte := tabulate 64 fun i => s.byteAt (s.storedAt (sec * 64 + i))

/-- The encoded bytes a sector's slot holds (R65, R70). -/
def State.slot64 (s : State) (sec : Nat) : List Byte := slotBytes (sectorMode (s.storedSector sec)) (s.storedSector sec)

/-- Encodes a stored sector as its bytes stand; an all-zero sector is not listed (R66, R70). -/
def State.encodeSector (s : State) (sec : Nat) : State :=
  let m := sectorMode (s.storedSector sec)
  { s with sectors := if m = 0x20 then s.sectors.filter (·.1 != sec) else setKey s.sectors sec m,
           wcs := s.wcs.filter (·.sector != sec) }

/-- A read-modify-write of a stored sector: it reads the words that were not written, meets their failures, and encodes the
sector (R68, R80). -/
def State.mergeSector (s : State) (sec : Nat) : State :=
  ((s.failed.filter fun f => s.storedAt (unitOf f).1 / 64 == sec).foldl State.meetFailure s).encodeSector sec

/-- Closes the write-combining entry of a stored sector by read-modify-write, if one is open (R68, R69). -/
def State.closeSector (s : State) (sec : Nat) : State :=
  if s.wcs.any (·.sector == sec) then s.mergeSector sec else s

/-- The stored sector that holds a word (R70). -/
def State.sectorAt (s : State) (pa : Nat) : Nat := s.storedAt pa / 64

/-- A home operation on a word first closes the open entry of its sector (R69). -/
def State.closeAt (s : State) (pa : Nat) : State := s.closeSector (s.sectorAt pa)

/-- The HBM stack a sector lies in (R40, R68). -/
def stackOf (sec : Nat) : Nat := sec * 64 / 0x1000000000

/-- What a write of the bytes of a mask does to a stored sector of a compressed page (R68). With `WCWAIT` 0 the write is a
read-modify-write at once; DEDUCED (log entry 35): also where the sector's entry is open, which that closes. A write of the
whole sector first closes its open entry. -/
def State.sectorTouch (s : State) (wait : BitVec 16) (sec : Nat) (mask : BitVec 64) : State :=
  if sec * 64 < 0x8000000000 ∧ (s.pageMeta (sec * 64)).cmp = 1 then
    if mask = BitVec.allOnes 64 then s.encodeSector sec
    else if wait = 0 then s.mergeSector sec
    else match s.wcs.find? (·.sector == sec) with
      | some e =>
        let m := e.written ||| mask
        if m = BitVec.allOnes 64 then s.encodeSector sec
        else { s with wcs := s.wcs.map fun x => if x.sector = sec then { x with written := m } else x }
      | none =>
        let mine := s.wcs.filter (fun x => stackOf x.sector == stackOf sec)
        let s := match mine with
          | e :: _ => if 4096 ≤ mine.length then s.mergeSector e.sector else s
          | [] => s
        { s with wcs := s.wcs ++ [⟨sec, mask, wait⟩] }
  else s

/-- The bytes of a sector that `n` bytes at a PA cover, as a mask. -/
def sectorMask (sec pa n : Nat) : BitVec 64 :=
  BitVec.ofNat 64 (((List.range 64).filter fun i => decide (pa ≤ sec * 64 + i ∧ sec * 64 + i < pa + n)).map (2 ^ ·)).sum

/-- The sectors that `n` bytes at a PA touch. -/
def sectorsOf (pa n : Nat) : List Nat := tabulate ((pa + n - 1) / 64 + 1 - pa / 64) fun i => pa / 64 + i

/-- Whether a write of `n` bytes at a PA replaces a failed unit without reading it (R80): one that names its units whole
(`whole`), or one of the whole sector of a compressed page (R68). -/
def State.replaces (s : State) (whole : Bool) (pa n : Nat) (f : Nat × BitVec 2) : Bool :=
  let u := unitOf f
  let sec := u.1 / 64 * 64
  (whole && decide (pa ≤ u.1 ∧ u.1 + u.2 ≤ pa + n)) ||
  decide (pa ≤ sec ∧ sec + 64 ≤ pa + n ∧ sec < 0x8000000000 ∧ (s.pageMeta sec).cmp = 1)

/-- The failed units that a write of `n` bytes at a PA replaces are gone unread, and uncounted: no read returns what they held
(R80). -/
def State.dropReplaced (s : State) (whole : Bool) (pa n : Nat) : State :=
  (s.failed.filter (s.replaces whole pa n)).foldl (fun s f =>
    { s.scrub (unitOf f).1 (unitOf f).2 with failed := s.failed.filter (· != f) }) s

/-- A write of whole sectors first closes their open entries (R68). -/
def State.closeWhole (s : State) (pa n : Nat) : State :=
  if s.wcs = [] then s
  else ((sectorsOf pa n).filter fun sec => decide (pa ≤ sec * 64 ∧ sec * 64 + 64 ≤ pa + n)).foldl (fun s sec => s.closeAt (sec * 64)) s

/-- What a write of `n` bytes at a PA does before it puts them: the open entries of whole sectors close, failed units that it
replaces are gone, and the failures of the others are met (R68, R80). -/
def State.beforePut (s : State) (whole : Bool) (pa n : Nat) : State :=
  ((s.closeWhole pa n).dropReplaced whole pa n).meetFailures pa n

/-- Puts bytes into memory, what stood there being met first (R80); a hole and the control space take no bytes. -/
def State.putBytes (s : State) (whole : Bool) (pa : Nat) (data : List Byte) : State :=
  match regionOf pa with
  | .hole | .control .. => s
  | _ =>
    let s := s.beforePut whole pa data.length
    { s with mem := memSetBytes s.mem pa data }

/-- Takes the next position of the publication order (R89). -/
def State.nextPos (s : State) : Nat × State := (s.pos, { s with pos := s.pos + 1 })

/-- Adds a write event at a position and puts its bytes into memory, without the sector code (R89, R94). The bytes it replaces
are those it finds once the failures there are met (R80). -/
def State.writeEvent (s : State) (whole : Bool) (pos : Nat) (a : Agent) (doms : List Domain) (pa : Nat)
    (data : List Byte) : State :=
  let s := s.beforePut whole pa data.length
  let e : WriteEvent := ⟨pos, a, pa, data, s.bytesAt pa data.length, doms⟩
  let s := s.putBytes whole pa data
  { s with writes := s.writes ++ [e] }

/-- The stored sector of a sector of PAs, and its mask for a mask of PAs: the two halves of a tiled row trade places in
rows 4 to 7 of each eight, and the chunks of a half in the others (R70). -/
def State.storedMask (s : State) (sec : Nat) (mask : BitVec 64) : Nat × BitVec 64 :=
  (s.sectorAt (sec * 64),
   if (s.pageMeta (sec * 64)).lay = 1 then
     BitVec.ofNat 64 (((List.range 64).filter mask.getLsbD).map fun i => 2 ^ (s.storedAt (sec * 64 + i) % 64)).sum
   else mask)

/-- Applies the sector code to a write of the bytes of a mask of a sector of PAs (R68, R70). -/
def State.touchMask (s : State) (wait : BitVec 16) (sec : Nat) (mask : BitVec 64) : State :=
  let m := s.storedMask sec mask
  s.sectorTouch wait m.1 m.2

/-- Applies the sector code to a write of `n` bytes at a PA (R68). -/
def State.touchSectors (s : State) (wait : BitVec 16) (pa n : Nat) : State :=
  (sectorsOf pa n).foldl (fun s sec => s.touchMask wait sec (sectorMask sec pa n)) s

/-- The `WCWAIT` of a task whose write opens an entry; DESIGN CHOICE (log entry 13): 256 for every other agent (R68). -/
def State.wcWait (s : State) : Agent → BitVec 16
  | .task key => ((s.taskOf key).map fun t => BitVec.ofNat 16 t.wcwait.toNat).getD 256
  | .other => 256

/-- A write performed at a home for a task at a position, settled at system scope (R77, R106, R116). -/
def State.putAt (s : State) (whole : Bool) (pos : Nat) (a : Agent) (pa : Nat) (data : List Byte) : State :=
  (s.writeEvent whole pos a [.system] pa data).touchSectors (s.wcWait a) pa data.length

/-- A write by an engine, an ingress port or the host at a home: it takes its own position, and joins an open
write-combining entry of its sector (R68, R89, R106). -/
def State.agentPut (s : State) (whole : Bool) (a : Agent) (pa : Nat) (data : List Byte) : State :=
  let (pos, s) := s.nextPos
  (s.writeEvent whole pos a [.system] pa data).touchSectors 256 pa data.length

/-- A write that a task makes at a home without holding it: it takes its own position, and joins an open write-combining
entry of its sector under the task's `WCWAIT` (R68, R89). -/
def State.taskPut (s : State) (whole : Bool) (a : Agent) (pa : Nat) (data : List Byte) : State :=
  let (pos, s) := s.nextPos
  s.putAt whole pos a pa data

/-- The write of an operation performed at a word's home: it takes its own position and is settled at system scope. An
open write-combining entry of the sector closes first (R69). -/
def State.homePut (s : State) (whole : Bool) (a : Agent) (pa : Nat) (data : List Byte) : State :=
  (s.closeAt pa).taskPut whole a pa data

/-- What one write transaction to the control space of at most 64 bits leaves to do: an aligned 64-bit write, or
a 32-bit write of a membership key; any other write is discarded (R405, R436). -/
def controlEvent (w : Writer) (die off : Nat) (data : List Byte) : List Turn :=
  if data.length = 8 ∧ off % 8 = 0 then
    [.event (.registerWrite (.control w (BitVec.ofNat 2 die) (BitVec.ofNat 30 off)) (BitVec.ofNat 64 (leNat data)))]
  else if data.length = 4 ∧ off % 4 = 0 ∧ 0x10000 ≤ off ∧ off < 0x1E000 ∧ (off - 0x10000) / 0x1000 % 4 = die then
    [.event (.membershipKeyWrite (BitVec.ofNat 4 ((off - 0x10000) / 0x1000)) (BitVec.ofNat 10 (off % 0x1000 / 4)) 0
      (BitVec.ofNat 64 (leNat data)))]
  else []

/-- What a write transaction that reaches the control space leaves to do; a wider one acts as aligned 64-bit
writes in ascending order (R436). -/
def controlEvents (w : Writer) (pa : Nat) (data : List Byte) : List Turn :=
  match regionOf pa with
  | .control die off =>
    if data.length ≤ 8 then controlEvent w die off data
    else
      let skip := (8 - off % 8) % 8
      let ds := chunks 8 data.length (data.drop skip)
      (ds.zipIdx.map fun d => if d.1.length = 8 then controlEvent w die (off + skip + 8 * d.2) d.1 else []).flatten
  | _ => []

/-- Who writes the control space when an agent does (R48). -/
def Agent.writer : Agent → Writer
  | .task key => .task key
  | .other => .unit

/-- Where an agent reads from: the die, cluster and core whose domains it is in, and the die of the engine that performs
it (R85). -/
structure Loc where
  die : Option (BitVec 2) := none
  clu : Option (BitVec 6) := none
  core : Option (BitVec 4) := none
  eng : Option (BitVec 2) := none
  deriving DecidableEq, Repr

/-- Where a task on a core is. -/
def coreLoc (c : CoreId) : Loc := ⟨some c.die, some c.clu, some c.core, none⟩

/-- Where an engine operation issued from a core is: in its cluster and die, and in its engine's die (R85). -/
def engineLoc (c : CoreId) (eng : BitVec 2) : Loc := ⟨some c.die, some c.clu, none, some eng⟩

/-- Whether an agent at a place is in a domain (R85). -/
def Domain.has : Domain → Loc → Bool
  | .core c, l => l == coreLoc c
  | .cluster d k, l => l.die == some d && l.clu == some k
  | .die d, l => l.die == some d || l.eng == some d
  | .system, _ => true

/-- The domain of a scope around a core (R85). -/
def Scope.domain (sc : Scope) (c : CoreId) : Domain :=
  match sc with
  | .core => .core c
  | .cluster => .cluster c.die c.clu
  | .die => .die c.die
  | .system => .system

/-- A reader under R92: where it is, its snapshot point, and what it has read of each byte (R94). -/
structure Reader where
  loc : Loc
  snapshot : Nat
  seen : List (Nat × Nat) := []
  deriving DecidableEq, Repr

/-- The reader a task is (R92). -/
def Task.reader (t : Task) : Reader := ⟨coreLoc t.core, t.snapshot, t.seen⟩

/-- The value a write event gives a byte. -/
def WriteEvent.at (e : WriteEvent) (x : Nat) : Byte := e.data.getD (x - e.pa) 0

/-- The events that write a byte, in the order of their positions (R89). -/
def State.eventsOf (s : State) (x : Nat) : List WriteEvent :=
  s.writes.filter fun e => decide (e.pa ≤ x ∧ x < e.pa + e.data.length)

/-- The value of a byte before the first write event (R92). -/
def State.initialByte (s : State) (x : Nat) : Byte :=
  match s.eventsOf x with
  | [] => s.byteAt x
  | e :: _ => e.prev.getD (x - e.pa) 0

/-- What a byte may return: the position and first PA of the write event (both zero for the initial value), and the
value it gives. -/
structure Candidate where
  pos : Nat
  pa : Nat
  value : Byte
  deriving DecidableEq, Repr, Inhabited

/-- What a read of a byte may return, in the order of positions (R92, R94). DEDUCED (log entry 5): R92 counts the agent's own
writes as it counts any other's, so that after an unordered home-performed write of its own a read has several values, of which
R95 would leave one. -/
def State.candidates (s : State) (r : Reader) (x : Nat) : List Candidate :=
  let es := s.eventsOf x
  let settled := fun (e : WriteEvent) => e.domains.any (·.has r.loc)
  let base := (es.filter fun e => settled e && decide (e.pos ≤ r.snapshot)).getLast?
  let isBase := fun (e : WriteEvent) => some e == base
  let own := es.filter fun e => isBase e || !settled e || decide (r.snapshot < e.pos)
  let all := own.map fun e => (⟨e.pos, e.pa, e.at x⟩ : Candidate)
  let all := if base.isNone then ⟨0, 0, s.initialByte x⟩ :: all else all
  let least := (lookupKey r.seen x).getD 0
  let ok := all.filter fun p => decide (least ≤ p.pos)
  if ok.isEmpty then [match base with | some e => ⟨e.pos, e.pa, e.at x⟩ | none => ⟨0, 0, s.initialByte x⟩] else ok

/-- A single-copy atomic read of consecutive bytes under R92 (R84): which events the read sees is drawn event by event, for
all its bytes alike, and each byte returns its latest seen candidate. A byte that would see none sees its earliest
candidate's event, and so do the others (log entry 5). -/
def State.readRule (s : State) (r : Reader) (pa n : Nat) : List Candidate × State :=
  let cs := tabulate n fun i => s.candidates r (pa + i)
  if cs.all (fun c => decide (c.length ≤ 1)) then (cs.map fun c => lget c 0, s)
  else
    let drawn := fun (c : Candidate) => Config.freeSee s.tick c.pos c.pa
    let must := (cs.filter fun c => !c.any drawn).map fun c => (lget c 0).pos
    let sees := fun (c : Candidate) => drawn c || must.contains c.pos
    (cs.map fun c => ((c.filter sees).getLast?).getD (lget c 0), { s with tick := s.tick + 1 })

/-- Cuts `n` bytes at a PA at every multiple of a unit: the single-copy atomic parts of an access (R84). In the weight store
they are its 64-byte lines, which a `WSLOAD` writes whole (R58). -/
def atomicParts (unit pa n : Nat) : List (Nat × Nat) :=
  let u := match regionOf pa with | .weight _ => 64 | _ => unit
  tabulate ((pa + n - 1) / u + 1 - pa / u) fun i =>
    let lo := max pa ((pa / u + i) * u)
    (lo, min (pa + n) ((pa / u + i + 1) * u) - lo)

/-- A read of `n` bytes, part by part (R84), at the present position. -/
def State.readParts (s : State) (r : Reader) (unit pa n : Nat) : List Candidate × State :=
  (atomicParts unit pa n).foldl (fun x p =>
    let (b, s) := x.2.readRule r p.1 p.2
    (x.1 ++ b, s)) ([], s)

/-- The positions that the parts of a read take (R89). -/
def State.passReads (s : State) (unit pa n : Nat) : State := { s with pos := s.pos + (atomicParts unit pa n).length }

/-- What a reader has read of each byte after a read of bytes at a PA (R94). -/
def noteSeen (seen : List (Nat × Nat)) (pa : Nat) (bs : List Candidate) : List (Nat × Nat) :=
  bs.zipIdx.foldl (fun l b => if b.1.pos = 0 then l else setKey l (pa + b.2) b.1.pos) seen

/-- A read by an agent other than a task, or by a unit that is no agent (R42, R106, R116, R118): the bytes, and what the
reader has read of each byte. -/
def State.readSeen (s : State) (r : Reader) (pa n : Nat) : List Byte × List (Nat × Nat) × State :=
  let s := s.meetFailures pa n
  match regionOf pa with
  | .control .. => (s.bytesAt pa n, r.seen, s)
  | _ =>
    let (bs, s) := s.readParts r 8 pa n
    (bs.map (·.value), noteSeen r.seen pa bs, s.passReads 8 pa n)

/-- A read by a reader that keeps nothing between its reads (R42, R116, R118): the bytes. -/
def State.readAs (s : State) (r : Reader) (pa n : Nat) : List Byte × State :=
  let x := s.readSeen r pa n
  (x.1, x.2.2)

/-- The reader of the units outside the agents: in no domain but the system's, at the present position. -/
def State.systemReader (s : State) : Reader := ⟨{}, s.pos, []⟩

/-- The reader a host access is (R85, R93, R94): in the domain of the die on which its PA has its home, and the system's; its
snapshot point is its own position. -/
def State.hostReader (s : State) (pa : Nat) : Reader := ⟨{ die := some (BitVec.ofNat 2 (homeDie pa)) }, s.pos, s.hostSeen⟩

/-- The reader an ingress port is for a request that came in at a position (R85, R93, R94). -/
def State.portReader (s : State) (link : Nat) (pos : Nat) : Reader := ⟨{}, pos, (lookupKey s.portSeen link).getD []⟩

end Sys2Proof.Machine
end

