-- ==== Sys2Proof/Machine/Translate.lean ====
section
/-! DEFINITION. Translation of virtual addresses (R19-R46): the local window with its named regions, range
entries, page tables, the TLBs, permissions and attributes. -/

namespace Sys2Proof.Machine

/-- Why an operation stops short: the trap it raises, with its `TVAL` (R375), which an engine turns into a
status (R45); or a wait that is no yield point for another core of the cluster (R284), after which the
instruction is executed again. -/
inductive Exc where
  | trap (cause : BitVec 8) (val : W64)
  | stall
  deriving DecidableEq, Repr

/-- Operations that may stop with a trap, over the machine's state. -/
abbrev M := EStateM Exc State

/-- Stops with a trap. -/
def raise (cause : BitVec 8) (val : W64) : M α := throw (.trap cause val)

/-- Raises a trap unless a condition holds. -/
def need (c : Bool) (cause : BitVec 8) (val : W64) : M Unit := if c then pure () else raise cause val

/-- Runs a function that answers beside a new state. -/
def runS (f : State → α × State) : M α := fun s => let r := f s; .ok r.1 r.2

/-- Changes the state. -/
def upd (f : State → State) : M Unit := modify f

/-- In whose name an access is translated: ASID, the die whose tables and TLB serve it, the core with its
first-level TLBs, the scratchpad the local window names, and the record whose named regions apply. -/
structure Ctx where
  asid : BitVec 16
  die : Nat
  core : Option CoreId
  window : Option (Nat × Nat)
  recNo : Option Nat
  deriving DecidableEq, Repr

/-- What an access does, as far as R37 asks: `write` for stores, atomics and what needs `W`; `sync` for
counter and trough operations; `fe` for full/empty modes 1-4; `load` for `WSLOAD`, which alone writes the
weight store (R58). -/
structure Access where
  write : Bool := false
  fetch : Bool := false
  fe : Bool := false
  sync : Bool := false
  load : Bool := false
  deriving DecidableEq, Repr

/-- Canonical form (R19). -/
def canonical (va : W64) : Bool :=
  let h := fieldOf va 55 9
  h == 0 || h == 511

/-- First VA and length of the local window (R22). -/
def windowBase : Nat := 0x00007F0000000000

/-- Whether a VA lies in the local window (R22). -/
def inWindow (va : Nat) : Bool := decide (windowBase ≤ va ∧ va < windowBase + 0x400000)

/-- The valid named regions of a record: start, length, `FE`, `W` (R23). -/
def State.namedRegions (s : State) (rec : Nat) : List (Nat × Nat × Bool × Bool) :=
  ((List.range 16).map fun i => s.recDw rec (40 + i)).filterMap fun d =>
    if fieldOf d 0 1 = 1 then some (256 * fieldOf d 20 14, 256 * fieldOf d 5 15, fieldOf d 4 1 == 1, fieldOf d 2 1 == 1)
    else none

/-- `WindowCheck` of R36: permission in the local window (R22, R25). -/
def windowCheck (c : Ctx) (a : Access) (va n : Nat) : M Nat := do
  let s ← get
  let o := va - windowBase
  let v := BitVec.ofNat 64 va
  match c.window with
  | none => raise 0x10 v
  | some (die, clu) =>
    need (!a.fetch) 0x11 v
    let hit := ((c.recNo.map s.namedRegions).getD []).filter fun r => decide (r.1 < o + n ∧ o < r.1 + r.2.1)
    need (!(a.write && hit.any fun r => !r.2.2.2)) 0x11 v
    need (!(a.fe && hit.any fun r => !r.2.2.1)) 0x11 v
    need (!a.load) 0x11 v
    pure (scratchBase die clu + o)

/-- An ASID table entry as the tables give it (R34). -/
structure AsidEntry where
  ptroot : Nat
  mgmt : Bool
  rtbase : Nat
  rcount : Nat
  deriving DecidableEq, Repr

/-- Reads a doubleword as a walk engine does (R42). -/
def walkRead (pa : Nat) : M Nat := runS fun s =>
  let (b, s) := s.readAs s.systemReader pa 8
  (leNat b, s)

/-- The entry of an ASID (R34), or none where R35 refuses it. -/
def asidEntry (c : Ctx) : M (Option AsidEntry) := do
  let s ← get
  let base := (s.die c.die).asidTbl + 64 * c.asid.toNat
  let d0 ← walkRead base
  let d1 ← walkRead (base + 8)
  let rest ← (List.range 6).mapM fun i => walkRead (base + 16 + 8 * i)
  let ok := bitAt d0 0 && reservedZero d0 [(0, 2), (12, 40)] && bitsOf d0 12 8 == 0 &&
    reservedZero d1 [(0, 9), (12, 40)] && decide (bitsOf d1 0 9 ≤ 256) && rest.all (· == 0)
  pure (if ok then some ⟨bitsOf d0 12 40 * 4096, bitAt d0 1, bitsOf d1 12 40 * 4096, bitsOf d1 0 9⟩ else none)

/-- A range entry as a translation: VA of its first byte, length, PA, attribute bits (R27), or none where it
is invalid or malformed (R28). -/
def rangeEntry (asid : BitVec 16) (pa : Nat) : M (Option TlbEntry) := do
  let d0 ← walkRead pa
  let d1 ← walkRead (pa + 8)
  let d2 ← walkRead (pa + 16)
  let d3 ← walkRead (pa + 24)
  let base := bitsOf d0 12 44
  let limit := bitsOf d1 12 44
  let pbase := bitsOf d2 12 40
  let ok := bitAt d0 0 && reservedZero d0 [(0, 1), (12, 44)] && reservedZero d1 [(12, 44)] &&
    reservedZero d2 [(12, 40)] && reservedZero d3 [(2, 9)] && decide (bitsOf d3 5 2 ≤ 1) &&
    decide (base ≤ limit) && decide ((pbase + limit - base) * 4096 + 4095 < 2 ^ 52)
  pure (if ok then some ⟨asid, base * 4096, (limit + 1 - base) * 4096, pbase * 4096, d3 % 4096⟩ else none)

/-- Whether a held translation covers a VA of an ASID. -/
def TlbEntry.covers (e : TlbEntry) (asid : BitVec 16) (va : Nat) : Bool :=
  e.asid == asid && decide (e.va ≤ va ∧ va < e.va + e.len)

/-- Adds an entry to one holder's part of a TLB, dropping that holder's oldest beyond its size (R41, log
entry 9). -/
def tlbAdd [DecidableEq κ] (size : Nat) (k : κ) (e : TlbEntry) (l : List (κ × TlbEntry)) : List (κ × TlbEntry) :=
  let l := l ++ [(k, e)]
  if (l.filter (fun p => decide (p.1 = k))).length ≤ size then l
  else l.eraseP (fun p => decide (p.1 = k))

/-- The range-TLB entry that a core holds for a VA (R41); an ASID without ranges has no range stage (R35). -/
def heldRange (c : Ctx) (ctx : AsidEntry) (v : Nat) (s : State) : Option (CoreId × TlbEntry) :=
  if ctx.rcount = 0 then none else c.core.bind fun k => s.rtlb.find? fun p => p.1 == k && p.2.covers c.asid v

/-- `RangeLookup` of R36 (R27-R29): the range TLB of the core, else a scan of the whole table. -/
def rangeLookup (c : Ctx) (ctx : AsidEntry) (va : Nat) : M (Option TlbEntry) := do
  let s ← get
  let v := va % 2 ^ 56
  match heldRange c ctx v s with
  | some p => pure (some p.2)
  | none =>
    let es ← (List.range ctx.rcount).mapM fun i => rangeEntry c.asid (ctx.rtbase + 32 * i)
    let es := es.filterMap id
    match es.find? (·.covers c.asid v) with
    | none => pure none
    | some e =>
      let lap := es.filter fun x => decide (x.va < e.va + e.len ∧ e.va < x.va + x.len)
      need (decide (lap.length ≤ 1)) 0x10 (BitVec.ofNat 64 va)
      match c.core with
      | some k => upd fun s => { s with rtlb := tlbAdd 32 k e s.rtlb }
      | none => pure ()
      pure (some e)

/-- One level of a page-table walk (R30-R32): the leaf as a translation, or the next table. -/
def walkLevel (level : Nat) (asid : BitVec 16) (va e : Nat) : Option (TlbEntry ⊕ Nat) :=
  let leaf := bitAt e 1
  let addr := bitsOf e 12 40 * 4096
  let span := if level = 3 then 2 ^ 39 else if level = 2 then 2 ^ 30 else if level = 1 then 2 ^ 21
    else if bitAt e 11 then 2 ^ 16 else 2 ^ 12
  if !bitAt e 0 || decide (2 ≤ bitsOf e 5 2) then none
  else if leaf then
    if level = 3 || (bitAt e 11 && level != 0) || addr % span != 0 then none
    else some (.inl ⟨asid, va / span * span, span, addr, e % 4096⟩)
  else if level = 0 || bitsOf e 2 10 != 0 then none
  else some (.inr addr)

/-- The index of a VA in a table of a level (R30). -/
def walkIndex (va level : Nat) : Nat := if level = 3 then bitsOf va 39 17 else bitsOf va (12 + 9 * level) 9

/-- A page-table walk from a table of a level (R30-R33). -/
def walk (asid : BitVec 16) (va : Nat) : Nat → Nat → M (Option TlbEntry)
  | level, table => do
    let e ← walkRead (table + 8 * walkIndex va level)
    match walkLevel level asid va e with
    | none => pure none
    | some (.inl t) => pure (some t)
    | some (.inr next) => match level with
      | 0 => pure none
      | l + 1 => walk asid va l next

/-- `PageLookup` of R36: the core's TLB, the die's TLB, else a walk that fills both (R41). DESIGN CHOICE (log entry 9): of
the entries of a 64 KiB block that may translate a VA (R33), the oldest held one that covers it does, else its own. -/
def pageLookup (c : Ctx) (ctx : AsidEntry) (va : Nat) : M (Option TlbEntry) := do
  let s ← get
  let v := va % 2 ^ 56
  let die := BitVec.ofNat 2 c.die
  match c.core.bind fun k => (s.l1.find? fun p => p.1 == k && p.2.covers c.asid v) with
  | some p => pure (some p.2)
  | none =>
    match s.dtlb.find? fun p => p.1 == die && p.2.covers c.asid v with
    | some p =>
      match c.core with
      | some k => upd fun s => { s with l1 := tlbAdd 1024 k p.2 s.l1 }
      | none => pure ()
      pure (some p.2)
    | none =>
      match ← walk c.asid v 3 ctx.ptroot with
      | none => pure none
      | some e =>
        upd fun s => { s with dtlb := tlbAdd 32768 die e s.dtlb }
        match c.core with
        | some k => upd fun s => { s with l1 := tlbAdd 1024 k e s.l1 }
        | none => pure ()
        pure (some e)

/-- Whether a PA lies in a die's launch-record pool (R142). -/
def inPool (pa : Nat) : Bool :=
  match regionOf pa with
  | .control _ off => decide (0x100000 ≤ off ∧ off < 0x300000)
  | _ => false

/-- `CheckPermission` of R36 (R37, R57, R58, R142). -/
def permitted (a : Access) (attr pa : Nat) (mgmt : Bool) : Bool :=
  let weight := match regionOf pa with | .weight _ => true | _ => false
  let control := match regionOf pa with | .control .. => true | _ => false
  !(a.write && !bitAt attr 2) && !(a.write && weight && !a.load) && !(a.load && !weight) &&
  !(a.write && inPool pa) && !((a.sync || a.fe) && !hasFullBits pa) && !(a.fetch && !bitAt attr 3) &&
  !(a.fe && !bitAt attr 8) && !(control && !mgmt)

/-- `CheckAttributes` of R36 (R38). -/
def attributesAgree (s : State) (attr pa : Nat) : Bool :=
  let m := match regionOf pa with | .hbm _ => s.pageMeta pa | _ => {}
  let weight := match regionOf pa with | .weight _ => true | _ => false
  let far := match regionOf pa with | .far _ => true | _ => false
  bitsOf attr 5 2 == m.cmp.toNat && bitsOf attr 7 1 == m.lay.toNat && bitAt attr 9 == weight && bitAt attr 10 == far

/-- The range entry or leaf that translates a VA outside the window, with its address space (R29, R35, R36). -/
def leafOf (c : Ctx) (va : Nat) : M (AsidEntry × TlbEntry) := do
  match ← asidEntry c with
  | none => raise 0x10 (BitVec.ofNat 64 va)
  | some ctx =>
    match ← rangeLookup c ctx va with
    | some e => pure (ctx, e)
    | none =>
      match ← pageLookup c ctx va with
      | some e => pure (ctx, e)
      | none => raise 0x10 (BitVec.ofNat 64 va)

/-- The PA that a translation gives a VA it covers (R27, R32). -/
def TlbEntry.place (e : TlbEntry) (va : Nat) : Nat := e.pa + (va % 2 ^ 56 - e.va)

/-- Translates one piece of an access (R36), which lies in one 4 KiB page or in the window. -/
def translatePiece (c : Ctx) (a : Access) (va n : Nat) : M Nat := do
  if inWindow va then windowCheck c a va n
  else
    let v := BitVec.ofNat 64 va
    let (ctx, e) ← leafOf c va
    let pa := e.place va
    need (regionOf pa != .hole) 0x10 v
    need (permitted a e.attr pa ctx.mgmt) 0x11 v
    need (attributesAgree (← get) e.attr pa) 0x12 v
    pure pa

/-- The PA of a VA whatever may be done there (R22, R36), where there is one. -/
def placeOf (c : Ctx) (va : Nat) (s : State) : Option Nat × State :=
  if !canonical (BitVec.ofNat 64 va) then (none, s)
  else if inWindow va then (c.window.map fun w => scratchBase w.1 w.2 + (va - windowBase), s)
  else match leafOf c va s with
    | .ok x s => (if regionOf (x.2.place va) = .hole then none else some (x.2.place va), s)
    | .error _ s => (none, s)

/-- Cuts `n` bytes at a VA at every 4 KiB boundary (R36). -/
def pieces : Nat → Nat → Nat → List (Nat × Nat)
  | 0, _, _ => []
  | fuel + 1, va, n =>
    if n = 0 then []
    else
      let k := min n (4096 - va % 4096)
      (va, k) :: pieces fuel (va + k) (n - k)

/-- `Translate` of R36 for `n` bytes with an alignment: the PAs and lengths of its pieces. -/
def translate (c : Ctx) (a : Access) (va : W64) (n align : Nat) : M (List (Nat × Nat)) := do
  need (canonical va && canonical (va + BitVec.ofNat 64 (n - 1))) 0x13 va
  need (va.toNat % align == 0) 0x20 va
  (pieces (n / 4096 + 2) va.toNat n).mapM fun p => do
    let pa ← translatePiece c a p.1 p.2
    pure (pa, p.2)

/-- Translates an access that lies in one page: its PA. -/
def translate1 (c : Ctx) (a : Access) (va : W64) (n : Nat) : M Nat := do
  match ← translate c a va n n with
  | p :: _ => pure p.1
  | [] => raise 0x10 va

/-- The context a task's own accesses translate in (R20, R22). -/
def Task.tctx (t : Task) : Ctx :=
  ⟨t.asid, t.core.die.toNat, some t.core, some (t.core.die.toNat, t.core.clu.toNat), some (fieldOf t.launch 0 14)⟩

/-- The context of the current task. -/
def myCtx : M Ctx := do pure (← get).task.tctx

end Sys2Proof.Machine
end

