-- ==== Sys2Proof/Machine/Packet.lean ====
section
/-! DEFINITION. Rilah packets, their flits and the choice of a link (R389-R395), as far as sending them goes. -/

namespace Sys2Proof

/-- `OP` of a packet (R395). -/
def Packet.op (p : Packet) : Nat := Machine.fieldOf p.h1 56 8
/-- `DDEV` of a packet (R395). -/
def Packet.ddev (p : Packet) : BitVec 16 := BitVec.ofNat 16 (Machine.fieldOf p.h0 48 16)
/-- `SDEV` of a packet (R395). -/
def Packet.sdev (p : Packet) : BitVec 16 := BitVec.ofNat 16 (Machine.fieldOf p.h0 32 16)
/-- `PID` of a packet (R395). -/
def Packet.pid (p : Packet) : BitVec 32 := BitVec.ofNat 32 (Machine.fieldOf p.h0 0 32)
/-- `FEM` of a packet (R395). -/
def Packet.fem (p : Packet) : Nat := Machine.fieldOf p.h1 48 4
/-- `KEY` of a packet (R395). -/
def Packet.key (p : Packet) : BitVec 16 := BitVec.ofNat 16 (Machine.fieldOf p.h1 0 16)
/-- `JKEY` of a packet (R395). -/
def Packet.jkey (p : Packet) : BitVec 32 := BitVec.ofNat 32 (Machine.fieldOf p.h2 32 32)
/-- `KPRV` of a packet (R395). -/
def Packet.kprv (p : Packet) : BitVec 32 := BitVec.ofNat 32 (Machine.fieldOf p.h2 0 32)

end Sys2Proof

namespace Sys2Proof.Machine

/-- One step of the CRC of ECMA-182, polynomial 0x42F0E1EBA9EA3693, most significant bit first, from zero and
without a final inversion (R394, log entry 21). -/
def crc64Byte (crc : W64) (b : Byte) : W64 :=
  (List.range 8).foldl (fun c _ => if c.msb then (c <<< 1) ^^^ 0x42F0E1EBA9EA3693 else c <<< 1)
    (crc ^^^ (b.setWidth 64 <<< 56))

/-- The link check of a flit (R394): header and payload as sent. -/
def linkCheck (hdr : W64) (payload : List Byte) : W64 :=
  (leBytes 8 hdr.toNat ++ padTo 240 0 payload).foldl crc64Byte 0

/-- The bytes of a packet: its header, then its payload (R395). -/
def packetBytes (p : Packet) : List Byte :=
  leBytes 8 p.h0.toNat ++ leBytes 8 p.h1.toNat ++ leBytes 8 p.h2.toNat ++ leBytes 8 p.h3.toNat ++ p.data

/-- A packet from its bytes (R395). -/
def packetOf (b : List Byte) : Packet :=
  let dw := fun i => BitVec.ofNat 64 (leNat ((b.drop (8 * i)).take 8))
  ⟨dw 0, dw 1, dw 2, dw 3, b.drop 32⟩

/-- A flit's header (R393): `PLEN`, `TNT`, class, network, `FIRST`, `LAST`. The sequence number and the key
slot are filled in when it is sent. -/
def flitHdr (plen : Nat) (tnt : Bool) (cls net : Nat) (first last : Bool) : W64 :=
  BitVec.ofNat 64 (plen * 2 ^ 44 + tnt.toNat * 2 ^ 36 + cls * 64 + net * 16 + first.toNat * 8 + last.toNat * 4)

/-- The flits of a packet where a flit carries `size` payload bytes (R393, R395): 240 on Rilah and die-to-die links, 56 on
the mesh, whose flits have `LSEQ` zero and no link check. -/
def flitsFor (size cls net : Nat) (tnt : Bool) (p : Packet) : List Flit :=
  let cs := chunks size (packetBytes p).length (packetBytes p)
  cs.zipIdx.map fun c =>
    ⟨flitHdr c.1.length tnt cls net (c.2 == 0) (c.2 + 1 == cs.length), c.1, 0⟩

/-- The flits of a packet on a Rilah link (R393, R395). -/
def flitsOf (cls net : Nat) (tnt : Bool) (p : Packet) : List Flit := flitsFor 240 cls net tnt p

/-- A K flit (R394): its code and the payload after it. -/
def kFlit (code : Nat) (rest : List Byte) : Flit := ⟨flitHdr 0 false 0 0 true true, BitVec.ofNat 8 code :: rest, 0⟩

/-- Class of a flit (R393). -/
def flitCls (f : Flit) : Nat := fieldOf f.hdr 6 2

/-- Network of a flit (R393). -/
def flitNet (f : Flit) : Nat := fieldOf f.hdr 4 2

/-- Flits queued on a link for a class and network (R391). -/
def Link.queued (l : Link) (cls net : Nat) : Nat :=
  (((if cls = 1 then l.sendU else l.sendB).map fun p => (p.flits.filter fun f => flitNet f == net).length)).sum

/-- The link toward a device (R389, R391, R392): row first, then column; a keyed packet and one that already
took this dimension's detour (`entered` from a link of the dimension) go the minimal way. -/
def State.routeLink (s : State) (dst : BitVec 16) (cls net : Nat) (keyed : Bool) (entered : Option Nat) : Option Nat :=
  let own := (s.die 0).rid.toNat
  let d := dst.toNat
  let row := bitsOf d 0 3 != bitsOf own 0 3
  let x := if row then bitsOf d 0 3 else bitsOf d 3 3
  let o := if row then bitsOf own 0 3 else bitsOf own 3 3
  if x = o then none
  else
    let base := if row then 0 else 7
    let minimal := base + (if x < o then x else x - 1)
    let links := tabulate 7 fun i => base + i
    let usable := links.filter fun n => !(s.link n).down
    let again := (entered.map fun n => decide (base ≤ n ∧ n < base + 7)).getD false
    let others := usable.filter (· != minimal)
    if (s.link minimal).down then (if again then none else others.head?)
    else if keyed || again then some minimal
    else
      let q := fun n => (s.link n).queued cls net
      let least := others.foldl (fun (m : Option Nat) n => match m with
        | none => some n
        | some k => if q n < q k then some n else some k) none
      match least with
      | none => some minimal
      | some n => if q n + 32 ≤ q minimal then some n else some minimal

/-- Queues a packet's flits on a link and gives the link as many slots (R400); one that came in by a port stays in that
port's buffer, or in the space it has reserved, until it has gone (R391, R399). -/
def State.queuePacket (s : State) (n cls net : Nat) (tnt : Bool) (src : Option (BitVec 4)) (p : Packet)
    (reserved : Bool := false) : State :=
  let fs := flitsOf cls net tnt p
  let q : Queued := ⟨src, fs, reserved⟩
  let s := s.setLink n fun l => if cls = 1 then { l with sendU := l.sendU ++ [q] } else { l with sendB := l.sendB ++ [q] }
  s.push (fs.map fun _ => .event (.flitSlot (BitVec.ofNat 4 n)))

/-- Queues a K flit on a link (R394). -/
def State.queueK (s : State) (n : Nat) (f : Flit) : State :=
  (s.setLink n fun l => { l with sendK := l.sendK ++ [f] }).pushEvent (.flitSlot (BitVec.ofNat 4 n))

/-- Takes the next packet identifier toward a device (R396). -/
def State.takePid (s : State) (dev : BitVec 16) : BitVec 32 × State :=
  let p := (lookupKey s.nextPid dev.toNat).getD 1
  (p, { s with nextPid := setKey s.nextPid dev.toNat (if p = BitVec.allOnes 32 then 1 else p + 1) })

/-- The answer of a request (R397, R398): DATA with bytes, or DONE with a status. -/
def replyPacket (own src : BitVec 16) (mine pid jkey : BitVec 32) (status : Nat) (data : Option (List Byte)) :
    Packet :=
  let h0 := BitVec.ofNat 64 (src.toNat * 2 ^ 48 + own.toNat * 2 ^ 32 + mine.toNat)
  let op := if data.isSome then 0x10 else 0x11
  ⟨h0, BitVec.ofNat 64 (op * 2 ^ 56 + status * 2 ^ 16), BitVec.ofNat 64 (jkey.toNat * 2 ^ 32),
    pid.setWidth 64, data.getD []⟩

/-- Sends an answer toward its source over the network of replies (R391, R397): DATA in class B, DONE in
class U; with no usable link it is dropped, and the source's retries continue (R390). A kept answer notes its link. -/
def State.sendReply (s : State) (p : Packet) : State :=
  let cls := if p.op = 0x10 then 2 else 1
  match s.routeLink p.ddev cls 1 false none with
  | none => s
  | some n =>
    let s := s.queuePacket n cls 1 false none p
    { s with answers := s.answers.map fun a => if a.reply = p then { a with link := some n } else a }

/-- The turn at which a packet that its port holds is looked at again (R137, R402). -/
def Arrival.again (a : Arrival) : Turn := .held a.pkt.sdev a.pkt.pid

/-- Whether a packet number is one of the 2^31 up to `top` (R396): of an older one no request can still be unanswered. -/
def recentPid (top x : BitVec 32) : Bool := decide ((top - x).toNat < 2 ^ 31)

/-- The latest packet number performed of a source, with one more (R396). -/
def State.topPid (s : State) (src : BitVec 16) (pid : BitVec 32) : BitVec 32 :=
  (s.performed.filter (·.1 == src)).foldl (fun m x => if recentPid x.2 m then x.2 else m) pid

/-- Answers a request and keeps the answer for a repeated one (R398, R403); held packets that it precedes are
looked at again (R402). What is kept of packets whose numbers have come round is let go (R396). -/
def State.answer (s : State) (src : BitVec 16) (pid jkey : BitVec 32) (status : Nat) (data : Option (List Byte)) : State :=
  let (mine, s) := s.takePid src
  let p := replyPacket (s.die 0).rid src mine pid jkey status data
  let top := s.topPid src pid
  let old := fun (d : BitVec 16) (x : BitVec 32) => d == src && !recentPid top x
  let s := { s with
    answers := ⟨src, pid, p, none⟩ :: s.answers.filter (fun a => !((a.src == src && a.pid == pid) || old a.src a.pid)),
    performed := (src, pid) :: s.performed.filter fun x => !old x.1 x.2 }
  (s.push ((s.heldPkts.filter fun h => h.pkt.sdev == src && h.pkt.kprv == pid).map Arrival.again)).sendReply p

end Sys2Proof.Machine
end

