-- ==== Sys2Proof/Machine/Context.lean ====
section
/-! DEFINITION. The context area as the copy of a task's registers (R128-R132, R386): write-back when a task
waits, is evicted or is saved, and loading it again. -/

namespace Sys2Proof.Machine

/-- The frames of the register stack, depth 0 first: g16-g31 of each depth (R129). -/
def Task.frames (t : Task) : List (List W64) :=
  let cur := tabulate 16 fun i => vget t.g (16 + i)
  let step := fun (acc : List (List W64) × List W64) (v : Vector W64 16) =>
    ((tabulate 8 (fun i => vget v (8 + i)) ++ acc.2) :: acc.1, tabulate 8 fun i => vget v i)
  (t.saved.foldl step ([cur], tabulate 8 fun i => vget t.g (8 + i))).1

/-- g8-g15 of depth 0 (R128, R129). -/
def Task.bottom (t : Task) : List W64 :=
  match t.saved.getLast? with
  | none => tabulate 8 fun i => vget t.g (8 + i)
  | some v => tabulate 8 fun i => vget v i

/-- Whether the HLIVE mask of a write-back says a register of the window is live (R132). -/
def liveReg (m : BitVec 22) (i : Nat) : Bool :=
  if 16 ≤ i ∧ i < 32 then m.getLsbD (i - 16) else if 4 ≤ i ∧ i < 8 then m.getLsbD (i + 12) else true

/-- The saved form of the pending hints (R198): `THINT`, `THINTX`, and whether any is pending. -/
def Hints.save (h : Hints) : W64 × W64 × Bool :=
  let v := h.himm.isSome.toNat + 2 * h.hlive.isSome.toNat + 4 * h.hnt.isSome.toNat + 8 * h.hpred.isSome.toNat +
    16 * h.hord.isSome.toNat + 32 * h.hpri.isSome.toNat
  let o := h.hord.getD (0, 0)
  (BitVec.ofNat 64 ((h.himm.getD 0).toNat * 2 ^ 42 + (h.hlive.getD 0).toNat * 2 ^ 20),
   BitVec.ofNat 64 (v * 2 ^ 32 + o.2.toNat * 2 ^ 16 + o.1.toNat * 2 ^ 14 + (h.hpred.getD 0).toNat * 2 ^ 8 +
     (h.hpri.getD 0).toNat * 2 ^ 4 + (h.hnt.getD 0).toNat),
   v != 0)

/-- The hints that `THINT` and `THINTX` make pending again (R198). -/
def Hints.restore (thint thintx : W64) : Hints :=
  let on := fun (k : Nat) => fieldOf thintx (32 + k) 1 == 1
  { himm := if on 0 then some (BitVec.ofNat 22 (fieldOf thint 42 22)) else none,
    hlive := if on 1 then some (BitVec.ofNat 22 (fieldOf thint 20 22)) else none,
    hnt := if on 2 then some (BitVec.ofNat 2 (fieldOf thintx 0 2)) else none,
    hpred := if on 3 then some (BitVec.ofNat 4 (fieldOf thintx 8 4)) else none,
    hord := if on 4 then some (BitVec.ofNat 2 (fieldOf thintx 14 2), BitVec.ofNat 16 (fieldOf thintx 16 16)) else none,
    hpri := if on 5 then some (BitVec.ofNat 2 (fieldOf thintx 4 2)) else none }

/-- A pre-emption that falls while hints are pending saves them and clears them (R198). -/
def Task.saveHints (t : Task) : Task :=
  let h := t.hints.save
  if h.2.2 then { t with thint := h.1, thintx := h.2.1, tstat := t.tstat ||| 2, hints := {}, hintsSaved := true }
  else { t with hints := {}, hintsSaved := false }

/-- After a resumption the hints that the pre-emption saved are pending again (R198, log entry 18). -/
def Task.unsaveHints (t : Task) : Task :=
  if t.hintsSaved then { t with hints := Hints.restore t.thint t.thintx, hintsSaved := false } else t

/-- The thirty doublewords of the control image at CTX (R128; their order is DESIGN CHOICE, log entry 18): pc, predicates,
control registers, whether hints are saved. `RECBASE` and the resume word follow them (R167, R312). -/
def Task.controlWords (t : Task) : List W64 :=
  [t.pc, BitVec.ofNat 64 (t.p.toNat + t.lanes.length * 2 ^ 8 + t.wcwait.toNat % 2 ^ 16 * 2 ^ 16 + t.hintsSaved.toNat * 2 ^ 32),
   t.tid, t.launch] ++ t.lvl.toList ++
  [t.prec, t.rmode, t.fstat, t.fena, t.tags, t.slim, t.sbase, t.tepc, t.tcause, t.tval, t.tstat, t.thint, t.thintx, t.tvec,
   t.vdone, t.egdepth, BitVec.ofNat 64 (t.asid.toNat + t.jobkey.toNat * 2 ^ 32), t.usc]

/-- A task whose pc, predicates and control registers are those of a control image; reserved bits stay zero (R8). -/
def Task.withControl (t : Task) (w : Nat → W64) : Task :=
  { t with
    pc := w 0, p := BitVec.ofNat 8 (fieldOf (w 1) 0 8) ||| 1, wcwait := BitVec.ofNat 64 (fieldOf (w 1) 16 16),
    hintsSaved := fieldOf (w 1) 32 1 == 1, tid := w 2 &&& 0xFFFFFF, launch := w 3 &&& 0x3FFFFFFF,
    lvl := vec8 fun i => w (4 + i) &&& 0xFFFFFF, prec := w 12 &&& 0x3F07, rmode := w 13 &&& 7, fstat := w 14 &&& 0x1F, fena := w 15 &&& 0x1F,
    tags := w 16, slim := w 17, sbase := w 18, tepc := w 19, tcause := w 20 &&& 0xFF, tval := w 21,
    tstat := w 22 &&& 0xFF0003, thint := w 23 &&& 0xFFFFFFFFFFF00000, thintx := w 24 &&& 0x3FFFFFCF33,
    tvec := w 25 &&& 0xFFFFFFFFFFFFFFC1, vdone := w 26 &&& 0xFF00FF, egdepth := w 27 &&& 0xFF,
    asid := BitVec.ofNat 16 (fieldOf (w 28) 0 16), jobkey := BitVec.ofNat 32 (fieldOf (w 28) 32 32), usc := w 29 }

/-- The distinct 64-byte lines of held stores, the oldest first (R88). -/
def heldLines (l : List HeldStore) : List Nat := ((l.map fun h => sectorsOf h.pa h.data.length).flatten).eraseDups

/-- The value a task holds of a byte (R86). -/
def heldByte (l : List HeldStore) (x : Nat) : Option Byte :=
  ((l.filter fun h => decide (h.pa ≤ x ∧ x < h.pa + h.data.length)).getLast?).map fun h => h.data.getD (x - h.pa) 0

/-- Where each line that a task holds stands in its context area: the oldest beyond 64 in the spill area, the others in
the private store area image (R88, R128). -/
def Task.linePlaces (t : Task) : List (Nat × W64) :=
  let ls := heldLines t.held
  let spilled := ls.length - 64
  ls.zipIdx.map fun l =>
    (l.1, t.ctx + BitVec.ofNat 64 (if l.2 < spilled then 0x5400 + 64 * l.2 else 0x400 + 64 * (l.2 - spilled)))

/-- The image of the lines a task holds: their held bytes, zero elsewhere (R88, R128; log entry 18). -/
def Task.lineImages (t : Task) : List (W64 × List Byte) :=
  t.linePlaces.flatMap fun l => tabulate 8 fun k =>
    (l.2 + BitVec.ofNat 64 (8 * k), tabulate 8 fun i => (heldByte t.held (64 * l.1 + 8 * k + i)).getD 0)

/-- The image of window frame `d`, with g8-g15 of depth 0 beside frame 0 (R128, R129). -/
def Task.frameImage (t : Task) (d : Nat) : List (W64 × List Byte) :=
  ((lget t.frames d).zipIdx.map fun v => (t.sbase + BitVec.ofNat 64 (128 * d + 8 * v.2), leBytes 8 v.1.toNat)) ++
  (if d = 0 then t.bottom.zipIdx.map fun v => (t.ctx + BitVec.ofNat 64 (0x140 + 8 * v.2), leBytes 8 v.1.toNat) else [])

/-- The image of the e-slots (R128). -/
def Task.slotImage (t : Task) : List (W64 × List Byte) :=
  tabulate 64 fun n => (t.ctx + BitVec.ofNat 64 (0x200 + 4 * n), leBytes 4 (vget t.e n).toNat)

/-- The vector image: element of vn in lane l (R128). -/
def Task.vectorImage (t : Task) : List (W64 × List Byte) :=
  (t.lanes.zipIdx.map fun l => tabulate 32 fun n =>
    (t.ctx + BitVec.ofNat 64 (0x1400 + 512 * n + 4 * l.2), leBytes 4 (vget l.1 n).toNat)).flatten

/-- g8-g15 of a window as the upper half of the frame below, where that frame is no longer in the register file (R129). -/
def Task.edgeImage (t : Task) : List (W64 × List Byte) :=
  let d := t.saved.length
  if 1 ≤ d ∧ d ≤ t.outFrames then
    tabulate 8 fun i => (t.sbase + BitVec.ofNat 64 (128 * (d - 1) + 64 + 8 * i), leBytes 8 (vget t.g (8 + i)).toNat)
  else []

/-- The images that a write-back of a task writes, as VAs and bytes (R128, R129): the control image, g1-g7, the frames that
are in the register file, g8-g15 of the window, the e-slots unless their copy is the context area's, the vector image;
registers that are not live are not written (R132). -/
def Task.images (t : Task) : List (W64 × List Byte) :=
  let d := t.saved.length
  let control := t.controlWords.zipIdx.map fun w => (t.ctx + BitVec.ofNat 64 (8 * w.2), leBytes 8 w.1.toNat)
  let low := ((tabulate 7 (1 + ·)).filter (liveReg t.live)).map fun i =>
    (t.ctx + BitVec.ofNat 64 (0x100 + 8 * i), leBytes 8 (vget t.g i).toNat)
  let deep := (tabulate (d - t.outFrames) (t.outFrames + ·)).flatMap t.frameImage
  let last := ((t.frameImage d).zipIdx.filter fun r => decide (16 ≤ r.2) || liveReg t.live (16 + r.2)).map (·.1)
  let es := if t.live.getLsbD 21 && !t.slotsOut then t.slotImage else []
  control ++ low ++ deep ++ t.edgeImage ++ last ++ es ++ (if t.live.getLsbD 20 then t.vectorImage else [])

/-- The PA of a 256-byte block of VAs in a task's own translation, where it has one; a walk fills the TLBs (R41). -/
def State.imageBlock (s : State) (t : Task) (write : Bool) (block : Nat) : Option Nat × State :=
  match translate t.tctx { write := write } (BitVec.ofNat 64 (256 * block)) 256 1 s with
  | .ok ((pa, _) :: _) s => (some pa, s)
  | .ok [] s => (none, s)
  | .error _ s => (none, s)

/-- The PA of a word of a task's context area, where it translates; the last block translated is kept. -/
def imageAt (t : Task) (write : Bool) (va : W64) (n : Nat) (x : Option (Nat × Option Nat) × State) :
    Option Nat × Option (Nat × Option Nat) × State :=
  let b := va.toNat / 256
  let known := x.1.any fun m => m.1 == b
  let y := if known then x else let r := x.2.imageBlock t write b; (some (b, r.1), r.2)
  (if va.toNat % n = 0 then (y.1.bind (·.2)).map (· + va.toNat % 256) else none, y)

/-- Writes images of a task to its context area; a word that does not translate is kept. -/
def State.putImages (s : State) (t : Task) (l : List (W64 × List Byte)) : State :=
  (l.foldl (fun x im =>
    let r := imageAt t true im.1 im.2.length x
    match r.1 with
    | some pa => (r.2.1, r.2.2.agentPut false .other pa im.2)
    | none => r.2) (none, s)).2

/-- Words of a task's context area, each a VA, a size and the value its register holds, which stands where the VA does not
translate. Failures there are met (R80). -/
def State.imageWords (s : State) (t : Task) (l : List (W64 × Nat × Nat)) : List Nat × State :=
  let x := l.foldl (fun (x : List Nat × Option (Nat × Option Nat) × State) w =>
    let r := imageAt t false w.1 w.2.1 x.2
    match r.1 with
    | some pa =>
      let s := r.2.2.meetFailures pa w.2.1
      (leNat (s.bytesAt pa w.2.1) :: x.1, r.2.1, s)
    | none => (w.2.2 :: x.1, r.2)) ([], none, s)
  (x.1.reverse, x.2.2)

/-- Writes a task's registers back to its context area, which is their authoritative copy from here on (R128, R131,
R386). -/
def State.writeBack (s : State) (key : Nat) : State :=
  match s.taskOf key with
  | none => s
  | some t => (s.putImages t t.images).updTask key fun t =>
      { t with resident := false, outFrames := t.saved.length, slotsIn := false, slotsOut := t.slotsOut || t.live.getLsbD 21 }

/-- VA of doubleword `i` of window frame `k` of a task in its register stack; for frame "before 0", g8-g15 of depth 0
(R128, R129, R432). `k` counts from 1, so that 0 is that one. -/
def Task.frameVa (t : Task) (k i : Nat) : W64 :=
  if k = 0 then t.ctx + BitVec.ofNat 64 (0x140 + 8 * (i - 8)) else t.sbase + BitVec.ofNat 64 (128 * (k - 1) + 8 * i)

/-- The words of a window's g1-g31 in the context area, those of registers that are not live left out (R128, R129, R132). -/
def Task.windowWords (t : Task) : List (Nat × W64 × Nat × Nat) :=
  let d := t.saved.length
  let va := fun (i : Nat) => if i < 8 then t.ctx + BitVec.ofNat 64 (0x100 + 8 * i)
    else if i < 16 then t.frameVa d i else t.frameVa (d + 1) (i - 16)
  ((tabulate 31 (1 + ·)).filter (liveReg t.live)).map fun i => (i, va i, 8, (vget t.g i).toNat)

/-- The words of the vector image of a list of lanes (R128). -/
def vectorWords (t : Task) (lanes : List (Vector W32 32)) : List (W64 × Nat × Nat) :=
  (lanes.zipIdx.map fun l => tabulate 32 fun n =>
    (t.ctx + BitVec.ofNat 64 (0x1400 + 512 * n + 4 * l.2), 4, (vget l.1 n).toNat)).flatten

/-- Lanes from the words of their image. -/
def lanesOf (n : Nat) (ws : List Nat) : List (Vector W32 32) :=
  (chunks 32 n ws).map fun l => vec32 fun k => BitVec.ofNat 32 (lget l k)

/-- The window and control registers of a task as its context area gives them, and the lanes it holds if asked; deeper frames
and e-slots stay there until they are needed (R128, R130, R386). -/
def State.loadImages (s : State) (t : Task) (lanes : Bool) : Task × State :=
  let (cs, s) := s.imageWords t (t.controlWords.zipIdx.map fun w => (t.ctx + BitVec.ofNat 64 (8 * w.2), 8, w.1.toNat))
  let t := t.withControl fun i => BitVec.ofNat 64 (lget cs i)
  let (ws, s) := s.imageWords t (t.windowWords.map (·.2))
  let got := (t.windowWords.map (·.1)).zip ws
  let (ls, s) := if lanes && t.live.getLsbD 20 then
      let r := s.imageWords t (vectorWords t t.lanes)
      (lanesOf t.lanes.length r.1, r.2)
    else (t.lanes, s)
  ({ t with
     g := vec32 fun i => if i = 0 then 0 else ((lookupKey got i).map (BitVec.ofNat 64)).getD (vget t.g i)
     lanes := ls
     resident := true
     live := BitVec.allOnes 22 }, s)

/-- Banks of 16 entries of a core's general file that may be used (R130, R387). -/
def State.banks (s : State) (c : CoreId) : Nat := 32 - (lookupKey s.badBanks c).getD 0

/-- Banks that a resident task uses: two for its window, one for each deeper frame in the file (R130). -/
def Task.banksUsed (t : Task) : Nat := if t.resident then 2 + (t.saved.length - t.outFrames) else 0

/-- Whether a task shares the core's general file with another (R130): the normal ones of a lane core share it. -/
def Task.shares (t u : Task) : Bool := t.core == u.core && t.high == u.high && u.status != .ended

/-- Banks free for one more frame or window of a task (R130): two are reserved for the high-priority level of a lane core;
the stager and the issuer use the full file. -/
def State.freeBanks (s : State) (t : Task) : Nat :=
  let all := s.banks t.core
  let cap := if 8 ≤ t.core.core.toNat then all else if t.high then 2 else all - 2
  cap - ((s.allTasks.filter t.shares).map Task.banksUsed).sum

/-- Writes the deepest frame of a task that is in the file to the register stack (R131). -/
def State.spillFrame (s : State) (key : Nat) : State :=
  match s.taskOf key with
  | none => s
  | some t => (s.putImages t (t.frameImage t.outFrames)).updTask key fun t => { t with outFrames := t.outFrames + 1 }

/-- The resident task that gives up a bank for another (R131): the one that has waited longest at a yield point, else the one
least recently issued. Tasks that wait for a condition have been written back already. -/
def State.victim (s : State) (t : Task) : Option Task :=
  let others := fun (u : Task) => t.shares u && u.key != t.key && u.resident
  match (s.ready.filterMap s.taskOf).find? others with
  | some u => some u
  | none => s.allTasks.reverse.find? others

/-- Frees a bank for a task by eviction (R131): a deeper frame of the victim, else its window. -/
def State.evict (s : State) (t : Task) : State :=
  match s.victim t with
  | none => s
  | some u => if u.outFrames < u.saved.length then s.spillFrame u.key else s.writeBack u.key

/-- Frees `n` banks for a task, by at most `fuel` evictions. -/
def State.makeRoom (n : Nat) (t : Task) : Nat → State → State
  | 0, s => s
  | fuel + 1, s => if n ≤ s.freeBanks t then s else makeRoom n t fuel (s.evict t)

/-- Loads a task's window from its context area when that is the authoritative copy (R131, R386). -/
def State.reload (s : State) (key : Nat) : State :=
  match s.taskOf key with
  | none => s
  | some t =>
    if t.resident then s
    else
      let (t, s) := (s.makeRoom 2 t 512).loadImages t true
      s.updTask key fun _ => t

/-- A task that came to a core with its window takes two banks there (R113, R130). -/
def State.seat (s : State) (key : Nat) : State :=
  match s.taskOf key with
  | none => s
  | some t =>
    if t.resident then
      let s := s.updTask key fun t => { t with resident := false }
      (s.makeRoom 2 { t with resident := false } 512).updTask key fun t => { t with resident := true }
    else s

/-- A call leaves a frame, which needs a bank: when none is free the task's own deepest frame goes to the register stack
first (R131). The window's g8-g15 go there too when the frame they belong to is no longer in the register file (R129). -/
def State.leaveFrame (s : State) : State :=
  let s := if 0 < s.freeBanks s.task then s else s.spillFrame s.task.key
  if s.task.edgeImage = [] then s else s.putImages s.task s.task.edgeImage

/-- Images of 64 long slots that normal tasks of a core may use at once (R130). -/
def slotImages (c : CoreId) : Nat := if 8 ≤ c.core.toNat then 4 else 3

/-- The current task uses its e-slots (R130): one image of the long-slot file is its own, if need be evicted from the task
least recently issued, and the slots are loaded when their copy is the context area's. -/
def State.useSlots (s : State) : State :=
  let t := s.task
  if t.slotsIn then s
  else
    let users := s.tasks.reverse.filter fun u => t.shares u && u.slotsIn
    let s := match users with
      | u :: _ => if t.high ∨ users.length < slotImages t.core then s
        else (s.putImages u u.slotImage).updTask u.key fun u => { u with slotsIn := false, slotsOut := true }
      | [] => s
    if t.slotsOut then
      let (ws, s) := s.imageWords t (tabulate 64 fun n => (t.ctx + BitVec.ofNat 64 (0x200 + 4 * n), 4, (vget t.e n).toNat))
      { s with task := { t with slotsIn := true, slotsOut := false, e := vecOf 64 fun n => BitVec.ofNat 32 (lget ws n) } }
    else { s with task := { t with slotsIn := true } }

/-- Changes a task wherever its authoritative copy is: for one that is SAVED, WAITING or not resident, the words of its
images that change (R384, R386). -/
def State.amend (s : State) (key : Nat) (f : Task → Task) : State :=
  match s.taskOf key with
  | none => s
  | some t =>
    if t.resident then s.updTask key f
    else
      let (v, s) := s.loadImages t false
      let u := f v
      let new := (u.images.zip v.images).filterMap fun p => if p.1 = p.2 then none else some p.1
      (s.putImages u new).updTask key fun _ => { u with resident := false, live := t.live }

/-- The bytes a saved task holds, as the images of its lines give them (R115, R386). -/
def State.loadLines (s : State) (t : Task) : List HeldStore × State :=
  let places := t.linePlaces
  let word := fun (x : Nat) (old : Byte) =>
    (((lookupKey places (x / 64)).getD 0) + BitVec.ofNat 64 (x % 64), 1, old.toNat)
  t.held.foldl (fun (x : List HeldStore × State) h =>
    let r := x.2.imageWords t (h.data.zipIdx.map fun b => word (h.pa + b.2) b.1)
    (x.1 ++ [{ h with data := r.1.map (BitVec.ofNat 8) }], r.2)) ([], s)

end Sys2Proof.Machine
end

