-- ==== Sys2Proof/Machine/Retry.lean ====
section
/-! DEFINITION. Operations performed at a word's home (R54, R56, R96-R104) and the retry lists of accesses that
wait there (R78, R98, R103). -/

namespace Sys2Proof.Machine

/-- Status codes of R324. -/
def stOK : Nat := 0
/-- BUSY (R324). -/
def stBUSY : Nat := 1
/-- FULL (R324). -/
def stFULL : Nat := 2
/-- RANGE (R324). -/
def stRANGE : Nat := 3
/-- MALFORMED (R324). -/
def stMALFORMED : Nat := 4
/-- REGION (R324). -/
def stREGION : Nat := 5
/-- LEVEL (R324). -/
def stLEVEL : Nat := 6
/-- ALREADY_DISPATCHED (R324). -/
def stDISPATCHED : Nat := 7
/-- NONE (R324). -/
def stNONE : Nat := 8
/-- ERROR (R324). -/
def stERROR : Nat := 9
/-- SATURATED (R324). -/
def stSATURATED : Nat := 10
/-- DENIED (R324). -/
def stDENIED : Nat := 11
/-- CYCLE (R324). -/
def stCYCLE : Nat := 12
/-- XLATE (R324). -/
def stXLATE : Nat := 16
/-- PERM (R324). -/
def stPERM : Nat := 17
/-- ZEROED (R324). -/
def stZEROED : Nat := 18
/-- CKFAIL (R324). -/
def stCKFAIL : Nat := 19
/-- TAGFAIL (R324). -/
def stTAGFAIL : Nat := 20
/-- PEER (R324). -/
def stPEER : Nat := 21
/-- REMOTE (R324). -/
def stREMOTE : Nat := 22

/-- The descriptor of a trough (R101). -/
structure Trough where
  put : W64
  got : W64
  tbase : W64
  cap : Nat
  esz : Nat
  bad : Bool
  deriving DecidableEq, Repr

/-- Bytes of an entry size (R101). -/
def entryBytes (esz : Nat) : Nat := 8 * 2 ^ esz

/-- Whether doubleword 3 of a descriptor is well formed by itself (R101, R104). -/
def troughWordOk (d3 : Nat) : Bool := reservedZero d3 [(0, 2), (8, 24)] && bitsOf d3 8 24 != 0

/-- Reads a trough's descriptor at its home (R101, R104). -/
def State.trough (s : State) (pa : Nat) : Trough :=
  let w := fun i => s.wordAt (pa + 8 * i)
  let d3 := (w 3).toNat
  let esz := bitsOf d3 0 2
  ⟨w 0, w 1, w 2, bitsOf d3 8 24, esz,
    !(troughWordOk d3 && canonical (w 2) && (w 2).toNat % entryBytes esz == 0 &&
      w 4 == 0 && w 5 == 0 && w 6 == 0 && w 7 == 0)⟩

/-- VA of a trough's slot (R102). -/
def Trough.slot (t : Trough) (n : W64) : W64 :=
  t.tbase + BitVec.ofNat 64 (n.toNat % t.cap * entryBytes t.esz)

/-- Takes a position of the publication order (R89). -/
def takePos : M Nat := runS State.nextPos

/-- A trough member that ends with a status and changes no entry; it takes its position (R89). -/
def troughStatus (st : Nat) : M (Option Nat) := do
  let _ ← takePos
  pure (some st)

/-- The descriptor as its home finds it: its failures are met and its sector's open entry closes (R69, R80). -/
def troughHere (pa : Nat) : M Trough := do
  upd (·.meetFailures pa 64)
  upd (·.closeAt pa)
  pure ((← get).trough pa)

/-- One attempt of `TRPUSH` at the descriptor's home (R102, R104, R305): a status, or none for WAIT. The read of the entry
and both writes share its one position. DEDUCED (log entry 35): `PUT` - `GOT` is taken modulo 2^64. -/
def pushAttempt (key : Nat) (c : Ctx) (r : Reader) (pa entry esz : Nat) : M (Option Nat) := do
  let t ← troughHere pa
  if t.bad || t.esz != esz then troughStatus stMALFORMED
  else if decide (t.cap ≤ (t.put - t.got).toNat) then pure none
  else if t.put = BitVec.allOnes 64 then
    upd (·.setFull pa true)
    troughStatus stSATURATED
  else
    let n := entryBytes t.esz
    let slot ← translate1 c { write := true } (t.slot t.put) n
    upd (·.meetFailures entry n)
    let data ← runS fun s => s.readParts r 8 entry n
    upd (·.updTask key fun t => { t with seen := noteSeen t.seen entry data })
    let pos ← takePos
    upd fun s => s.putAt false pos (.task key) slot (data.map (·.value))
    upd fun s => s.putAt false pos (.task key) pa (leBytes 8 (t.put.toNat + 1))
    pure (some stOK)

/-- One attempt of `TRPOP` at the descriptor's home (R102, R104, R305): the read of the slot and both writes share its one
position. DEDUCED (log entry 35): what an operation performed at a home returns is no read that R94 orders. -/
def popAttempt (key : Nat) (c : Ctx) (pa entry esz : Nat) : M (Option Nat) := do
  let t ← troughHere pa
  if t.bad || t.esz != esz then troughStatus stMALFORMED
  else if t.got = t.put then pure none
  else
    let n := entryBytes t.esz
    let slot ← translate1 c {} (t.slot t.got) n
    upd (·.meetFailures slot n)
    let data := (← get).bytesAt slot n
    let pos ← takePos
    upd fun s => s.putAt false pos (.task key) (pa + 8) (leBytes 8 (t.got.toNat + 1))
    upd fun s => s.putAt false pos (.task key) entry data
    pure (some stOK)

/-- Writes a scalar register of a task record; g0 discards it (R193). -/
def Task.setG (t : Task) (n : Nat) (v : W64) : Task := if n = 0 then t else { t with g := vset t.g n v }

/-- Queue number of a specifier q0-q7 (R193, R284). -/
def queueOf (d : Spec) : Nat := d.toNat - 48

/-- Writes a scalar destination of a task: a general register, or a queue of its cluster, at a position of its own (R89, R193,
R284, R285). -/
def State.writeDest (s : State) (key : Nat) (d : Spec) (v : W64) : State :=
  if d.toNat < 32 then s.updTask key (·.setG d.toNat v)
  else match s.taskOf key with
    | none => s
    | some t => (s.setCluster (clusterId t.core) fun c =>
        { c with queues := lset c.queues (queueOf d) (lget c.queues (queueOf d) ++ [v]) }).nextPos.2

/-- Whether a destination can take a value now: a queue holds four (R284). -/
def State.destReady (s : State) (key : Nat) (d : Spec) : Bool :=
  if d.toNat < 48 then true
  else match s.taskOf key with
    | none => true
    | some t => decide ((lget (s.cluster (clusterId t.core)).queues (queueOf d)).length < 4)

/-- Writes predicate `p` of a task record; p0 discards it (R194). -/
def Task.setP (t : Task) (p : Nat) (b : Bool) : Task :=
  if p = 0 then t
  else { t with p := if b then t.p ||| (1#8 <<< p) else t.p &&& ~~~(1#8 <<< p) }

/-- A task whose condition holds is to become READY, unless it has not left its core (R134, R160). -/
def State.wakeSoon (s : State) (key : Nat) : State :=
  if (s.taskOf key).any fun t => decide (t.status = .running) then s else s.pushEvent (.taskWake key)

/-- Completes the waiting instruction of a task: its hints are consumed, its pc moves on, and it is to become
READY (R134, R160). -/
def State.completeWait (s : State) (key : Nat) (f : Task → Task) : State :=
  (s.amend key fun t => f { t with hints := {}, hintsSaved := false, pc := t.pc + 4, waitOn := .nothing, stalled := false }).wakeSoon key

/-- Completes the waiting instruction of a task with a value for its destination: in its context area, if its registers have
been written back (R131, R133), or in a queue. -/
def State.finishWait (s : State) (key : Nat) (d : Spec) (v : W64) (f : Task → Task) : State :=
  if d.toNat < 32 then s.completeWait key fun t => f (t.setG d.toNat v) else (s.writeDest key d v).completeWait key f

/-- The position of the latest write of a word, or of a part of it (R89): the write that has satisfied a wait there (R98). -/
def State.lastWrite (s : State) (pa : Nat) : Nat :=
  (((s.writes.filter fun e => decide (e.pa < pa + 8 ∧ pa < e.pa + e.data.length)).getLast?).map (·.pos)).getD (s.pos - 1)

/-- Whether a word is full as its home finds it: one that holds an undetected failure is empty (R80). -/
def State.fullAt (s : State) (pa : Nat) : Bool := s.isFull pa && (s.failedIn pa 8).isEmpty

/-- Whether a waiting access's condition holds (R77, R98, R102). -/
def State.waiterReady (s : State) (w : Waiter) : Bool :=
  match w.kind with
  | .consume .. => s.fullAt w.pa
  | .produce .. => !s.fullAt w.pa
  | .counter target _ => decide (target ≤ s.wordAt w.pa)
  | .park target => decide (target ≤ (s.wordAt w.pa).toNat)
  | .push _ _ esz _ =>
    let t := s.trough w.pa
    t.bad || t.esz != esz.toNat || decide ((t.put - t.got).toNat < t.cap)
  | .pop _ _ esz => let t := s.trough w.pa; t.bad || t.esz != esz.toNat || t.got != t.put
  | .remoteRead .. => s.fullAt w.pa
  | .remoteWrite .. => !s.fullAt w.pa

/-- Performs a waiting trough access for its task; a slot that fails to translate becomes that task's trap
(R102). -/
def State.serveTrough (s : State) (w : Waiter) (d : Spec) (acq : Bool) (m : Task → M (Option Nat)) : State :=
  match s.taskOf w.task with
  | none => s
  | some t =>
    match m t s with
    | .ok (some st) s' =>
      s'.finishWait w.task d (BitVec.ofNat 64 st) fun t => if acq then { t with snapshot := s'.pos - 1 } else t
    | .ok none s' => { s' with waiters := s'.waiters ++ [w] }
    | .error (.trap c v) s' => (s'.updTask w.task fun t => { t with waitOn := .trapped c v }).pushEvent (.taskWake w.task)
    | .error .stall _ => { s with waiters := s.waiters ++ [w] }

/-- A task's snapshot point at a later position (R93). -/
def Task.acquireAt (t : Task) (pos : Nat) : Task := { t with snapshot := max t.snapshot pos }

/-- Performs an access whose condition holds (R78, R98, R103); a counter's wait is satisfied at position `at_`. -/
def State.performWait (s : State) (w : Waiter) (at_ : Nat) : State :=
  let failed := !(s.failedIn w.pa 8).isEmpty
  let s := ({ s with waiters := s.waiters.erase w } : State).closeAt w.pa
  match w.kind with
  | .consume d p =>
    let v := s.wordAt w.pa
    let (pos, s) := (s.setFull w.pa false).nextPos
    s.finishWait w.task d v fun t => { t.setP p.toNat true with snapshot := pos }
  | .produce data p =>
    let s := (s.homePut false (.task w.task) w.pa (leBytes 8 data.toNat)).setFull w.pa true
    s.completeWait w.task fun t => t.setP p.toNat true
  | .counter _ acq => s.completeWait w.task fun t => if acq then t.acquireAt at_ else t
  | .park _ => (s.updTask w.task fun t => { t.acquireAt at_ with waitOn := .nothing }).wakeSoon w.task
  | .push d entry esz acq => s.serveTrough w d acq fun t => pushAttempt t.key t.tctx t.reader w.pa entry esz.toNat
  | .pop d entry esz => s.serveTrough w d true fun t => popAttempt t.key t.tctx w.pa entry esz.toNat
  | .remoteRead src pid jkey =>
    let v := s.bytesAt w.pa 8
    let (_, s) := (s.setFull w.pa false).nextPos
    s.answer src pid jkey stOK (some v)
  | .remoteWrite src pid jkey data =>
    let s := (s.homePut false .other w.pa (leBytes 8 data.toNat)).setFull w.pa true
    s.answer src pid jkey (if failed then stZEROED else stOK) none

/-- Performs a waiting access whose condition holds: one on a counter took its position at the write that satisfied it (R98). -/
def State.serveWaiter (s : State) (w : Waiter) : State := s.performWait w (s.lastWrite w.pa)

/-- Performs every waiting access whose condition holds, oldest first, each with its effect before the next
is examined (R78, R98, R103). -/
def State.serveN : Nat → State → State
  | 0, s => s
  | n + 1, s => match s.waiters.find? s.waiterReady with
    | none => s
    | some w => (s.serveWaiter w).serveN n

/-- Re-examines the retry lists after a home changed a word. -/
def State.serve (s : State) : State := s.serveN s.waiters.length

/-- Meets the failures of `n` bytes at a PA; words that this empties let their waiting accesses go on before the access that
met them, which came later (R78, R80; DEDUCED, log entry 35). -/
def State.meet (s : State) (pa n : Nat) : State := if (s.failedIn pa n).isEmpty then s else (s.meetFailures pa n).serve

/-- Accesses that wait for a word which a failure has emptied since `s0` go on (R78, R80). -/
def State.serveMet (s s0 : State) : State := if s.failed = s0.failed then s else s.serve

/-- A read by an engine operation, an ingress port or the host (R106, R116, R118): the bytes, and what the reader has read
of each byte (R94). Accesses that wait for a word that a failure empties come after (R80, log entry 35). -/
def State.agentRead (s : State) (r : Reader) (pa n : Nat) : List Byte × List (Nat × Nat) × State :=
  let x := s.readSeen r pa n
  (x.1, x.2.1, if (s.failedIn pa n).isEmpty then x.2.2 else x.2.2.serve)

/-- Zeroes `n` bytes at a PA with their full/empty bits; words that this empties let their waiting accesses go on (R72,
R78). -/
def State.zeroServed (s : State) (pa n : Nat) : State :=
  let s := s.scrub pa n
  ({ s with full := s.full.filter fun x => !decide (pa ≤ x ∧ x < pa + n) }).serve

/-- A write by an engine, an ingress port or the host followed by the waiters it satisfies: each write is examined by
itself (R98). -/
def State.agentWrite (s : State) (whole : Bool) (a : Agent) (pa : Nat) (data : List Byte) : State :=
  (s.agentPut whole a pa data).serve

/-- A write that a task or a unit of a core makes directly, without holding (R106, R287): at its home, with the waiters it
satisfies, or to the control space (R436). -/
def State.writeAt (s : State) (a : Agent) (pa : Nat) (data : List Byte) : State :=
  match regionOf pa with
  | .control .. => s.push (controlEvents a.writer pa data)
  | _ => (s.taskPut false a pa data).serve

/-- `CounterAdd` of R97 at a word's home, before its waiters are served. -/
def State.counterPut (s : State) (a : Agent) (pa : Nat) (n : W64) : State :=
  let s := s.meetFailures pa 8
  let v := (s.wordAt pa).toNat + n.toNat
  if v < 2 ^ 64 then s.homePut false a pa (leBytes 8 v)
  else (s.homePut false a pa (leBytes 8 (2 ^ 64 - 1))).setFull pa true

/-- `CounterAdd` of R97, and the waiters it satisfies (R98). -/
def State.counterAdd (s : State) (a : Agent) (pa : Nat) (n : W64) : State := (s.counterPut a pa n).serve

/-- The completion counter of a command: 1 is added with release at system scope (R49, R72, R382). DEDUCED (log entry 32): a PA
where no counter can be, as in the weight store (R58), takes no add. -/
def State.signalCounter (s : State) (pa : W64) : State := if hasFullBits pa.toNat then s.counterAdd .other pa.toNat 1 else s

/-- Enters a waiting access in the retry list of the word's die, or refuses it when that list and its
overflow area are full (R78). -/
def State.addWaiter (s : State) (w : Waiter) : State :=
  let n := (s.waiters.filter fun x => homeDie x.pa == homeDie w.pa).length
  if n < 4096 + 2 ^ 20 then { s with waiters := s.waiters ++ [w] }
  else { s with refusedWaits := s.refusedWaits ++ [w] }

/-- Whether a waiting access came over the fabric (R407). -/
def WaitKind.remote : WaitKind → Bool
  | .remoteRead .. | .remoteWrite .. => true
  | _ => false

/-- Bytes that a waiting access is made to. -/
def WaitKind.size : WaitKind → Nat
  | .push .. | .pop .. => 64
  | _ => 8

/-- The destination that a waiting access of a task writes, if any. -/
def WaitKind.dest : WaitKind → Option Spec
  | .consume d _ | .push d .. | .pop d .. => some d
  | _ => none

/-- An access reaches its word as a new arrival (R79, R98): the failures there are met and the sector's open entry closes (R69,
R80). -/
def State.reach (s : State) (w : Waiter) : State := (s.meet w.pa w.kind.size).closeAt w.pa

/-- Performs an access whose condition holds as it arrives: a counter's wait takes a position of its own (R89, R98). -/
def State.performNow (s : State) (w : Waiter) : State :=
  match w.kind with
  | .counter .. | .park _ => let (pos, s) := s.nextPos; s.performWait w pos
  | _ => s.performWait w 0

/-- A waiting access arrives again (R78): it is performed when its condition holds by now, whether or not there is room to
wait. A remote read that meets a failure finds zero and ends ZEROED (R80, R406). -/
def State.arriveAgain (s : State) (w : Waiter) : State :=
  match w.kind, (s.failedIn w.pa 8).isEmpty with
  | .remoteRead src pid jkey, false =>
    ((s.reach w).nextPos.2.answer src pid jkey stZEROED (some (List.replicate 8 0))).serve
  | .remoteWrite .., false => (s.performNow w).serve
  | _, _ =>
    let s := s.reach w
    (if s.waiterReady w then s.performNow w else s.addWaiter w).serve

/-- Withdraws the waiting accesses of a task (R79, R98). -/
def State.withdraw (s : State) (key : Nat) : State :=
  let mine := fun (w : Waiter) => w.task == key && !w.kind.remote
  { s with withdrawn := s.withdrawn ++ (s.waiters ++ s.refusedWaits).filter mine,
           waiters := s.waiters.filter (!mine ·), refusedWaits := s.refusedWaits.filter (!mine ·) }

end Sys2Proof.Machine
end

