-- ==== Sys2Proof/Machine/Phase.lean ====
section
/-! DEFINITION. The phase model from a task's side (R83-R95): held stores, boundaries, loads and stores. -/

namespace Sys2Proof.Machine

/-- Publishes one held store at a boundary's position, or hands it to the control space (R87, R436). -/
def State.publishOne (s : State) (pos : Nat) (a : Agent) (doms : List Domain) (h : HeldStore) : State :=
  match regionOf h.pa with
  | .control .. => s.push (controlEvents a.writer h.pa h.data)
  | _ => s.writeEvent false pos a doms h.pa h.data

/-- The bytes of a line that held stores cover. -/
def lineMask (l : List HeldStore) (line : Nat) : BitVec 64 :=
  l.foldl (fun m h => m ||| sectorMask line h.pa h.data.length) 0

/-- A boundary that writes a whole sector of a compressed page replaces its failed units unread (R68, R80). -/
def State.replaceLine (s : State) (line : Nat) (mask : BitVec 64) : State :=
  if mask = BitVec.allOnes 64 then (s.closeWhole (line * 64) 64).dropReplaced false (line * 64) 64 else s

/-- A write event after a boundary of an agent: its own events become settled for the domain (R90). -/
def settleFor (a : Agent) (dom : Domain) (e : WriteEvent) : WriteEvent :=
  if e.agent = a ∧ dom ∉ e.domains then { e with domains := e.domains ++ [dom] } else e

/-- A boundary of the current task at a scope (R87, R89, R90, R91): every held store is published at one
position, earlier publications become settled for the scope's domain, and the snapshot point moves. DEDUCED (log entry
35): stores of one boundary reach the control space in the order in which the task made them. -/
def State.boundary (s : State) (sc : Scope) : State :=
  let t := s.task
  let a : Agent := .task t.key
  let dom := sc.domain t.core
  let lines := heldLines t.held
  let (pos, s) := (lines.foldl (fun s l => s.replaceLine l (lineMask t.held l)) s).nextPos
  let s := t.held.foldl (fun s h => s.publishOne pos a [dom] h) s
  let s := lines.foldl (fun s l => s.touchMask (BitVec.ofNat 16 t.wcwait.toNat) l (lineMask t.held l)) s
  let s := { s with writes := s.writes.map (settleFor a dom) }
  let usc := match sc with
    | .die | .system => 0
    | _ => t.usc + BitVec.ofNat 64 lines.length
  (s.setTask fun t => { t with held := [], snapshot := pos, usc := usc }).serve

/-- A boundary as an operation. -/
def boundary (sc : Scope) : M Unit := upd (·.boundary sc)

/-- Moves the current task's snapshot point to the latest position (R93, R99, R107). -/
def acquire : M Unit := upd fun s => s.setTask fun t => { t with snapshot := s.pos - 1 }

/-- Whether a task holds a store to any of `n` bytes (R100). -/
def Task.holdsAny (t : Task) (pa n : Nat) : Bool :=
  t.held.any fun h => decide (h.pa < pa + n ∧ pa < h.pa + h.data.length)

/-- What a read of `n` bytes at a PA by the current task returns, single-copy atomic in parts of `unit` bytes, at the present
position (R84, R86, R92, R94). The bytes of a failed unit are zero; accesses that wait for its emptied word come after
(R80, log entry 35). -/
def State.readHeld (s : State) (unit pa n : Nat) : List Byte × State :=
  let held := fun i => heldByte s.task.held (pa + i)
  let s := s.meetFailures pa n
  match regionOf pa with
  | .control .. => (tabulate n fun i => (held i).getD (s.controlByte (.task s.task.key) (pa + i)), s)
  | _ =>
    let t := s.task
    let (bs, s) := s.readParts t.reader unit pa n
    let seen := bs.zipIdx.foldl (fun l b =>
      if b.1.pos = 0 ∨ (held b.2).isSome then l else setKey l (pa + b.2) b.1.pos) t.seen
    (bs.zipIdx.map fun b => (held b.2).getD b.1.value, s.setTask fun t => { t with seen := seen })

/-- A read of `n` bytes at a PA by the current task, each part at a position of its own (R84, R89). -/
def State.readTask (s : State) (unit pa n : Nat) : List Byte × State :=
  let x := s.readHeld unit pa n
  (x.1, x.2.passReads unit pa n)

/-- Translated pieces without their first `n` bytes. -/
def cutPieces : Nat → List (Nat × Nat) → List (Nat × Nat)
  | _, [] => []
  | n, p :: ps => if p.2 ≤ n then cutPieces (n - p.2) ps else (p.1 + n, p.2 - n) :: ps

/-- A read as an operation. -/
def readTask (unit pa n : Nat) : M (List Byte) := runS (·.readTask unit pa n)

/-- A load by the current task of `n` bytes with an alignment, single-copy atomic in parts of `unit` bytes (R36, R39,
R84, R92). -/
def loadUnits (va : W64) (n align unit : Nat) : M (List Byte) := do
  let ps ← translate (← myCtx) {} va n align
  let bs ← ps.mapM fun p => readTask unit p.1 p.2
  pure bs.flatten

/-- A load whose parts are as large as its alignment (R84). -/
def loadBytes (va : W64) (n align : Nat) : M (List Byte) := loadUnits va n align align

/-- A naturally aligned load: its little-endian value. -/
def loadNat (va : W64) (n : Nat) : M Nat := do pure (leNat (← loadBytes va n n))

/-- Lines of the current task's spill area, from `SBASE` and CTX (R88, R128). -/
def Task.spillLines (t : Task) : Nat := (t.sbase - t.ctx - 0x5400).toNat / 64

/-- Whether a held store lies in another. -/
def HeldStore.inside (h k : HeldStore) : Bool := decide (k.pa ≤ h.pa ∧ h.pa + h.data.length ≤ k.pa + k.data.length)

/-- A held store with the bytes that a later one writes inside it. -/
def HeldStore.overwrite (h k : HeldStore) : HeldStore :=
  { h with data := h.data.take (k.pa - h.pa) ++ k.data ++ h.data.drop (k.pa - h.pa + k.data.length) }

/-- What is left of a held store outside a later one that overlaps it. -/
def HeldStore.outside (h k : HeldStore) : List HeldStore :=
  if h.pa + h.data.length ≤ k.pa ∨ k.pa + k.data.length ≤ h.pa then [h]
  else
    let lo := h.data.take (k.pa - h.pa)
    let hi := h.data.drop (k.pa + k.data.length - h.pa)
    (if lo.isEmpty then [] else [⟨h.pa, lo⟩]) ++ (if hi.isEmpty then [] else [⟨k.pa + k.data.length, hi⟩])

/-- Adds a store to those a task holds; it replaces the earlier ones of its bytes, so that no byte is held twice (R86). A
store inside an earlier one is merged into that one, which becomes the latest. DESIGN CHOICE (log entry 18): a line's age,
by which the oldest lines spill (R88), is that of the oldest of its stores still held, so that a rewritten line can become
the youngest. -/
def holdOne (l : List HeldStore) (k : HeldStore) : List HeldStore :=
  match l.find? fun h => k.inside h && !h.inside k with
  | some h => l.filter (· != h) ++ [h.overwrite k]
  | none => (l.map (·.outside k)).flatten ++ [k]

/-- Holds stores at their PAs (R86, R88): more lines than both areas hold raise the stack-limit trap, in the listing of R429
too. DESIGN CHOICE (log entry 36): of the two rules, which disagree there, the model keeps R88. -/
def holdStores (va : W64) (hs : List HeldStore) : M Unit := do
  let t := (← get).task
  let held := hs.foldl holdOne t.held
  need (decide ((heldLines held).length ≤ 64 + t.spillLines)) 0x40 va
  upd (·.setTask fun t => { t with held := held })

/-- Cuts data over translated pieces. -/
def splitData : List (Nat × Nat) → List Byte → List HeldStore
  | [], _ => []
  | (pa, n) :: ps, d => ⟨pa, d.take n⟩ :: splitData ps (d.drop n)

/-- A store by the current task with an alignment (R36, R37, R86). -/
def storeBytes (va : W64) (data : List Byte) (align : Nat) : M Unit := do
  let ps ← translate (← myCtx) { write := true } va data.length align
  holdStores va (splitData ps data)

/-- A naturally aligned store of the low `n` bytes of a value. -/
def storeNat (va : W64) (n v : Nat) : M Unit := storeBytes va (leBytes n v) n

/-- The implicit boundary of R100 before a home-performed operation on `n` bytes. -/
def implicitBoundary (sc : Scope) (pa n : Nat) : M Unit := do
  if (← get).task.holdsAny pa n then boundary sc else pure ()

end Sys2Proof.Machine
end

