-- ==== Sys2Proof/Machine/Instance.lean ====
section
/-! DEFINITION. Launch instances: entering the paddock, completion and its signal (R148-R154), the end of a
task (R87, R119, R133), and zeroing on change of owner (R81, R437). -/

namespace Sys2Proof.Machine

/-- Zeroes a span of whole words: data zero, full/empty bits empty, no failure and no earlier write event remains (R81, R82,
R92). -/
def State.clearSpan (s : State) (pa n : Nat) : State :=
  let inside := fun x => decide (pa ≤ x ∧ x < pa + n)
  let within := fun (e : WriteEvent) => inside e.pa && decide (e.pa + e.data.length ≤ pa + n)
  let ws := (s.writes.filter (!within ·)).map (WriteEvent.zeroed pa n)
  { s with mem := s.mem.filter (fun c => !inside c.1), full := s.full.filter (!inside ·),
           failed := s.failed.filter (fun f => !inside f.1), writes := ws }

/-- Zeroes a span; accesses that wait there for an empty word go on (R78, R81). -/
def State.zeroSpan (s : State) (pa n : Nat) : State := (s.clearSpan pa n).serve

/-- The launch a task belongs to (R437). -/
def Task.launchId (t : Task) : Launch := ⟨BitVec.ofNat 14 (fieldOf t.launch 0 14), t.asid⟩

/-- The launch an engine operation belongs to. -/
def EngineOp.launchId (o : EngineOp) : Launch := ⟨BitVec.ofNat 14 (fieldOf o.launch 0 14), o.asid⟩

/-- Whether a task is live on its core (R437): in any state but SAVED and ENDED. -/
def Task.onCore (t : Task) : Bool :=
  match t.status with
  | .ended | .saved _ => false
  | _ => true

/-- Whether an engine command runs on a copy engine (R155, R437). -/
def isCopyCmd (cmd : Nat) : Bool := decide (cmd ≤ 4)

/-- The launches that occupy a cluster (R437). -/
def State.occupants (s : State) (cl : Nat) : List Launch :=
  ((s.allTasks.filter fun t => t.onCore && clusterId t.core == cl).map Task.launchId) ++
  ((s.bindings.filter fun b => clusterId b.core == cl).map fun b =>
    let r := BitVec.ofNat 14 (fieldOf b.launch 0 14)
    s.launchOf r) ++
  ((s.ops.filter fun o => o.tag.isNone && isCopyCmd o.cmd && decide (o.st ≠ .finished) && clusterId o.core == cl).map
    EngineOp.launchId)

/-- Whether a launch other than a given one occupies a cluster (R437). -/
def State.occupiedByOther (s : State) (cl : Nat) (l : Launch) : Bool := (s.occupants cl).any (fun x => decide (x ≠ l))

/-- Places a launch on a cluster: when it passes to another launch its window is zeroed and its `CFLAGS`
cleared (R26, R81, R168, R437). -/
def State.takeCluster (s : State) (cl : Nat) (l : Launch) : State :=
  if (s.cluster cl).last = some l then s
  else
    let s := s.zeroSpan (scratchBase (cl / 64) (cl % 64)) 0x400000
    s.setCluster cl fun c => { c with last := some l, cflags := 0 }

/-- Zeroes the named regions of a launch on every cluster that its instances no longer occupy (R81). -/
def State.dropRegions (s : State) (l : Launch) : State :=
  let cls := (s.clusters.filter fun c => decide (c.last = some l) && !(s.occupants c.id).contains l).map (·.id)
  let regs := s.namedRegions l.recNo.toNat
  cls.foldl (fun s cl => regs.foldl (fun s r => s.zeroSpan (scratchBase (cl / 64) (cl % 64) + r.1) r.2.1) s) s

/-- Extent of a level of a record (R145): bits 23:0 of the level descriptor. -/
def State.extent (s : State) (r n : Nat) : Nat := s.recField r (16 + n) 0 24

/-- The highest on-device level m of a record (R146). -/
def State.topLevel (s : State) (r : Nat) : Nat := min (s.recField r 0 14 3) 4

/-- The parts of an instance by die (R154): with m ≥ 3, level-3 unit j goes to die (d + j) mod 4. DEDUCED (log entry 31):
with m = 4 the level-3 units are counted through, j = TID div (EXT0·EXT1·EXT2). -/
def State.partsOf (s : State) (r : Nat) : List Part :=
  let d := r / 4096
  let work := s.work r
  if s.topLevel r < 3 then [⟨BitVec.ofNat 2 d, 0, work, true⟩]
  else
    let size := s.extent r 0 * s.extent r 1 * s.extent r 2
    tabulate (work / size) fun j => ⟨BitVec.ofNat 2 (d + j), j * size, (j + 1) * size, true⟩

/-- READY instances, or parts that count as such, in a die's paddock (R154). -/
def State.paddockCount (s : State) (d : BitVec 2) : Nat :=
  (s.insts.map fun i => i.parts.countP fun p => p.die == d && p.fresh).sum

/-- The parts of an instance that enter the paddocks now, in order, and those that wait on, where `held` parts of a die are in
its paddock (R154). -/
def enterParts (held : BitVec 2 → Nat) (ps : List Part) : List Part × List Part :=
  ps.foldl (fun x p =>
    if held p.die + x.1.countP (·.die == p.die) < 65536 then (x.1 ++ [p], x.2) else (x.1, x.2 ++ [p])) ([], [])

/-- Lets what waits for space enter the paddocks, each part by itself, in the order in which the instances became READY
(R154). -/
def State.fillPaddock (s : State) : State :=
  s.insts.foldl (fun s i =>
    if i.outside = [] then s
    else
      let x := enterParts s.paddockCount i.outside
      { s with insts := s.insts.map fun y =>
          if y.recNo = i.recNo ∧ y.gen = i.gen then { y with parts := y.parts ++ x.1, outside := x.2 } else y }) s

/-- Changes the instance of a record with a generation. -/
def State.updInst (s : State) (r : BitVec 14) (gen : BitVec 16) (f : Instance → Instance) : State :=
  { s with insts := s.insts.map fun x => if x.recNo = r ∧ x.gen = gen then f x else x }

/-- The instance of a record with a generation. -/
def State.inst (s : State) (r : BitVec 14) (gen : BitVec 16) : Option Instance :=
  s.insts.find? fun x => x.recNo == r && x.gen == gen

/-- Moves an instance behind the others: the READY ones stand in the order they became READY (R154, R156). -/
def State.lastInst (s : State) (r : BitVec 14) (gen : BitVec 16) : State :=
  let mine := fun (x : Instance) => x.recNo == r && x.gen == gen
  { s with insts := s.insts.filter (!mine ·) ++ s.insts.filter mine }

/-- Makes a WAITING instance READY once its predecessors are done and its event has fired (R148); before boot
has finished it stays WAITING (R418). -/
def State.wakeInst (s : State) (r : BitVec 14) (gen : BitVec 16) : State :=
  match s.inst r gen with
  | some i =>
    if i.st = .waiting ∧ i.pending = 0 ∧ !i.event ∧ s.boot.stage = 3 then
      ((s.updInst r gen fun x => { x with st := .ready, outside := s.partsOf r.toNat }).lastInst r gen).fillPaddock
    else s
  | none => s

/-- Decrements a successor (R151): its oldest WAITING instance with a nonzero pending count, else `CRED`. -/
def State.decrement (s : State) (succ : Nat) : State :=
  match s.insts.find? fun i => i.recNo.toNat == succ && decide (i.st = .waiting) && i.pending != 0 with
  | some i => (s.updInst i.recNo i.gen fun x => { x with pending := x.pending - 1 }).wakeInst i.recNo i.gen
  | none =>
    let c := s.cred succ
    if c < 255 then s.setRecField succ 0 32 8 (c + 1)
    else { s with recLast := setKey s.recLast succ (((lookupKey s.recLast succ).getD 0) ||| 0x100) }

/-- The valid successors of a record in order (R143). -/
def State.successors (s : State) (r : Nat) : List Nat :=
  ((List.range 8).map fun k => s.recField r (12 + k / 4) (16 * (k % 4)) 16).filterMap fun f =>
    if bitAt f 15 then some (bitsOf f 0 14) else none

/-- `Signal` of R151, steps 1 to 3: the counter, the last status, the successors. -/
def State.signal (s : State) (r st : Nat) : State :=
  let s := s.counterAdd .other (s.recDw r 5).toNat 1
  let s := { s with recLast := setKey s.recLast r (((lookupKey s.recLast r).getD 0 &&& 0x100) ||| BitVec.ofNat 64 st) }
  if st = stOK then (s.successors r).foldl State.decrement s else s

/-- `Complete` of R151, with the zeroing of R81. -/
def State.complete (s : State) (i : Instance) : State :=
  let r := i.recNo.toNat
  let s := s.signal r (if i.bad then stERROR else stOK)
  let s := s.setRecField r 0 40 8 (s.live r - 1)
  let s := { s with insts := s.insts.filter fun x => !(x.recNo == i.recNo && x.gen == i.gen) }
  (s.dropRegions (s.launchOf i.recNo)).fillPaddock

/-- The launch word `LAUNCH` of an instance (R147). -/
def launchWord (r : BitVec 14) (gen : BitVec 16) : W64 := BitVec.ofNat 64 (gen.toNat * 2 ^ 14 + r.toNat)

/-- Whether everything of an instance has ended (R119, R139, R148): every unit dispatched and ended, every
forked engine operation complete, no binding and no queued activation left. -/
def State.instDone (s : State) (i : Instance) : Bool :=
  let w := launchWord i.recNo i.gen
  decide (i.st = .dispatched) && i.parts.isEmpty && i.outside.isEmpty && i.lost.isEmpty &&
  !(s.allTasks.any fun t => t.launch == w && decide (t.status ≠ .ended)) &&
  !(s.ops.any fun o => o.launch == w) &&
  !(s.bindings.any fun b => b.launch == w)

/-- Completes the instance of a launch word when everything of it has ended. -/
def State.checkComplete (s : State) (w : W64) : State :=
  match s.inst (BitVec.ofNat 14 (fieldOf w 0 14)) (BitVec.ofNat 16 (fieldOf w 14 16)) with
  | some i => if s.instDone i then s.complete i else s
  | none => s

/-- Marks the instance of a launch word as ending in ERROR (R151). -/
def State.markBad (s : State) (w : W64) : State :=
  s.updInst (BitVec.ofNat 14 (fieldOf w 0 14)) (BitVec.ofNat 16 (fieldOf w 14 16)) fun i => { i with bad := true }

/-- Queued packets of a core's channels are offered for activation (R137). -/
def State.startQueued (s : State) (c : CoreId) : State :=
  s.push ((((s.chq.filter fun q => q.core == c).map (·.chan)).eraseDups).map fun n => .event (.activationStart c n))

/-- Lanes of a core's cluster that no task holds (R18, R140). -/
def State.freeLanes (s : State) (c : CoreId) : Nat :=
  128 - ((s.allTasks.filter fun t => t.core.die == c.die && t.core.clu == c.clu).map fun t => t.lanes.length).sum

/-- Whether a task takes a place on its core (R130): one that is RUNNING, SUSPENDED or PARKED, or whose registers are there
at a yield point; on a stager or issuer every task that is there. -/
def Task.seated (t : Task) : Bool :=
  t.onCore && (t.resident || decide (8 ≤ t.core.core.toNat ∨ t.status = .running ∨ t.status = .suspended ∨ t.status = .parked))

/-- Tasks resident on a core by priority, but for one with a number (R130, R136). -/
def State.residents (s : State) (c : CoreId) (high : Bool) (but : Option Nat) : Nat :=
  s.allTasks.countP fun t => t.core == c && t.high == high && t.seated && some t.key != but

/-- Whether a core has room for one more task of a priority, apart from one with a number (R130, R136). -/
def State.hasRoom (s : State) (c : CoreId) (high : Bool) (but : Option Nat := none) : Bool :=
  if c.core.toNat < 8 then decide (s.residents c high but < if high then 1 else 8)
  else decide (s.residents c true but + s.residents c false but < 1)

/-- The core a READY task resumes on (R113, R135, R140): its own if it has room, else the lowest lane core of its
cluster that has; on a stager or issuer, with a load reply outstanding or with lanes to reclaim after a move, its
own. -/
def State.coreFor (s : State) (t : Task) : Option CoreId :=
  if s.freeLanes t.core < t.laneImage.length then none
  else if s.hasRoom t.core t.high (some t.key) then some t.core
  else if 8 ≤ t.core.core.toNat ∨ t.outstanding ≠ [] ∨ t.waitOn = .ownCore then none
  else (((List.range 8).map fun k => { t.core with core := BitVec.ofNat 4 k }).find? fun c => s.hasRoom c t.high)

/-- The core on which a READY task is to run: the one it resumes on, its own while none can take it (R133, R136). -/
def State.aimOf (s : State) (t : Task) : CoreId := (s.coreFor t).getD t.core

/-- Whether a task waits for a home, for tags or for its resume word: a wait that a pre-emption withdraws and a resumption issues
again. -/
def WaitOn.again : WaitOn → Bool
  | .home | .tagAny _ | .tagAll _ | .resumeWord => true
  | _ => false

/-- Whether a task issues instructions: one that is RUNNING, unless its message waits for a full inbox (R133, R311). -/
def Task.issues (t : Task) : Bool :=
  match t.waitOn with
  | .inbox .. => false
  | _ => decide (t.status = .running)

/-- While a high-priority task runs on a core, its normal tasks are SUSPENDED, at an instruction boundary (R133, R136). -/
def State.suspendNormals (s : State) (c : CoreId) : State :=
  let f := fun (t : Task) => if t.core = c ∧ !t.high ∧ t.issues then { t with status := .suspended } else t
  { s with task := f s.task, tasks := s.tasks.map f }

/-- Whether a high-priority task runs on a core. -/
def State.highRuns (s : State) (c : CoreId) : Bool :=
  s.allTasks.any fun t => t.high && t.core == c && decide (t.status = .running)

/-- When a core's high-priority activation ends, waits or is to run elsewhere, its suspended tasks issue again (R133,
R136). -/
def State.unsuspend (s : State) (c : CoreId) : State :=
  let busy := s.allTasks.any fun t => t.high &&
    ((t.core == c && decide (t.status = .running)) || (decide (t.status = .ready) && s.aimOf t == c))
  if busy then s
  else
    let f := fun (t : Task) => if t.core = c ∧ t.status = .suspended then { t with status := .running } else t
    { s with task := f s.task, tasks := s.tasks.map f }

/-- Discards a writer's staging buffers on a die (R48). -/
def State.dropStaging (s : State) (d : Nat) (w : Writer) : State :=
  s.setDie d fun x => { x with staging := x.staging.filter fun b => b.writer != w }

/-- The current task ends (R87, R119, R133): a boundary at system scope, its lanes returned zeroed, its packet
and staging buffers discarded, its channel free for the next activation. -/
def State.endTask (s : State) (bad : Bool) : State :=
  let s := s.boundary .system
  let t := s.task
  let s := if bad then s.markBad t.launch else s
  let s := s.setTask fun t => { t with status := .ended, lanes := [], laneImage := [], pkt := [], pktChan := none,
                                       hints := {}, outstanding := [], activation := none, waitOn := .nothing }
  let s := { s with ready := s.ready.filter (· != t.key) }
  let s := (List.range 4).foldl (fun s d => s.dropStaging d (.task t.key)) s
  let s := match t.activation with
    | some (c, _) => if c = t.core then s else s.startQueued c
    | none => s
  ((s.unsuspend t.core).startQueued t.core).checkComplete t.launch

end Sys2Proof.Machine
end

