-- ==== Sys2Proof/Machine/Ops.lean ====
section
/-! DEFINITION. The operations every instruction is made of: hints and guards (R10, R195-R198), taking a trap
and returning from one (R374-R379, R235), parking on an enabled flag (R166, R167), and the frame of one
instruction (R199, R215). -/

namespace Sys2Proof.Machine

/-- The outcome of an instruction. -/
abbrev Res := Host.Outcome State Fault Refusal

/-- How an instruction leaves the pc: at the next word, at a target, at the next word with flags raised
(R166), waiting at this instruction (R134), or wherever the operation itself has put it. -/
inductive Next where
  | seq
  | goto (pc : W64)
  | flags (f : BitVec 5)
  | wait
  | gone
  deriving DecidableEq, Repr

/-- The cores a group runs on (R200). -/
inductive CoreClass where
  | any | lane | issuer
  deriving DecidableEq, Repr

/-- Which of the restricted hints may govern an instruction (R195): HIMM, HORD with a key, HORD with key zero,
HPRI. -/
structure HintSet where
  imm : Bool := false
  ord : Bool := false
  ordKey : Bool := false
  pri : Bool := false
  deriving DecidableEq, Repr

/-- Whether a core is of a class (R5, R200). -/
def CoreClass.allows (k : CoreClass) (c : CoreId) : Bool :=
  match k with
  | .any => true
  | .lane => decide (c.core.toNat < 8)
  | .issuer => c.core == 9

/-- Whether the pending hints may govern an instruction (R195, R197). -/
def HintSet.allows (a : HintSet) (h : Hints) : Bool :=
  (h.himm.isNone || a.imm) && (h.hpri.isNone || a.pri) &&
  match h.hord with
  | none => true
  | some (_, key) => a.ord && (a.ordKey || key == 0)

/-- Predicate `n` of a task; p0 reads true (R194). -/
def Task.pred (t : Task) (n : Nat) : Bool := n == 0 || t.p.getLsbD n

/-- Whether the guard of a pending HPRED holds (R10, R195): sense 1 executes when the predicate is false. -/
def Task.guard (t : Task) : Bool :=
  match t.hints.hpred with
  | none => true
  | some x => t.pred (x.toNat % 8) != x.getLsbD 3

/-- `TSTAT` after a trap (R376, R377). -/
def trapStat (depth : Nat) (hp : Bool) : W64 := BitVec.ofNat 64 (depth % 256 * 2 ^ 16 + 2 * hp.toNat + 1)

/-- Terminates the current task after a trap (R379): the die's count and record, then the task's end, in
ERROR. -/
def State.terminate (s : State) (cause : BitVec 8) (val epc : W64) : State :=
  let t := s.task
  let s := s.setDie t.core.die.toNat fun d =>
    { d with terms := d.terms + 1, termLaunch := t.launch,
             termWord := BitVec.ofNat 64 (cause.toNat * 2 ^ 24 + fieldOf t.tid 0 24), termEpc := epc, termVal := val }
  s.endTask true

/-- The task's registers as a trap saves them (R377): cause, value, resume address, hints, status. DESIGN CHOICE (log entry 25):
`THINT` and `THINTX` are written whole, the fields of kinds not pending as zero. -/
def Task.saveTrap (t : Task) (cause : BitVec 8) (val epc : W64) : Task :=
  let h := t.hints.save
  { t with tcause := cause.setWidth 64, tval := val, tepc := epc, thint := h.1, thintx := h.2.1,
           tstat := trapStat t.saved.length h.2.2, hints := {}, stalled := false, operands := none }

/-- The VA of the vector table's entry for a cause (R376, R377). -/
def vectorVa (tvec : W64) (cause : BitVec 8) : W64 :=
  tvec &&& ~~~63#64 ||| BitVec.ofNat 64 (8 * bitsOf cause.toNat 4 3)

/-- The core takes a trap (R377): a double trap, a missing handler or a faulting vector read terminates the
task (R379). Accesses that wait for a word which the trapping instruction or the vector read emptied go on (R78, R80). -/
def State.takeTrap (s : State) (cause : BitVec 8) (val epc : W64) : State :=
  if s.task.tstat.getLsbD 0 then s.terminate cause val epc
  else
    let s := s.setTask (·.saveTrap cause val epc)
    if s.task.tvec.getLsbD 0 then
      match loadNat (vectorVa s.task.tvec cause) 8 s with
      | .ok h s => if h = 0 then s.terminate cause val epc else (s.setTask fun t => { t with pc := BitVec.ofNat 64 h }).serve
      | .error _ s => s.terminate cause val epc
    else s.terminate cause val epc

/-- The return from a trap handler (R235, R198): `IN` cleared, saved hints pending again, resume at `TEPC`. -/
def Task.eret (t : Task) : Task :=
  { t with pc := t.tepc, tstat := t.tstat &&& ~~~1#64,
           hints := if t.tstat.getLsbD 1 then Hints.restore t.thint t.thintx else {} }

/-- Registers declared dead by a governing HLIVE keep their value or read zero from here on (R132, log
entry 8). -/
def Task.kill (t : Task) (p : BitVec 22) (keep : Nat → Bool) : Task :=
  let dead := fun (i : Nat) => (decide (16 ≤ i ∧ i < 32) && !p.getLsbD (i - 16)) || (decide (4 ≤ i ∧ i < 8) && !p.getLsbD (i + 12))
  { t with g := vec32 fun i => if dead i && !keep i then 0 else vget t.g i,
           lanes := if !p.getLsbD 20 && !keep 32 then t.lanes.map fun _ => Vector.replicate 32 0 else t.lanes,
           e := if !p.getLsbD 21 && !keep 33 then Vector.replicate 64 0 else t.e }

/-- What the governing HLIVE does at an instruction, if there is one (R132). -/
def State.applyLive (s : State) (h : Hints) : State :=
  match h.hlive with
  | none => s
  | some p => { s.setTask (fun t => t.kill p fun i => Config.freeKeep (64 * s.tick + i)) with tick := s.tick + 1 }

/-- Moves a waiting or parked task's core on: a high-priority one lets the suspended tasks issue, and queued
packets may start (R136, R137). -/
def State.leaveCore (s : State) : State :=
  (if s.task.high then s.unsuspend s.task.core else s).startQueued s.task.core

/-- ORs flags into `FSTAT` and into the cluster's `CFLAGS` (R166, R168). -/
def State.raiseFlags (s : State) (f : BitVec 5) : State :=
  let s := s.setTask fun t => { t with fstat := t.fstat ||| f.setWidth 64 }
  if f = 0 then s else s.setCluster (clusterId s.task.core) fun c => { c with cflags := c.cflags ||| f }

/-- The route descriptor of a core and tag on this device (R327). -/
def routeTo (c : CoreId) (tag : BitVec 16) : W64 :=
  BitVec.ofNat 64 (c.die.toNat * 2 ^ 38 + c.clu.toNat * 2 ^ 32 + c.core.toNat * 2 ^ 24 + tag.toNat)

/-- Puts a packet in flight toward a core of this device (R329); it arrives as an event, when
it is due. -/
def State.enqueueSend (s : State) (r : SendRec) : State :=
  let id := s.nextId
  { s with sends := s.sends ++ [{ r with id := id }], nextId := id + 1 }

/-- The event message of a parking task (R167). -/
def parkWords (t : Task) (f : BitVec 5) (at_ : W64) : List W64 :=
  [t.launch,
   BitVec.ofNat 64 (f.toNat * 2 ^ 56 + t.core.die.toNat * 2 ^ 48 + t.core.clu.toNat * 2 ^ 40 + t.core.core.toNat * 2 ^ 32 +
     fieldOf t.tid 0 24),
   at_, t.ctx + 0xF8]

/-- A 64-bit word as the two 32-bit words of a packet. -/
def wordsOf (l : List W64) : List W32 := (l.map fun (w : W64) => [w.setWidth 32, (w >>> 32).setWidth 32]).flatten

/-- The current task parks (R167) with enabled flags `f`, raised by the instruction at `at_`; its pc is at the
next one. A resume word that does not translate or is refused terminates the task. DESIGN CHOICE (log entry 18): the value
found there is the one at its home, whatever the task itself holds of it. -/
def State.park (s : State) (f : BitVec 5) (at_ : W64) : State :=
  let t := s.task
  let va := t.ctx + 0xF8
  match translate1 t.tctx { sync := true } va 8 s with
  | .error (.trap c _) s => s.terminate c va s.task.pc
  | .error .stall s => s
  | .ok pa s =>
    let s := (s.meetFailures pa 8).closeAt pa
    let v := (s.wordAt pa).toNat
    let supv := (s.die t.core.die.toNat).supv
    let dst : CoreId := ⟨t.core.die, BitVec.ofNat 6 (fieldOf supv 8 6), BitVec.ofNat 4 (fieldOf supv 4 4)⟩
    let route := routeTo dst (BitVec.ofNat 16 (fieldOf supv 16 16))
    let s := s.enqueueSend ⟨0, t.key, 0, 1, route, wordsOf (parkWords t f at_), 0, 0, t.asid, t.jobkey, 0⟩
    let s := s.setTask fun t => { t with status := .parked, waitOn := .resumeWord }
    ((s.addWaiter ⟨t.key, pa, .park (v + 1), va, 0⟩).leaveCore).serve

/-- Ends an instruction (R166, R195): hints consumed, liveness applied, the pc moved, flags recorded, and the
task parked when an enabled flag was raised while `SUPV.V` is 1. -/
def State.retire (s : State) (h : Hints) (at_ : W64) (nx : Next) : State :=
  match nx with
  | .gone => s
  | .wait => (((s.setTask fun t => { t with live := h.hlive.getD (BitVec.allOnes 22) }).applyLive h).writeBack
      s.task.key).leaveCore.serve
  | .seq => (s.setTask fun t => { t with hints := {}, pc := at_ + 4, stalled := false }).applyLive h
  | .goto pc => (s.setTask fun t => { t with hints := {}, pc := pc, stalled := false }).applyLive h
  | .flags f =>
    let s := ((s.setTask fun t => { t with hints := {}, pc := at_ + 4, stalled := false }).applyLive h).raiseFlags f
    let on := f &&& s.task.fena.setWidth 5
    if on ≠ 0 ∧ (s.die s.task.core.die.toNat).supv.getLsbD 0 then s.park on at_ else s

/-- The other core of a matrix pair, for which a queue access waits (R284). -/
def partner (c : CoreId) : CoreId := { c with core := if c.core = 8 then 9 else 8 }

/-- The queues of the current task's cluster (R284). -/
def State.queues (s : State) : List (List W64) := (s.cluster (clusterId s.task.core)).queues

/-- Serves the waiting accesses whose queue has changed since `s0` (R284), or whose word a failure that was met has emptied
(R78, R80). -/
def State.serveQueues (s s0 : State) : State := if s.queues = s0.queues ∧ s.failed = s0.failed then s else s.serve

/-- Puts the queues back as they were in `s0`: a trapping instruction has no effect on them (R374). -/
def State.restoreQueues (s s0 : State) : State :=
  if s.queues = s0.queues then s else s.setCluster (clusterId s.task.core) fun c => { c with queues := s0.queues }

/-- Carries out the body of the current task's instruction. A trap leaves what the body had done before it: channel words
popped and vector atomics applied (R374). An instruction that waits for a queue is executed again (R284); the translations it
has filled stay held (R41). -/
def State.carryOut (s : State) (body : M Next) : State :=
  let t := s.task
  match body s with
  | .ok nx s' => (s'.retire t.hints t.pc nx).serveQueues s
  | .error (.trap c v) s' => (s'.restoreQueues s).takeTrap c v t.pc
  | .error .stall s' =>
    ({ s with l1 := s'.l1, rtlb := s'.rtlb, dtlb := s'.dtlb, task := { s.task with stalled := s'.task.stalled } } : State).push
      [.core (partner t.core)]

/-- One instruction of the current task (R199, R215): core type and hints first, whether the guard holds or
not; with a false guard nothing but the hints' end (R11); else the body. -/
def State.run (s : State) (k : CoreClass) (a : HintSet) (i : Instr) (body : M Next) : State :=
  let t := s.task
  if !(k.allows t.core && a.allows t.hints) then s.takeTrap 0x00 (BitVec.ofNat 64 ((encode i).getD 0)) t.pc
  else if !t.guard then s.setTask fun t => { t with hints := {}, pc := t.pc + 4, stalled := false }
  else s.carryOut body

/-- The meaning of an instruction word: always a next state. -/
def issue (k : CoreClass) (a : HintSet) (i : Instr) (body : M Next) (s : State) : Res := .next (s.run k a i body)

/-- A hint word (R195, R197): illegal when one of its kind is already pending. Hints are not governed. -/
def issueHint (i : Instr) (pending : Hints → Bool) (f : Hints → Hints) (s : State) : Res :=
  if pending s.task.hints then .next (s.takeTrap 0x00 (BitVec.ofNat 64 ((encode i).getD 0)) s.task.pc)
  else .next (s.setTask fun t => { t with hints := f t.hints, pc := t.pc + 4 })

/-- The meaning of an event: a change of state. -/
def event (f : State → State) (s : State) : Res := .next (f s)

/-- The meaning of a write to the control space, and of the command it completes, while BAR0 maps that space (R417): nothing
reaches it while the boot image is refused. -/
def throughBar (f : State → State) (s : State) : Res := event (fun s => if s.boot.stage = 15 then s else f s) s

end Sys2Proof.Machine
end

