-- ==== Sys2Proof/Machine/Operands.lean ====
section
/-! DEFINITION. Operand forms (R15, R193, R194, R196): scalar sources and destinations, channels, queues,
predicates and immediates. -/

namespace Sys2Proof.Machine

/-- Whether a queue is read by a core of the pair: q0-q3 by the issuer, q4-q7 by the stager (R284). -/
def readsQueue (c : CoreId) (x : Spec) : Bool :=
  (decide (48 ≤ x.toNat ∧ x.toNat < 52) && c.core == 9) || (decide (52 ≤ x.toNat ∧ x.toNat < 56) && c.core == 8)

/-- Whether a queue is written by a core of the pair (R284). -/
def writesQueue (c : CoreId) (x : Spec) : Bool :=
  (decide (48 ≤ x.toNat ∧ x.toNat < 52) && c.core == 8) || (decide (52 ≤ x.toNat ∧ x.toNat < 56) && c.core == 9)

/-- Whether a specifier names a scalar source on a core (R193, R284). -/
def scalarSrcOk (c : CoreId) (x : Spec) : Bool := decide (x.toNat < 48) || readsQueue c x

/-- Whether a specifier names a scalar destination on a core (R193, R284). -/
def scalarDstOk (c : CoreId) (x : Spec) : Bool := decide (x.toNat < 32) || writesQueue c x

/-- A general register of the window; g0 reads zero (R193). -/
def Task.reg (t : Task) (n : Nat) : W64 := if n = 0 then 0 else vget t.g n

/-- Refuses a specifier that is no scalar source (R199 step 2). -/
def checkSrc (x : Spec) : M Unit := do need (scalarSrcOk (← get).task.core x) 0x01 (x.setWidth 64)

/-- Refuses a specifier that is no scalar destination (R199 step 2). -/
def checkDst (x : Spec) : M Unit := do need (scalarDstOk (← get).task.core x) 0x01 (x.setWidth 64)

/-- Pops the next 64 bits of the current packet on a channel (R15). -/
def popChannel (n : Nat) : M W64 := do
  let t := (← get).task
  match t.pktChan, t.pkt with
  | some c, lo :: hi :: rest =>
    if c.toNat = n then
      upd (·.setTask fun t => { t with pkt := rest })
      pure (hi ++ lo)
    else raise 0x30 (BitVec.ofNat 64 n)
  | _, _ => raise 0x30 (BitVec.ofNat 64 n)

/-- An instruction that waits for a queue to change: it is marked as stalled there (R284). -/
def stallHere : M α := do
  upd (·.setTask fun t => { t with stalled := true })
  throw .stall

/-- Pops the oldest entry of a queue of the matrix pair, at a position of its own (R89, R285); an empty queue waits (R284). -/
def popQueue (q : Nat) : M W64 := do
  let s ← get
  let cl := clusterId s.task.core
  match lget (s.cluster cl).queues q with
  | [] => stallHere
  | x :: rest =>
    upd fun s => (s.setCluster cl fun c => { c with queues := lset c.queues q rest }).nextPos.2
    pure x

/-- Waits for the load replies of a register (R216), which arrive by themselves (log entry 6). -/
def Task.arrive (t : Task) (x : Spec) : Task := { t with outstanding := t.outstanding.filter (· != x) }

/-- The name under which a vector register's loads are outstanding: vN as the specifier N + 32, which names no register that a
load can leave pending (R263, log entry 6). -/
def vecPending (x : Spec) : Spec := x + 32

/-- Reads a scalar source (R15, R193): a register, the next word of a channel, or a queue entry. -/
def readScalar (x : Spec) : M W64 := do
  if x.toNat < 32 then do
    upd (·.setTask (·.arrive x))
    pure ((← get).task.reg x.toNat)
  else if x.toNat < 48 then popChannel (x.toNat - 32)
  else popQueue (x.toNat - 48)

/-- Writes a scalar destination (R193): g0 discards; a full queue waits (R284). -/
def writeScalar (d : Spec) (v : W64) : M Unit := do
  if d.toNat < 32 then upd (·.setTask (·.arrive d)) else pure ()
  let s ← get
  if s.destReady s.task.key d then upd fun s => s.writeDest s.task.key d v else stallHere

/-- A register is pending until the reply of a load arrives (R216). -/
def Task.await (t : Task) (x : Spec) : Task :=
  { t with outstanding := if x ∈ t.outstanding then t.outstanding else t.outstanding ++ [x] }

/-- Whether a forwarding entry still has a reply to come (R114). -/
def State.forwardLive (s : State) (f : Forward) : Bool :=
  (s.taskOf f.task).any fun t => f.dests.any fun d => t.outstanding.contains d

/-- Releases the forwarding entries whose replies have all come (R114). -/
def State.freeForwards (s : State) : State := { s with forwards := s.forwards.filter s.forwardLive }

/-- A load of the current task makes a register pending (R216); a reply that an old core still forwarded to it has come
before (R114). -/
def State.await (s : State) (x : Spec) : State :=
  let mine := fun (f : Forward) => if f.task = s.task.key then { f with dests := f.dests.filter (· != x) } else f
  { s.setTask (·.await x) with forwards := (s.forwards.map mine).filter fun f => !f.dests.isEmpty }

/-- Writes the destination of a load, which stays pending until its reply arrives (R216). -/
def writeLoaded (d : Spec) (v : W64) : M Unit := do
  let s ← get
  if s.destReady s.task.key d then
    upd fun s => s.writeDest s.task.key d v
    if d.toNat = 0 ∨ 32 ≤ d.toNat then pure ()
    else upd (·.await d)
  else stallHere

/-- Predicate `n` (R194). -/
def readPred (n : BitVec 3) : M Bool := do pure ((← get).task.pred n.toNat)

/-- Writes predicate `n`; p0 discards (R194). -/
def writePred (n : BitVec 3) (b : Bool) : M Unit := upd (·.setTask (·.setP n.toNat b))

/-- An immediate of `w` bits, widened by a governing HIMM and sign-extended (R196). -/
def immediate (w v : Nat) : M W64 := do
  match (← get).task.hints.himm with
  | none => pure (sext64 w v)
  | some p => pure (sext64 (w + 22) (p.toNat * 2 ^ w + v))

/-- A byte offset counted in words from the instruction (R192). -/
def branchTarget (w v : Nat) : M W64 := do pure ((← get).task.pc + 4 * (← immediate w v))

/-- The address of the instruction. -/
def here : M W64 := do pure (← get).task.pc

/-- Two scalar sources and a scalar destination: `d := f a b` (R15, R199, R215). -/
def binary (d a b : Spec) (f : W64 → W64 → W64) : M Next := do
  checkSrc a; checkSrc b; checkDst d
  let x ← readScalar a
  let y ← readScalar b
  writeScalar d (f x y)
  pure .seq

/-- One scalar source and a scalar destination. -/
def unary (d a : Spec) (f : W64 → W64) : M Next := do
  checkSrc a; checkDst d
  let x ← readScalar a
  writeScalar d (f x)
  pure .seq

/-- No hint beyond those every instruction takes. -/
def plain : HintSet := {}
/-- HIMM may govern. -/
def withImm : HintSet := { imm := true }
/-- HORD with key zero may govern (the AMO group). -/
def withOrd : HintSet := { ord := true }

/-- The meaning of a word that any core runs and no restricted hint governs. -/
abbrev word (i : Instr) (body : M Next) (s : State) : Res := issue .any plain i body s

end Sys2Proof.Machine
end

