-- ==== Sys2Proof/Machine/Creg.lean ====
section
/-! DEFINITION. Control registers (R204, R236, R237): what each reads as and what a write does. -/

namespace Sys2Proof.Machine

/-- Whether a die's weight-store read claim is held (R59): an armed or running launch of a record of the die
declares weight-store use. -/
def State.claimHeld (s : State) (die : Nat) : Bool :=
  s.insts.any fun i => decide (i.recNo.toNat / 4096 = die) && s.recField i.recNo.toNat 0 20 1 == 1

/-- Whether the schedule position lies in a refresh (R60). -/
def Die.inRefresh (d : Die) : Bool := decide (d.wsPos % 5100 < 2040)

/-- `WSREF` as it reads (R60): during a pause `ACT` is 0, and a pause waits for a refresh in progress (R61). DEDUCED (log
entry 35): `ACT` follows the position at reset too, where P = 0 lies in group 0's range. -/
def Die.wsref (d : Die) : W64 :=
  let act := d.inRefresh
  BitVec.ofNat 64 (d.wsShift * 2 ^ 32 + act.toNat * 2 ^ 17 + d.wsPos % 5100 * 16 + d.wsPos / 5100)

/-- Outstanding sends of a task on a network (R329, R330). -/
def State.outstandingSends (s : State) (key : Nat) (net : BitVec 1) : Nat :=
  (s.sends.filter fun r => r.task == key && r.net == net).length

/-- `EGDEPTH` as it reads (R330). -/
def State.egdepth (s : State) : W64 :=
  let t := s.task
  BitVec.ofNat 64 (s.outstandingSends t.key 1 % 16 * 2 ^ 12 + s.outstandingSends t.key 0 % 16 * 2 ^ 8 + fieldOf t.egdepth 0 8)

/-- Enabled clusters of a die (R420). -/
def Die.count (d : Die) : Nat := (List.range 64).countP fun i => d.enabled.getLsbD i

/-- `CAPCL` (R420): a disabled die has no enabled cluster. -/
def State.capcl (s : State) : W64 :=
  let count := fun d => if s.dieMask.getLsbD d then (s.die d).count else 0
  BitVec.ofNat 64 (s.dieMask.toNat * 2 ^ 32 + count 3 * 2 ^ 24 + count 2 * 2 ^ 16 + count 1 * 2 ^ 8 + count 0)

/-- The control registers a task reads, by number (R204, R236); none for a number not in the table. DEDUCED (log entry 11):
`CAPRF` reads the same way on a stager and an issuer, and `VDONE` reads back there what CWR stored. -/
def State.creg (s : State) (n : Nat) : Option W64 :=
  let t := s.task
  let d := s.die t.core.die.toNat
  if n = 0x000 then some t.tid
  else if 1 ≤ n ∧ n ≤ 8 then some (vget t.lvl (n - 1))
  else if n = 0x009 then some t.launch
  else if n = 0x010 then some t.prec
  else if n = 0x011 then some t.rmode
  else if n = 0x012 then some t.fstat
  else if n = 0x013 then some t.fena
  else if n = 0x020 then some (BitVec.ofNat 64 t.lanes.length)
  else if n = 0x021 then some t.tags
  else if n = 0x030 then some t.usc
  else if n = 0x031 then some t.slim
  else if n = 0x032 then some t.sbase
  else if n = 0x040 then some t.tepc
  else if n = 0x041 then some t.tcause
  else if n = 0x042 then some t.tval
  else if n = 0x043 then some t.tstat
  else if n = 0x044 then some t.thint
  else if n = 0x045 then some t.thintx
  else if n = 0x046 then some t.tvec
  else if n = 0x047 then some d.supv
  else if n = 0x048 then some ((s.cluster (clusterId t.core)).cflags.setWidth 64)
  else if n = 0x050 then some t.wcwait
  else if n = 0x051 then some t.vdone
  else if n = 0x052 then some s.egdepth
  else if n = 0x053 then some d.wsref
  else if n = 0x054 then some (if t.core.core = 9 then t.mx.mxstate else 0)
  else if n = 0x055 then some (t.asid.setWidth 64)
  else if n = 0x056 then some (t.jobkey.setWidth 64)
  else if n = 0x060 then some (BitVec.ofNat 64 (min d.energy (2 ^ 64 - 1)))
  else if n = 0x061 then some d.ebudget
  else if n = 0x062 then some (BitVec.ofNat 64 (16 * s.banks t.core))
  else if n = 0x063 then some s.capcl
  else if n = 0x070 then some d.errinj
  else none

/-- Whether the current task's ASID entry has `MGMT` = 1 (R34, R204). -/
def isManagement : M Bool := do
  match ← asidEntry (← myCtx) with
  | some e => pure e.mgmt
  | none => pure false

/-- Changes the die of the current task. -/
def updDie (f : Die → Die) : M Unit := upd fun s => s.setDie s.task.core.die.toNat f

/-- `PRECSET` and a write of `PREC` (R17, R165). -/
def writePrec (v : W64) : M Unit := do
  need (reservedZero v.toNat [(0, 3), (8, 6)]) 0x01 v
  upd (·.setTask fun t => { t with prec := v })

/-- A write of `RMODE` (R165). -/
def writeRmode (v : W64) : M Unit := do
  need (decide (v.toNat < 5)) 0x01 v
  upd (·.setTask fun t => { t with rmode := v })

/-- A write of `SUPV` by a management task (R164, R165). -/
def writeSupv (v : W64) : M Unit := do
  if ← isManagement then
    need (reservedZero v.toNat [(0, 1), (4, 4), (8, 6), (16, 16)] && decide (fieldOf v 4 4 < 8)) 0x01 v
    updDie fun d => { d with supv := v }
  else pure ()

/-- `WSREFSET` (R61): a management task's write of `SHIFT` pauses the schedule, unless the die's claim is held. -/
def writeWsref (v : W64) : M Unit := do
  if ← isManagement then
    let s ← get
    let shift := fieldOf v 32 17
    if 81599 < shift ∨ s.claimHeld s.task.core.die.toNat then pure ()
    else updDie fun d =>
      { d with wsShift := shift, wsPause := d.wsPause + (shift + 81600 - d.wsShift) % 81600 }
  else pure ()

/-- A write of `EBUDGET` by a management task: `WIN` 0 is written as 1, and a new window starts (R157, R158). -/
def writeEbudget (v : W64) : M Unit := do
  if ← isManagement then
    updDie fun d => { d with ebudget := if fieldOf v 0 32 = 0 then v ||| 1 else v, winEnergy := d.energy }
  else pure ()

/-- A write of `ERRINJ` by a management task (R317). -/
def writeErrinj (v : W64) : M Unit := do
  if ← isManagement then updDie fun d => { d with errinj := v &&& 0x8000FFF7FFFFFFFF, errSeen := 0 } else pure ()

/-- The W1C write of `CFLAGS` of the executing core's cluster (R168). -/
def writeCflags (v : W64) : M Unit :=
  upd fun s => s.setCluster (clusterId s.task.core) fun c => { c with cflags := c.cflags &&& ~~~v.setWidth 5 }

/-- A write of `FSTAT`: the flags it sets reach the cluster's `CFLAGS` as any flag does (R168). -/
def writeFstat (v : W64) : M Unit := do
  upd (·.setTask fun t => { t with fstat := v &&& 0x1F })
  upd fun s => if v.setWidth 5 = 0#5 then s
    else s.setCluster (clusterId s.task.core) fun c => { c with cflags := c.cflags ||| v.setWidth 5 }

/-- A write of `EGDEPTH` (R330). -/
def writeEgdepth (v : W64) : M Unit := do
  need (decide (1 ≤ fieldOf v 0 4 ∧ fieldOf v 0 4 ≤ 8 ∧ 1 ≤ fieldOf v 4 4 ∧ fieldOf v 4 4 ≤ 8)) 0x01 v
  upd (·.setTask fun t => { t with egdepth := v &&& 0xFF })

/-- Replaces the writable bits of a register. -/
def merge (old v mask : W64) : W64 := old &&& ~~~mask ||| (v &&& mask)

/-- What `CWR` does to a numbered register (R204, R237): registers of Access RO ignore it (R8). -/
def writeCreg (n : Nat) (v : W64) : M Unit :=
  let task := fun (f : Task → Task) => upd (·.setTask f)
  if n = 0x010 then writePrec v
  else if n = 0x011 then writeRmode v
  else if n = 0x012 then writeFstat v
  else if n = 0x013 then task fun t => { t with fena := v &&& 0x1F }
  else if n = 0x031 then task fun t => { t with slim := v }
  else if n = 0x040 then task fun t => { t with tepc := v }
  else if n = 0x042 then task fun t => { t with tval := v }
  else if n = 0x043 then task fun t => { t with tstat := merge t.tstat v 3 }
  else if n = 0x044 then task fun t => { t with thint := v &&& 0xFFFFFFFFFFF00000 }
  else if n = 0x045 then task fun t => { t with thintx := v &&& 0x3FFFFFCF33 }
  else if n = 0x046 then task fun t => { t with tvec := v &&& 0xFFFFFFFFFFFFFFC1 }
  else if n = 0x047 then writeSupv v
  else if n = 0x048 then writeCflags v
  else if n = 0x050 then task fun t => { t with wcwait := v &&& 0xFFFF }
  else if n = 0x051 then task fun t => { t with vdone := v &&& 0xFF00FF }
  else if n = 0x052 then writeEgdepth v
  else if n = 0x053 then writeWsref v
  else if n = 0x061 then writeEbudget v
  else if n = 0x070 then writeErrinj v
  else pure ()

/-- CRD reads the register as it stands (R236); a number not in R204 is an illegal operand. -/
def crdBody (d : Spec) (n : BitVec 12) : M Next := do
  checkDst d
  match (← get).creg n.toNat with
  | some v =>
    writeScalar d v
    pure .seq
  | none => raise 0x01 (n.setWidth 64)

/-- CWR takes its source in the d field (R237), and reads it before the number is checked (R215). -/
def cwrBody (d : Spec) (n : BitVec 12) : M Next := do
  checkSrc d
  let v ← readScalar d
  need ((← get).creg n.toNat).isSome 0x01 (n.setWidth 64)
  writeCreg n.toNat v
  pure .seq

/-- CRD (R236). -/
def execCrd (d : Spec) (n : BitVec 12) (s : State) : Res := word (.crd d n) (crdBody d n) s

/-- CWR (R237). -/
def execCwr (d : Spec) (n : BitVec 12) (s : State) : Res := word (.cwr d n) (cwrBody d n) s

/-- A write to a control register as an event of its own: the effect of R237, or its trap at the current
instruction. -/
def State.cregEvent (n : Nat) (v : W64) (s : State) : State :=
  match writeCreg n v s with
  | .ok _ s' => s'
  | .error (.trap c x) s' => s'.takeTrap c x s.task.pc
  | .error .stall _ => s

/-- WSREFSET (R61). -/
def execWsrefset (val : W64) (s : State) : Res := event (State.cregEvent 0x053 val) s
/-- EBUDGET_WRITE (R158). -/
def execEbudgetWrite (val : W64) (s : State) : Res := event (State.cregEvent 0x061 val) s
/-- SUPV_WRITE (R165). -/
def execSupvWrite (val : W64) (s : State) : Res := event (State.cregEvent 0x047 val) s
/-- RMODE_WRITE (R165). -/
def execRmodeWrite (val : W64) (s : State) : Res := event (State.cregEvent 0x011 val) s
/-- CFLAGS_CLEAR (R168). -/
def execCflagsClear (val : W64) (s : State) : Res := event (State.cregEvent 0x048 val) s
/-- ERRINJ_WRITE (R317). -/
def execErrinjWrite (val : W64) (s : State) : Res := event (State.cregEvent 0x070 val) s
/-- EGDEPTH_WRITE (R330). -/
def execEgdepthWrite (val : W64) (s : State) : Res := event (State.cregEvent 0x052 val) s

end Sys2Proof.Machine
end

