-- ==== Sys2Proof/Machine/Ctl.lean ====
section
/-! DEFINITION. Branches, jumps, calls with the register window (R129, R228-R232) and the control group
(R233-R235). -/

namespace Sys2Proof.Machine

/-- Goes to a target when a condition holds (R228). -/
def branchIf (c : Bool) (w v : Nat) : M Next := do
  let t ← branchTarget w v
  pure (if c then .goto t else .seq)

/-- BP (R228): taken when the predicate has the sense that bit 25 gives: 0 true, 1 false. -/
def bpBody (s : BitVec 1) (p : BitVec 3) (o : BitVec 20) : M Next := do
  let c ← readPred p
  branchIf (c != (s == 1)) 20 o.toNat

/-- BZ and BNZ (R228). -/
def bzBody (t : Spec) (zero : Bool) (o : BitVec 20) : M Next := do
  checkSrc t
  let x ← readScalar t
  branchIf ((x == 0) == zero) 20 o.toNat

/-- The window of a callee (R230): the caller's g24-g31 as g8-g15, fresh zeros above. -/
def Task.slide (t : Task) (ret : W64) : Task :=
  { t with saved := vec16 (fun i => vget t.g (8 + i)) :: t.saved
           g := vec32 fun i => if i < 8 then vget t.g i else if i < 15 then vget t.g (i + 16) else if i = 15 then ret else 0
           outstanding := [] }

/-- g8-g23 of the caller (R129, R231): as they were left, or as the register stack holds those of frames that are no longer
in the register file (R130, R432). -/
def State.callerRegs (s : State) (t : Task) (v : Vector W64 16) : Vector W64 16 × State :=
  let d := t.saved.length
  let out := (List.range 16).filter fun i => if i < 8 then decide (max 1 (d - 1) ≤ t.outFrames) else decide (d ≤ t.outFrames)
  let (ws, s) := s.imageWords t (out.map fun i =>
    (if i < 8 then t.frameVa (d - 1) (8 + i) else t.frameVa d (i - 8), 8, (vget v i).toNat))
  (vec16 fun i => ((lookupKey (out.zip ws) i).map (BitVec.ofNat 64)).getD (vget v i), s)

/-- The window of the caller again (R231): the callee's g8-g15 as g24-g31, g8-g23 as the caller left them. -/
def Task.slideBack (t : Task) (v : Vector W64 16) : Task :=
  { t with saved := t.saved.tail, outFrames := min t.outFrames (t.saved.length - 1)
           g := vec32 fun i => if i < 8 then vget t.g i else if i < 24 then vget v (i - 8) else vget t.g (i - 16)
           outstanding := [] }

/-- The limit a call at a task's depth needs (R129, R380). -/
def Task.callLimit (t : Task) : Nat := t.sbase.toNat + 128 * (t.saved.length + 2)

/-- Enters a new call depth (R129, R131, R230, R380). -/
def enterCall (target : W64) : M Next := do
  let t := (← get).task
  need (decide (t.callLimit ≤ t.slim.toNat)) 0x40 (BitVec.ofNat 64 t.callLimit)
  upd fun s => s.leaveFrame.serve
  upd (·.setTask (·.slide (t.pc + 4)))
  pure (.goto target)

/-- A target in a register must be 4-byte-aligned (R232). -/
def checkTarget (x : W64) : M Unit := need (fieldOf x 0 2 == 0) 0x20 x

/-- J (R229). -/
def jBody (o : BitVec 26) : M Next := do pure (.goto (← branchTarget 26 o.toNat))

/-- CALL (R230). -/
def callBody (o : BitVec 26) : M Next := do enterCall (← branchTarget 26 o.toNat)

/-- JR (R229, R232). -/
def jrBody (a : Spec) : M Next := do
  checkSrc a
  let x ← readScalar a
  checkTarget x
  pure (.goto x)

/-- CALLR (R230, R232). -/
def callrBody (a : Spec) : M Next := do
  checkSrc a
  let x ← readScalar a
  checkTarget x
  enterCall x

/-- Ends the current task as DONE does (R233). -/
def finish : M Next := do
  upd (·.endTask false)
  pure .gone

/-- RET (R231, R232). -/
def retBody : M Next := do
  let s ← get
  match s.task.saved with
  | [] => finish
  | v :: _ =>
    let target := s.task.reg 15
    checkTarget target
    let w ← runS fun s => s.callerRegs s.task v
    upd (·.setTask (·.slideBack w))
    pure (.goto target)

/-- YIELD (R134): READY behind every task already in the cluster's ready set. -/
def State.yieldTask (s : State) : State :=
  let k := s.task.key
  (({ s with ready := s.ready ++ [k] }).setTask fun t => { t with status := .ready }).leaveCore

/-- YIELD (R134). -/
def yieldBody : M Next := do
  upd State.yieldTask
  pure .seq

/-- TRAP consumes its hints and resumes after itself (R198, R234). -/
def trapBody (c : BitVec 12) : M Next := do
  upd fun s => (s.setTask fun t => { t with hints := {} }).takeTrap 0x70 (c.setWidth 64) (s.task.pc + 4)
  pure .gone

/-- ERET (R235): an illegal instruction unless a trap is being handled. -/
def eretBody : M Next := do
  let t := (← get).task
  need (t.tstat.getLsbD 0) 0x00 0x48000007
  upd (·.setTask Task.eret)
  pure .gone

/-- BP (R228). -/
def execBp (s : BitVec 1) (p : BitVec 3) (o : BitVec 20) (st : State) : Res :=
  issue .any withImm (.bp s p o) (bpBody s p o) st
/-- BZ (R228). -/
def execBz (t : Spec) (o : BitVec 20) (s : State) : Res := issue .any withImm (.bz t o) (bzBody t true o) s
/-- BNZ (R228). -/
def execBnz (t : Spec) (o : BitVec 20) (s : State) : Res := issue .any withImm (.bnz t o) (bzBody t false o) s
/-- J (R229). -/
def execJ (o : BitVec 26) (s : State) : Res := issue .any withImm (.j o) (jBody o) s
/-- CALL (R230). -/
def execCall (o : BitVec 26) (s : State) : Res := issue .any withImm (.call o) (callBody o) s
/-- JR (R229). -/
def execJr (a : Spec) (s : State) : Res := word (.jr a) (jrBody a) s
/-- CALLR (R230). -/
def execCallr (a : Spec) (s : State) : Res := word (.callr a) (callrBody a) s
/-- RET (R231). -/
def execRet (s : State) : Res := word .ret retBody s
/-- DONE (R233). -/
def execDone (s : State) : Res := word .done finish s
/-- YIELD (R134, R233). -/
def execYield (s : State) : Res := word .yield yieldBody s
/-- NOP (R233). -/
def execNop (s : State) : Res := word .nop (pure .seq) s
/-- TRAP (R234). -/
def execTrap (c : BitVec 12) (s : State) : Res := word (.trap c) (trapBody c) s
/-- ERET (R235). -/
def execEret (s : State) : Res := word .eret eretBody s
/-- BRK (R234): its own address is the resume address. -/
def execBrk (c : BitVec 12) (s : State) : Res := word (.brk c) (raise 0x71 (c.setWidth 64)) s
/-- IDLE (R233): as NOP; the pause is timing (log entry 20). -/
def execIdle (s : State) : Res := word .idle (pure .seq) s

end Sys2Proof.Machine
end

