-- ==== Sys2Proof/Machine/Ldst.lean ====
section
/-! DEFINITION. Scalar loads and stores (R239-R244) with full/empty accesses (R76-R78). -/

namespace Sys2Proof.Machine

/-- Bytes of a size code (R191). -/
def sizeBytes (z : BitVec 2) : Nat := 2 ^ z.toNat

/-- A load of `n` bytes to a destination, sign- or zero-extended (R239). -/
def loadTo (d : Spec) (va : W64) (n : Nat) (signed : Bool) : M Next := do
  let v ← loadNat va n
  writeLoaded d (if signed then sext64 (8 * n) v else BitVec.ofNat 64 v)
  pure .seq

/-- LD and LDZ (R239). -/
def ldBody (d a : Spec) (z : BitVec 2) (o : BitVec 12) (signed : Bool) : M Next := do
  checkSrc a; checkDst d
  let x ← readScalar a
  loadTo d (x + (← immediate 12 o.toNat)) (sizeBytes z) signed

/-- ST (R239, R241). -/
def stBody (d a : Spec) (z : BitVec 2) (o : BitVec 12) : M Next := do
  checkSrc a; checkSrc d
  let x ← readScalar a
  let v ← readScalar d
  storeNat (x + (← immediate 12 o.toNat)) (sizeBytes z) v.toNat
  pure .seq

/-- LDX and LDZX (R240). -/
def ldxBody (d a b : Spec) (z h : BitVec 2) (signed : Bool) : M Next := do
  checkSrc a; checkSrc b; checkDst d
  let x ← readScalar a
  let y ← readScalar b
  loadTo d (x + (y <<< h.toNat)) (sizeBytes z) signed

/-- STX (R240, R241). -/
def stxBody (d a b : Spec) (z h : BitVec 2) : M Next := do
  checkSrc a; checkSrc b; checkSrc d
  let x ← readScalar a
  let y ← readScalar b
  let v ← readScalar d
  storeNat (x + (y <<< h.toNat)) (sizeBytes z) v.toNat
  pure .seq

/-- The PA of the word of a full/empty access of mode 1-4, after the implicit boundary of R100 (R77, R242). DEDUCED (log
entry 9): one that writes its word needs `W` as well as `FE`. -/
def feWord (va : W64) (write : Bool) : M Nat := do
  let pa ← translate1 (← myCtx) { write := write, fe := true } va 8
  implicitBoundary .system pa 8
  pure pa

/-- The current task waits in the retry list of a word that it named by a VA (R78, R134). DEDUCED (log entry 6): one whose
destination is a full queue first waits for the queue, which no other task fills meanwhile (R284). -/
def waitAt (va entry : W64) (pa : Nat) (k : WaitKind) : M Next := do
  let s ← get
  let key := s.task.key
  if k.dest.all (s.destReady key) then
    upd fun s => (s.addWaiter ⟨key, pa, k, va, entry⟩).setTask fun t => { t with status := .waiting, waitOn := .home }
    pure .wait
  else stallHere

/-- The order a home sees: a home operation meets its word's failures, closes its sector, and then applies its effect to the
zeros (R69, R80). DEDUCED (log entry 35): the value it returns is no read that R94 orders. -/
def homeRead (pa : Nat) : M W64 := do
  upd (·.meetFailures pa 8)
  upd (·.closeAt pa)
  pure ((← get).wordAt pa)

/-- Takes a position at a home and moves the snapshot point there (R117). -/
def acquireHere : M Unit := do
  upd fun s => s.nextPos.2
  acquire

/-- LDFE (R77, R242). -/
def ldfeBody (d a : Spec) (p : BitVec 3) (m : BitVec 4) : M Next := do
  checkSrc a; checkDst d
  let va ← readScalar a
  if m = 0 then
    let v ← loadNat va 8
    writeLoaded d (BitVec.ofNat 64 v)
    writePred p true
    pure .seq
  else
    let pa ← feWord va false
    if m = 1 then
      let v ← homeRead pa
      if (← get).isFull pa then
        upd (·.setFull pa false)
        acquireHere
        writeScalar d v
        writePred p true
        upd State.serve
        pure .seq
      else waitAt va 0 pa (.consume d p)
    else
      let v ← homeRead pa
      let full := (← get).isFull pa
      if full then acquireHere else upd fun s => s.nextPos.2
      writeScalar d (if full then v else 0)
      writePred p full
      pure .seq

/-- STFE (R77, R243). A fill replaces the whole word and reads nothing (R80). -/
def stfeBody (d a : Spec) (p : BitVec 3) (m : BitVec 4) : M Next := do
  checkSrc a; checkSrc d
  let va ← readScalar a
  let v ← readScalar d
  let key := (← get).task.key
  if m = 0 then
    storeNat va 8 v.toNat
    writePred p true
    pure .seq
  else
    let pa ← feWord va true
    if m = 2 then upd fun s => (s.meet pa 8).closeAt pa else pure ()
    if m = 2 ∧ (← get).isFull pa then waitAt va 0 pa (.produce v p)
    else
      upd fun s => ((s.homePut (m == 4) (.task key) pa (leBytes 8 v.toNat)).setFull pa true).serve
      writePred p true
      pure .seq

/-- PREF (R244): no visible effect; a source channel pops (R15). -/
def prefBody (a : Spec) : M Next := do
  checkSrc a
  let _ ← readScalar a
  pure .seq

/-- LD (R239). -/
def execLd (d a : Spec) (z : BitVec 2) (o : BitVec 12) (s : State) : Res :=
  issue .any withImm (.ld d a z o) (ldBody d a z o true) s
/-- LDZ (R239). -/
def execLdz (d a : Spec) (z : BitVec 2) (o : BitVec 12) (s : State) : Res :=
  issue .any withImm (.ldz d a z o) (ldBody d a z o false) s
/-- ST (R239). -/
def execSt (d a : Spec) (z : BitVec 2) (o : BitVec 12) (s : State) : Res :=
  issue .any withImm (.st d a z o) (stBody d a z o) s
/-- LDX (R240). -/
def execLdx (d a b : Spec) (z h : BitVec 2) (s : State) : Res := word (.ldx d a b z h) (ldxBody d a b z h true) s
/-- LDZX (R240). -/
def execLdzx (d a b : Spec) (z h : BitVec 2) (s : State) : Res := word (.ldzx d a b z h) (ldxBody d a b z h false) s
/-- STX (R240). -/
def execStx (d a b : Spec) (z h : BitVec 2) (s : State) : Res := word (.stx d a b z h) (stxBody d a b z h) s
/-- LDFE (R242). -/
def execLdfe (d a : Spec) (p : BitVec 3) (m : BitVec 4) (s : State) : Res := word (.ldfe d a p m) (ldfeBody d a p m) s
/-- STFE (R243). -/
def execStfe (d a : Spec) (p : BitVec 3) (m : BitVec 4) (s : State) : Res := word (.stfe d a p m) (stfeBody d a p m) s
/-- PREF (R244). -/
def execPref (a : Spec) (i : BitVec 4) (s : State) : Res := word (.pref a i) (prefBody a) s

end Sys2Proof.Machine
end

