-- ==== Sys2Proof/Machine/Sync.lean ====
section
/-! DEFINITION. Boundaries, counters, troughs and tags (R301-R306, R326). -/

namespace Sys2Proof.Machine

/-- The scope field (R203). -/
def scopeOf (s : BitVec 2) : Scope :=
  match s with
  | 0 => .core
  | 1 => .cluster
  | 2 => .die
  | 3 => .system

/-- Whether an ordering field has a release half (R99). -/
def isRel (o : BitVec 2) : Bool := o.getLsbD 0
/-- Whether an ordering field has an acquire half (R99). -/
def isAcq (o : BitVec 2) : Bool := o.getLsbD 1

/-- What precedes a home-performed operation on `n` bytes (R99, R100): the boundary of `.rel`, else the
implicit one. -/
def orderBefore (sc : Scope) (rel : Bool) (pa n : Nat) : M Unit := if rel then boundary sc else implicitBoundary sc pa n

/-- What follows it (R99): the snapshot point moves to its position. -/
def orderAfter (acq : Bool) : M Unit := if acq then acquire else pure ()

/-- An operation that a later trap of the same instruction undoes (R374); a translation it has filled stays held (R41). -/
def precisely (m : M α) : M α := fun s =>
  match m s with
  | .ok a s' => .ok a s'
  | .error e s' =>
    .error e { s with task := { s.task with stalled := s'.task.stalled }, l1 := s'.l1, rtlb := s'.rtlb, dtlb := s'.dtlb }

/-- PHASE (R303). -/
def phaseBody (sc : BitVec 2) : M Next := do
  boundary (scopeOf sc)
  pure .seq

/-- CTRADD (R97, R304). -/
def ctraddBody (a b : Spec) (sc o : BitVec 2) : M Next := do
  checkSrc a; checkSrc b
  let va ← readScalar a
  let n ← readScalar b
  let pa ← translate1 (← myCtx) { write := true, sync := true } va 8
  orderBefore (scopeOf sc) (isRel o) pa 8
  let key := (← get).task.key
  upd fun s => s.counterPut (.task key) pa n
  orderAfter (isAcq o)
  upd State.serve
  pure .seq

/-- CTRWAIT (R98, R304): satisfied at once, or a yield point. -/
def ctrwaitBody (a b : Spec) (sc o : BitVec 2) : M Next := do
  checkSrc a; checkSrc b
  let va ← readScalar a
  let n ← readScalar b
  let pa ← translate1 (← myCtx) { sync := true } va 8
  orderBefore (scopeOf sc) (isRel o) pa 8
  let v ← homeRead pa
  if n ≤ v then
    upd fun s => s.nextPos.2
    orderAfter (isAcq o)
    pure .seq
  else waitAt va 0 pa (.counter n (isAcq o))

/-- CTRRD (R97, R304): the value and the saturation flag. -/
def ctrrdBody (d a : Spec) (p : BitVec 3) (sc o : BitVec 2) : M Next := do
  checkSrc a; checkDst d
  let va ← readScalar a
  let pa ← translate1 (← myCtx) { sync := true } va 8
  orderBefore (scopeOf sc) (isRel o) pa 8
  let v ← homeRead pa
  let full := (← get).isFull pa
  upd fun s => s.nextPos.2
  orderAfter (isAcq o)
  writeLoaded d v
  writePred p full
  pure .seq

/-- What a trough member finds at issue (R305): the descriptor's PA, the entry size doubleword 3 shows (none when
it shows the descriptor malformed) and the PA of the entry. -/
def troughOperands (va entry : W64) (pop : Bool) : M (Nat × Option (Nat × Nat)) := do
  let c ← myCtx
  let pa ← translate1 c { write := true, sync := true } va 64
  let d3 ← readTask 8 (pa + 24) 8
  if troughWordOk (leNat d3) then
    let esz := bitsOf (leNat d3) 0 2
    let e ← translate1 c { write := pop } entry (entryBytes esz)
    pure (pa, some (esz, e))
  else pure (pa, none)

/-- The end of a trough member that the home has performed (R305). -/
def troughDone (d : Spec) (st : Nat) (acq : Bool) : M Next := do
  orderAfter acq
  writeLoaded d (BitVec.ofNat 64 st)
  upd State.serve
  pure .seq

/-- The attempt of a push at the home, or its wait there (R102, R103). -/
def pushNow (d : Spec) (va entry : W64) (pa epa esz : Nat) (acq : Bool) : M Next := do
  let t := (← get).task
  match ← pushAttempt t.key t.tctx t.reader pa epa esz with
  | some st => troughDone d st acq
  | none => waitAt va entry pa (.push d epa (BitVec.ofNat 2 esz) acq)

/-- The attempt of a pop at the home, or its wait there (R102, R103). -/
def popNow (d : Spec) (va entry : W64) (pa epa esz : Nat) : M Next := do
  let t := (← get).task
  match ← popAttempt t.key t.tctx pa epa esz with
  | some st => troughDone d st true
  | none => waitAt va entry pa (.pop d epa (BitVec.ofNat 2 esz))

/-- The boundary of a push and its attempt at the home (R103, R305). -/
def pushAt (d : Spec) (va entry : W64) (pa : Nat) (e : Option (Nat × Nat)) (sc o : BitVec 2) : M Next := do
  boundary (scopeOf sc)
  match e with
  | none =>
    let _ ← takePos
    troughDone d stMALFORMED (isAcq o)
  | some (esz, epa) =>
    pushNow d va entry pa epa esz (isAcq o)

/-- The boundary of a pop, if it has one, and its attempt at the home (R103, R305). -/
def popAt (d : Spec) (va entry : W64) (pa : Nat) (e : Option (Nat × Nat)) (sc o : BitVec 2) : M Next := do
  orderBefore (scopeOf sc) (isRel o) pa 64
  match e with
  | none =>
    let _ ← takePos
    troughDone d stMALFORMED true
  | some (esz, epa) =>
    implicitBoundary (scopeOf sc) epa (entryBytes esz)
    popNow d va entry pa epa esz

/-- TRPUSH (R102, R103, R305). -/
def trpushBody (d a b : Spec) (sc o : BitVec 2) : M Next := do
  checkSrc a; checkSrc b; checkDst d
  let va ← readScalar a
  let entry ← readScalar b
  let (pa, e) ← troughOperands va entry false
  precisely (pushAt d va entry pa e sc o)

/-- TRPOP (R102, R103, R305). -/
def trpopBody (d a b : Spec) (sc o : BitVec 2) : M Next := do
  checkSrc a; checkSrc b; checkDst d
  let va ← readScalar a
  let entry ← readScalar b
  let (pa, e) ← troughOperands va entry true
  precisely (popAt d va entry pa e sc o)

/-- TRSTAT (R306). -/
def trstatBody (d a b : Spec) (sc : BitVec 2) : M Next := do
  checkSrc a; checkDst d
  let va ← readScalar a
  need (decide (b.toNat < 4)) 0x01 (b.setWidth 64)
  let pa ← translate1 (← myCtx) { sync := true } va 64
  orderBefore (scopeOf sc) false pa 64
  upd (·.meetFailures pa 64)
  let s ← get
  let t := s.trough pa
  upd fun s => s.nextPos.2
  let v : W64 :=
    if b = 0 then t.put
    else if b = 1 then t.got
    else if b = 2 then BitVec.ofNat 64 ((s.isFull pa).toNat + 2 * (s.isFull (pa + 8)).toNat + 4 * t.bad.toNat)
    else t.put - t.got
  writeLoaded d v
  pure .seq

/-- The current task waits for tags (R134, R326). -/
def waitTags (w : WaitOn) : M Next := do
  upd (·.setTask fun t => { t with status := .waiting, waitOn := w })
  pure .wait

/-- A wait for any tag of a mask (R326). -/
def tagAny (m : W64) : M Next := do
  if (← get).task.tags &&& m ≠ 0 then
    acquireHere
    pure .seq
  else waitTags (.tagAny m)

/-- A wait for all tags of a mask (R326); a zero mask joins nothing. -/
def tagAll (m : W64) : M Next := do
  if (← get).task.tags &&& m = m then
    if m = 0 then pure () else acquireHere
    pure .seq
  else waitTags (.tagAll m)

/-- TAGWAITANY (R326). -/
def tagwaitanyBody (a : Spec) : M Next := do
  checkSrc a
  let m ← readScalar a
  need (m != 0) 0x01 0
  tagAny m

/-- TAGWAITALL (R326). -/
def tagwaitallBody (a : Spec) : M Next := do
  checkSrc a
  tagAll (← readScalar a)

/-- TAGFF (R326): the lowest set tag of the mask is cleared and joined. -/
def tagffBody (d a : Spec) : M Next := do
  checkSrc a; checkDst d
  let m ← readScalar a
  let hit := (← get).task.tags &&& m
  match (List.range 64).find? fun i => hit.getLsbD i with
  | none =>
    writeScalar d 64
    pure .seq
  | some n =>
    upd (·.setTask fun t => { t with tags := t.tags &&& ~~~(1#64 <<< n) })
    acquireHere
    writeScalar d (BitVec.ofNat 64 n)
    pure .seq

/-- TAGCLR (R326). -/
def tagclrBody (a : Spec) : M Next := do
  checkSrc a
  let m ← readScalar a
  upd (·.setTask fun t => { t with tags := t.tags &&& ~~~m })
  pure .seq

/-- PHASE (R303). -/
def execPhase (sc : BitVec 2) (s : State) : Res := word (.phase sc) (phaseBody sc) s
/-- CTRADD (R304). -/
def execCtradd (a b : Spec) (sc o : BitVec 2) (s : State) : Res := word (.ctradd a b sc o) (ctraddBody a b sc o) s
/-- CTRWAIT (R304). -/
def execCtrwait (a b : Spec) (sc o : BitVec 2) (s : State) : Res := word (.ctrwait a b sc o) (ctrwaitBody a b sc o) s
/-- CTRRD (R304). -/
def execCtrrd (d a : Spec) (p : BitVec 3) (sc o : BitVec 2) (s : State) : Res :=
  word (.ctrrd d a p sc o) (ctrrdBody d a p sc o) s
/-- TRPUSH (R305). -/
def execTrpush (d a b : Spec) (sc o : BitVec 2) (s : State) : Res := word (.trpush d a b sc o) (trpushBody d a b sc o) s
/-- TRPOP (R305). -/
def execTrpop (d a b : Spec) (sc o : BitVec 2) (s : State) : Res := word (.trpop d a b sc o) (trpopBody d a b sc o) s
/-- TRSTAT (R306). -/
def execTrstat (d a b : Spec) (sc : BitVec 2) (s : State) : Res := word (.trstat d a b sc) (trstatBody d a b sc) s
/-- TAGWAITANY (R326). -/
def execTagwaitany (a : Spec) (s : State) : Res := word (.tagwaitany a) (tagwaitanyBody a) s
/-- TAGWAITALL (R326). -/
def execTagwaitall (a : Spec) (s : State) : Res := word (.tagwaitall a) (tagwaitallBody a) s
/-- TAGFF (R326). -/
def execTagff (d a : Spec) (s : State) : Res := word (.tagff d a) (tagffBody d a) s
/-- TAGCLR (R326). -/
def execTagclr (a : Spec) (s : State) : Res := word (.tagclr a) (tagclrBody a) s

end Sys2Proof.Machine
end

