-- ==== Sys2Proof/Machine/Flags.lean ====
section
/-! DEFINITION. Numbers and flags (R161-R190): the IEEE, FP8 and long-float formats as exact values, one
rounding for all of them, and every flag computation. Flags are numbered as in `FSTAT` (R164). -/

namespace Sys2Proof.Machine

/-- Flags of an operation, as the low five bits of `FSTAT` (R164). -/
abbrev Flg := BitVec 5
/-- Invalid (R164). -/
def nvFlag : Flg := 16
/-- Division by zero. -/
def dzFlag : Flg := 8
/-- Overflow. -/
def ofFlag : Flg := 4
/-- Underflow. -/
def ufFlag : Flg := 2
/-- Inexact. -/
def nxFlag : Flg := 1
/-- A flag when a condition holds. -/
def flagIf (b : Bool) (f : Flg) : Flg := if b then f else 0

/-- A rounding mode (R164). -/
inductive Rm where
  | rne | rtz | rdn | rup | rmm
  deriving DecidableEq, Repr

/-- The mode `RMODE` holds (R164); the register never holds 5 to 7 (R165). -/
def rmOf (rmode : W64) : Rm :=
  match fieldOf rmode 0 3 with
  | 1 => .rtz
  | 2 => .rdn
  | 3 => .rup
  | 4 => .rmm
  | _ => .rne

/-- A binary format: exponent bits and fraction bits (R161, R169, R179). -/
structure Fmt where
  eb : Nat
  fb : Nat
  deriving DecidableEq, Repr

/-- binary16 (R161). -/
def f16 : Fmt := ⟨5, 10⟩
/-- bfloat16 (R161). -/
def bf16 : Fmt := ⟨8, 7⟩
/-- binary32 (R161). -/
def f32 : Fmt := ⟨8, 23⟩
/-- binary64 (R161). -/
def f64 : Fmt := ⟨11, 52⟩
/-- E5M2 (R169). -/
def e5m2 : Fmt := ⟨5, 2⟩
/-- E4M3 (R169), whose exponent 1111 is an ordinary one. -/
def e4m3 : Fmt := ⟨4, 3⟩
/-- The long float of length code `k` (R179), without the k field of its header. -/
def vf (k : Nat) : Fmt := ⟨15, 13 + 32 * k⟩

/-- The format that fn[1:0] and the conversion selectors name (R245, R251). -/
def fmtOf (n : Nat) : Fmt := match n with | 0 => f16 | 1 => f32 | 2 => f64 | _ => bf16

/-- Precision p. -/
def Fmt.p (f : Fmt) : Nat := f.fb + 1
/-- Exponent bias, which is also the greatest exponent. -/
def Fmt.bias (f : Fmt) : Nat := 2 ^ (f.eb - 1) - 1
/-- Least normal exponent. -/
def Fmt.emin (f : Fmt) : Int := 1 - (f.bias : Int)
/-- Width in bits. -/
def Fmt.width (f : Fmt) : Nat := 1 + f.eb + f.fb
/-- The exponent field of all ones, in place. -/
def Fmt.top (f : Fmt) : Nat := (2 ^ f.eb - 1) * 2 ^ f.fb
/-- The sign bit, in place. -/
def Fmt.signBit (f : Fmt) (neg : Bool) : Nat := if neg then 2 ^ (f.eb + f.fb) else 0
/-- The canonical NaN (R162, R180). -/
def Fmt.canon (f : Fmt) : Nat := f.top + 2 ^ (f.fb - 1)
/-- The greatest finite magnitude. -/
def Fmt.maxFinite (f : Fmt) : Nat := f.top - 1

/-- `m * 2 ^ q` as an exact value. -/
def Exact.ofScaled (neg : Bool) (m : Nat) (q : Int) : Exact :=
  if q < 0 then .fin neg m (2 ^ (-q).toNat) else .fin neg (m * 2 ^ q.toNat) 1

/-- `x * 2 ^ s`, exactly. -/
def Exact.scale (x : Exact) (s : Int) : Exact :=
  match x with
  | .fin neg n d => if s < 0 then .fin neg n (d * 2 ^ (-s).toNat) else .fin neg (n * 2 ^ s.toNat) d
  | x => x

/-- A value read from a register: the exact value, and whether it was a signalling NaN (R161, R162). -/
structure Datum where
  val : Exact
  snan : Bool := false
  deriving DecidableEq, Repr, Inhabited

/-- The finite value with an exponent field and a fraction (R161, R169, R180). -/
def Fmt.finite (f : Fmt) (neg : Bool) (e m : Nat) : Exact :=
  if e = 0 then .ofScaled neg m (f.emin - f.fb) else .ofScaled neg (2 ^ f.fb + m) ((e : Int) - f.bias - f.fb)

/-- Reads the low bits of a number in an IEEE-shaped format (R161, R163). -/
def Fmt.decode (f : Fmt) (w : Nat) : Datum :=
  let neg := bitAt w (f.eb + f.fb)
  let e := bitsOf w f.fb f.eb
  let m := bitsOf w 0 f.fb
  if e = 2 ^ f.eb - 1 then if m = 0 then ⟨.inf neg, false⟩ else ⟨.nan, decide (m < 2 ^ (f.fb - 1))⟩
  else ⟨f.finite neg e m, false⟩

/-- Reads an E4M3 byte (R169): no infinity, and one NaN, which is quiet. -/
def decodeE4m3 (w : Nat) : Datum :=
  if bitsOf w 0 7 = 127 then ⟨.nan, false⟩ else ⟨e4m3.finite (bitAt w 7) (bitsOf w 3 4) (bitsOf w 0 3), false⟩

/-- Floor of the binary logarithm of a positive fraction. -/
def floorLog2 (num den : Nat) : Int :=
  let e := (Nat.log2 num : Int) - Nat.log2 den
  let ok := if e < 0 then den ≤ num * 2 ^ (-e).toNat else den * 2 ^ e.toNat ≤ num
  if ok then e else e - 1

/-- Whether a discarded remainder `r` of `d` rounds a magnitude `m` up (R164). -/
def roundsUp (rm : Rm) (neg : Bool) (m r d : Nat) : Bool :=
  match rm with
  | .rne => decide (d < 2 * r) || (decide (2 * r = d) && m % 2 == 1)
  | .rtz => false
  | .rdn => neg && decide (0 < r)
  | .rup => !neg && decide (0 < r)
  | .rmm => decide (d ≤ 2 * r)

/-- Rounds a magnitude to a multiple of `2 ^ q`: the multiple and whether it is inexact (R182). -/
def roundAt (rm : Rm) (neg : Bool) (num den : Nat) (q : Int) : Nat × Bool :=
  let n := if q < 0 then num * 2 ^ (-q).toNat else num
  let d := if q < 0 then den else den * 2 ^ q.toNat
  let m := n / d
  let r := n % d
  (if roundsUp rm neg m r d then m + 1 else m, decide (r ≠ 0))

/-- A rounded magnitude `m * 2 ^ q` with what the flags need (R162, R182). -/
structure Rounded where
  m : Nat
  q : Int
  inexact : Bool
  tiny : Bool
  deriving DecidableEq, Repr

/-- Rounds a positive fraction to `p` bits with least exponent `emin`, tininess after rounding (R162, R182). -/
def roundFin (p : Nat) (emin : Int) (rm : Rm) (neg : Bool) (num den : Nat) : Rounded :=
  let e := floorLog2 num den
  let q := max e emin - ((p : Int) - 1)
  let r := roundAt rm neg num den q
  let u := roundAt rm neg num den (e - ((p : Int) - 1))
  ⟨r.1, q, r.2, decide (e < emin) && !(decide (e = emin - 1) && decide (u.1 = 2 ^ p))⟩

/-- Whether overflow goes to infinity (`OverflowResult`, R182). -/
def overflowsToInf (rm : Rm) (neg : Bool) : Bool :=
  match rm with
  | .rne | .rmm => true
  | .rtz => false
  | .rdn => neg
  | .rup => !neg

/-- The flags of a rounded value that does not overflow. -/
def Rounded.flags (r : Rounded) : Flg := flagIf r.inexact nxFlag ||| flagIf (r.inexact && r.tiny) ufFlag

/-- The bits of a rounded magnitude in a format: the exponent carries into place. -/
def Fmt.pack (f : Fmt) (r : Rounded) : Nat := (r.q - (f.emin - f.fb)).toNat * 2 ^ f.fb + r.m

/-- Rounds an exact value once to an IEEE-shaped format (R162, R182): bits and flags. -/
def Fmt.encode (f : Fmt) (rm : Rm) : Exact → Nat × Flg
  | .nan => (f.canon, 0)
  | .inf neg => (f.signBit neg + f.top, 0)
  | .fin neg num den =>
    if num = 0 then (f.signBit neg, 0)
    else
      let r := roundFin f.p f.emin rm neg num den
      let bits := f.pack r
      if f.top ≤ bits then
        (f.signBit neg + (if overflowsToInf rm neg then f.top else f.maxFinite), ofFlag ||| nxFlag)
      else (f.signBit neg + bits, r.flags)

/-- Rounds to an FP8 format that saturates (R170, R176): `m` is the greatest finite magnitude's bits. -/
def Fmt.saturate (f : Fmt) (maxBits nanBits : Nat) (rm : Rm) : Exact → Nat × Flg
  | .nan => (nanBits, 0)
  | .inf neg => (f.signBit neg + maxBits, nvFlag)
  | .fin neg num den =>
    if num = 0 then (f.signBit neg, 0)
    else
      let r := roundFin f.p f.emin rm neg num den
      let bits := f.pack r
      if maxBits < bits then (f.signBit neg + maxBits, ofFlag ||| nxFlag) else (f.signBit neg + bits, r.flags)

/-- Conversion to E4M3 (R170). -/
def encodeE4m3 (rm : Rm) (x : Exact) : Nat × Flg := e4m3.saturate 0x7E 0x7F rm x
/-- Quantisation to E5M2, which saturates (R176). -/
def saturateE5m2 (x : Exact) : Nat × Flg := e5m2.saturate 0x7B 0x7E .rne x

/-- Negation. -/
def Exact.neg : Exact → Exact
  | .nan => .nan
  | .inf s => .inf (!s)
  | .fin s n d => .fin (!s) n d

/-- Magnitude. -/
def Exact.abs : Exact → Exact
  | .nan => .nan
  | .inf _ => .inf false
  | .fin _ n d => .fin false n d

/-- Whether a value is NaN. -/
def Exact.isNan : Exact → Bool
  | .nan => true
  | _ => false

/-- Whether a value is a zero. -/
def Exact.isZero : Exact → Bool
  | .fin _ n _ => n == 0
  | _ => false

/-- Whether a value is an infinity. -/
def Exact.isInf : Exact → Bool
  | .inf _ => true
  | _ => false

/-- The sign bit; NaN counts as positive. -/
def Exact.isNeg : Exact → Bool
  | .nan => false
  | .inf s => s
  | .fin s _ _ => s

/-- A numerator with its sign. -/
def signed (neg : Bool) (n : Nat) : Int := if neg then -(n : Int) else n

/-- Exact sum with its flags (R162, R180, R183): the mode decides the sign of an exact zero. -/
def Exact.add (rm : Rm) : Exact → Exact → Exact × Flg
  | .nan, _ | _, .nan => (.nan, 0)
  | .inf s, .inf t => if s = t then (.inf s, 0) else (.nan, nvFlag)
  | .inf s, _ | _, .inf s => (.inf s, 0)
  | .fin s n d, .fin t m e =>
    let v := signed s (n * e) + signed t (m * d)
    if v = 0 then (.fin (if n = 0 ∧ m = 0 ∧ s = t then s else rm == .rdn) 0 1, 0)
    else (.fin (decide (v < 0)) v.natAbs (d * e), 0)

/-- Exact product (R162, R180, R183). -/
def Exact.mul : Exact → Exact → Exact × Flg
  | .nan, _ | _, .nan => (.nan, 0)
  | .inf s, .inf t => (.inf (s != t), 0)
  | .inf s, .fin t n _ | .fin s n _, .inf t => if n = 0 then (.nan, nvFlag) else (.inf (s != t), 0)
  | .fin s n d, .fin t m e => (.fin (s != t) (n * m) (d * e), 0)

/-- Exact quotient (R246, R254). -/
def Exact.div : Exact → Exact → Exact × Flg
  | .nan, _ | _, .nan => (.nan, 0)
  | .inf _, .inf _ => (.nan, nvFlag)
  | .inf s, .fin t _ _ => (.inf (s != t), 0)
  | .fin s _ _, .inf t => (.fin (s != t) 0 1, 0)
  | .fin s n d, .fin t m e =>
    if m = 0 then if n = 0 then (.nan, nvFlag) else (.inf (s != t), dzFlag)
    else (.fin (s != t) (n * e) (d * m), 0)

/-- a × b + c with one rounding to come; 0 × ∞ is invalid whatever c is (R246, R254, R265). -/
def Exact.fma (rm : Rm) (a b c : Exact) : Exact × Flg :=
  let p := a.mul b
  let s := p.1.add rm c
  (s.1, p.2 ||| s.2)

/-- A fraction with at least `bits` leading bits of another and a last bit that tells the rest was cut, so
that it rounds as the other does. -/
def sticky (bits num den : Nat) : Nat × Nat :=
  let s := bits + Nat.log2 den + 1
  (2 * (num * 2 ^ s / den) + (if num * 2 ^ s % den = 0 then 0 else 1), 2 ^ (s + 1))

/-- Newton's descent to an integer square root. -/
def isqrtFrom : Nat → Nat → Nat → Nat
  | 0, r, _ => r
  | fuel + 1, r, x => let y := (r + x / r) / 2; if y < r then isqrtFrom fuel y x else r

/-- Floor of a square root: a Newton step at least halves the error, so the descent ends within the fuel. -/
def isqrt (x : Nat) : Nat := if x = 0 then 0 else isqrtFrom (Nat.log2 x + 2) (2 ^ (Nat.log2 x / 2 + 1)) x

/-- The square root of a positive fraction, exact or with a last bit for what was cut (R162, R182). -/
def sqrtFraction (bits num den : Nat) : Nat × Nat :=
  let s := bits + Nat.log2 den + 1
  let x := num * 2 ^ (2 * s)
  let r := isqrt (x / den)
  (2 * r + (if r * r * den = x then 0 else 1), 2 ^ (s + 1))

/-- √a (R246, R254). -/
def Exact.sqrt (bits : Nat) : Exact → Exact × Flg
  | .nan => (.nan, 0)
  | .inf s => if s then (.nan, nvFlag) else (.inf false, 0)
  | .fin s n d =>
    if n = 0 then (.fin s 0 1, 0)
    else if s then (.nan, nvFlag)
    else let r := sqrtFraction bits n d; (.fin false r.1 r.2, 0)

/-- a < b on exact values; false with a NaN. -/
def Exact.lt : Exact → Exact → Bool
  | .nan, _ | _, .nan => false
  | .inf s, .inf t => s && !t
  | .inf s, _ => s
  | _, .inf t => !t
  | .fin s n d, .fin t m e => decide (signed s (n * e) < signed t (m * d))

/-- a = b on exact values, +0 = −0; false with a NaN. -/
def Exact.eq : Exact → Exact → Bool
  | .nan, _ | _, .nan => false
  | .inf s, .inf t => s == t
  | .inf _, _ | _, .inf _ => false
  | .fin s n d, .fin t m e => decide (signed s (n * e) = signed t (m * d))

/-- a before b in the order of R247, in which −0 is less than +0. -/
def Exact.before (a b : Exact) : Bool := a.lt b || (a.eq b && a.isNeg && !b.isNeg)

/-- minimumNumber (R247). -/
def Exact.minimum (a b : Exact) : Exact := if a.isNan then b else if b.isNan then a else if b.before a then b else a

/-- maximumNumber (R247). -/
def Exact.maximum (a b : Exact) : Exact := if a.isNan then b else if b.isNan then a else if a.before b then b else a

/-- Invalid for a signalling operand (R162). -/
def Datum.nv (a : Datum) : Flg := flagIf a.snan nvFlag

/-- An operation of two operands rounded once in a format (R162, R246). -/
def Fmt.op2 (f : Fmt) (rm : Rm) (g : Exact → Exact → Exact × Flg) (a b : Nat) : Nat × Flg :=
  let x := f.decode a
  let y := f.decode b
  let v := g x.val y.val
  let r := f.encode rm v.1
  (r.1, r.2 ||| v.2 ||| x.nv ||| y.nv)

/-- An operation of one operand. -/
def Fmt.op1 (f : Fmt) (rm : Rm) (g : Exact → Exact × Flg) (a : Nat) : Nat × Flg :=
  let x := f.decode a
  let v := g x.val
  let r := f.encode rm v.1
  (r.1, r.2 ||| v.2 ||| x.nv)

/-- An operation of three operands. -/
def Fmt.op3 (f : Fmt) (rm : Rm) (g : Exact → Exact → Exact → Exact × Flg) (a b c : Nat) : Nat × Flg :=
  let x := f.decode a
  let y := f.decode b
  let z := f.decode c
  let v := g x.val y.val z.val
  let r := f.encode rm v.1
  (r.1, r.2 ||| v.2 ||| x.nv ||| y.nv ||| z.nv)

/-- Quiet comparison, and invalid for a signalling NaN only (R248). -/
def Fmt.quietCmp (f : Fmt) (g : Exact → Exact → Bool) (a b : Nat) : Bool × Flg :=
  let x := f.decode a
  let y := f.decode b
  (g x.val y.val, x.nv ||| y.nv)

/-- Signalling comparison: invalid for any NaN (R248). -/
def Fmt.signalCmp (f : Fmt) (g : Exact → Exact → Bool) (a b : Nat) : Bool × Flg :=
  let x := f.decode a
  let y := f.decode b
  (g x.val y.val, flagIf (x.val.isNan || y.val.isNan) nvFlag)

/-- a ≤ b, false with a NaN. -/
def Exact.le (a b : Exact) : Bool := a.lt b || a.eq b

/-- Whether either is NaN. -/
def Exact.unordered (a b : Exact) : Bool := a.isNan || b.isNan

/-- The class bit of a value in a format (R249, R258). -/
def Fmt.classify (f : Fmt) (x : Datum) : Nat :=
  match x.val with
  | .nan => if x.snan then 256 else 512
  | .inf s => if s then 1 else 128
  | .fin s n d =>
    if n = 0 then if s then 8 else 16
    else if floorLog2 n d < f.emin then if s then 4 else 32
    else if s then 2 else 64

/-- Rounds to an integer within bounds (R251, R257, R275): out of range saturates with `NV` only. -/
def Exact.toIntIn (rm : Rm) (lo hi : Int) : Exact → Int × Flg
  | .nan => (0, nvFlag)
  | .inf s => (if s then lo else hi, nvFlag)
  | .fin s n d =>
    let r := roundAt rm s n d 0
    let v := signed s r.1
    if v < lo then (lo, nvFlag) else if hi < v then (hi, nvFlag) else (v, flagIf r.2 nxFlag)

/-- An integer as an exact value; zero is +0. -/
def Exact.ofInt (v : Int) : Exact := .fin (decide (v < 0)) v.natAbs 1

/-- Rounds to an integral value, keeping the sign of zero (R256). -/
def Exact.integral (rm : Rm) : Exact → Exact × Flg
  | .fin s n d => let r := roundAt rm s n d 0; (.fin s r.1 1, flagIf r.2 nxFlag)
  | x => (x, 0)

/-- Quantises an exact value to an integer code of a range (R176). -/
def quantInt (lo hi : Int) : Exact → Int × Flg
  | .nan => (0, nvFlag)
  | .inf s => (if s then lo else hi, nvFlag)
  | .fin s n d =>
    let r := roundAt .rne s n d 0
    let v := signed s r.1
    if v < lo then (lo, ofFlag ||| nxFlag) else if hi < v then (hi, ofFlag ||| nxFlag) else (v, flagIf r.2 nxFlag)

/-- Quantisation by shift of a binary32 value (R176): the code in `VQNT`'s bits, and the flags. Targets:
0 INT8, 1 INT4, 2 E4M3, 3 E5M2. -/
def quantise (tgt : Nat) (s : Int) (x : Nat) : Nat × Flg :=
  let d := f32.decode x
  let v := d.val.scale (-s)
  if tgt = 0 then let r := quantInt (-128) 127 v; ((r.1 % 256).toNat, r.2)
  else if tgt = 1 then let r := quantInt (-8) 7 v; ((r.1 % 16).toNat, r.2)
  else if tgt = 2 then let r := encodeE4m3 .rne v; (r.1, r.2 ||| d.nv)
  else let r := saturateE5m2 v; (r.1, r.2 ||| d.nv)

/-- The value of a code (R172, R276). -/
def codeValue (fmt c : Nat) : Datum :=
  if fmt = 0 then ⟨.ofInt (signedNat 8 c), false⟩
  else if fmt = 1 then ⟨.ofInt (signedNat 4 c), false⟩
  else if fmt = 2 then decodeE4m3 c
  else e5m2.decode c

/-- Dequantisation (R177, R276): c × 2^s rounded once to binary32 under RNE. -/
def dequantise (fmt : Nat) (s : Int) (c : Nat) : Nat × Flg :=
  let d := codeValue fmt c
  let r := f32.encode .rne (d.val.scale s)
  (r.1, r.2 ||| d.nv)

/-- The bin of a non-NaN value (R178). -/
def statBin (b : Int) : Exact → Nat
  | .fin _ n d => if n = 0 then 0 else (max 0 (min 63 (floorLog2 n d - b))).toNat
  | _ => 63

/-- One level of the reduction tree (R187): element i with element i + m, the middle one of an odd count as it
is. -/
def reduceZip (op : α → α → α × Flg) : List α → List α → List α × Flg
  | x :: xs, y :: ys => let r := op x y; let t := reduceZip op xs ys; (r.1 :: t.1, r.2 ||| t.2)
  | xs, _ => (xs, 0)

/-- The fixed reduction tree (R187). -/
def reduceTree (op : α → α → α × Flg) : Nat → List α → List α × Flg
  | 0, l => (l, 0)
  | fuel + 1, l =>
    if l.length ≤ 1 then (l, 0)
    else
      let m := (l.length + 1) / 2
      let r := reduceZip op (l.take m) (l.drop m)
      let t := reduceTree op fuel r.1
      (t.1, r.2 ||| t.2)

/-- Fraction bits of the series for the functions of R188, far beyond the nearest approach of any binary32
result to a rounding boundary (log entry 13). -/
def fnBits : Nat := 320

/-- `2 ^ f` for a fraction `f = x / 2 ^ n`, scaled by `2 ^ fnBits`: the product of the successive square roots of
two that the bits of `f` select. -/
def exp2Bits : Nat → Nat → Nat → Nat → Nat
  | 0, _, _, acc => acc
  | n + 1, x, root, acc =>
    let r := isqrt (root * 2 ^ fnBits)
    exp2Bits n x r (if bitAt x n then acc * r / 2 ^ fnBits else acc)

/-- 2^x (R188). -/
def Exact.exp2 : Exact → Exact × Flg
  | .nan => (.nan, 0)
  | .inf s => (if s then .fin false 0 1 else .inf false, 0)
  | .fin s n d =>
    if 65536 * d ≤ n then (if s then .fin false 1 (2 ^ 65536) else .fin false (2 ^ 65536 + 1) 1, 0)
    else
      let v := signed s n
      let k := v / (d : Int)
      let x := (v % (d : Int)).toNat
      if x = 0 then (.ofScaled false 1 k, 0)
      else (.ofScaled false (2 * exp2Bits (Nat.log2 d) x (2 ^ (fnBits + 1)) (2 ^ fnBits) + 1) (k - fnBits - 1), 0)

/-- The first `n` fraction bits of the binary logarithm of `m / 2 ^ w`, with m / 2^w in [1, 2). -/
def log2Bits (w : Nat) : Nat → Nat → Nat → Nat
  | 0, _, acc => acc
  | n + 1, m, acc =>
    let y := m * m / 2 ^ w
    if 2 ^ (w + 1) ≤ y then log2Bits w n (y / 2) (2 * acc + 1) else log2Bits w n y (2 * acc)

/-- log2 x (R188). -/
def Exact.log2 : Exact → Exact × Flg
  | .nan => (.nan, 0)
  | .inf s => if s then (.nan, nvFlag) else (.inf false, 0)
  | .fin s n d =>
    if n = 0 then (.inf true, dzFlag)
    else if s then (.nan, nvFlag)
    else
      let e := floorLog2 n d
      let w := 2 * fnBits
      let m := if e < 0 then n * 2 ^ (-e).toNat * 2 ^ w / d else n * 2 ^ w / (d * 2 ^ e.toNat)
      if m = 2 ^ w then (.ofInt e, 0)
      else
        let v := (e * (2 ^ 200 : Nat) + log2Bits w 200 m 0) * 2 + 1
        (.fin (decide (v < 0)) v.natAbs (2 ^ 201), 0)

/-- 1/x (R188). -/
def Exact.recip (x : Exact) : Exact × Flg := Exact.div (.fin false 1 1) x

/-- 1/√x (R188). -/
def Exact.rsqrt : Exact → Exact × Flg
  | .nan => (.nan, 0)
  | .inf s => if s then (.nan, nvFlag) else (.fin false 0 1, 0)
  | .fin s n d =>
    if n = 0 then (.inf s, dzFlag)
    else if s then (.nan, nvFlag)
    else let r := sqrtFraction fnBits d n; (.fin false r.1 r.2, 0)

/-- Lambert's fraction `x² / (2k+1 + x² / (2k+3 + …))` from its `n` last terms, as numerator and denominator, for
x² = a / b. -/
def tanhTail (a b : Nat) : Nat → Nat → Nat × Nat
  | 0, _ => (0, 1)
  | n + 1, k =>
    let t := tanhTail a b n (k + 1)
    (a * t.2, b * ((2 * k + 1) * t.2 + t.1))

/-- tanh x (R188): beyond 32 the result is within 2^-90 of ±1. -/
def Exact.tanh : Exact → Exact × Flg
  | .nan => (.nan, 0)
  | .inf s => (.fin s 1 1, 0)
  | .fin s n d =>
    if n = 0 then (.fin s 0 1, 0)
    else if 32 * d ≤ n then (.fin s (2 ^ 90 - 1) (2 ^ 90), 0)
    else
      let t := tanhTail (n * n) (d * d) 100 1
      let r := sticky (fnBits + Nat.log2 d) (n * t.2) (d * (t.2 + t.1))
      (.fin s (2 * r.1 + 1) (2 * r.2), 0)

/-- The exact sum of the finite values of a list, as a fraction with its sign. -/
def Exact.sumFin : List Exact → Int × Nat
  | [] => (0, 1)
  | .fin s n d :: xs => let t := sumFin xs; (signed s n * t.2 + t.1 * d, d * t.2)
  | _ :: xs => sumFin xs

/-- A sum formed exactly over non-NaN elements and rounded once, under RNE, to binary64 (R190). A sum of
negative zeros alone is −0, as an IEEE sum is. -/
def Exact.sum64 (xs : List Exact) : W64 :=
  let pos := xs.any (· == .inf false)
  let neg := xs.any (· == .inf true)
  let t := sumFin xs
  let v : Exact :=
    if pos && neg then .nan else if pos then .inf false else if neg then .inf true
    else if t.1 = 0 then .fin (!xs.isEmpty && xs.all fun x => x.isZero && x.isNeg) 0 1
    else .fin (decide (t.1 < 0)) t.1.natAbs t.2
  BitVec.ofNat 64 (f64.encode .rne v).1

/-- The four fields of a copy fingerprint (R190): NaN count, largest magnitude, sum, sum of squares. DESIGN CHOICE (log entry 29):
where every element is a NaN, or there is none, the largest magnitude is +0. -/
def fingerprint (xs : List Exact) : List W64 :=
  let ys := xs.filter fun x => !x.isNan
  let big := ys.foldl (fun (m x : Exact) => m.maximum x.abs) (Exact.fin false 0 1)
  [BitVec.ofNat 64 (xs.length - ys.length), BitVec.ofNat 64 (f64.encode .rne big).1, Exact.sum64 ys,
   Exact.sum64 (ys.map fun x => (x.mul x).1)]

/-- One term of scale-and-accumulate (R186, R269): acc + sa × scale × p, one rounding to binary32. -/
def accumulate (rm : Rm) (acc : Nat) (sa scale p : Exact) : Nat × Flg :=
  let u := sa.mul scale
  let t := u.1.mul p
  let v := t.1.add rm (f32.decode acc).val
  let r := f32.encode rm v.1
  (r.1, r.2 ||| v.2 ||| t.2 ||| u.2)

/-- The exact value of a long float from its words (R179, R180): header first. Every NaN is quiet. -/
def vfValue (ws : List W32) : Exact :=
  match ws with
  | [] => .nan
  | h :: rest =>
    let k := rest.length
    let frac := rest.foldl (fun n w => n * 2 ^ 32 + w.toNat) (bitsOf h.toNat 0 13)
    ((vf k).decode ((bitsOf h.toNat 31 1 * 2 ^ 15 + bitsOf h.toNat 13 15) * 2 ^ (13 + 32 * k) + frac)).val

/-- The words of a long float of length code `k` (R179, R182), and the flags. -/
def vfEncode (rm : Rm) (k : Nat) (x : Exact) : List W32 × Flg :=
  let r := (vf k).encode rm x
  let b := r.1
  let head := bitsOf b (28 + 32 * k) 1 * 2 ^ 31 + k * 2 ^ 28 + bitsOf b (32 * k) 28
  (BitVec.ofNat 32 head :: tabulate k fun j => BitVec.ofNat 32 (bitsOf b (32 * (k - 1 - j)) 32), r.2)

/-- The cancellation of two effective operands and their exact sum, when R184 checks it. -/
def cancellation (x y v : Exact) : Option Int :=
  match x, y, v with
  | .fin _ n d, .fin _ m e, .fin _ k f =>
    if n = 0 ∨ m = 0 ∨ k = 0 then none else some (max (floorLog2 n d) (floorLog2 m e) - floorLog2 k f)
  | _, _, _ => none

end Sys2Proof.Machine
end

