-- ==== Sys2Proof/Machine/Uprog.lean ====
section
/-! DEFINITION. Microprograms of 32 bytes (R297, R309, R310): their checks and one pass of their operations. -/

namespace Sys2Proof.Machine

/-- Word `i` of an image as a number. -/
def progWord (p : List W32) (i : Nat) : Nat := (lget p i).toNat
/-- `NOPS` (R297). -/
def progOps (p : List W32) : Nat := bitsOf (progWord p 0) 0 2 + 1
/-- Whether `STYPE` is FP32 (R297). -/
def progFp (p : List W32) : Bool := bitAt (progWord p 0) 4

/-- Whether an operation word is accepted (R297). -/
def opWordOk (fp : Bool) (w : Nat) : Bool :=
  let opc := bitsOf w 0 4
  reservedZero w [(0, 7), (8, 3), (12, 3), (16, 3)] && decide (bitsOf w 4 3 ≤ 1) && decide (bitsOf w 8 3 ≤ 4) &&
  decide (bitsOf w 12 3 ≤ 4) && decide (bitsOf w 16 3 ≤ 4) && decide (opc ≤ 9) &&
  !(fp && (opc == 5 || opc == 6 || opc == 7 || opc == 9))

/-- Whether word `i` of an image is accepted; `init` tells whether `INIT` may be nonzero (R297, R309). -/
def progWordOk (init : Bool) (p : List W32) (i : Nat) : Bool :=
  let w := progWord p i
  if i = 0 then reservedZero w [(0, 2), (4, 1)]
  else if i = 1 then true
  else if i = 2 then init || w == 0
  else if i < 3 + progOps p then opWordOk (progFp p) w
  else w == 0

/-- Byte offset of the first refused word of an image (R297, R309). -/
def progFault (init : Bool) (p : List W32) : Option Nat :=
  ((List.range 8).find? fun i => !progWordOk init p i).map (4 * ·)

/-- The values the operations work on (R297, R309): s, t, and the two inputs. -/
structure ProgState where
  s : W32
  t : W32
  flags : Flg := 0
  deriving DecidableEq, Repr

/-- An operand by its code (R297): s, the two inputs, t, `IMM`. -/
def progOperand (p : List W32) (a w : W32) (v : ProgState) (code : Nat) : W32 :=
  match code with
  | 0 => v.s
  | 1 => a
  | 2 => w
  | 3 => v.t
  | _ => lget p 1

/-- The result of an operation in INT32 (R297); `old` is the destination's value. -/
def opInt (opc : Nat) (x y z old : W32) : W32 :=
  match opc with
  | 0 => x + y
  | 1 => x - y
  | 2 => x * y
  | 3 => if x.slt y then x else y
  | 4 => if x.slt y then y else x
  | 5 => x &&& y
  | 6 => x ||| y
  | 7 => x ^^^ y
  | 8 => if y.slt x then z else old
  | _ => x.sshiftRight (y.toNat % 32)

/-- The result of an operation in FP32, under RNE (R297). DESIGN CHOICE (log entry 27): SELGT compares as a signalling
comparison does, so that any NaN raises NV. -/
def opFp (opc : Nat) (x y z old : W32) : W32 × Flg :=
  let pair := fun (r : Nat × Flg) => (BitVec.ofNat 32 r.1, r.2)
  match opc with
  | 0 => pair (f32.op2 .rne (Exact.add .rne) x.toNat y.toNat)
  | 1 => pair (f32.op2 .rne (fun a b => a.add .rne b.neg) x.toNat y.toNat)
  | 2 => pair (f32.op2 .rne Exact.mul x.toNat y.toNat)
  | 3 => pair (f32.op2 .rne (fun a b => (a.minimum b, 0)) x.toNat y.toNat)
  | 4 => pair (f32.op2 .rne (fun a b => (a.maximum b, 0)) x.toNat y.toNat)
  | _ => let c := f32.signalCmp (fun a b => b.lt a) x.toNat y.toNat; (if c.1 then z else old, c.2)

/-- One operation (R297). -/
def progOp (p : List W32) (a w : W32) (v : ProgState) (op : Nat) : ProgState :=
  let x := progOperand p a w v (bitsOf op 8 3)
  let y := progOperand p a w v (bitsOf op 12 3)
  let z := progOperand p a w v (bitsOf op 16 3)
  let toT := bitsOf op 4 3 == 1
  let old := if toT then v.t else v.s
  let r := if progFp p then opFp (bitsOf op 0 4) x y z old else (opInt (bitsOf op 0 4) x y z old, 0)
  if toT then { v with t := r.1, flags := v.flags ||| r.2 } else { v with s := r.1, flags := v.flags ||| r.2 }

/-- One pass of a microprogram (R297, R310). -/
def runProg (p : List W32) (a w : W32) (v : ProgState) : ProgState :=
  (List.range (progOps p)).foldl (fun v i => progOp p a w v (progWord p (3 + i))) v

end Sys2Proof.Machine
end

