-- ==== Sys2Proof/Machine/Amo.lean ====
section
/-! DEFINITION. Atomics and configured update functions (R110, R111, R272, R307-R310). -/

namespace Sys2Proof.Machine

/-- The new word of an AMO of `8 * n` bits by its position (R272, R307); `y` is what `ACAS` compares with. -/
def amoNew (op n old x y : Nat) : Nat :=
  let w := 8 * n
  let lt := decide (signedNat w x < signedNat w old)
  let ltz := decide (x < old)
  match op with
  | 0 => (old + x) % 2 ^ w
  | 1 => if lt then x else old
  | 2 => if lt then old else x
  | 3 => if ltz then x else old
  | 4 => if ltz then old else x
  | 5 => old &&& x
  | 6 => old ||| x
  | 7 => old ^^^ x
  | 8 => x
  | 9 => (f32.op2 .rne (Exact.add .rne) old x).1
  | _ => if old = y then x else old

/-- Changes `n` bytes at their home by a function of the old value, which it returns (R54, R110): the event at
its own position, before waiters are served. -/
def homeUpdate (pa n : Nat) (f : Nat → Nat) : M Nat := do
  upd (·.meetFailures pa n)
  let s ← get
  let old := leNat (s.bytesAt pa n)
  upd fun s => s.homePut false (.task s.task.key) pa (leBytes n (f old))
  pure old

/-- The ordering a pending HORD gives an instruction of the AMO group (R195, R307). -/
def amoOrder : M (BitVec 2) := do pure (((← get).task.hints.hord.map (·.1)).getD 0)

/-- Bytes of an AMO's size field (R307). -/
def amoBytes (z : BitVec 1) : Nat := if z = 0 then 4 else 8

/-- What d receives of an old word (R307). -/
def amoResult (n old : Nat) (zext : Bool) : W64 := if zext then BitVec.ofNat 64 old else sext64 (8 * n) old

/-- An AMO of the group (R307, R308): operands, translation, ordering before, the update, ordering after. -/
def amoBody (op : Nat) (zext : Bool) (d a b : Spec) (sc : BitVec 2) (n : Nat) : M Next := do
  checkSrc a; checkSrc b
  if op = 10 then checkSrc d else pure ()
  checkDst d
  let va ← readScalar a
  let x ← readScalar b
  let y ← if op = 10 then readScalar d else pure 0
  let pa ← translate1 (← myCtx) { write := true } va n
  let o ← amoOrder
  orderBefore (scopeOf sc) (isRel o) pa n
  let old ← homeUpdate pa n fun old => amoNew op n old (x.toNat % 2 ^ (8 * n)) (y.toNat % 2 ^ (8 * n))
  orderAfter (isAcq o)
  writeLoaded d (amoResult n old zext)
  upd State.serve
  pure .seq

/-- Raises a trap whose `TVAL` the spec does not give (R375): a free value. -/
def raiseFree (cause : BitVec 8) : M Unit := do
  let k := (← get).tick
  upd fun s => { s with tick := k + 1 }
  raise cause (Config.freeWord k)

/-- Puts an image into a slot of a set of update units (R309). -/
def setSlot (u : UfSlot) (l : List UfSlot) : List UfSlot := u :: l.filter (·.slot != u.slot)

/-- Loads a configured function into the units a scope names (R309). -/
def State.loadFunction (s : State) (sc : Scope) (u : UfSlot) : State :=
  let c := s.task.core
  match sc with
  | .cluster => s.setCluster (clusterId c) fun k => { k with uf := setSlot u k.uf }
  | .die => s.setDie c.die.toNat fun d => { d with uf := setSlot u d.uf }
  | _ => (List.range 4).foldl (fun s i => s.setDie i fun d => { d with uf := setSlot u d.uf }) s

/-- UFLOAD reads its image and loads it: first the boundary of `.rel` or the implicit one (R99, R100), then one operation on the
memory of the image, at one position (R301, R309). -/
def ufloadImage (sc : Scope) (rel acq : Bool) (slot : BitVec 3) (ps : List (Nat × Nat)) : M Next := do
  upd fun s => if rel ∨ ps.any (fun p => s.task.holdsAny p.1 p.2) = true then s.boundary sc else s
  let bytes := (← ps.mapM fun p => runS (·.readHeld 8 p.1 p.2)).flatten
  let prog := (chunks 4 8 bytes).map fun w => BitVec.ofNat 32 (leNat w)
  match progFault false prog with
  | some off => raise 0x01 (BitVec.ofNat 64 off)
  | none =>
    upd fun s => s.nextPos.2
    upd fun s => s.loadFunction sc ⟨slot, s.task.asid, prog⟩
    orderAfter acq
    pure .seq

/-- UFLOAD (R297, R309): a refused image leaves nothing done, the boundary neither (R374). -/
def ufloadBody (d a b : Spec) (sc : BitVec 2) (z : BitVec 1) : M Next := do
  checkSrc a; checkSrc b
  let va ← readScalar a
  let x ← readScalar b
  if sc = 0 ∨ z ≠ 0 then raiseFree 0x01 else pure ()
  need (d == 0) 0x01 (d.setWidth 64)
  need (decide (x.toNat < 8)) 0x01 x
  let o ← amoOrder
  let ps ← translate (← myCtx) {} va 32 8
  precisely (ufloadImage (scopeOf sc) (isRel o) (isAcq o) (x.setWidth 3) ps)

/-- The configured functions of the unit of a word's home (R54, R309). -/
def State.unitSlots (s : State) (pa : Nat) : List UfSlot :=
  match regionOf pa with
  | .scratch die clu => (s.cluster (die * 64 + clu)).uf
  | .hbm _ | .far _ => (s.die (homeDie pa)).uf
  | _ => []

/-- One update of a configured function on a memory word (R310). -/
def UfSlot.update (u : UfSlot) (x y : W64) (old : Nat) : ProgState :=
  runProg u.prog (x.setWidth 32) (y.setWidth 32) { s := BitVec.ofNat 32 old, t := 0 }

/-- UPD (R310): the flags of an FP32 function, under the rules of R297, are recorded as those of any instruction (R162, R166).
-/
def updBody (d a b : Spec) (sc : BitVec 2) (z : BitVec 1) : M Next := do
  checkSrc a; checkSrc b; checkSrc d; checkDst d
  let va ← readScalar a
  let x ← readScalar b
  let y ← readScalar d
  if z ≠ 0 then raiseFree 0x01 else pure ()
  need (decide (x.toNat < 2 ^ 35)) 0x01 x
  let pa ← translate1 (← myCtx) { write := true } va 4
  let slot := fieldOf x 32 3
  let s ← get
  match (s.unitSlots pa).find? fun u => u.slot.toNat == slot && u.asid == s.task.asid with
  | none => raise 0x01 (BitVec.ofNat 64 slot)
  | some u =>
    let o ← amoOrder
    orderBefore (scopeOf sc) (isRel o) pa 4
    let old ← homeUpdate pa 4 fun old => (u.update x y old).s.toNat
    orderAfter (isAcq o)
    writeLoaded d (sext64 32 old)
    upd State.serve
    pure (.flags (u.update x y old).flags)

/-- AADD (R307). -/
def execAadd (d a b : Spec) (sc : BitVec 2) (z : BitVec 1) (s : State) : Res :=
  issue .any withOrd (.aadd d a b sc z) (amoBody 0 false d a b sc (amoBytes z)) s
/-- AMIN (R307). -/
def execAmin (d a b : Spec) (sc : BitVec 2) (z : BitVec 1) (s : State) : Res :=
  issue .any withOrd (.amin d a b sc z) (amoBody 1 false d a b sc (amoBytes z)) s
/-- AMAX (R307). -/
def execAmax (d a b : Spec) (sc : BitVec 2) (z : BitVec 1) (s : State) : Res :=
  issue .any withOrd (.amax d a b sc z) (amoBody 2 false d a b sc (amoBytes z)) s
/-- AMINZ (R307). -/
def execAminz (d a b : Spec) (sc : BitVec 2) (z : BitVec 1) (s : State) : Res :=
  issue .any withOrd (.aminz d a b sc z) (amoBody 3 true d a b sc (amoBytes z)) s
/-- AMAXZ (R307). -/
def execAmaxz (d a b : Spec) (sc : BitVec 2) (z : BitVec 1) (s : State) : Res :=
  issue .any withOrd (.amaxz d a b sc z) (amoBody 4 true d a b sc (amoBytes z)) s
/-- AAND (R307). -/
def execAand (d a b : Spec) (sc : BitVec 2) (z : BitVec 1) (s : State) : Res :=
  issue .any withOrd (.aand d a b sc z) (amoBody 5 false d a b sc (amoBytes z)) s
/-- AOR (R307). -/
def execAor (d a b : Spec) (sc : BitVec 2) (z : BitVec 1) (s : State) : Res :=
  issue .any withOrd (.aor d a b sc z) (amoBody 6 false d a b sc (amoBytes z)) s
/-- AXOR (R307). -/
def execAxor (d a b : Spec) (sc : BitVec 2) (z : BitVec 1) (s : State) : Res :=
  issue .any withOrd (.axor d a b sc z) (amoBody 7 false d a b sc (amoBytes z)) s
/-- ASWAP (R307). -/
def execAswap (d a b : Spec) (sc : BitVec 2) (z : BitVec 1) (s : State) : Res :=
  issue .any withOrd (.aswap d a b sc z) (amoBody 8 false d a b sc (amoBytes z)) s
/-- AFADD (R307). -/
def execAfadd (d a b : Spec) (sc : BitVec 2) (s : State) : Res :=
  issue .any withOrd (.afadd d a b sc) (amoBody 9 true d a b sc 4) s
/-- ACAS (R307): d is read as a third source. -/
def execAcas (d a b : Spec) (sc : BitVec 2) (z : BitVec 1) (s : State) : Res :=
  issue .any withOrd (.acas d a b sc z) (amoBody 10 false d a b sc (amoBytes z)) s
/-- UFLOAD (R309). -/
def execUfload (d a b : Spec) (sc : BitVec 2) (z : BitVec 1) (s : State) : Res :=
  issue .any withOrd (.ufload d a b sc z) (ufloadBody d a b sc z) s
/-- UPD (R310). -/
def execUpd (d a b : Spec) (sc : BitVec 2) (z : BitVec 1) (s : State) : Res :=
  issue .any withOrd (.upd d a b sc z) (updBody d a b sc z) s

end Sys2Proof.Machine
end

