-- ==== Sys2Proof/Machine/Mx.lean ====
section
/-! DEFINITION. The matrix unit's mode, its state bits, and how far a run in progress has come (R281, R282, R286, R293,
R296, R298). -/

namespace Sys2Proof.Machine

/-- The shape a mode word gives (R281, R282). -/
structure MxShape where
  int4 : Bool
  asc : Nat
  c : Nat
  km : Nat
  gsz : Nat
  deriving DecidableEq, Repr

/-- The shape of a mode word with a dense or sparse B (R281). -/
def shapeOf (mode : W64) (sparse : Bool) : MxShape :=
  let int4 := fieldOf mode 4 1 == 1
  ⟨int4, fieldOf mode 12 2, 2 ^ fieldOf mode 0 3, if int4 || sparse then 256 else 128, 32 * 2 ^ fieldOf mode 8 2⟩

/-- Column groups n (R281). -/
def MxShape.n (h : MxShape) : Nat := 32 / h.c
/-- Elements of a row (R281). -/
def MxShape.k (h : MxShape) : Nat := h.c * h.km
/-- Groups of a column (R281). -/
def MxShape.ng (h : MxShape) : Nat := h.k / h.gsz
/-- Span size S (R282). -/
def MxShape.span (h : MxShape) : Nat := if h.asc = 0 then h.gsz else 32
/-- Spans of a column (R282). -/
def MxShape.ns (h : MxShape) : Nat := h.k / h.span
/-- Groups of a column at the mode's greatest K: the pitch of the descriptors of a column (R281, R290). -/
def MxShape.ngPitch (h : MxShape) : Nat := h.c * 256 / h.gsz
/-- Spans of a column at the mode's greatest K: the pitch of the latches of a column (R282, R293). -/
def MxShape.nsPitch (h : MxShape) : Nat := h.c * 256 / h.span
/-- Blocks of 32 elements of a row (R292). -/
def MxShape.nb (h : MxShape) : Nat := h.k / 32
/-- Bytes of the A codes of a row (R292). -/
def MxShape.codeBytes (h : MxShape) : Nat := if h.int4 then h.k / 2 else h.k
/-- Bytes of the block scales of a row (R292). -/
def MxShape.scaleBytes (h : MxShape) : Nat :=
  if h.asc = 1 then 4 * h.nb else if h.asc = 2 then 4 * ((h.nb + 7) / 8) else 0

/-- Whether `MXMODE` accepts a mode word (R281, R289). -/
def modeOk (w : W64) : Bool :=
  reservedZero w.toNat [(0, 3), (4, 1), (8, 2), (12, 2)] && decide (fieldOf w 0 3 ≤ 5) && decide (fieldOf w 8 2 ≤ 2) &&
  decide (fieldOf w 12 2 ≤ 2) && !(fieldOf w 4 1 == 1 && fieldOf w 12 2 != 0 && fieldOf w 0 3 == 5)

/-- A bit of `MXSTATE` (R296). -/
def Mx.bit (m : Mx) (i : Nat) : Bool := m.mxstate.getLsbD i
/-- `MXSTATE` with a field replaced. -/
def Mx.put (m : Mx) (lo len v : Nat) : Mx := { m with mxstate := withField m.mxstate lo len v }
/-- The shape in force (R281). -/
def Mx.shape (m : Mx) : MxShape := shapeOf m.mode (m.bit 17)
/-- The bits of `MXSTATE` that are not reserved (R296). -/
def mxstateMask : W64 := 0x01FFF03F1F3F3FFF
/-- The bits of the mode word that are not reserved (R281). -/
def mxmodeMask : W64 := 0x3317
/-- Whether a run is in progress (R286, R296). -/
def Mx.running (m : Mx) : Bool := m.bit 24

/-- How far a run has come while its issuer issues one instruction, 16 cycles (log entry 4): two rows of an `MXRUN`, 16
K-steps of an `MXREC`, of which a row ends at a boundary of its own (R293, R298). -/
def Mx.progress (m : Mx) : Mx :=
  if !m.running then m
  else
    let row := fieldOf m.mxstate 32 6
    let step := fieldOf m.mxstate 44 13 + 16
    if !m.bit 26 then m.put 32 6 (min 32 (row + 2))
    else if step < m.shape.k then m.put 44 13 step
    else (m.put 32 6 (min 32 (row + 1))).put 44 13 0

/-- Whether every row of the run in progress is done. -/
def Mx.complete (m : Mx) : Bool := m.running && decide (32 ≤ fieldOf m.mxstate 32 6)

/-- The event that ends a task's run (R293, R298). -/
def Task.runEnd (t : Task) : Instr := if t.mx.bit 26 then .mxRecEnd t.key else .mxRunEnd t.key

end Sys2Proof.Machine
end

