-- ==== Sys2Proof/Machine/Fetch.lean ====
section
/-! DEFINITION. Fetching an instruction (R19, R191, R232), what comes next when the current task does not issue
(log entry 2), and the placing of one instruction for the next fetch (log entry 3). -/

namespace Sys2Proof.Machine

/-- Fetches the word at the current task's pc (R36, R37, R232). Accesses that wait for a word which a failure met here has
emptied come before what the instruction does (R78, R80). -/
def fetch : M Nat := do
  let s ← get
  let t := s.task
  match ← translate t.tctx { fetch := true } t.pc 4 4 with
  | p :: _ => do
    let b ← readTask 4 p.1 4
    upd (·.serveMet s)
    pure (leNat b)
  | [] => raise 0x10 t.pc

/-- The READY tasks in the order they are served: high priority first, oldest first (R135). -/
def State.readyTasks (s : State) : List Task :=
  let l := s.ready.filterMap s.taskOf
  (l.filter (·.high)) ++ l.filter (!·.high)

/-- The binding of a core's channel (R137). -/
def State.bindingOf (s : State) (c : CoreId) (n : BitVec 4) : Option Binding :=
  s.bindings.find? fun b => b.core == c && b.chan == n

/-- Whether the instance of a launch word is pre-empted (R382). -/
def State.preempted (s : State) (w : W64) : Bool :=
  match s.inst (BitVec.ofNat 14 (fieldOf w 0 14)) (BitVec.ofNat 16 (fieldOf w 14 16)) with
  | some i => i.pre
  | none => false

/-- Whether a channel's oldest packet can start an activation now (R136, R137, R382). -/
def State.canActivate (s : State) (c : CoreId) (n : BitVec 4) : Bool :=
  match s.bindingOf c n with
  | none => false
  | some b => s.chq.any (fun q => q.core == c && q.chan == n) && s.hasRoom c b.high && !s.preempted b.launch &&
      !s.allTasks.any fun t => t.activation == some (c, n) && decide (t.status ≠ .ended)

/-- The core a route descriptor names on its device (R327). -/
def routeCore (r : W64) : CoreId :=
  ⟨BitVec.ofNat 2 (fieldOf r 38 2), BitVec.ofNat 6 (fieldOf r 32 6), BitVec.ofNat 4 (fieldOf r 24 4)⟩

/-- `REM` of a route descriptor (R327). -/
def routeRemote (r : W64) : Bool := r.getLsbD 47

/-- Whether a packet is due at a core of this device (R137, R329, R424): its sender does not issue or has issued
enough since, no earlier packet of the sender with its ordering key is on its way (R116), and its channel has room. -/
def State.sendDue (s : State) (r : SendRec) : Bool :=
  let c := routeCore r.route
  !routeRemote r.route && (r.left == 0 || !s.allTasks.any fun t => t.key == r.task && t.issues) &&
  !(r.key != 0 && s.sends.any fun q => decide (q.id < r.id) && !routeRemote q.route && q.task == r.task && q.key == r.key) &&
  match s.bindings.find? fun b => b.core == c && b.tag == r.route.setWidth 16 with
  | none => true
  | some b => decide ((s.chq.filter fun q => q.core == c && q.chan == b.chan).length < 4)

/-- The current task issues an instruction: its sends come nearer to their arrival (R424), and a run of its matrix unit goes
on (R286); one whose rows are all done ends next. A task whose window was evicted loads it first (R131). Forwarding entries
whose replies it has received are free again (R114). -/
def State.age (s : State) : State :=
  let s : State := { s with sends := s.sends.map fun r => if r.task = s.task.key then { r with left := r.left - 1 } else r }
  let s := (s.setTask fun t => { t with mx := t.mx.progress }).freeForwards
  let s := if s.task.mx.complete then s.pushEvent s.task.runEnd else s
  if s.task.resident then s else (s.reload s.task.key).serve

/-- A run of a task that does not issue, which ends before it goes on (R286). -/
def State.idleRun (s : State) : Option Task :=
  s.allTasks.find? fun t => t.mx.running && !t.issues && t.onCore

/-- The dies whose paddock has something to place: parts, lost units, resuming tasks (R154, R159, R383). -/
def Instance.dies (i : Instance) : List (BitVec 2) :=
  i.parts.map (·.die) ++ (if i.lost = [] then [] else [0, 1, 2, 3]) ++
    (if i.resuming = [] then [] else [BitVec.ofNat 2 (i.recNo.toNat / 4096)])

/-- What is due when no turn waits: a READY task a core can take, a packet that can start, a packet that
can arrive, the end of a run, a refused wait, a dispatch
slot of each die whose paddock has something to place (log entry 2). -/
def State.due (s : State) : List Instr :=
  ((s.readyTasks.filterMap s.coreFor).head?.map Instr.taskChosen).toList ++
  ((s.chq.filter fun q => s.canActivate q.core q.chan).head?.map fun q => Instr.activationStart q.core q.chan).toList ++
  ((s.sends.filter s.sendDue).head?.map fun r => Instr.channelPacketArrival r.id).toList ++
  (s.idleRun.map Task.runEnd).toList ++
  (s.refusedWaits.head?.map fun w => Instr.retryRepeat w.task).toList ++
  ((s.insts.flatMap Instance.dies).eraseDups.map Instr.dispatchSlot)

/-- The task that issues and has waited longest for its turn, if another than the current one issues. -/
def State.nextRunning (s : State) : Option Nat := (s.tasks.reverse.find? Task.issues).map (·.key)

/-- The task that issues on a core, if any. -/
def State.runningOn (s : State) (c : CoreId) : Option Nat := (s.allTasks.find? fun t => t.core == c && t.issues).map (·.key)

/-- Puts bytes at a PA as if nothing had been written there before. -/
def State.plant (s : State) (pa : Nat) (data : List Byte) : State :=
  let s := s.clearSpan (pa / 64 * 64) (data.length + 64)
  { s with mem := memSetBytes s.mem pa data, metas := s.metas.filter fun p => p.1 != pa / 4096 }

/-- VA at which a placed word is fetched. -/
def placedVa : Nat := 0x40000000
/-- PA of the ASID table of a placed word. -/
def placedTable : Nat := 0x10000000
/-- PA of the range table of a placed word. -/
def placedRange : Nat := 0x20000000
/-- PA of a placed word. -/
def placedPa : Nat := 0x30000000

/-- The core that runs a placed word (R200): the issuer for the MX group, else a lane core. -/
def placedCore (c : CoreId) (w : Nat) : CoreId :=
  if bitsOf w 26 6 = 0x22 then { c with core := 9 } else if 8 ≤ c.core.toNat then { c with core := 0 } else c

/-- Stores a word where the next fetch of the current task reads it: the task RUNNING with no hint pending, its
pc at a page that one range entry of its ASID maps as executable. -/
def State.placeWord (s : State) (w : Nat) : State :=
  let t := s.task
  let core := placedCore t.core w
  let s := s.plant placedPa (leBytes 4 w)
  let s := s.plant (placedTable + 64 * t.asid.toNat) (leBytes 8 1 ++ leBytes 8 (placedRange + 1))
  let s := s.plant placedRange (leBytes 8 (placedVa + 1) ++ leBytes 8 placedVa ++ leBytes 8 placedPa ++ leBytes 8 0x8)
  let s := s.setDie core.die.toNat fun d => { d with asidTbl := placedTable }
  { s with agenda := [], turns := 0, rtlb := s.rtlb.filter (fun p => p.2.asid != t.asid),
           task := { t with status := .running, core := core, pc := BitVec.ofNat 64 placedVa, hints := {}, waitOn := .nothing } }

end Sys2Proof.Machine
end

