-- ==== Sys2Proof/Machine/Requests.lean ====
section
/-! DEFINITION. Fabric requests from this device (R390, R395-R397, R402, R403). -/

namespace Sys2Proof.Machine

/-- This device's Rilah identifier (R389). -/
def State.rid (s : State) : BitVec 16 := (s.die 0).rid

/-- Whether requests to a device leave at all (R390): another device of the same plane. -/
def State.inPlane (s : State) (dev : BitVec 16) : Bool :=
  dev != s.rid && bitsOf dev.toNat 6 10 == bitsOf s.rid.toNat 6 10

/-- Puts a packet on the way to a device (R391, R392); with no usable link it is dropped, and the source's
retries continue (R390). -/
def State.transmit (s : State) (dev : BitVec 16) (cls net : Nat) (key : BitVec 16) (p : Packet) : State :=
  match s.routeLink dev cls net (key != 0) none with
  | none => s
  | some n => s.queuePacket n cls net false none p

/-- Bytes of reply space that a request reserves (R407): the whole DATA packet of a READ, a DONE packet for another. -/
def replyRoom (op : Nat) (data : List Byte) : Nat := if op = 3 then 32 + leNat data else 32

/-- Whether a die has room for one more request (R403, R407): 16384 in its retry area, 8 MiB of reply space. -/
def State.requestRoom (s : State) (die : BitVec 2) (a : Ask) : Bool :=
  let mine := s.requests.filter (·.die == die)
  decide (mine.length < 16384) &&
  decide ((mine.map fun r => replyRoom r.pkt.op r.pkt.data).sum + replyRoom a.op a.data ≤ 0x800000)

/-- Sends a new request to a device and keeps it until it is answered (R396, R402, R403). -/
def State.sendNow (s : State) (b : Backlog) : State :=
  let a := b.ask
  let dev := b.dev
  let (pid, s) := s.takePid dev
  let k := dev.toNat * 65536 + a.key.toNat
  let kprv : BitVec 32 := if a.key = 0 then 0 else (lookupKey s.lastKeyed k).getD 0
  let s := if a.key = 0 then s else { s with lastKeyed := setKey s.lastKeyed k pid }
  let p : Packet :=
    ⟨BitVec.ofNat 64 (dev.toNat * 2 ^ 48 + s.rid.toNat * 2 ^ 32 + pid.toNat),
     BitVec.ofNat 64 (a.op * 2 ^ 56 + a.fem * 2 ^ 48 + a.pri.toNat * 2 ^ 46 + a.asid.toNat * 2 ^ 24 + a.key.toNat),
     BitVec.ofNat 64 (a.jkey.toNat * 2 ^ 32 + kprv.toNat), a.addr, a.data⟩
  let r : Request := ⟨b.die, dev, pid, p, a.cls == 1, BitVec.ofNat 2 a.net, 1, b.owner⟩
  let s := { s with requests := s.requests ++ [r] }
  s.transmit dev a.cls a.net a.key p

/-- Sends a new request from a die, or lets it wait there behind earlier ones until there is room (R403, R407). -/
def State.sendRequest (s : State) (die : BitVec 2) (dev : BitVec 16) (a : Ask) (owner : ReqOwner) : State :=
  let b : Backlog := ⟨die, dev, a, owner⟩
  if s.requestRoom die a && !s.backlog.any (·.die == die) then s.sendNow b else { s with backlog := s.backlog ++ [b] }

/-- Sends the requests of a die that waited, oldest first, as far as there is room (R403, R407). -/
def State.sendBacklog (die : BitVec 2) : Nat → State → State
  | 0, s => s
  | n + 1, s => match s.backlog.find? (·.die == die) with
    | none => s
    | some b => if s.requestRoom die b.ask then sendBacklog die n (({ s with backlog := s.backlog.erase b }).sendNow b) else s

end Sys2Proof.Machine
end

