-- ==== Sys2Proof/Machine/Fp.lean ====
section
/-! DEFINITION. Scalar floating-point instructions (R245-R251): one exact result, one rounding under `RMODE`,
flags raised as R166 states. -/

namespace Sys2Proof.Machine

/-- The task's rounding mode (R164). -/
def rounding : M Rm := do pure (rmOf (← get).task.rmode)

/-- Writes a result zero-extended and raises its flags (R163, R166). -/
def writeFlagged (d : Spec) (r : Nat × Flg) : M Next := do
  writeScalar d (BitVec.ofNat 64 r.1)
  pure (.flags r.2)

/-- A member of two operands (R246, R247, R250). -/
def fpBinary (d a b : Spec) (f : Rm → Nat → Nat → Nat × Flg) : M Next := do
  checkSrc a; checkSrc b; checkDst d
  let x ← readScalar a
  let y ← readScalar b
  writeFlagged d (f (← rounding) x.toNat y.toNat)

/-- A member that reads d as its third source, after a and b (R246). -/
def fpTernary (d a b : Spec) (f : Rm → Nat → Nat → Nat → Nat × Flg) : M Next := do
  checkSrc a; checkSrc b; checkSrc d; checkDst d
  let x ← readScalar a
  let y ← readScalar b
  let z ← readScalar d
  writeFlagged d (f (← rounding) x.toNat y.toNat z.toNat)

/-- A member of one operand. -/
def fpUnary (d a : Spec) (f : Rm → Nat → Nat × Flg) : M Next := do
  checkSrc a; checkDst d
  let x ← readScalar a
  writeFlagged d (f (← rounding) x.toNat)

/-- A comparison to a predicate (R248). -/
def fpCompare (p : BitVec 3) (a b : Spec) (f : Nat → Nat → Bool × Flg) : M Next := do
  checkSrc a; checkSrc b
  let x ← readScalar a
  let y ← readScalar b
  let r := f x.toNat y.toNat
  writePred p r.1
  pure (.flags r.2)

/-- Exact difference. -/
def Exact.sub (rm : Rm) (a b : Exact) : Exact × Flg := a.add rm b.neg
/-- a × b − c (R246). -/
def Exact.fms (rm : Rm) (a b c : Exact) : Exact × Flg := a.fma rm b c.neg
/-- −(a × b) + c (R246). -/
def Exact.fnma (rm : Rm) (a b c : Exact) : Exact × Flg := a.neg.fma rm b c

/-- Significant bits that a root keeps before its rounding: more than any format has. -/
def rootBits : Nat := 260

/-- Sign injection (R250): a's bits below the sign, the new sign from both signs. -/
def Fmt.inject (f : Fmt) (g : Bool → Bool → Bool) (a b : Nat) : Nat × Flg :=
  let k := f.width - 1
  (f.signBit (g (bitAt a k) (bitAt b k)) + bitsOf a 0 k, 0)

/-- FCVT (R251): selectors 0-7 convert from the format, 8-11 into it. -/
def convert (f : Fmt) (sel : Nat) (rm : Rm) (a : Nat) : Nat × Flg :=
  let x := f.decode a
  if sel < 4 then let r := (fmtOf sel).encode rm x.val; (r.1, r.2 ||| x.nv)
  else if sel = 4 then let r := x.val.toIntIn rm (-2 ^ 63) (2 ^ 63 - 1); ((r.1 % 2 ^ 64).toNat, r.2)
  else if sel = 5 then let r := x.val.toIntIn rm 0 (2 ^ 64 - 1); (r.1.toNat, r.2)
  else if sel = 6 then let r := encodeE4m3 rm x.val; (r.1, r.2 ||| x.nv)
  else if sel = 7 then let r := e5m2.encode rm x.val; (r.1, r.2 ||| x.nv)
  else if sel = 8 then f.encode rm (.ofInt (signedNat 64 a))
  else if sel = 9 then f.encode rm (.ofInt (a % 2 ^ 64 : Nat))
  else if sel = 10 then f.encode rm (decodeE4m3 a).val
  else let y := e5m2.decode a; let r := f.encode rm y.val; (r.1, r.2 ||| y.nv)

/-- FADD (R246). -/
def execFadd (d a b : Spec) (f : BitVec 2) (s : State) : Res :=
  word (.fadd d a b f) (fpBinary d a b fun rm => (fmtOf f.toNat).op2 rm (Exact.add rm)) s

/-- FSUB (R246). -/
def execFsub (d a b : Spec) (f : BitVec 2) (s : State) : Res :=
  word (.fsub d a b f) (fpBinary d a b fun rm => (fmtOf f.toNat).op2 rm (Exact.sub rm)) s

/-- FMUL (R246). -/
def execFmul (d a b : Spec) (f : BitVec 2) (s : State) : Res :=
  word (.fmul d a b f) (fpBinary d a b fun rm => (fmtOf f.toNat).op2 rm Exact.mul) s

/-- FDIV (R246). -/
def execFdiv (d a b : Spec) (f : BitVec 2) (s : State) : Res :=
  word (.fdiv d a b f) (fpBinary d a b fun rm => (fmtOf f.toNat).op2 rm Exact.div) s

/-- FSQRT (R246). -/
def execFsqrt (d a : Spec) (f : BitVec 2) (s : State) : Res :=
  word (.fsqrt d a f) (fpUnary d a fun rm => (fmtOf f.toNat).op1 rm (Exact.sqrt rootBits)) s

/-- FMA (R246). -/
def execFma (d a b : Spec) (f : BitVec 2) (s : State) : Res :=
  word (.fma d a b f) (fpTernary d a b fun rm => (fmtOf f.toNat).op3 rm (Exact.fma rm)) s

/-- FMS (R246). -/
def execFms (d a b : Spec) (f : BitVec 2) (s : State) : Res :=
  word (.fms d a b f) (fpTernary d a b fun rm => (fmtOf f.toNat).op3 rm (Exact.fms rm)) s

/-- FNMA (R246). -/
def execFnma (d a b : Spec) (f : BitVec 2) (s : State) : Res :=
  word (.fnma d a b f) (fpTernary d a b fun rm => (fmtOf f.toNat).op3 rm (Exact.fnma rm)) s

/-- FMIN (R247). -/
def execFmin (d a b : Spec) (f : BitVec 2) (s : State) : Res :=
  word (.fmin d a b f) (fpBinary d a b fun rm => (fmtOf f.toNat).op2 rm fun x y => (x.minimum y, 0)) s

/-- FMAX (R247). -/
def execFmax (d a b : Spec) (f : BitVec 2) (s : State) : Res :=
  word (.fmax d a b f) (fpBinary d a b fun rm => (fmtOf f.toNat).op2 rm fun x y => (x.maximum y, 0)) s

/-- FEQ (R248). -/
def execFeq (p : BitVec 3) (a b : Spec) (f : BitVec 2) (s : State) : Res :=
  word (.feq p a b f) (fpCompare p a b ((fmtOf f.toNat).quietCmp Exact.eq)) s

/-- FLT (R248). -/
def execFlt (p : BitVec 3) (a b : Spec) (f : BitVec 2) (s : State) : Res :=
  word (.flt p a b f) (fpCompare p a b ((fmtOf f.toNat).signalCmp Exact.lt)) s

/-- FLE (R248). -/
def execFle (p : BitVec 3) (a b : Spec) (f : BitVec 2) (s : State) : Res :=
  word (.fle p a b f) (fpCompare p a b ((fmtOf f.toNat).signalCmp Exact.le)) s

/-- FUN (R248). -/
def execFun (p : BitVec 3) (a b : Spec) (f : BitVec 2) (s : State) : Res :=
  word (.fun p a b f) (fpCompare p a b ((fmtOf f.toNat).quietCmp Exact.unordered)) s

/-- FCLASS raises no flag (R249). -/
def fclassBody (d a : Spec) (f : Fmt) : M Next := do
  checkSrc a; checkDst d
  let x ← readScalar a
  writeScalar d (BitVec.ofNat 64 (f.classify (f.decode x.toNat)))
  pure .seq

/-- FCLASS (R249). -/
def execFclass (d a : Spec) (f : BitVec 2) (s : State) : Res := word (.fclass d a f) (fclassBody d a (fmtOf f.toNat)) s

/-- FSGNJ (R250). -/
def execFsgnj (d a b : Spec) (f : BitVec 2) (s : State) : Res :=
  word (.fsgnj d a b f) (fpBinary d a b fun _ => (fmtOf f.toNat).inject fun _ y => y) s

/-- FSGNJN (R250). -/
def execFsgnjn (d a b : Spec) (f : BitVec 2) (s : State) : Res :=
  word (.fsgnjn d a b f) (fpBinary d a b fun _ => (fmtOf f.toNat).inject fun _ y => !y) s

/-- FSGNJX (R250). -/
def execFsgnjx (d a b : Spec) (f : BitVec 2) (s : State) : Res :=
  word (.fsgnjx d a b f) (fpBinary d a b fun _ => (fmtOf f.toNat).inject fun x y => x != y) s

/-- FCVT (R251). -/
def execFcvt (d a sel : BitVec 6) (f : BitVec 2) (s : State) : Res :=
  word (.fcvt d a sel f) (fpUnary d a (convert (fmtOf f.toNat) sel.toNat)) s

end Sys2Proof.Machine
end

