-- ==== Sys2Proof/Machine/Vec.lean ====
section
/-! DEFINITION. Vector-lane instructions (R262-R278): lane claims, arithmetic, memory access, atomics,
conversion, quantisation and statistics. -/

namespace Sys2Proof.Machine

/-- Refuses a specifier that is no vector source (R193). -/
def checkVSrc (x : Spec) : M Unit := need (decide (x.toNat < 48)) 0x01 (x.setWidth 64)
/-- Refuses a specifier that is no vector destination (R193). -/
def checkVDst (x : Spec) : M Unit := need (decide (x.toNat < 32)) 0x01 (x.setWidth 64)

/-- `VLEN` (R262). -/
def vlen : M Nat := do pure (← get).task.lanes.length

/-- With no lanes held, VEC, VMEM and VCONV instructions trap (R262). -/
def needLanes : M Unit := do need (decide ((← vlen) ≠ 0)) 0x01 0

/-- Vector register `n`, lane by lane (R262). -/
def Task.vreg (t : Task) (n : Nat) : List Nat := t.lanes.map fun l => (vget l n).toNat

/-- A task with vector register `n` written lane by lane. -/
def Task.setVreg (t : Task) (n : Nat) (v : List Nat) : Task :=
  { t with lanes := t.lanes.zipIdx.map fun l => vset l.1 n (BitVec.ofNat 32 (lget v l.2)) }

/-- Pops 4·`VLEN` bytes of the current packet on a channel, or nothing (R263). -/
def popVector (n : Nat) : M (List Nat) := do
  let t := (← get).task
  need (t.pktChan == some (BitVec.ofNat 4 n) && decide (t.lanes.length ≤ t.pkt.length)) 0x30 (BitVec.ofNat 64 n)
  upd (·.setTask fun t => { t with pkt := t.pkt.drop t.lanes.length })
  pure ((t.pkt.take t.lanes.length).map (·.toNat))

/-- Reads a vector source lane by lane (R193, R263); the loads outstanding to a register arrive first (R216). -/
def readVector (x : Spec) : M (List Nat) := do
  if x.toNat < 32 then do
    upd (·.setTask (·.arrive (vecPending x)))
    pure ((← get).task.vreg x.toNat)
  else popVector (x.toNat - 32)

/-- Writes a vector destination, to which no load is outstanding any more (R216, R263). -/
def writeVector (d : Spec) (v : List Nat) : M Unit :=
  upd (·.setTask fun t => (t.arrive (vecPending d)).setVreg d.toNat v)

/-- Writes the destination of a vector load, which is pending as a whole until every element has arrived (R263). -/
def writeVectorLoaded (d : Spec) (v : List Nat) : M Unit :=
  upd fun s => (s.setTask (·.setVreg d.toNat v)).await (vecPending d)

/-- Whether a type has two elements in a lane (R262). -/
def isHalf (t : BitVec 2) : Bool := decide (2 ≤ t.toNat)

/-- The format of a floating type (R265). -/
def vfmt (t : BitVec 2) : Fmt := if t = 1 then f32 else if t = 2 then f16 else bf16

/-- The elements of lane values: element 2l + h is half h of lane l (R163, R262). -/
def elements (t : BitVec 2) (v : List Nat) : List Nat :=
  if isHalf t then (v.map fun x => [bitsOf x 0 16, bitsOf x 16 16]).flatten else v

/-- The lane values of elements. -/
def fromElements (t : BitVec 2) (v : List Nat) : List Nat :=
  if isHalf t then tabulate (v.length / 2) fun i => lget v (2 * i) + 65536 * lget v (2 * i + 1) else v

/-- Element width in bits. -/
def elemBits (t : BitVec 2) : Nat := if isHalf t then 16 else 32

/-- One element of an operation of three operands by type: the i32 form and the floating form (R265). -/
def byType (t : BitVec 2) (i : W32 → W32 → W32 → W32) (f : Fmt → Rm → Nat → Nat → Nat → Nat × Flg) (rm : Rm)
    (x y z : Nat) : Nat × Flg :=
  if t = 0 then ((i (BitVec.ofNat 32 x) (BitVec.ofNat 32 y) (BitVec.ofNat 32 z)).toNat, 0) else f (vfmt t) rm x y z

/-- Applies an element operation over three element lists: results and the OR of the flags (R166). -/
def zipElements (f : Nat → Nat → Nat → Nat × Flg) (n : Nat) (x y z : List Nat) : List Nat × Flg :=
  let r := tabulate n fun i => f (lget x i) (lget y i) (lget z i)
  (r.map (·.1), r.foldl (fun g p => g ||| p.2) 0)

/-- An elementwise member (R265, R266, R269): all sources before any element is written; `third` reads d. -/
def vecOp (d a b : Spec) (t : BitVec 2) (third : Bool) (f : Rm → Nat → Nat → Nat → Nat × Flg) : M Next := do
  checkVSrc a; checkVSrc b; checkVDst d
  let x ← readVector a
  let y ← readVector b
  let z ← if third then readVector d else pure []
  needLanes
  let rm := rmOf (← get).task.rmode
  let ex := elements t x
  let r := zipElements (f rm) ex.length ex (elements t y) (elements t z)
  writeVector d (fromElements t r.1)
  pure (.flags r.2)

/-- An elementwise member of two operands in both families of types (R265). -/
def vecArith (d a b : Spec) (t : BitVec 2) (i : W32 → W32 → W32) (f : Rm → Exact → Exact → Exact × Flg) : M Next :=
  vecOp d a b t false (byType t (fun x y _ => i x y) fun fm rm x y _ => fm.op2 rm (f rm) x y)

/-- An i32 member. -/
def vecInt (d a b : Spec) (i : W32 → W32 → W32) : M Next :=
  vecOp d a b 0 false fun _ x y _ => ((i (BitVec.ofNat 32 x) (BitVec.ofNat 32 y)).toNat, 0)

/-- A comparison member: all ones or all zeros (R266). -/
def vecCmp (d a b : Spec) (t : BitVec 2) (i : W32 → W32 → Bool) (f : Fmt → Nat → Nat → Bool × Flg) : M Next :=
  vecOp d a b t false fun _ x y _ =>
    let r := if t = 0 then (i (BitVec.ofNat 32 x) (BitVec.ofNat 32 y), 0) else f (vfmt t) x y
    (if r.1 then 2 ^ elemBits t - 1 else 0, r.2)

/-- Signed minimum. -/
def smin (x y : W32) : W32 := if y.slt x then y else x
/-- Signed maximum. -/
def smax (x y : W32) : W32 := if x.slt y then y else x

/-- VFMA (R265): d is the third source. -/
def vfmaBody (d a b : Spec) (t : BitVec 2) : M Next :=
  vecOp d a b t true (byType t (fun x y z => x * y + z) fun fm rm => fm.op3 rm (Exact.fma rm))

/-- VSEL (R266): the top bit of d's element selects. -/
def vselBody (d a b : Spec) (t : BitVec 2) : M Next :=
  vecOp d a b t true fun _ x y z => (if bitAt z (elemBits t - 1) then x else y, 0)

/-- VSACC (R186, R269). -/
def vsaccBody (d a b : Spec) : M Next :=
  vecOp d a b 1 true fun rm x y z =>
    let s := f32.decode y
    let c := f32.decode z
    let r := accumulate rm z (.ofInt 1) s.val (.ofInt (signedNat 32 x))
    (r.1, r.2 ||| s.nv ||| c.nv)

/-- One step of a reduction (R267): the i32 and the floating operations. -/
def reduceOp (t : BitVec 2) (op : Nat) (rm : Rm) (x y : Nat) : Nat × Flg :=
  if t = 0 then
    let a := BitVec.ofNat 32 x
    let b := BitVec.ofNat 32 y
    let r : W32 := match op with
      | 0 => a + b
      | 1 => smin a b
      | 2 => smax a b
      | 3 => a &&& b
      | 4 => a ||| b
      | _ => a ^^^ b
    (r.toNat, 0)
  else match op with
    | 0 => (vfmt t).op2 rm (Exact.add rm) x y
    | 1 => (vfmt t).op2 rm (fun a b => (a.minimum b, 0)) x y
    | _ => (vfmt t).op2 rm (fun a b => (a.maximum b, 0)) x y

/-- An element as a scalar (R267, R268): sign-extended for i32, zero-extended otherwise. -/
def elementScalar (t : BitVec 2) (x : Nat) : W64 := if t = 0 then sext64 32 x else BitVec.ofNat 64 x

/-- VRED (R187, R267). -/
def vredBody (d a op : Spec) (t : BitVec 2) : M Next := do
  checkVSrc a; checkDst d
  let x ← readVector a
  needLanes
  need (decide (op.toNat < 3) || (decide (op.toNat < 6) && t == 0)) 0x01 (op.setWidth 64)
  let rm := rmOf (← get).task.rmode
  let e := elements t x
  let r := reduceTree (reduceOp t op.toNat rm) e.length e
  writeScalar d (elementScalar t (lget r.1 0))
  pure (.flags r.2)

/-- VSHUF (R268): an index beyond the elements gives zero. -/
def vshufBody (d a b : Spec) (t : BitVec 2) : M Next := do
  checkVSrc a; checkVSrc b; checkVDst d
  let x ← readVector a
  let y ← readVector b
  needLanes
  let e := elements t x
  writeVector d (fromElements t ((elements t y).map fun j => if j < e.length then lget e j else 0))
  pure .seq

/-- VBCAST (R268). -/
def vbcastBody (d a : Spec) (t : BitVec 2) : M Next := do
  checkSrc a; checkVDst d
  let x ← readScalar a
  needLanes
  let n ← vlen
  let e := fieldOf x 0 (elemBits t)
  writeVector d (List.replicate n (if isHalf t then e + 65536 * e else e))
  pure .seq

/-- VEXT (R268). -/
def vextBody (d a b : Spec) (t : BitVec 2) : M Next := do
  checkVSrc a; checkSrc b; checkDst d
  let x ← readVector a
  let j ← readScalar b
  needLanes
  let e := elements t x
  need (decide (j.toNat < e.length)) 0x01 j
  writeScalar d (elementScalar t (lget e j.toNat))
  pure .seq

/-- Bytes of a VMEM element (R270). -/
def vmemBytes (n : BitVec 4) : Nat := 2 ^ n.toNat

/-- Where the elements of a VMEM access lie (R270): contiguous, strided by a scalar, or at signed offsets. -/
inductive Places where
  | contiguous
  | strided (b : Spec)
  | indexed (b : Spec)
  deriving DecidableEq, Repr

/-- Checks the operand that gives the places (R193). -/
def Places.check : Places → M Unit
  | .contiguous => pure ()
  | .strided b => checkSrc b
  | .indexed b => checkVSrc b

/-- The addresses of the elements (R270). -/
def Places.addresses (p : Places) (base : W64) (n : Nat) : M (List W64) := do
  let k ← vlen
  match p with
  | .contiguous => pure (tabulate k fun l => base + BitVec.ofNat 64 (l * n))
  | .strided b => do let st ← readScalar b; pure (tabulate k fun l => base + BitVec.ofNat 64 l * st)
  | .indexed b => do let o ← readVector b; pure (o.map fun x => base + sext64 32 x)

/-- Elements of `n` bytes at their PAs, those joined that follow on one another: whole lines of the weight store are read as
one (R58). -/
def joinPieces (n : Nat) (pas : List Nat) : List (Nat × Nat) :=
  pas.foldr (fun pa l => match l with
    | (q, k) :: rest => if q = pa + n then (pa, k + n) :: rest else (pa, n) :: l
    | [] => [(pa, n)]) []

/-- A vector load or gather (R270, R271): every element translated before any is written, one position for all. -/
def vload (d a : Spec) (p : Places) (n : Nat) : M Next := do
  checkSrc a; p.check; checkVDst d
  let base ← readScalar a
  let vas ← p.addresses base n
  needLanes
  let c ← myCtx
  let pas ← vas.mapM fun va => translate1 c {} va n
  let bs ← (joinPieces n pas).mapM fun p => runS (·.readHeld n p.1 p.2)
  let _ ← takePos
  writeVectorLoaded d ((chunks n 128 bs.flatten).map leNat)
  pure .seq

/-- A vector store or scatter (R270, R271): held in ascending element order, or not at all.
DESIGN CHOICE (log entry 35): the VA that the stack-limit fault reports (R380) is that of element 0. -/
def vstore (d a : Spec) (p : Places) (n : Nat) : M Next := do
  checkSrc a; p.check; checkVSrc d
  let base ← readScalar a
  let vas ← p.addresses base n
  let data ← readVector d
  needLanes
  let c ← myCtx
  let pas ← vas.mapM fun va => translate1 c { write := true } va n
  holdStores (lget vas 0) (pas.zipIdx.map fun p => ⟨p.1, leBytes n (lget data p.2)⟩)
  pure .seq

/-- One lane of a vector register written. -/
def Task.setLane (t : Task) (n l : Nat) (x : Nat) : Task :=
  { t with lanes := lset t.lanes l (vset (lget t.lanes l) n (BitVec.ofNat 32 x)) }

/-- The fault of element `l` of a `VAMO` (R273). -/
def vamoFault (l : Nat) (va : W64) (e : Exc) (s : State) : Exc × State :=
  match e with
  | .stall => (.stall, s)
  | .trap c _ =>
    let s := s.setTask fun t => { t with vdone := withField t.vdone 0 8 l }
    if l = 0 then (.trap c va, s)
    else (.trap 0x60 va, s.setTask fun t => { t with vdone := withField t.vdone 16 8 c.toNat })

/-- Element `l` of a `VAMO` (R272, R273): performed at its word's home, after the previous one. -/
def vamoElement (d : Spec) (op : Nat) (base : W64) (offs : List Nat) (l : Nat) : M Unit := fun s =>
  let va := base + sext64 32 (lget offs l)
  match translate1 s.task.tctx { write := true } va 4 s with
  | .error e s' => let f := vamoFault l va e s'; .error f.1 f.2
  | .ok pa s' =>
    (do
      implicitBoundary .system pa 4
      let x := (vget (lget (← get).task.lanes l) d.toNat).toNat
      let old ← homeUpdate pa 4 fun old => amoNew op 4 old x 0
      upd (·.setTask (·.setLane d.toNat l old))
      upd State.serve : M Unit) s'

/-- The address and the offsets of a `VAMO`: read when it begins; those that came from a channel are kept while it is in
progress (R15, R274). -/
def vamoOperands (a b : Spec) : M (W64 × List Nat) := do
  match (← get).task.operands with
  | some x => pure (BitVec.ofNat 64 (lget x.1 0), x.2)
  | none => do
    let base ← readScalar a
    let offs ← readVector b
    pure (base, offs)

/-- VAMO (R272, R273): from `VDONE.DONE` upwards, one element a step, between which a pre-emption may stop it (R274).
DEDUCED (log entry 34): with no lanes the trap of R262 comes before that of R273, and a `VAMO` which a trap ended reads its
operands anew. -/
def vamoBody (d a b : Spec) (op : BitVec 4) : M Next := do
  checkSrc a; checkVSrc b; checkVDst d
  let (base, offs) ← vamoOperands a b
  let x ← readVector d
  needLanes
  let t := (← get).task
  let done := fieldOf t.vdone 0 8
  need (decide (done < x.length)) 0x01 t.vdone
  vamoElement d op.toNat base offs done
  let last := decide (x.length ≤ done + 1)
  let keep := if a.toNat < 32 ∧ b.toNat < 32 then none else some ([base.toNat], offs)
  upd (·.setTask fun t =>
    { t with vdone := if last then 0 else BitVec.ofNat 64 (done + 1), operands := if last then none else keep })
  pure (if last then .seq else .gone)

/-- VCVT by selector (R275). -/
def laneConvert (sel : Nat) (rm : Rm) (x : Nat) : Nat × Flg :=
  match sel with
  | 0 => let r := (f32.decode x).val.toIntIn rm (-2 ^ 31) (2 ^ 31 - 1); ((r.1 % 2 ^ 32).toNat, r.2)
  | 1 => f32.encode rm (.ofInt (signedNat 32 x))
  | 2 => convert f32 0 rm x
  | 3 => convert f32 3 rm x
  | 4 => convert f16 1 rm x
  | 5 => convert bf16 1 rm x
  | 6 => convert f32 6 rm x
  | 7 => convert f32 7 rm x
  | 8 => convert f32 10 rm x
  | _ => convert f32 11 rm x

/-- A function over the lanes of a vector (R275, R276, R278): results and the OR of the flags. -/
def mapLanes (f : Nat → Nat × Flg) (v : List Nat) : List Nat × Flg :=
  let r := v.map f
  (r.map (·.1), r.foldl (fun g p => g ||| p.2) 0)

/-- VCVT (R275). -/
def vcvtBody (d a sel : Spec) : M Next := do
  checkVSrc a; checkVDst d
  let x ← readVector a
  needLanes
  need (decide (sel.toNat < 10)) 0x01 (sel.setWidth 64)
  let r := mapLanes (laneConvert sel.toNat (rmOf (← get).task.rmode)) x
  writeVector d r.1
  pure (.flags r.2)

/-- VQNT and VDQ (R176, R177, R276): in place on d. DEDUCED (log entry 24): the shift is refused before the code format. -/
def vquantBody (d a fmt : Spec) (f : Nat → Int → Nat → Nat × Flg) : M Next := do
  checkSrc a; checkVDst d
  let s ← readScalar a
  let x ← readVector d
  needLanes
  need (decide (-128 ≤ s.toInt ∧ s.toInt ≤ 127)) 0x01 s
  need (decide (fmt.toNat < 4)) 0x01 (fmt.setWidth 64)
  let r := mapLanes (f fmt.toNat s.toInt) x
  writeVector d r.1
  pure (.flags r.2)

/-- The statistics block after adding lane values to it (R178, R277). -/
def statUpdate (b : Int) (block : List Nat) (v : List Nat) : List Nat :=
  let x := v.filter fun n => !(f32.decode n).val.isNan
  let big := x.foldl (fun m n => Nat.max m (n % 2 ^ 31)) (lget block 0 % 2 ^ 32)
  let bins := x.map fun n => statBin b (f32.decode n).val
  big :: (lget block 1 + (v.length - x.length)) % 2 ^ 64 ::
    tabulate 64 fun i => (lget block (2 + i) + bins.count i) % 2 ^ 64

/-- VSTAT (R178, R277). DESIGN CHOICE (log entry 35): the stack-limit fault of its stores has the block's address as `TVAL`,
whichever of them overflows. -/
def vstatBody (d a b : Spec) : M Next := do
  checkVSrc a; checkSrc b; checkSrc d
  let v ← readVector a
  let base ← readScalar b
  let va ← readScalar d
  needLanes
  let ps ← translate (← myCtx) { write := true } va 528 8
  let words := (ps.map fun p => tabulate (p.2 / 8) fun j => p.1 + 8 * j).flatten
  let block ← words.mapM fun pa => do pure (leNat (← readTask 8 pa 8))
  holdStores va ((words.zip (statUpdate base.toInt block v)).map fun p => ⟨p.1, leBytes 8 p.2⟩)
  pure .seq

/-- The functions of R188 on each lane, under RNE (R278). -/
def vfnBody (d a : Spec) (f : Exact → Exact × Flg) : M Next := do
  checkVSrc a; checkVDst d
  let x ← readVector a
  needLanes
  let r := mapLanes (f32.op1 .rne f) x
  writeVector d r.1
  pure (.flags r.2)

/-- A task holding `n` lanes: kept lanes from 0 upwards, further lanes zeroed (R140). -/
def Task.resize (t : Task) (n : Nat) : Task := { t with lanes := padTo n (Vector.replicate 32 0) t.lanes }

/-- Every outstanding vector load of a task arrives (R264). -/
def Task.arriveVectors (t : Task) : Task := { t with outstanding := t.outstanding.filter fun x => decide (x.toNat < 32) }

/-- LCLAIM (R140, R264). -/
def lclaimBody (d a : Spec) : M Next := do
  checkSrc a; checkDst d
  let x ← readScalar a
  need (decide (x.toNat % 8 = 0 ∧ 8 ≤ x.toNat ∧ x.toNat ≤ 128)) 0x01 x
  let s ← get
  upd (·.setTask Task.arriveVectors)
  let grant := min x.toNat (s.task.lanes.length + s.freeLanes s.task.core) / 8 * 8
  upd (·.setTask (·.resize grant))
  writeScalar d (BitVec.ofNat 64 grant)
  pure .seq

/-- LRELEASE (R140, R264). -/
def lreleaseBody : M Next := do
  upd (·.setTask fun t => t.arriveVectors.resize 0)
  pure .seq

/-- The meaning of a word that only lane cores run (R200). -/
abbrev laneWord (i : Instr) (body : M Next) (s : State) : Res := issue .lane plain i body s

/-- VADD (R265). -/
def execVadd (d a b : Spec) (t : BitVec 2) (s : State) : Res :=
  laneWord (.vadd d a b t) (vecArith d a b t (· + ·) Exact.add) s
/-- VSUB (R265). -/
def execVsub (d a b : Spec) (t : BitVec 2) (s : State) : Res :=
  laneWord (.vsub d a b t) (vecArith d a b t (· - ·) Exact.sub) s
/-- VMUL (R265). -/
def execVmul (d a b : Spec) (t : BitVec 2) (s : State) : Res :=
  laneWord (.vmul d a b t) (vecArith d a b t (· * ·) fun _ => Exact.mul) s
/-- VFMA (R265). -/
def execVfma (d a b : Spec) (t : BitVec 2) (s : State) : Res := laneWord (.vfma d a b t) (vfmaBody d a b t) s
/-- VMIN (R265). -/
def execVmin (d a b : Spec) (t : BitVec 2) (s : State) : Res :=
  laneWord (.vmin d a b t) (vecArith d a b t smin fun _ x y => (x.minimum y, 0)) s
/-- VMAX (R265). -/
def execVmax (d a b : Spec) (t : BitVec 2) (s : State) : Res :=
  laneWord (.vmax d a b t) (vecArith d a b t smax fun _ x y => (x.maximum y, 0)) s
/-- VAND (R265). -/
def execVand (d a b : Spec) (s : State) : Res := laneWord (.vand d a b) (vecInt d a b (· &&& ·)) s
/-- VOR (R265). -/
def execVor (d a b : Spec) (s : State) : Res := laneWord (.vor d a b) (vecInt d a b (· ||| ·)) s
/-- VXOR (R265). -/
def execVxor (d a b : Spec) (s : State) : Res := laneWord (.vxor d a b) (vecInt d a b (· ^^^ ·)) s
/-- VSHL (R265). -/
def execVshl (d a b : Spec) (s : State) : Res :=
  laneWord (.vshl d a b) (vecInt d a b fun x y => x <<< (y.toNat % 32)) s
/-- VSHR (R265). -/
def execVshr (d a b : Spec) (s : State) : Res :=
  laneWord (.vshr d a b) (vecInt d a b fun x y => x >>> (y.toNat % 32)) s
/-- VSAR (R265). -/
def execVsar (d a b : Spec) (s : State) : Res :=
  laneWord (.vsar d a b) (vecInt d a b fun x y => x.sshiftRight (y.toNat % 32)) s
/-- VEQ (R266). -/
def execVeq (d a b : Spec) (t : BitVec 2) (s : State) : Res :=
  laneWord (.veq d a b t) (vecCmp d a b t (fun x y => x == y) fun f => f.quietCmp Exact.eq) s
/-- VLT (R266). -/
def execVlt (d a b : Spec) (t : BitVec 2) (s : State) : Res :=
  laneWord (.vlt d a b t) (vecCmp d a b t (fun x y => x.slt y) fun f => f.signalCmp Exact.lt) s
/-- VLE (R266). -/
def execVle (d a b : Spec) (t : BitVec 2) (s : State) : Res :=
  laneWord (.vle d a b t) (vecCmp d a b t (fun x y => x.sle y) fun f => f.signalCmp Exact.le) s
/-- VSEL (R266). -/
def execVsel (d a b : Spec) (t : BitVec 2) (s : State) : Res := laneWord (.vsel d a b t) (vselBody d a b t) s
/-- VRED (R267). -/
def execVred (d a o : BitVec 6) (t : BitVec 2) (s : State) : Res := laneWord (.vred d a o t) (vredBody d a o t) s
/-- VSHUF (R268). -/
def execVshuf (d a b : Spec) (t : BitVec 2) (s : State) : Res := laneWord (.vshuf d a b t) (vshufBody d a b t) s
/-- VBCAST (R268). -/
def execVbcast (d a : Spec) (t : BitVec 2) (s : State) : Res := laneWord (.vbcast d a t) (vbcastBody d a t) s
/-- VEXT (R268). -/
def execVext (d a b : Spec) (t : BitVec 2) (s : State) : Res := laneWord (.vext d a b t) (vextBody d a b t) s
/-- VSACC (R269). -/
def execVsacc (d a b : Spec) (s : State) : Res := laneWord (.vsacc d a b) (vsaccBody d a b) s
/-- VLD (R270). -/
def execVld (d a : Spec) (n : BitVec 4) (s : State) : Res := laneWord (.vld d a n) (vload d a .contiguous (vmemBytes n)) s
/-- VST (R270). -/
def execVst (d a : Spec) (n : BitVec 4) (s : State) : Res := laneWord (.vst d a n) (vstore d a .contiguous (vmemBytes n)) s
/-- VLDS (R270). -/
def execVlds (d a b : Spec) (n : BitVec 4) (s : State) : Res :=
  laneWord (.vlds d a b n) (vload d a (.strided b) (vmemBytes n)) s
/-- VSTS (R270). -/
def execVsts (d a b : Spec) (n : BitVec 4) (s : State) : Res :=
  laneWord (.vsts d a b n) (vstore d a (.strided b) (vmemBytes n)) s
/-- VGATH (R270). -/
def execVgath (d a b : Spec) (n : BitVec 4) (s : State) : Res :=
  laneWord (.vgath d a b n) (vload d a (.indexed b) (vmemBytes n)) s
/-- VSCAT (R270). -/
def execVscat (d a b : Spec) (n : BitVec 4) (s : State) : Res :=
  laneWord (.vscat d a b n) (vstore d a (.indexed b) (vmemBytes n)) s
/-- VAMO (R272, R273). -/
def execVamo (d a b : Spec) (o : BitVec 4) (s : State) : Res := laneWord (.vamo d a b o) (vamoBody d a b o) s
/-- VCVT (R275). -/
def execVcvt (d a sel : BitVec 6) (s : State) : Res := laneWord (.vcvt d a sel) (vcvtBody d a sel) s
/-- VQNT (R276). -/
def execVqnt (d a sel : BitVec 6) (s : State) : Res := laneWord (.vqnt d a sel) (vquantBody d a sel quantise) s
/-- VDQ (R276). -/
def execVdq (d a sel : BitVec 6) (s : State) : Res := laneWord (.vdq d a sel) (vquantBody d a sel dequantise) s
/-- VSTAT (R277). -/
def execVstat (d a b : Spec) (s : State) : Res := laneWord (.vstat d a b) (vstatBody d a b) s
/-- VEXP2 (R278). -/
def execVexp2 (d a : Spec) (s : State) : Res := laneWord (.vexp2 d a) (vfnBody d a Exact.exp2) s
/-- VLOG2 (R278). -/
def execVlog2 (d a : Spec) (s : State) : Res := laneWord (.vlog2 d a) (vfnBody d a Exact.log2) s
/-- VRCP (R278). -/
def execVrcp (d a : Spec) (s : State) : Res := laneWord (.vrcp d a) (vfnBody d a Exact.recip) s
/-- VRSQ (R278). -/
def execVrsq (d a : Spec) (s : State) : Res := laneWord (.vrsq d a) (vfnBody d a Exact.rsqrt) s
/-- VTANH (R278). -/
def execVtanh (d a : Spec) (s : State) : Res := laneWord (.vtanh d a) (vfnBody d a Exact.tanh) s
/-- LCLAIM (R264). -/
def execLclaim (d a : Spec) (s : State) : Res := laneWord (.lclaim d a) (lclaimBody d a) s
/-- LRELEASE (R264). -/
def execLrelease (s : State) : Res := laneWord .lrelease lreleaseBody s

end Sys2Proof.Machine
end

