-- ==== Sys2Proof/Machine/Msg.lean ====
section
/-! DEFINITION. Messages (R112-R114, R137-R139, R327-R333): sends, channel bindings, the arrival of packets,
activations and migration. -/

namespace Sys2Proof.Machine

/-- Refuses a route descriptor with a reserved bit or no such core (R327). -/
def checkRoute (r : W64) : M Unit :=
  need (reservedZero r.toNat [(47, 17), (32, 8), (24, 4), (0, 16)] && decide (fieldOf r 24 4 ≤ 9)) 0x01 r

/-- The narrowest scope that contains two cores (R87). -/
def spanScope (a b : CoreId) : Scope :=
  if a = b then .core else if a.die ≠ b.die then .system else if a.clu = b.clu then .cluster else .die

/-- The scope of a send's boundary (R87). -/
def sendScope (c : CoreId) (r : W64) : Scope := if routeRemote r then .system else spanScope c (routeCore r)

/-- Refuses a send when as many are outstanding on its network as `EGDEPTH` allows (R329, R330). -/
def checkDepth (net : BitVec 1) (r : W64) : M Unit := do
  let s ← get
  need (decide (s.outstandingSends s.task.key net < fieldOf s.task.egdepth (4 * net.toNat) 4)) 0x31 r

/-- Puts a packet on its way (R329, R390, R397): to a core of this device, or to another device of the plane; any
other device ends it REMOTE at once. -/
def State.dispatchSend (s : State) (net cls : BitVec 1) (route : W64) (data : List W32) (key : BitVec 16) (pri : BitVec 2) :
    State :=
  let t := s.task
  let r : SendRec := ⟨0, t.key, net, cls, route, data, key, pri, t.asid, t.jobkey, 16⟩
  if !routeRemote route then s.enqueueSend r
  else
    let dev := BitVec.ofNat 16 (fieldOf route 48 16)
    if !s.inPlane dev then s
    else
      let id := s.nextId
      let s := { s with sends := s.sends ++ [{ r with id := id }], nextId := id + 1 }
      let ask : Ask := { op := 1, pri := pri, asid := t.asid, key := key, jkey := t.jobkey, addr := route,
                         data := data.flatMap fun w => leBytes 4 w.toNat, cls := if cls = 1 then 1 else 2, net := net.toNat }
      s.sendRequest t.core.die dev ask (.send id)

/-- A checked send (R329): the boundary of a release, the payload at this position, the packet, the acquire. -/
def sendPacket (net cls : BitVec 1) (route : W64) (o : BitVec 2) (key : BitVec 16) (payload : M (List W32)) : M Next := do
  let pri := ((← get).task.hints.hpri).getD 0
  if isRel o then boundary (sendScope (← get).task.core route) else pure ()
  let data ← payload
  upd fun s => s.dispatchSend net cls route data key pri
  if isAcq o then acquireHere else pure ()
  pure .seq

/-- The ordering and key of a governing HORD (R195). -/
def sendOrder : M (BitVec 2 × BitVec 16) := do pure ((← get).task.hints.hord.getD (0, 0))

/-- SEND (R328, R329). -/
def sendBody (d a b : Spec) (n c : BitVec 1) : M Next := do
  checkSrc a; checkSrc b; checkSrc d
  let va ← readScalar a
  let count ← readScalar b
  let route ← readScalar d
  checkRoute route
  need (decide (1 ≤ count.toNat ∧ count.toNat ≤ if c = 1 then 116 else 1916)) 0x01 count
  checkDepth n route
  let ps ← translate (← myCtx) {} va (8 * count.toNat) 8
  let (o, key) ← sendOrder
  sendPacket n c route o key do
    let bs ← ps.mapM fun p => readTask 8 p.1 p.2
    pure ((chunks 4 (2 * count.toNat) bs.flatten).map fun w => BitVec.ofNat 32 (leNat w))

/-- SENDV (R328, R329). -/
def sendvBody (d a : Spec) (n c : BitVec 1) : M Next := do
  checkVSrc a; checkSrc d
  let v ← readVector a
  let route ← readScalar d
  needLanes
  checkRoute route
  checkDepth n route
  let (o, key) ← sendOrder
  sendPacket n c route o key (pure (v.map (BitVec.ofNat 32)))

/-- A channel field names a channel by its specifier and is not read (R328). -/
def channelNo (x : Spec) : M (BitVec 4) := do
  need (decide (32 ≤ x.toNat ∧ x.toNat < 48)) 0x01 (x.setWidth 64)
  pure (x.setWidth 4)

/-- BIND (R137, R331). -/
def bindBody (n a b : Spec) (p : BitVec 1) : M Next := do
  checkSrc a; checkSrc b
  let ch ← channelNo n
  let x ← readScalar a
  let entry ← readScalar b
  let tag : BitVec 16 := x.setWidth 16
  let s ← get
  let t := s.task
  let used := s.bindings.any fun q => q.core == t.core && (q.chan == ch || q.tag == tag)
  need (!used && canonical entry && decide (entry.toNat % 4 = 0)) 0x01 (tag.setWidth 64)
  upd fun s => { s with bindings := s.bindings ++ [⟨t.core, ch, tag, entry, p == 1, t.launch, t.tid, t.lvl⟩] }
  pure .seq

/-- Packets for a core that the fabric holds back are looked at again (R137, R331). -/
def State.rearrive (s : State) (c : CoreId) : State :=
  s.push ((s.heldPkts.filter fun h => h.pkt.op == 1 && routeCore h.pkt.h3 == c).map Arrival.again)

/-- Drops a channel's binding and the packets in its queue (R138, R331). -/
def State.unbind (s : State) (c : CoreId) (n : BitVec 4) : State :=
  let gone := (s.chq.filter fun q => q.core == c && q.chan == n).length
  let s := { s with bindings := s.bindings.filter (fun b => !(b.core == c && b.chan == n)),
                    chq := s.chq.filter fun q => !(q.core == c && q.chan == n) }
  (s.setDie c.die.toNat fun d => { d with unbound := d.unbound + BitVec.ofNat 64 gone }).rearrive c

/-- UNBIND (R331). -/
def unbindBody (n : Spec) : M Next := do
  let ch ← channelNo n
  let s ← get
  let t := s.task
  match s.bindingOf t.core ch with
  | some b => if b.launch = t.launch then upd (·.unbind t.core ch) else pure ()
  | none => pure ()
  pure .seq

/-- Unread bytes of the current packet on a channel (R332). -/
def Task.unread (t : Task) (n : BitVec 4) : Nat := if t.pktChan = some n then 4 * t.pkt.length else 0

/-- CHLEN (R332). -/
def chlenBody (d n : Spec) : M Next := do
  checkDst d
  let ch ← channelNo n
  writeScalar d (BitVec.ofNat 64 ((← get).task.unread ch))
  pure .seq

/-- CHSKIP (R332). -/
def chskipBody (n b : Spec) : M Next := do
  checkSrc b
  let ch ← channelNo n
  let x ← readScalar b
  need (decide (x.toNat % 4 = 0)) 0x01 x
  need (decide (x.toNat ≤ (← get).task.unread ch)) 0x30 (ch.setWidth 64)
  upd (·.setTask fun t => { t with pkt := t.pkt.drop (x.toNat / 4) })
  pure .seq

/-- Whether a cluster takes work: enabled and not offline (R159, R387, R388). -/
def State.clusterUp (s : State) (c : CoreId) : Bool :=
  (s.die c.die.toNat).enabled.getLsbD c.clu.toNat && !(s.die c.die.toNat).offline.getLsbD c.clu.toNat

/-- Saves a task's lanes to the vector image and returns them to the pool (R113, R140). -/
def State.saveLanes (s : State) (key : Nat) : State :=
  match s.taskOf key with
  | none => s
  | some t =>
    if t.lanes = [] then s
    else (s.putImages t t.vectorImage).updTask key fun t => { t with laneImage := t.lanes, lanes := [] }

/-- The lane images of a task that waits for its lanes, as its vector image holds them (R140, R386). -/
def State.laneValues (s : State) (t : Task) : List (Vector W32 32) × State :=
  let x := s.imageWords t (vectorWords t t.laneImage)
  (lanesOf t.laneImage.length x.1, x.2)

/-- A load reply reaches a task, at its core or forwarded to its new one, which acknowledges it (R114, R216). -/
def State.loadReply (s : State) (task : Nat) (r : Spec) : State :=
  (s.updTask task (·.arrive r)).freeForwards

/-- Step 3 of R113: a free forwarding entry of a core. When all 16 are taken, the replies of the oldest come first (R114,
log entry 6). -/
def State.freeForward (s : State) (c : CoreId) : State :=
  let s := s.freeForwards
  let mine := s.forwards.filter fun f => f.core == c
  match mine with
  | f :: _ => if 16 ≤ mine.length then f.dests.foldl (fun s d => s.loadReply f.task d) s else s
  | [] => s

/-- Deeper frames of a task leave the register file of the core it moves from (R113, R131). -/
def State.spillAll (s : State) (key : Nat) : State :=
  match s.taskOf key with
  | none => s
  | some t => (List.range (t.saved.length - t.outFrames)).foldl (fun s _ => s.spillFrame key) s

/-- Steps 2 to 4 of R113 after the boundary: the old core forwards the replies still to come (R114), and the task waits READY
at its new core. -/
def State.migrateTo (s : State) (c : CoreId) : State :=
  let t := s.task
  let other := clusterId c ≠ clusterId t.core
  let s := if t.outstanding = [] then s else
    let s := s.freeForward t.core
    { s with forwards := s.forwards ++ [⟨t.core, t.key, s.task.outstanding⟩] }
  let s := if other then (s.takeCluster (clusterId c) t.launchId).saveLanes t.key else s
  let s := (s.spillAll t.key).setTask fun t => { t with core := c, status := .ready, waitOn := .ownCore, usc := 0, slotsIn := false }
  let s := { s with ready := s.ready ++ [t.key] }
  ((if t.high then s.unsuspend t.core else s).startQueued t.core).serve.pushEvent (.taskChosen c)

/-- MIGRATE (R87, R113, R333, R437). -/
def migrateBody (a : Spec) : M Next := do
  checkSrc a
  let route ← readScalar a
  checkRoute route
  let s ← get
  let t := s.task
  let c := routeCore route
  need (!routeRemote route && decide (c.core.toNat < 8 ∧ t.core.core.toNat < 8) && s.clusterUp c &&
    !(decide (clusterId c ≠ clusterId t.core) && s.occupiedByOther (clusterId c) t.launchId)) 0x01 route
  boundary (spanScope t.core c)
  upd fun s => if c = t.core then s.yieldTask else s.migrateTo c
  pure .seq

/-- Accepts a packet into a channel's queue, or discards it when its tag is unbound (R137, R138); none when the
queue is full and the fabric holds it back. -/
def State.accept (s : State) (route : W64) (data : List W32) : Option State :=
  let c := routeCore route
  match s.bindings.find? fun b => b.core == c && b.tag == route.setWidth 16 with
  | none => some (s.setDie c.die.toNat fun d => { d with unbound := d.unbound + 1 })
  | some b =>
    if 4 ≤ (s.chq.filter fun q => q.core == c && q.chan == b.chan).length then none
    else
      let q : QPacket := ⟨c, b.chan, data⟩
      some (({ s with chq := s.chq ++ [q] }).pushEvent (.activationStart c b.chan))

/-- A packet reaches its core (R137, R329). -/
def State.arrive (s : State) (id : Nat) : State :=
  match s.sends.find? fun r => r.id == id && !routeRemote r.route with
  | none => s
  | some r =>
    match s.accept r.route r.data with
    | none => s
    | some s => { s with sends := s.sends.filter (·.id != id) }

/-- A task's state at dispatch or activation (R138, R147, R312): `top` gives g8-g15. -/
def State.newTask (s : State) (core : CoreId) (high : Bool) (launch tid : W64) (lvl : Vector W64 8) (ctx entry : W64)
    (top : Nat → W64) : Task :=
  let r := fieldOf launch 0 14
  let size := BitVec.ofNat 64 (4096 * s.recField r 7 40 24)
  { key := s.nextKey, core := core, status := .running, high := high, ctx := ctx, pc := entry,
    g := vec32 fun i => if i = 1 then ctx + size else if i = 2 then ctx else if i = 3 then s.recDw r 9
      else if 8 ≤ i ∧ i < 16 then top (i - 8) else 0,
    tid := tid, lvl := lvl, launch := launch,
    sbase := ctx + BitVec.ofNat 64 (0x5400 + 64 * s.recField r 7 20 20),
    slim := ctx + size - BitVec.ofNat 64 (64 * s.recField r 7 0 20),
    asid := s.xasid r, jobkey := BitVec.ofNat 32 (s.recField r 4 0 32), snapshot := s.pos - 1 }

/-- The device writes `RECBASE` of a new context area as zero (R312): a partial write, which joins its sector's open entry
(R68). -/
def State.zeroRecBase (s : State) (t : Task) : State :=
  match translate1 t.tctx { write := true } (t.ctx + 0xF0) 8 s with
  | .ok pa s => s.agentPut false .other pa (List.replicate 8 0)
  | .error _ s => s

/-- A new task takes its core, and two banks of its register file (R130, R136). -/
def State.enlist (s : State) (t : Task) : State :=
  let s := (s.zeroRecBase t).makeRoom 2 t 512
  let s := if t.high then s.suspendNormals t.core else s
  let t := if !t.high && s.highRuns t.core then { t with status := .suspended } else t
  ({ s with tasks := s.tasks ++ [{ t with snapshot := s.pos - 1 }], nextKey := s.nextKey + 1 } : State).serve

/-- The handler context area of a channel (R138). -/
def State.handlerCtx (s : State) (r : Nat) (c : CoreId) (n : BitVec 4) : W64 :=
  s.recDw r 8 + BitVec.ofNat 64
    (((64 * c.die.toNat + c.clu.toNat) * 160 + 16 * c.core.toNat + n.toNat) * (4096 * s.recField r 7 40 24))

/-- A queued packet starts its activation (R112, R137, R138, R430). -/
def State.activate (s : State) (c : CoreId) (n : BitVec 4) : State :=
  if !s.canActivate c n then s
  else match s.bindingOf c n, s.chq.find? fun q => q.core == c && q.chan == n with
    | some b, some q =>
      let r := fieldOf b.launch 0 14
      let t := s.newTask c b.high b.launch b.tid b.lvl (s.handlerCtx r c n) b.entry fun _ => 0
      let t := { t with pktChan := some n, pkt := q.data, activation := some (c, n) }
      (({ s with chq := s.chq.erase q }).enlist t).rearrive c
    | _, _ => s

/-- The hints SEND and SENDV take (R195). -/
def sendHints : HintSet := { ord := true, ordKey := true, pri := true }

/-- SEND (R329). -/
def execSend (d a b : Spec) (n c : BitVec 1) (s : State) : Res := issue .any sendHints (.send d a b n c) (sendBody d a b n c) s
/-- SENDV (R329). -/
def execSendv (d a : Spec) (n c : BitVec 1) (s : State) : Res := issue .any sendHints (.sendv d a n c) (sendvBody d a n c) s
/-- BIND (R331). -/
def execBind (n a b : Spec) (p : BitVec 1) (s : State) : Res := word (.bind n a b p) (bindBody n a b p) s
/-- UNBIND (R331). -/
def execUnbind (n : Spec) (s : State) : Res := word (.unbind n) (unbindBody n) s
/-- CHLEN (R332). -/
def execChlen (d n : Spec) (s : State) : Res := word (.chlen d n) (chlenBody d n) s
/-- CHSKIP (R332). -/
def execChskip (n b : Spec) (s : State) : Res := word (.chskip n b) (chskipBody n b) s
/-- MIGRATE (R333). -/
def execMigrate (a : Spec) (s : State) : Res := word (.migrate a) (migrateBody a) s
/-- CHANNEL_PACKET_ARRIVAL (R137). -/
def execChannelPacketArrival (send : Nat) (s : State) : Res := event (·.arrive send) s
/-- ACTIVATION_START (R138). -/
def execActivationStart (core : CoreId) (chan : BitVec 4) (s : State) : Res := event (·.activate core chan) s

end Sys2Proof.Machine
end

