-- ==== Sys2Proof/Machine/Arrive.lean ====
section
/-! DEFINITION. Replies, retries and walks that arrive by themselves (R41-R43, R68, R78, R91, R114, R216). -/

namespace Sys2Proof.Machine

/-- A refused waiting access is repeated as a new arrival (R78). -/
def State.retryRefused (s : State) (task : Nat) : State :=
  let (mine, others) := s.refusedWaits.partition (·.task == task)
  mine.foldl State.arriveAgain { s with refusedWaits := others }

/-- A walk for a VA of an ASID in a context, which fills the TLBs that serve it (R41, R42); a failed translation is
held nowhere. Accesses that wait for a word which a failure met by the walk has emptied go on (R78, R80). -/
def State.walkFor (s : State) (c : Ctx) (va : W64) : State :=
  match leafOf c va.toNat s with
  | .ok _ s' => s'.serveMet s
  | .error _ s' => s'.serveMet s

/-- A home acknowledges a published store transaction (R91). -/
def State.acknowledge (s : State) (task : Nat) : State :=
  (s.amend task fun t => { t with usc := if t.usc = 0 then 0 else t.usc - 1 }).serve

/-- LOAD_REPLY (R216). -/
def execLoadReply (task : Nat) (reg : Spec) (s : State) : Res := event (·.loadReply task reg) s
/-- FORWARDED_REPLY (R114). -/
def execForwardedReply (task : Nat) (reg : Spec) (s : State) : Res := event (·.loadReply task reg) s
/-- RETRY_REPEAT (R78). -/
def execRetryRepeat (task : Nat) (s : State) : Res := event (·.retryRefused task) s
/-- PAGE_WALK (R42). -/
def execPageWalk (die : BitVec 2) (asid : BitVec 16) (va : W64) (s : State) : Res :=
  event (·.walkFor ⟨asid, die.toNat, none, none, none⟩ va) s
/-- TLB_MISS_RETRY (R42). -/
def execTlbMissRetry (core : CoreId) (asid : BitVec 16) (va : W64) (s : State) : Res :=
  event (·.walkFor ⟨asid, core.die.toNat, some core, none, none⟩ va) s
/-- WC_ENTRY_TIMEOUT (R68): the entry closes by read-modify-write. -/
def execWcEntryTimeout (sector : BitVec 52) (s : State) : Res := event (fun s => (s.closeSector sector.toNat).serve) s
/-- HOME_ACKNOWLEDGEMENT (R91). -/
def execHomeAcknowledgement (task : Nat) (s : State) : Res := event (·.acknowledge task) s

end Sys2Proof.Machine
end

