-- ==== Sys2Proof/Machine/Int.lean ====
section
/-! DEFINITION. Integer, immediate, compare and predicate instructions (R217-R227). -/

namespace Sys2Proof.Machine

/-- The shift amount of a doubleword operand, b[5:0] (R217). -/
def shiftAmount (b : W64) : Nat := b.toNat % 64

/-- Signed product, high half (R217). -/
def mulHighSigned (a b : W64) : W64 := BitVec.ofInt 64 (a.toInt * b.toInt / 2 ^ 64)

/-- Unsigned product, high half (R217). -/
def mulHighUnsigned (a b : W64) : W64 := BitVec.ofNat 64 (a.toNat * b.toNat / 2 ^ 64)

/-- Signed division truncated toward zero; by zero all ones (R218). -/
def divSigned (a b : W64) : W64 := if b = 0 then BitVec.allOnes 64 else BitVec.ofInt 64 (a.toInt.tdiv b.toInt)

/-- Unsigned division; by zero all ones (R218). -/
def divUnsigned (a b : W64) : W64 := if b = 0 then BitVec.allOnes 64 else BitVec.ofNat 64 (a.toNat / b.toNat)

/-- Signed remainder with the sign of a; by zero a (R218). -/
def remSigned (a b : W64) : W64 := if b = 0 then a else BitVec.ofInt 64 (a.toInt.tmod b.toInt)

/-- Unsigned remainder; by zero a (R218). -/
def remUnsigned (a b : W64) : W64 := if b = 0 then a else BitVec.ofNat 64 (a.toNat % b.toNat)

/-- Leading zero bits, 64 of zero (R217). -/
def leadingZeros (a : W64) : Nat := if a = 0 then 64 else 63 - Nat.log2 a.toNat

/-- Trailing zero bits of the low `n` bits. -/
def trailingZerosN : Nat → Nat → Nat
  | 0, _ => 0
  | n + 1, x => if x % 2 = 1 then 0 else 1 + trailingZerosN n (x / 2)

/-- Trailing zero bits, 64 of zero (R217). -/
def trailingZeros (a : W64) : Nat := trailingZerosN 64 a.toNat

/-- The 1 bits of the low `n` bits. -/
def onesN : Nat → Nat → Nat
  | 0, _ => 0
  | n + 1, x => x % 2 + onesN n (x / 2)

/-- The low `n` bits in reverse order. -/
def reverseN : Nat → Nat → Nat
  | 0, _ => 0
  | n + 1, x => x % 2 * 2 ^ n + reverseN n (x / 2)

/-- Byte i of the result is byte 7 - i (R217). -/
def byteSwap (a : W64) : W64 := BitVec.ofNat 64 (leNat (leBytes 8 a.toNat).reverse)

/-- Position and length of EXT and INS: b[5:0], and b[13:8] with 0 for 64 (R219). -/
def fieldSpan (b : W64) : Nat × Nat :=
  let l := fieldOf b 8 6
  (fieldOf b 0 6, if l = 0 then 64 else l)

/-- EXT (R219): bits beyond 63 read as zero. -/
def extractField (a b : W64) : W64 :=
  let p := fieldSpan b
  BitVec.ofNat 64 (bitsOf a.toNat p.1 p.2)

/-- INS (R219): bits beyond 63 are dropped. -/
def insertField (d a b : W64) : W64 :=
  let p := fieldSpan b
  let mask := BitVec.ofNat 64 ((2 ^ p.2 - 1) * 2 ^ p.1)
  d &&& ~~~mask ||| ((a <<< p.1) &&& mask)

/-- One bit of a CRC-32C step (R220). -/
def crcBit (s : W32) (b : Bool) : W32 := if s.getLsbD 0 != b then (s >>> 1) ^^^ 0x82F63B78#32 else s >>> 1

/-- One CRC-32C step over eight bytes (R220). -/
def crc32c (s : W32) (data : W64) : W32 := (List.range 64).foldl (fun c i => crcBit c (data.getLsbD i)) s

/-- The condition codes of CMP and CMPI (R225); 7 is unassigned. -/
def compare (c : Nat) (a b : W64) : Bool :=
  if c = 0 then a == b
  else if c = 1 then a != b
  else if c = 2 then a.slt b
  else if c = 3 then !(a.slt b)
  else if c = 4 then a.ult b
  else if c = 5 then !(a.ult b)
  else (a &&& b) != 0

/-- Two sources, a predicate destination. -/
def binaryPred (p : BitVec 3) (a b : Spec) (f : W64 → W64 → Bool) : M Next := do
  checkSrc a; checkSrc b
  let x ← readScalar a
  let y ← readScalar b
  writePred p (f x y)
  pure .seq

/-- One source and an immediate: `d := f a imm` (R222). -/
def immediateOp (d a : Spec) (i : BitVec 14) (f : W64 → W64 → W64) : M Next := do
  checkSrc a; checkDst d
  let x ← readScalar a
  writeScalar d (f x (← immediate 14 i.toNat))
  pure .seq

/-- Predicates to a predicate (R226). -/
def predOp (d a b : BitVec 3) (f : Bool → Bool → Bool) : M Next := do
  writePred d (f (← readPred a) (← readPred b))
  pure .seq

/-- ADD (R217). -/
def execAdd (d a b : Spec) (s : State) : Res := word (.add d a b) (binary d a b (· + ·)) s

/-- SUB (R217). -/
def execSub (d a b : Spec) (s : State) : Res := word (.sub d a b) (binary d a b (· - ·)) s

/-- AND (R217). -/
def execAnd (d a b : Spec) (s : State) : Res := word (.and d a b) (binary d a b (· &&& ·)) s

/-- OR (R217). -/
def execOr (d a b : Spec) (s : State) : Res := word (.or d a b) (binary d a b (· ||| ·)) s

/-- XOR (R217). -/
def execXor (d a b : Spec) (s : State) : Res := word (.xor d a b) (binary d a b (· ^^^ ·)) s

/-- ANDN (R217). -/
def execAndn (d a b : Spec) (s : State) : Res := word (.andn d a b) (binary d a b (fun x y => x &&& ~~~y)) s

/-- ORN (R217). -/
def execOrn (d a b : Spec) (s : State) : Res := word (.orn d a b) (binary d a b (fun x y => x ||| ~~~y)) s

/-- SHL (R217). -/
def execShl (d a b : Spec) (s : State) : Res := word (.shl d a b) (binary d a b (fun x y => x <<< shiftAmount y)) s

/-- SHR (R217). -/
def execShr (d a b : Spec) (s : State) : Res := word (.shr d a b) (binary d a b (fun x y => x >>> shiftAmount y)) s

/-- SAR (R217). -/
def execSar (d a b : Spec) (s : State) : Res := word (.sar d a b) (binary d a b (fun x y => x.sshiftRight (shiftAmount y))) s

/-- ROL (R217). -/
def execRol (d a b : Spec) (s : State) : Res := word (.rol d a b) (binary d a b (fun x y => x.rotateLeft (shiftAmount y))) s

/-- MUL (R217). -/
def execMul (d a b : Spec) (s : State) : Res := word (.mul d a b) (binary d a b (· * ·)) s

/-- MULH (R217). -/
def execMulh (d a b : Spec) (s : State) : Res := word (.mulh d a b) (binary d a b mulHighSigned) s

/-- MULHZ (R217). -/
def execMulhz (d a b : Spec) (s : State) : Res := word (.mulhz d a b) (binary d a b mulHighUnsigned) s

/-- DIV (R218). -/
def execDiv (d a b : Spec) (s : State) : Res := word (.div d a b) (binary d a b divSigned) s

/-- DIVZ (R218). -/
def execDivz (d a b : Spec) (s : State) : Res := word (.divz d a b) (binary d a b divUnsigned) s

/-- REM (R218). -/
def execRem (d a b : Spec) (s : State) : Res := word (.rem d a b) (binary d a b remSigned) s

/-- REMZ (R218). -/
def execRemz (d a b : Spec) (s : State) : Res := word (.remz d a b) (binary d a b remUnsigned) s

/-- MIN (R217). -/
def execMin (d a b : Spec) (s : State) : Res := word (.min d a b) (binary d a b (fun x y => if x.slt y then x else y)) s

/-- MAX (R217). -/
def execMax (d a b : Spec) (s : State) : Res := word (.max d a b) (binary d a b (fun x y => if x.slt y then y else x)) s

/-- MINZ (R217). -/
def execMinz (d a b : Spec) (s : State) : Res := word (.minz d a b) (binary d a b (fun x y => if x.ult y then x else y)) s

/-- MAXZ (R217). -/
def execMaxz (d a b : Spec) (s : State) : Res := word (.maxz d a b) (binary d a b (fun x y => if x.ult y then y else x)) s

/-- CLZ (R217). -/
def execClz (d a : Spec) (s : State) : Res := word (.clz d a) (unary d a (fun x => BitVec.ofNat 64 (leadingZeros x))) s

/-- CTZ (R217). -/
def execCtz (d a : Spec) (s : State) : Res := word (.ctz d a) (unary d a (fun x => BitVec.ofNat 64 (trailingZeros x))) s

/-- POPC (R217). -/
def execPopc (d a : Spec) (s : State) : Res := word (.popc d a) (unary d a (fun x => BitVec.ofNat 64 (onesN 64 x.toNat))) s

/-- BREV (R217). -/
def execBrev (d a : Spec) (s : State) : Res := word (.brev d a) (unary d a (fun x => BitVec.ofNat 64 (reverseN 64 x.toNat))) s

/-- BSWAP (R217). -/
def execBswap (d a : Spec) (s : State) : Res := word (.bswap d a) (unary d a byteSwap) s

/-- EXT (R219). -/
def execExt (d a b : Spec) (s : State) : Res := word (.ext d a b) (binary d a b extractField) s

/-- INS reads d as its third source (R219). -/
def insBody (d a b : Spec) : M Next := do
  checkSrc a; checkSrc b; checkSrc d; checkDst d
  let x ← readScalar a
  let y ← readScalar b
  let z ← readScalar d
  writeScalar d (insertField z x y)
  pure .seq

/-- INS (R219). -/
def execIns (d a b : Spec) (s : State) : Res := word (.ins d a b) (insBody d a b) s

/-- CRC (R220): the state is a[31:0], the data b. -/
def execCrc (d a b : Spec) (s : State) : Res := word (.crc d a b) (binary d a b (fun x y => (crc32c (x.setWidth 32) y).setWidth 64)) s

/-- SEL reads both sources and the predicate (R221). -/
def selBody (d a b : Spec) (p : BitVec 3) : M Next := do
  let c ← readPred p
  binary d a b fun x y => if c then x else y

/-- SEL (R221). -/
def execSel (d a b : Spec) (p : BitVec 3) (s : State) : Res := word (.sel d a b p) (selBody d a b p) s

/-- ADDI (R222). -/
def execAddi (d a : Spec) (i : BitVec 14) (s : State) : Res := issue .any withImm (.addi d a i) (immediateOp d a i (· + ·)) s

/-- ANDI (R222). -/
def execAndi (d a : Spec) (i : BitVec 14) (s : State) : Res := issue .any withImm (.andi d a i) (immediateOp d a i (· &&& ·)) s

/-- ORI (R222). -/
def execOri (d a : Spec) (i : BitVec 14) (s : State) : Res := issue .any withImm (.ori d a i) (immediateOp d a i (· ||| ·)) s

/-- XORI (R222). -/
def execXori (d a : Spec) (i : BitVec 14) (s : State) : Res := issue .any withImm (.xori d a i) (immediateOp d a i (· ^^^ ·)) s

/-- SHLI (R223). -/
def execShli (d a n : BitVec 6) (s : State) : Res := word (.shli d a n) (unary d a (fun x => x <<< n.toNat)) s

/-- SHRI (R223). -/
def execShri (d a n : BitVec 6) (s : State) : Res := word (.shri d a n) (unary d a (fun x => x >>> n.toNat)) s

/-- SARI (R223). -/
def execSari (d a n : BitVec 6) (s : State) : Res := word (.sari d a n) (unary d a (fun x => x.sshiftRight n.toNat)) s

/-- LDI (R224). -/
def ldiBody (d : Spec) (i : BitVec 20) : M Next := do
  checkDst d
  writeScalar d (← immediate 20 i.toNat)
  pure .seq

/-- LDHI reads d and keeps its bits 19:0 (R224). -/
def ldhiBody (d : Spec) (i : BitVec 20) : M Next := do
  checkSrc d; checkDst d
  let x ← readScalar d
  writeScalar d ((← immediate 20 i.toNat) <<< 20 ||| (x &&& 0xFFFFF))
  pure .seq

/-- ADDPC adds to the address of its own word (R192, R224). -/
def addpcBody (d : Spec) (i : BitVec 20) : M Next := do
  checkDst d
  writeScalar d (← branchTarget 20 i.toNat)
  pure .seq

/-- LDI (R224). -/
def execLdi (d : Spec) (i : BitVec 20) (s : State) : Res := issue .any withImm (.ldi d i) (ldiBody d i) s

/-- LDHI (R224). -/
def execLdhi (d : Spec) (i : BitVec 20) (s : State) : Res := issue .any withImm (.ldhi d i) (ldhiBody d i) s

/-- ADDPC (R224). -/
def execAddpc (d : Spec) (i : BitVec 20) (s : State) : Res := issue .any withImm (.addpc d i) (addpcBody d i) s

/-- CMP (R225). -/
def execCmp (p : BitVec 3) (a b : Spec) (c : BitVec 8) (s : State) : Res := word (.cmp p a b c) (binaryPred p a b (compare c.toNat)) s

/-- CMPI compares with the sign-extended immediate (R225). -/
def cmpiBody (c p : BitVec 3) (a : Spec) (i : BitVec 14) : M Next := do
  checkSrc a
  let x ← readScalar a
  writePred p (compare c.toNat x (← immediate 14 i.toNat))
  pure .seq

/-- CMPI (R225). -/
def execCmpi (c p : BitVec 3) (a : Spec) (i : BitVec 14) (s : State) : Res := issue .any withImm (.cmpi c p a i) (cmpiBody c p a i) s

/-- PAND (R226). -/
def execPand (d a b : BitVec 3) (s : State) : Res := word (.pand d a b) (predOp d a b (· && ·)) s

/-- POR (R226). -/
def execPor (d a b : BitVec 3) (s : State) : Res := word (.por d a b) (predOp d a b (· || ·)) s

/-- PXOR (R226). -/
def execPxor (d a b : BitVec 3) (s : State) : Res := word (.pxor d a b) (predOp d a b (· != ·)) s

/-- PNOT (R226). -/
def execPnot (d a : BitVec 3) (s : State) : Res := word (.pnot d a) (predOp d a a (fun x _ => !x)) s

/-- PSAVE: predicate k to bit k, bit 0 always 1 (R227). -/
def psaveBody (d : Spec) : M Next := do
  checkDst d
  writeScalar d ((((← get).task.p) ||| 1#8).setWidth 64)
  pure .seq

/-- PLOAD: p1 to p7 from bits 7:1 (R227). -/
def ploadBody (a : Spec) : M Next := do
  checkSrc a
  let x ← readScalar a
  upd (·.setTask fun t => { t with p := x.setWidth 8 ||| 1#8 })
  pure .seq

/-- PSAVE (R227). -/
def execPsave (d : Spec) (s : State) : Res := word (.psave d) (psaveBody d) s

/-- PLOAD (R227). -/
def execPload (a : Spec) (s : State) : Res := word (.pload a) (ploadBody a) s

end Sys2Proof.Machine
end

