-- ==== Sys2Proof/Machine/Engine.lean ====
section
/-! DEFINITION. Engine commands (R105-R109, R311-R325): issue, the blocks and their checks, data movement by the
copy engines and the weight-store path, fingerprints and running values, and the I/O engine's submissions. -/

namespace Sys2Proof.Machine

/-- Doubleword `i` of a command block. -/
def blkDw (b : List W64) (i : Nat) : W64 := lget b i
/-- A field of a command block. -/
def blkField (b : List W64) (i lo len : Nat) : Nat := fieldOf (blkDw b i) lo len

/-- Element size of a fingerprint format (R314). -/
def fpBytes (f : Nat) : Nat := match f with | 0 => 4 | 1 => 2 | 2 => 2 | 3 => 8 | _ => 1
/-- `FPEN` (R314). -/
def blkFp (b : List W64) : Bool := blkField b 5 0 1 == 1
/-- `REM` (R314). -/
def blkRem (b : List W64) : Bool := blkField b 5 5 1 == 1

/-- Whether the common doublewords of a block are accepted (R314). -/
def commonOk (b : List W64) : Bool :=
  reservedZero (blkDw b 5).toNat [(0, 6), (32, 16)] && decide (blkField b 5 1 3 ≤ 5) &&
  decide ((blkDw b 6).toNat % 64 = 0) && decide ((blkDw b 7).toNat % 8 = 0)

/-- An entry of a die's I/O queue table (R319). -/
def State.ioQueue (s : State) (die q : Nat) : List W64 :=
  tabulate 8 fun i => (lookupKey (s.die die).ioq (8 * q + i)).getD 0

/-- Whether an I/O command's block and queue are accepted (R319, R320). -/
def ioOk (q b : List W64) (asid : BitVec 16) : Bool :=
  let kind := blkField q 0 0 4
  let count := (blkDw b 2).toNat
  let blk := 2 ^ blkField q 0 4 4
  decide ((blkDw b 1).toNat < 256) && decide (blkField q 6 32 16 = asid.toNat) &&
  ((kind == 1 && decide (9 ≤ blkField q 0 4 4) && blkDw b 4 == 0 && decide (count ≠ 0) && decide (count % blk = 0)) ||
   (kind == 2 && decide (blkField b 4 32 32 = 0) && decide (1 ≤ count ∧ count ≤ 2 ^ 31)))

/-- Whether a command's own doublewords are accepted (R313, R315, R316, R320). Command codes are those of R323. -/
def commandOk (s : State) (o : EngineOp) : Bool :=
  let b := o.blk
  let count := (blkDw b 2).toNat
  match o.cmd with
  | 0 => decide (count < 2 ^ 40)
  | 1 => decide (blkField b 2 60 4 = 0) && decide (blkField b 3 20 44 = 0) && blkDw b 4 == 0
  | 2 => decide (blkField b 0 22 42 = 0) && decide (1 ≤ count ∧ count ≤ 0x400000 - blkField b 0 0 22) &&
      decide (blkField b 3 16 48 = 0) && blkDw b 4 == 0 && !blkRem b
  | 3 => decide ((blkDw b 0).toNat % 8 = 0) && decide ((blkDw b 1).toNat % 8 = 0) && decide (count % 8 = 0) &&
      decide (blkField b 4 34 30 = 0)
  | 4 => decide ((blkDw b 2).toNat % 4 = 0) && decide (blkField b 3 27 37 = 0) && decide (1 ≤ blkField b 3 0 24) &&
      decide (blkField b 3 24 3 ≤ 6) && blkDw b 4 == 0
  | 7 => decide ((blkDw b 0).toNat % 64 = 0) && decide ((blkDw b 1).toNat % 64 = 0) && decide (count % 64 = 0) &&
      blkDw b 3 == 0 && blkDw b 4 == 0 && !blkRem b
  | _ => ioOk (s.ioQueue o.core.die.toNat (blkField b 1 0 8)) b o.asid && !blkRem b

/-- The addresses of a command's block and their alignments (R314, R315, R345). -/
def blkAddresses (cmd : Nat) (b : List W64) : List (W64 × Nat) :=
  let own := fun (l : List (Nat × Nat)) => l.map fun x => (blkDw b x.1, x.2)
  own (match cmd with
    | 3 => [(0, 8), (1, 8)]
    | 4 => [(2, 4)]
    | 7 => [(0, 64), (1, 64)]
    | 8 => [(0, 64), (1, 64), (3, 4)]
    | 9 => [(0, 64), (1, 4)]
    | 10 => [(0, 64), (1, if blkField b 2 0 2 = 0 then 1 else 4)]
    | 11 => [(0, 64)]
    | _ => []) ++ own [(6, 64), (7, 8)]

/-- The first misaligned address of some, zero when none is (R323). -/
def firstMisaligned (l : List (W64 × Nat)) : W64 := ((l.find? fun a => decide (a.1.toNat % a.2 ≠ 0)).map (·.1)).getD 0

/-- The unit that must be a whole number of fingerprint elements (R318). -/
def fpUnit (o : EngineOp) : Nat :=
  match o.cmd with
  | 1 => blkField o.blk 2 0 20
  | 4 => blkField o.blk 3 0 24 * 2 ^ blkField o.blk 3 24 3
  | _ => (blkDw o.blk 2).toNat

/-- Whether a block is well formed (R314, R315, R318). -/
def blockOk (s : State) (o : EngineOp) : Bool :=
  commonOk o.blk && commandOk s o && (!blkFp o.blk || fpUnit o % fpBytes (blkField o.blk 5 1 3) == 0)

/-- The context an operation translates in (R45, R434). -/
def EngineOp.ctx' (o : EngineOp) : Ctx :=
  let window := if o.tag.isNone && !isCopyCmd o.cmd then none else some (o.core.die.toNat, o.core.clu.toNat)
  ⟨o.asid, o.core.die.toNat, none, window, some (fieldOf o.launch 0 14)⟩

/-- The die of the engine that a command goes to (R85, R344): a port command names it, any other stays on its die. -/
def engineDie (cmd : Nat) (b : List W64) (c : CoreId) : BitVec 2 :=
  if cmd < 8 then c.die else BitVec.ofNat 2 (blkField b 5 0 4 / 4)

/-- The die of an operation's engine; a message the paddock built stays on its die (R155). -/
def EngineOp.die (o : EngineOp) : BitVec 2 := if o.tag.isNone then o.core.die else engineDie o.cmd o.blk o.core

/-- The reader an operation is (R94, R106): its snapshot point stays at the fork. -/
def EngineOp.reader (o : EngineOp) : Reader := ⟨engineLoc o.core o.die, o.snapshot, o.seen⟩

/-- A fault an operation meets: cause and VA (R45). -/
abbrev OpFault := BitVec 8 × W64

/-- What a move over a range did before it stopped: the bytes, the fault that stopped it, the lowest VA of an
integrity failure met (R45, R80), and what the reader has then read of each byte (R94). -/
structure Moved where
  data : List Byte := []
  fault : Option OpFault := none
  failed : Option W64 := none
  seen : List (Nat × Nat) := []
  deriving DecidableEq, Repr

/-- The lower of two failed VAs (R80). -/
def lowerFailed (a b : Option W64) : Option W64 :=
  match a, b with
  | some x, some y => some (if y < x then y else x)
  | none, y => y
  | x, none => x

/-- The lowest VA of a failed unit among `n` bytes at a PA, seen from their VA (R80). -/
def State.failedVa (s : State) (va : W64) (pa n : Nat) : Option W64 :=
  match (s.failedIn pa n).map (fun f => (unitOf f).1) with
  | [] => none
  | f :: rest => some (va + BitVec.ofNat 64 (rest.foldl Nat.min f - pa))

/-- Whether a line written whole is replaced without being read (R58, R68, R80): one of a compressed page or of the weight
store. -/
def State.replacesLine (s : State) (line : Nat) : Bool :=
  (s.pageMeta line).cmp == 1 || match regionOf line with | .weight _ => true | _ => false

/-- Whether a write of `n` bytes at a PA replaces a failed unit without reading it (R80). -/
def State.unitReplaced (s : State) (pa n : Nat) (f : Nat × BitVec 2) : Bool :=
  let l := f.1 / 64 * 64
  decide (pa ≤ l ∧ l + 64 ≤ pa + n) && s.replacesLine l

/-- The lowest VA of a failed unit that a write of `n` bytes at a PA reads, seen from their VA (R80). -/
def State.failedVaPut (s : State) (va : W64) (pa n : Nat) : Option W64 :=
  { s with failed := s.failed.filter (!s.unitReplaced pa n ·) }.failedVa va pa n

/-- Cuts `n` bytes at an address at every multiple of `k`. -/
def cuts (k : Nat) : Nat → Nat → Nat → List (Nat × Nat)
  | 0, _, _ => []
  | fuel + 1, a, n =>
    if n = 0 then [] else
      let m := min n (k - a % k)
      (a, m) :: cuts k fuel (a + m) (n - m)

/-- Reads one page's part of a range (R84, R94, R106). -/
def readPiece (r : Reader) (va : W64) (pa n : Nat) (m : Moved) (s : State) : Moved × State :=
  let x := s.agentRead { r with seen := m.seen } pa n
  ({ m with data := m.data ++ x.1, failed := lowerFailed m.failed (s.failedVa va pa n), seen := x.2.1 }, x.2.2)

/-- Reads `n` bytes at a VA page by page, up to the first fault (R45). -/
def readRange (c : Ctx) (r : Reader) (va : W64) (n : Nat) (s : State) : Moved × State :=
  (pieces (n / 4096 + 2) va.toNat n).foldl (fun (q : Moved × State) p =>
    if q.1.fault.isSome then q
    else match translate c {} (BitVec.ofNat 64 p.1) p.2 1 q.2 with
      | .ok ((pa, _) :: _) s => readPiece r (BitVec.ofNat 64 p.1) pa p.2 q.1 s
      | .ok [] s => (q.1, s)
      | .error (.trap cause _) s => ({ q.1 with fault := some (cause, BitVec.ofNat 64 p.1) }, s)
      | .error .stall s => (q.1, s)) ({ seen := r.seen }, s)

/-- Writes bytes at a PA as an engine does (R106): line by line, each with the waiters it satisfies (R98), whole lines of a
compressed page and of the weight store without reading them (R58, R68, R80). -/
def State.enginePut (s : State) (a : Agent) (pa : Nat) (data : List Byte) : State :=
  ((cuts 64 (data.length / 64 + 2) pa data.length).foldl (fun (q : State × List Byte) c =>
    let s := match regionOf c.1 with
      | .control .. => q.1.writeAt a c.1 (q.2.take c.2)
      | _ => q.1.agentWrite (decide (c.2 = 64) && q.1.replacesLine c.1) a c.1 (q.2.take c.2)
    (s, q.2.drop c.2)) (s, data)).1

/-- Writes bytes at a PA that no address space gives (R320); the weight store, which only a `WSLOAD` writes (R58), and a hole
take none. -/
def State.unitPut (s : State) (pa : Nat) (data : List Byte) : State :=
  match regionOf pa with
  | .weight _ | .hole => s
  | _ => s.enginePut .other pa data

/-- Writes bytes at a VA page by page, up to the first fault (R45); `data` of the answer is what was written. -/
def writeRange (c : Ctx) (acc : Access) (a : Agent) (va : W64) (data : List Byte) (s : State) : Moved × State :=
  (pieces (data.length / 4096 + 2) va.toNat data.length).foldl (fun (q : Moved × State) p =>
    if q.1.fault.isSome then q
    else match translate c acc (BitVec.ofNat 64 p.1) p.2 1 q.2 with
      | .ok ((pa, _) :: _) s =>
        let part := (data.drop q.1.data.length).take p.2
        let f := if acc.load then none else s.failedVaPut (BitVec.ofNat 64 p.1) pa p.2
        ({ q.1 with data := q.1.data ++ part, failed := lowerFailed q.1.failed f }, s.enginePut a pa part)
      | .ok [] s => (q.1, s)
      | .error (.trap cause _) s => ({ q.1 with fault := some (cause, BitVec.ofNat 64 p.1) }, s)
      | .error .stall s => (q.1, s)) ({}, s)

/-- The place of a status in the order in which an operation reports it (R324). -/
def statusRank (st : Nat) : Nat :=
  match st with
  | 4 => 0
  | 17 => 1
  | 16 => 2
  | 22 => 3
  | 20 => 4
  | 21 => 5
  | 18 => 6
  | 19 => 7
  | _ => 8

/-- Adds a condition to an operation's status (R324). -/
def EngineOp.meet (o : EngineOp) (st : Nat) : EngineOp := if statusRank st < statusRank o.status then { o with status := st } else o

/-- The status of a fault (R45, R315, R324): PERM for permission, else XLATE. -/
def faultStatus (cause : BitVec 8) : Nat := if cause = 0x11 then stPERM else stXLATE

/-- An operation that a fault stops (R45, R323). -/
def EngineOp.stop (o : EngineOp) (f : OpFault) : EngineOp := { o.meet (faultStatus f.1) with cause := f.1.toNat, errva := some f.2 }

/-- Whether a status met at a stream offset is the one an operation reports (R323, R324): by the order of statuses, then by
the offset, below which all is written so far. -/
def EngineOp.reports (o : EngineOp) (st at_ : Nat) : Bool :=
  decide (statusRank st < statusRank o.status) || (decide (st = o.status) && decide (at_ < o.bytes))

/-- An operation one part of which a fault stops at a stream offset (R45, R323). -/
def EngineOp.stopAt (o : EngineOp) (f : OpFault) (at_ : Nat) : EngineOp :=
  { (if o.reports (faultStatus f.1) at_ then o.stop f else o) with bytes := min o.bytes at_ }

/-- The lower of two VAs, of which the first may be absent. -/
def lowerVa (a : Option W64) (v : W64) : W64 :=
  match a with
  | none => v
  | some x => if v < x then v else x

/-- An operation that met an integrity failure (R80): the lowest failed VA it met is recorded. -/
def EngineOp.zeroed (o : EngineOp) (va : Option W64) : EngineOp :=
  match va with
  | none => o
  | some v => { o.meet stZEROED with failedVa := some (lowerVa o.failedVa v) }

/-- `ERRVA` of a completion record (R323): the faulting or misaligned VA, else the lowest failed one, else zero. -/
def EngineOp.recordVa (o : EngineOp) : W64 := (o.errva.or o.failedVa).getD 0

/-- Whether an operation's status stops it (R324). -/
def EngineOp.stopped (o : EngineOp) : Bool := decide (statusRank o.status ≤ 3) || o.status == stPEER

/-- A piece of a transfer: destination, source, bytes. -/
structure Seg where
  dst : W64
  src : W64
  n : Nat
  deriving DecidableEq, Repr

/-- The source indices of a `GATH` (R315), or the fault that reading them meets. -/
def gatherIndices (o : EngineOp) (s : State) : Moved × State :=
  readRange o.ctx' o.reader (blkDw o.blk 2) (4 * blkField o.blk 3 0 24) s

/-- The pieces of a copy command in the order of its data stream (R313, R315). -/
def segments (o : EngineOp) (idx : List Nat) : List Seg :=
  let b := o.blk
  match o.cmd with
  | 1 =>
    tabulate (blkField b 2 20 20) fun r =>
      ⟨blkDw b 0 + BitVec.ofNat 64 (r * blkField b 3 0 20), blkDw b 1 + BitVec.ofNat 64 (r * blkField b 2 40 20),
       blkField b 2 0 20⟩
  | 4 =>
    let e := 2 ^ blkField b 3 24 3
    idx.zipIdx.map fun i => ⟨blkDw b 0 + BitVec.ofNat 64 (i.2 * e), blkDw b 1 + sext64 32 i.1, e⟩
  | _ => [⟨blkDw b 0, blkDw b 1, (blkDw b 2).toNat⟩]

/-- Inverts the byte `ERRINJ` targets, if the piece at a stream offset holds it (R317). -/
def flipAt (f : Option (Nat × Nat)) (off : Nat) (data : List Byte) : List Byte :=
  match f with
  | none => data
  | some (at_, bit) =>
    if off ≤ at_ ∧ at_ < off + data.length then lset data (at_ - off) (lget data (at_ - off) ^^^ (1#8 <<< bit)) else data

/-- A misaligned element of a `GATH`, which stops it (R315). -/
def EngineOp.misaligned (o : EngineOp) (g : Seg) : Bool := decide (o.cmd = 4 ∧ g.src.toNat % min g.n 8 ≠ 0)

/-- An operation stopped by a misaligned element (R315, R323). -/
def EngineOp.malformedAt (o : EngineOp) (va : W64) : EngineOp := { o.meet stMALFORMED with errva := some va }

/-- An operation whose block is malformed: `ERRVA` tells the first misaligned address in the order of the block (R323,
R352). -/
def EngineOp.badBlock (o : EngineOp) : EngineOp := o.malformedAt (firstMisaligned (blkAddresses o.cmd o.blk))

/-- An operation after reading a piece at a stream offset: its bytes, the failures met, what it has seen (R80, R94). -/
def EngineOp.took (o : EngineOp) (off : Nat) (r : Moved) : EngineOp :=
  { o with got := o.got ++ [(off, r.data)], seen := r.seen }.zeroed r.failed

/-- Whether the destination of a piece begins inside its source (R313). -/
def Seg.overlaps (g : Seg) : Bool := decide (g.src.toNat < g.dst.toNat ∧ g.dst.toNat < g.src.toNat + g.n)

/-- The bytes of a piece as read and as written, from those that a read at the fork gives (R313): where the piece overlaps
itself, a source word that the copy has written before it comes to it is read as it was at the fork or as the copy wrote it.
Which is drawn (log entry 17). -/
def selfCopy (keep : Nat → Bool) (flip : Option (Nat × Nat)) (at_ : Nat) (g : Seg) (data : List Byte) : List Byte × List Byte :=
  if !g.overlaps then (data, flipAt flip at_ data)
  else
    let gap := g.dst.toNat - g.src.toNat
    (cuts 8 (data.length / 8 + 2) g.src.toNat data.length).foldl (fun (x : List Byte × List Byte) w =>
      let k := w.1 - g.src.toNat
      let word := (data.drop k).take w.2
      let got := word.zipIdx.map fun b => if !keep k && decide (gap ≤ k + b.2) then x.2.getD (k + b.2 - gap) b.1 else b.1
      (x.1 ++ got, x.2 ++ flipAt flip (at_ + k) got)) ([], [])

/-- The draws that a piece takes, one for each byte of one that overlaps itself. -/
def Seg.draws (g : Seg) (data : List Byte) : Nat := if g.overlaps then data.length else 0

/-- Moves one piece on this device (R45, R106, R313): what was read, then what was written of it. -/
def moveSeg (acc : Access) (q : EngineOp × State) (g : Seg) : EngineOp × State :=
  let o := q.1
  if o.stopped then q
  else if o.misaligned g then (o.malformedAt g.src, q.2)
  else
    let r := readRange o.ctx' o.reader g.src g.n q.2
    let x := selfCopy (fun k => Config.freeKeep (r.2.tick + k)) o.flip o.bytes g r.1.data
    let s := { r.2 with tick := r.2.tick + g.draws r.1.data }
    let w := writeRange o.ctx' acc (.task o.task) g.dst x.2 s
    let o' := { o.took o.bytes { r.1 with data := x.1 } with bytes := o.bytes + w.1.data.length }.zeroed w.1.failed
    match w.1.fault, r.1.fault with
    | some f, _ => (o'.stop f, w.2)
    | none, some f => (o'.stop f, w.2)
    | none, none => (o', w.2)

/-- The pieces of a transfer beyond its first bytes, page by page of the destination, with their stream offsets. -/
def restOf (done : Nat) (segs : List Seg) : List (Nat × Seg) :=
  let cut := segs.flatMap fun g => (pieces (g.n / 4096 + 2) g.dst.toNat g.n).map fun p =>
    (⟨BitVec.ofNat 64 p.1, g.src + (BitVec.ofNat 64 p.1 - g.dst), p.2⟩ : Seg)
  (cut.foldl (fun (x : List (Nat × Seg) × Nat) g => (if done ≤ x.2 then x.1 ++ [(x.2, g)] else x.1, x.2 + g.n)) ([], 0)).1

/-- Of the destination bytes beyond the prefix of an operation that a translation fault stopped, some may hold their copied
value (R45): which pieces do is drawn (log entry 4). -/
def strays (move : Nat → Seg → State → State) (segs : List Seg) (q : EngineOp × State) : EngineOp × State :=
  if q.1.status = stXLATE ∨ q.1.status = stPERM then
    (q.1, (restOf q.1.bytes segs).foldl (fun s g =>
      let (k, s) := s.draw 2
      if k = 1 then move g.1 g.2 s else s) q.2)
  else q

/-- Moves the pieces of a transfer on this device (R45, R106). -/
def moveAll (acc : Access) (segs : List Seg) (q : EngineOp × State) : EngineOp × State :=
  strays (fun at_ g s => (moveSeg acc ({ q.1 with status := stOK, bytes := at_ }, s) g).2) segs (segs.foldl (moveSeg acc) q)

/-- The clusters of the issuer's quadrant that a mask selects (R315). -/
def quadrantTargets (c : CoreId) (mask : Nat) : List Nat :=
  (List.range 64).filter fun i =>
    decide (i / 8 / 4 = c.clu.toNat / 8 / 4 ∧ i % 8 / 4 = c.clu.toNat % 8 / 4) && bitAt mask (4 * (i / 8 % 4) + i % 8 % 4)

/-- `CPYM` (R315): the source is read once and written to the scratchpad of each target that the launch occupies. Where a
target receives nothing, no prefix is fully written, and the cause is that of a permission fault (R45, R323). -/
def multicast (o : EngineOp) (s : State) : EngineOp × State :=
  let r := readRange o.ctx' o.reader (blkDw o.blk 1) (blkDw o.blk 2).toNat s
  let data := flipAt o.flip 0 r.1.data
  let o := { o.took 0 r.1 with bytes := data.length }
  (quadrantTargets o.core (blkField o.blk 3 0 16)).foldl (fun (q : EngineOp × State) clu =>
    let pa := scratchBase o.core.die.toNat clu + blkField o.blk 0 0 22
    if (q.2.occupants (o.core.die.toNat * 64 + clu)).contains o.launchId then
      (q.1.zeroed (q.2.failedVaPut (blkDw o.blk 0) pa data.length), q.2.enginePut (.task o.task) pa data)
    else ({ q.1.meet stPERM with bytes := 0, cause := 0x11, errva := some 0 }, q.2)) (match r.1.fault with | some f => o.stop f | none => o, r.2)

/-- Sends one remote request of an operation for `n` bytes at an offset of its stream (R395-R398). -/
def EngineOp.ask (o : EngineOp) (s : State) (read : Bool) (va : Nat) (dst : W64) (off : Nat) (data : List Byte) :
    EngineOp × State :=
  let dev := BitVec.ofNat 16 (blkField o.blk 5 32 16)
  let a : Ask := { op := if read then 3 else 2, asid := o.asid, jkey := o.jobkey, addr := BitVec.ofNat 64 va, data := data,
                   cls := if read then 1 else 2, net := 0 }
  ({ o with parts := o.parts + 1 }, s.sendRequest o.core.die dev a (.op o.id dst (BitVec.ofNat 64 va) off))

/-- Sends the remote parts of one piece (R314, R395-R398): reads or writes that cross no 4 KiB page. The offset that follows
the piece is that of the bytes that go (R45, R323). -/
def remoteSeg (srcSide : Bool) (q : EngineOp × Nat × State) (g : Seg) : EngineOp × Nat × State :=
  let (o, off, s) := q
  if o.stopped then q
  else if o.misaligned g then (o.malformedAt g.src, off, s)
  else if srcSide then
    (pieces (g.n / 4096 + 2) g.src.toNat g.n).foldl (fun (q : EngineOp × Nat × State) p =>
      let x := q.1.ask q.2.2 true p.1 (g.dst + BitVec.ofNat 64 (q.2.1 - off)) q.2.1 (leBytes 8 p.2)
      (x.1, q.2.1 + p.2, x.2)) (o, off, s)
  else
    let r := readRange o.ctx' o.reader g.src g.n s
    let data := flipAt o.flip off r.1.data
    let q := (pieces (data.length / 4096 + 2) g.dst.toNat data.length).foldl (fun (q : EngineOp × Nat × State) p =>
      let x := q.1.ask q.2.2 false p.1 (BitVec.ofNat 64 p.1) q.2.1 ((data.drop (q.2.1 - off)).take p.2)
      (x.1, q.2.1 + p.2, x.2)) (o.took off r.1, off, r.2)
    (match r.1.fault with | some f => q.1.stop f | none => q.1, q.2.1, q.2.2)

/-- The source bytes of an operation in stream order (R316, R318). -/
def EngineOp.stream (o : EngineOp) : List Byte :=
  let parts := o.got.foldr (fun p l => (l.filter fun x => decide (x.1 < p.1)) ++ [p] ++ l.filter fun x => decide (p.1 ≤ x.1)) []
  (parts.map (·.2)).flatten

/-- The elements of a fingerprint (R190, R318). -/
def fpElements (f : Nat) (data : List Byte) : List Exact :=
  (chunks (fpBytes f) data.length data).map fun b =>
    let x := leNat b
    match f with
    | 0 => (f32.decode x).val
    | 1 => (f16.decode x).val
    | 2 => (bf16.decode x).val
    | 3 => (f64.decode x).val
    | 4 => (decodeE4m3 x).val
    | _ => (e5m2.decode x).val

/-- A CRC-32C running value over whole doublewords (R220, R316). -/
def runningCrc (seed : W32) (data : List Byte) : W32 :=
  (chunks 8 data.length data).foldl (fun c d => crc32c c (BitVec.ofNat 64 (leNat d))) seed

/-- The end of the data of an operation (R316, R318, R323): running values, the compare, the fingerprint. -/
def EngineOp.finish (o : EngineOp) : EngineOp :=
  let data := o.stream
  let o :=
    if o.cmd = 3 ∧ o.status ≠ stMALFORMED then
      let src := runningCrc (BitVec.ofNat 32 (blkField o.blk 3 0 32)) (data.take (data.length / 8 * 8))
      let dst := runningCrc (BitVec.ofNat 32 (blkField o.blk 3 32 32)) ((flipAt o.flip 0 data).take (o.bytes / 8 * 8))
      let expect : W32 := if blkField o.blk 4 33 1 = 1 then src else BitVec.ofNat 32 (blkField o.blk 4 0 32)
      let o := { o with dw2 := BitVec.ofNat 64 (dst.toNat * 2 ^ 32 + src.toNat) }
      if blkField o.blk 4 32 1 = 1 ∧ dst ≠ expect then o.meet stCKFAIL else o
    else o
  let o := if o.cmd < 8 ∧ blkFp o.blk ∧ !o.stopped then { o with fpv := true, dws := fingerprint (fpElements (blkField o.blk 5 1 3) data) } else o
  { o with st := .finished }

/-- Changes an operation. -/
def State.setOp (s : State) (o : EngineOp) : State := { s with ops := s.ops.map fun x => if x.id = o.id then o else x }

/-- An operation whose data is done: its completion comes next (R322). -/
def State.endOp (s : State) (o : EngineOp) : State := (s.setOp o.finish).pushEvent (.engineCompletion o.id 0)

/-- What `ERRINJ` does to an accepted command with `n` bytes of data (R317). -/
def State.inject (s : State) (die n : Nat) : Option (Nat × Nat) × State :=
  let d := s.die die
  if !d.errinj.getLsbD 63 then (none, s)
  else if d.errSeen < fieldOf d.errinj 36 12 then (none, s.setDie die fun d => { d with errSeen := d.errSeen + 1 })
  else
    let off := fieldOf d.errinj 0 32
    (if off < n then some (off, fieldOf d.errinj 32 3) else none,
     s.setDie die fun d => { d with errinj := withField d.errinj 63 1 0, errSeen := 0 })

/-- Bytes of a copy command's data (R313, R315, R317). -/
def EngineOp.count (o : EngineOp) : Nat :=
  if o.cmd = 4 then blkField o.blk 3 0 24 * 2 ^ blkField o.blk 3 24 3 else ((segments o []).map (·.n)).sum

/-- A copy engine's work on a command (R313-R318). -/
def State.startCopy (s : State) (o : EngineOp) : State :=
  let (flip, s) := s.inject o.core.die.toNat o.count
  let i := if o.cmd = 4 then gatherIndices o s else ({ seen := o.seen }, s)
  match i.1.fault with
  | some f => i.2.endOp (o.stop f)
  | none =>
    let o := { o with seen := i.1.seen, flip := flip }.zeroed i.1.failed
    let segs := segments o ((chunks 4 i.1.data.length i.1.data).map leNat)
    let s := i.2
    if o.cmd = 2 then let q := multicast o s; q.2.endOp q.1
    else if blkRem o.blk then
      if !s.inPlane (BitVec.ofNat 16 (blkField o.blk 5 32 16)) then s.endOp (o.meet stREMOTE)
      else
        let q := segs.foldl (remoteSeg (blkField o.blk 5 4 1 == 1)) (o, 0, s)
        let o : EngineOp := { q.1 with st := .remote, bytes := q.2.1 }
        if o.parts = 0 then q.2.2.endOp o else q.2.2.setOp o
    else let q := moveAll { write := true } segs (o, s); q.2.endOp q.1

/-- The die whose weight store a VA lies in, as far as it translates. DEDUCED (log entry 35): the claim and the controller a
`WSLOAD` meets are those of the die of its first line, whichever die it was issued on or runs over into (R59, R321). -/
def weightDie (o : EngineOp) (s : State) : Option Nat × State :=
  match translate o.ctx' { write := true, load := true } (blkDw o.blk 0) 64 64 s with
  | .ok ((pa, _) :: _) s => (match regionOf pa with | .weight d => some d | _ => none, s)
  | .ok [] s => (none, s)
  | .error _ s => (none, s)

/-- The weight-store path's work on a `WSLOAD` (R58, R59, R321). -/
def State.startWsload (s : State) (o : EngineOp) : State :=
  match weightDie o s with
  | (some d, s) =>
    if s.claimHeld d then s.endOp { o with status := stBUSY }
    else
      let s := s.setDie d fun x => { x with wsLoading := true }
      let q := moveAll { write := true, load := true } (segments o []) ({ o with wsDie := some d }, s)
      q.2.endOp q.1
  | (none, s) => let q := moveAll { write := true, load := true } (segments o []) (o, s); q.2.endOp q.1

/-- The pages of a range that an operation is to use, as PAs and lengths, up to the first fault (R45). -/
def rangePages (c : Ctx) (acc : Access) (va : W64) (n : Nat) (s : State) : (List (Nat × Nat) × Option OpFault) × State :=
  (pieces (n / 4096 + 2) va.toNat n).foldl (fun (q : (List (Nat × Nat) × Option OpFault) × State) p =>
    if q.1.2.isSome then q
    else match translate c acc (BitVec.ofNat 64 p.1) p.2 1 q.2 with
      | .ok ps s => ((q.1.1 ++ ps, none), s)
      | .error (.trap cause _) s => ((q.1.1, some (cause, BitVec.ofNat 64 p.1)), s)
      | .error .stall s => (q.1, s)) (([], none), s)

/-- Whether a PA lies in device memory (R413). -/
def deviceMemory (pa : Nat) : Bool := match regionOf pa with | .hbm _ | .far _ => true | _ => false

/-- The address at which the host sees a PA of device memory (R413, R320): in the HDM range of HBM or of the far tier. -/
def hostVisible (pa : Nat) : W64 :=
  match regionOf pa with
  | .far _ => Config.hdmBase 1 + BitVec.ofNat 64 (pa - 0x100000000000)
  | _ => Config.hdmBase 0 + BitVec.ofNat 64 pa

/-- Puts a field of `n` bytes into an entry at a byte offset. -/
def putField (e : List Byte) (at_ n v : Nat) : List Byte := padTo 64 0 (e.take at_ ++ leBytes n v ++ e.drop (at_ + n))

/-- An NVMe Read or Write command (R320). PRESUMED (log entry 19): the places of its fields, from the NVMe base
specification; its identifier and the place of a PRP list are free. -/
def nvmeEntry (q b : List W64) (write : Bool) (pages : List Nat) (tick : Nat) : List Byte :=
  let prp := pages.map hostVisible
  let prp2 := if prp.length ≤ 1 then 0 else if prp.length = 2 then lget prp 1 else Config.prpList prp.tail
  let blocks := (blkDw b 2).toNat / 2 ^ blkField q 0 4 4
  let e := putField [] 0 4 ((if write then 1 else 2) + fieldOf (Config.freeWord tick) 0 16 * 2 ^ 16)
  let e := putField e 4 4 (blkField q 2 0 32)
  let e := putField (putField e 24 8 (lget prp 0).toNat) 32 8 prp2.toNat
  putField (putField e 40 8 (blkDw b 3).toNat) 48 2 (blocks - 1)

/-- The bytes of a peer's memory that the I/O engine reads with a read-current request (R415): those of this device's
memory, or of the host's, which the state does not hold. -/
def State.peerBytes (s : State) (pa n : Nat) : List Byte × State :=
  match regionOf pa with
  | .hole => (tabulate n fun i => Config.freeByte (s.tick + i), { s with tick := s.tick + n })
  | _ => s.agentRead s.systemReader pa n |> fun x => (x.1, x.2.2)

/-- An RDMA work request: the template with its four patched fields (R319, R320). PRESUMED (log entry 19): addresses take
eight bytes, the length and the key four. -/
def rdmaEntry (q b : List W64) (template : List Byte) (local_ : W64) : List Byte :=
  let at_ := fun k => blkField q 6 (8 * k) 8
  let e := putField template (at_ 0) 8 local_.toNat
  let e := putField e (at_ 1) 4 (blkDw b 2).toNat
  putField (putField e (at_ 2) 8 (blkDw b 3).toNat) (at_ 3) 4 (blkField b 4 0 32)

/-- The submission entry of a command (R320). -/
def State.submission (s : State) (o : EngineOp) (q : List W64) (pages : List Nat) : List Byte × State :=
  if blkField q 0 0 4 = 1 then (nvmeEntry q o.blk (o.cmd == 6) pages s.tick, { s with tick := s.tick + 1 })
  else
    let t := s.peerBytes (blkDw q 5).toNat 64
    (rdmaEntry q o.blk t.1 (hostVisible (lget pages 0)), t.2)

/-- Whether some page of a range lies outside device memory, whatever may be done there (R315). -/
def leavesMemory (c : Ctx) (va : W64) (n : Nat) (s : State) : Bool × State :=
  (pieces (n / 4096 + 2) va.toNat n).foldl (fun (q : Bool × State) p =>
    let x := placeOf c p.1 q.2
    (q.1 || x.1.any (!deviceMemory ·), x.2)) (false, s)

/-- The I/O engine's work on a command (R319, R320, R413, R415): one submission entry and the doorbell. The operation ends
when the peer's completion is reported. A range any page of which lies outside device memory is MALFORMED before it is
anything else (R315, R324). -/
def State.startIo (s : State) (o : EngineOp) : State :=
  let slot := o.core.die.toNat * 256 + blkField o.blk 1 0 8
  let q := s.ioQueue o.core.die.toNat (blkField o.blk 1 0 8)
  let n := (blkDw o.blk 2).toNat
  let v := leavesMemory o.ctx' (blkDw o.blk 0) n s
  if v.1 then v.2.endOp (o.meet stMALFORMED)
  else
    let f := rangePages o.ctx' { write := o.cmd == 5 } (blkDw o.blk 0) n v.2
    match f.1.2 with
    | some f' => f.2.endOp (o.stop f')
    | none =>
      let pos := (lookupKey f.2.ioTail slot).getD 0
      let e := f.2.submission o q (f.1.1.map (·.1))
      let s := { e.2 with ioTail := setKey e.2.ioTail slot (if blkField q 2 32 16 ≤ pos + 1 then 0 else pos + 1) }
      let s := s.unitPut ((blkDw q 1).toNat + 64 * pos) e.1
      let s := s.unitPut (blkDw q 3).toNat (leBytes 8 (Config.doorbell q pos).toNat)
      s.setOp { o with st := .remote }

/-- The end of an I/O operation as its peer reports it (R109, R320, R323): with success an `IORD` has written
every destination byte, whose values come from the peer. DESIGN CHOICE (log entry 19): its bytes land in this step, though a
read before the join may already find them (R106, R126). DEDUCED (log entry 19): after an error of the peer it has written
none. Where a translation fault stops it, the bytes beyond its prefix are old or new, drawn page by page (R45, log entry 4). -/
def State.ioEnd (s : State) (o : EngineOp) (peer : BitVec 16) : State × EngineOp :=
  if peer ≠ 0 then (s, o.meet stPEER)
  else
    let n := (blkDw o.blk 2).toNat
    if o.cmd = 5 then
      let data := tabulate n fun i => Config.freeByte (s.tick + i)
      let put := fun (at_ : Nat) (g : Seg) (s : State) =>
        writeRange o.ctx' { write := true } (.task o.task) g.dst ((data.drop at_).take g.n) s
      let dst : Seg := ⟨blkDw o.blk 0, blkDw o.blk 0, n⟩
      let w := put 0 dst { s with tick := s.tick + n }
      let o := { o with bytes := w.1.data.length, got := [(0, data)] }.zeroed w.1.failed
      let q := strays (fun at_ g s => (put at_ g s).2) [dst] (match w.1.fault with | some f => o.stop f | none => o, w.2)
      (q.2, q.1.finish)
    else
      let r := readRange o.ctx' o.reader (blkDw o.blk 0) n s
      let o := { o.took 0 r.1 with bytes := r.1.data.length }
      (r.2, (match r.1.fault with | some f => o.stop f | none => o).finish)

/-- The scope an address gives a command (R105): the issuer's cluster, its die, or the package. -/
def placeScope (c : CoreId) (pa : Nat) : Scope :=
  match regionOf pa with
  | .scratch d k => if d = c.die.toNat then if k = c.clu.toNat then .cluster else .die else .system
  | .hbm d | .weight d => if d = c.die.toNat then .die else .system
  | .far x => if x / 2 = c.die.toNat then .die else .system
  | _ => .system

/-- The wider of two scopes. -/
def Scope.join (a b : Scope) : Scope :=
  match a, b with
  | .system, _ | _, .system => .system
  | .die, _ | _, .die => .die
  | .cluster, _ | _, .cluster => .cluster
  | .core, .core => .core

/-- The scope of one byte's VA; one that does not translate gives system scope (R105, R311). -/
def byteScope (va : W64) : M Scope := fun s =>
  match translate s.task.tctx {} va 1 1 s with
  | .ok ((pa, _) :: _) s' => .ok (placeScope s.task.core pa) s'
  | .ok [] s' => .ok .system s'
  | .error _ s' => .ok .system s'

/-- The scope of a range from its first and last byte (R105). -/
def rangeScope (r : W64 × Nat) : M Scope := do
  if r.2 = 0 then pure .cluster
  else pure ((← byteScope r.1).join (← byteScope (r.1 + BitVec.ofNat 64 (r.2 - 1))))

/-- The scope of a command from the ranges it names (R105); `far` when a side or a range is not listed. -/
def commandScope (ranges : List (W64 × Nat)) (far : Bool) : M Scope := do
  let scs ← ranges.mapM rangeScope
  pure (if far then .system else scs.foldl Scope.join .cluster)

/-- The ranges an engine command names (R105, R315), and whether one lies elsewhere or is scattered. -/
def namedRanges (cmd : Nat) (b : List W64) (c : CoreId) : List (W64 × Nat) × Bool :=
  let count := (blkDw b 2).toNat
  let common := (if blkDw b 6 = 0 then [] else [(blkDw b 6, 64)]) ++ (if blkDw b 7 = 0 then [] else [(blkDw b 7, 8)])
  match cmd with
  | 1 =>
    let rows := blkField b 2 20 20
    let span := fun (p : Nat) => if rows = 0 then 0 else (rows - 1) * p + blkField b 2 0 20
    ((blkDw b 0, span (blkField b 3 0 20)) :: (blkDw b 1, span (blkField b 2 40 20)) :: common, blkRem b)
  | 2 => ((blkDw b 1, count) :: common, (quadrantTargets c (blkField b 3 0 16)).any (· != c.clu.toNat))
  | 4 => ((blkDw b 0, blkField b 3 0 24 * 2 ^ blkField b 3 24 3) :: (blkDw b 2, 4 * blkField b 3 0 24) :: common, true)
  | 5 | 6 => ((blkDw b 0, count) :: common, false)
  | _ => ((blkDw b 0, count) :: (blkDw b 1, count) :: common, blkRem b)

/-- `RECBASE` of the current task as the engine of a die reads it at the fork (R312). -/
def recBase (die : BitVec 2) : M W64 := fun s =>
  let t := s.task
  match translate t.tctx {} (t.ctx + 0xF0) 8 8 s with
  | .ok ((pa, _) :: _) s' =>
    let r := s'.readAs ⟨engineLoc t.core die, t.snapshot, []⟩ pa 8
    .ok (BitVec.ofNat 64 (leNat r.1)) r.2
  | .ok [] s' => .ok 0 s'
  | .error _ s' => .ok 0 s'

/-- The reply address of a command (R312). -/
def replyAddress (die : BitVec 2) (b : List W64) (tag : Spec) : M (Option W64) := do
  let rec_ := blkDw b 6
  if rec_ ≠ 0 ∧ rec_.toNat % 64 = 0 then pure (some rec_)
  else
    let base ← recBase die
    pure (if base = 0 then none else some (base + BitVec.ofNat 64 (64 * tag.toNat)))

/-- The quadrant of a cluster (R5). -/
def quadrantOf (clu : Nat) : Nat := 2 * (clu / 8 / 4) + clu % 8 / 4

/-- The unit that takes a command's message (R155, R321, R344): the copy engines of a cluster, the weight-store path
or the I/O engine of a die, a graft engine. A message the paddock built goes to the engine of its quadrant. -/
def unitFor (cmd : Nat) (c : CoreId) (built : Bool) (b : List W64) : Nat × Nat :=
  if isCopyCmd cmd then (0, clusterId c)
  else if cmd = 7 then (1, c.die.toNat)
  else if cmd < 7 then (2, c.die.toNat)
  else (3, if built then 4 * c.die.toNat + quadrantOf c.clu.toNat else blkField b 5 0 4)

/-- The unit of an operation. -/
def EngineOp.unit (o : EngineOp) : Nat × Nat := unitFor o.cmd o.core o.tag.isNone o.blk

/-- Whether a unit's inboxes are full (R155): 16 messages each, and a cluster has two copy engines. -/
def State.inboxFull (s : State) (u : Nat × Nat) : Bool :=
  decide ((if u.1 = 0 then 32 else 16) ≤ (s.ops.filter fun o => decide (o.st = .queued) && o.unit == u).length)

/-- A message enters its engine's inbox (R311, step 4). -/
def State.enterInbox (s : State) (o : EngineOp) : State :=
  ({ s with ops := s.ops ++ [o] }).pushEvent (.engineOperationStart o.id)

/-- The current task waits, still RUNNING, to put a message into a full inbox (R133, R311, step 4; DEDUCED, log entry 6). What
its operands have popped since `s0`, up to `s1`, is gone only once the message enters, since a pre-emption abandons the
instruction (DEDUCED, log entry 17). -/
def State.awaitInbox (s s0 s1 : State) (o : EngineOp) : State :=
  let pops := tabulate 8 fun q => (lget s0.queues q).length - (lget s1.queues q).length
  let back := tabulate 8 fun q => (lget s0.queues q).take (lget pops q) ++ lget s.queues q
  let s := if s1.queues = s0.queues then s else s.setCluster (clusterId s.task.core) fun c => { c with queues := back }
  s.setTask fun t => { t with waitOn := .inbox o t.pkt pops, pkt := s0.task.pkt }

/-- Issue of a command whose operands have been read since `s0` (R105, R311): waits for an outstanding command of the same
tag, with nothing done; reads the block; is a boundary at the command's scope; the message enters the inbox, or waits for
it. -/
def issueCommand (s0 : State) (cmd : Nat) (tag : Spec) (block : W64 → M (List W64)) (va : W64)
    (scope : List W64 → CoreId → M Scope) : M Next := do
  let s1 ← get
  let t := s1.task
  if s1.ops.any (fun o => o.task == t.key && o.tag == some tag) then throw .stall
  let b ← block va
  let sc ← scope b t.core
  boundary sc
  let reply ← replyAddress (engineDie cmd b t.core) b tag
  let s ← get
  let o : EngineOp :=
    { id := s.nextId, task := t.key, core := t.core, asid := t.asid, jobkey := t.jobkey, ctx := t.ctx, launch := t.launch,
      cmd := cmd, tag := some tag, blk := b, reply := reply, snapshot := s.task.snapshot }
  upd fun s => { s with nextId := s.nextId + 1 }
  if s.inboxFull o.unit then
    upd (·.awaitInbox s0 s1 o)
    pure .gone
  else
    upd (·.enterInbox o)
    pure .seq

/-- Reads a command block (R311, R314). -/
def readBlock (va : W64) : M (List W64) := do
  let bs ← loadUnits va 64 64 8
  pure ((chunks 8 8 bs).map fun d => BitVec.ofNat 64 (leNat d))

/-- The scope of a COPY or COPY2 command, its block included (R105). -/
def copyScope (cmd : Nat) (blk : Option W64) (b : List W64) (c : CoreId) : M Scope := do
  let r := namedRanges cmd b c
  commandScope ((blk.map fun v => (v, 64)).toList ++ r.1) r.2

/-- A command written with a block (R314). -/
def blockCommand (cmd : Nat) (a tag : Spec) : M Next := do
  checkSrc a
  let s0 ← get
  let va ← readScalar a
  issueCommand s0 cmd tag readBlock va (copyScope cmd (some va))

/-- CPY (R313): a block made of its operands. -/
def cpyBody (d a b tag : Spec) : M Next := do
  checkSrc a; checkSrc b; checkSrc d
  let s0 ← get
  let src ← readScalar a
  let n ← readScalar b
  let dst ← readScalar d
  issueCommand s0 0 tag (fun _ => pure [dst, src, n, 0, 0, 0, 0, 0]) 0 (copyScope 0 none)

/-- CPY (R313). -/
def execCpy (d a b c : BitVec 6) (s : State) : Res := word (.cpy d a b c) (cpyBody d a b c) s
/-- CPY2D (R315). -/
def execCpy2d (a c : BitVec 6) (s : State) : Res := word (.cpy2d a c) (blockCommand 1 a c) s
/-- CPYM (R315). -/
def execCpym (a c : BitVec 6) (s : State) : Res := word (.cpym a c) (blockCommand 2 a c) s
/-- CPYX (R315, R316). -/
def execCpyx (a c : BitVec 6) (s : State) : Res := word (.cpyx a c) (blockCommand 3 a c) s
/-- GATH (R315). -/
def execGath (a c : BitVec 6) (s : State) : Res := word (.gath a c) (blockCommand 4 a c) s
/-- IORD (R315, R320). -/
def execIord (a c : BitVec 6) (s : State) : Res := word (.iord a c) (blockCommand 5 a c) s
/-- IOWR (R315, R320). -/
def execIowr (a c : BitVec 6) (s : State) : Res := word (.iowr a c) (blockCommand 6 a c) s
/-- WSLOAD (R58, R315, R321). -/
def execWsload (a c : BitVec 6) (s : State) : Res := word (.wsload a c) (blockCommand 7 a c) s

end Sys2Proof.Machine
end

