-- ==== Sys2Proof/Machine/Graft.lean ====
section
/-! DEFINITION. Field ports and the graft engine (R338-R356): binding a port to its group's graph, snapshots into
windows, deliveries, and commands held until their window. -/

namespace Sys2Proof.Machine

/-- A field of a port's kept descriptor (R340). -/
def Port.field (p : Port) (i lo len : Nat) : Nat := fieldOf (lget p.dws i) lo len
/-- `LAG` (R340). -/
def Port.lag (p : Port) : Nat := p.field 0 7 1
/-- `NSH` (R340). -/
def Port.nsh (p : Port) : Int := signedNat 8 (p.field 0 12 8)
/-- `OFF` (R340). -/
def Port.off (p : Port) : Exact := (f64.decode (lget p.dws 1).toNat).val
/-- `SCOMP` (R340). -/
def Port.scomp (p : Port) : Nat := p.field 2 16 16
/-- `RCOMP` (R340). -/
def Port.rcomp (p : Port) : Nat := p.field 2 0 16
/-- `ISND` (R340). -/
def Port.isnd (p : Port) : Nat := p.field 4 0 32
/-- `IRCV` (R340). -/
def Port.ircv (p : Port) : Nat := p.field 4 32 32
/-- `STATE` (R340). -/
def Port.state (p : Port) : W64 := lget p.dws 5
/-- Bytes of the state area (R343). -/
def Port.areaSize (p : Port) : Nat := 256 + 192 * p.nsc + 8 * p.coli.length + 4 * (p.nrc + 1)

/-- Little-endian 32-bit numbers of bytes. -/
def nat32s (b : List Byte) : List Nat := (chunks 4 b.length b).map leNat
/-- Little-endian doublewords of bytes. -/
def dwords (b : List Byte) : List W64 := (chunks 8 b.length b).map fun d => BitVec.ofNat 64 (leNat d)

/-- An operation that meets a further fault: the first of the order of R324 stays (R346). -/
def EngineOp.firstFault (o : EngineOp) (f : OpFault) : EngineOp :=
  if statusRank (faultStatus f.1) < statusRank o.status then o.stop f else o

/-- An operation that a condition ends before any effect (R346): neither a fault nor a failure it has met is recorded. -/
def EngineOp.refuse (o : EngineOp) (st : Nat) (va : W64) : EngineOp := { o with status := st, cause := 0, errva := some va }

/-- The context in which an engine translates the addresses that a port's FPBIND carried (R434): its state area and its
group block. -/
def Port.ctx (p : Port) (o : EngineOp) : Ctx := { o.ctx' with window := p.window, recNo := p.recNo }

/-- Reads a range for a command (R106), noting what it meets; none where it faults. -/
def portRead (c : Ctx) (va : W64) (n : Nat) (q : EngineOp × State) : Option (List Byte) × EngineOp × State :=
  let r := readRange c q.1.reader va n q.2
  let o := { q.1 with seen := r.1.seen }.zeroed r.1.failed
  match r.1.fault with
  | some f => (none, o.firstFault f, r.2)
  | none => (some r.1.data, o, r.2)

/-- Checks that a command may access a range (R45, R346). -/
def portProbe (c : Ctx) (acc : Access) (va : W64) (n : Nat) (q : EngineOp × State) : EngineOp × State :=
  let f := rangePages c acc va n q.2
  ((match f.1.2 with | some f => q.1.firstFault f | none => q.1), f.2)

/-- Meets the failures that a write of `n` bytes at a PA reads (R80). -/
def State.meetPut (s : State) (pa n : Nat) : State :=
  let whole := s.failed.filter (s.unitReplaced pa n)
  let s := { s with failed := s.failed.filter (!s.unitReplaced pa n ·) }.meet pa n
  { s with failed := s.failed ++ whole }

/-- As `portProbe`, for a range that the command then writes: a failure there is met before anything is changed, so that a
command which ends ZEROED has changed no port state (R80, R346). -/
def portReady (c : Ctx) (va : W64) (n : Nat) (q : EngineOp × State) : EngineOp × State :=
  let f := rangePages c { write := true } va n q.2
  match f.1.2 with
  | some x => (q.1.firstFault x, f.2)
  | none =>
    let r := f.1.1.foldl (fun (x : W64 × EngineOp × State) p =>
      (x.1 + BitVec.ofNat 64 p.2, x.2.1.zeroed (x.2.2.failedVaPut x.1 p.1 p.2), x.2.2.meetPut p.1 p.2)) (va, q.1, f.2)
    r.2

/-- Writes a range that a probe found writable. -/
def portWrite (c : Ctx) (va : W64) (data : List Byte) (q : EngineOp × State) : EngineOp × State :=
  let w := writeRange c { write := true } (.task q.1.task) va data q.2
  (q.1.zeroed w.1.failed, w.2)

/-- Whether a command block passes the checks of its own fields (R345, R346, R349). -/
def portBlockOk (o : EngineOp) : Bool :=
  let b := o.blk
  let common := reservedZero (blkDw b 5).toNat [(0, 4)] && decide ((blkDw b 6).toNat % 64 = 0 ∧ (blkDw b 7).toNat % 8 = 0) &&
    blkDw b 4 == 0 && decide ((blkDw b 0).toNat % 64 = 0) && decide (o.unit = (3, blkField b 5 0 4))
  common && match o.cmd with
    | 8 => decide ((blkDw b 1).toNat % 64 = 0 ∧ (blkDw b 2).toNat < 2 ∧ (blkDw b 3).toNat % 4 = 0) &&
        (blkDw b 2 == 0 || blkDw b 3 == 0)
    | 9 => decide ((blkDw b 1).toNat % 4 = 0 ∧ (blkDw b 2).toNat < 2 ^ 32) && blkDw b 3 == 0
    | 10 => decide ((blkDw b 2).toNat < 3) && blkDw b 3 == 0 && (blkDw b 2 == 0 || (blkDw b 1).toNat % 4 == 0)
    | _ => blkDw b 1 == 0 && blkDw b 2 == 0 && blkDw b 3 == 0

/-- Whether a group block is accepted by an engine (R338, R346). -/
def groupOk (g : List W64) (eng : Nat) : Bool :=
  reservedZero (blkDw g 0).toNat [(8, 8), (0, 4)] && decide (blkField g 0 0 4 = eng) && (g.drop 2).all (· == 0)

/-- Whether a descriptor and `INIT` pass the first checks of a bind (R340, R345, R347). -/
def portFieldsOk (p : Port) (init : W64) : Bool :=
  reservedZero (lget p.dws 0).toNat [(12, 52), (7, 3), (0, 1)] && p.off.isInf == false && p.off.isNan == false &&
  decide ((lget p.dws 3).toNat % 64 = 0 ∧ p.state.toNat % 64 = 0) && decide (1 ≤ p.isnd ∧ p.isnd ≤ 65536) &&
  decide (p.ircv % p.isnd = 0 ∧ 1 ≤ p.ircv / p.isnd ∧ p.ircv / p.isnd ≤ 256) && (p.lag == 1 || init == 0)

/-- Whether a remap table's header is well formed for a port (R341, R342). -/
def headerOk (p : Port) (h : List W64) : Bool :=
  let nsc := blkField h 0 32 32
  let nrc := blkField h 0 0 32
  let nnz := blkField h 1 0 32
  decide (1 ≤ nsc ∧ nsc ≤ 2 ^ 24 ∧ 1 ≤ nrc ∧ nrc ≤ 2 ^ 24 ∧ 1 ≤ nnz ∧ nnz ≤ 2 ^ 20) && decide (blkField h 2 0 32 = 0) &&
  decide (blkField h 2 48 16 = p.field 2 48 16 ∧ blkField h 2 32 16 = p.field 2 32 16) &&
  (h.drop 3).all fun v => decide (v.toNat % 4 = 0)

/-- Whether numbers strictly increase. -/
def increasing : List Nat → Bool
  | a :: b :: l => decide (a < b) && increasing (b :: l)
  | _ => true

/-- Whether numbers do not decrease. -/
def rising : List Nat → Bool
  | a :: b :: l => decide (a ≤ b) && rising (b :: l)
  | _ => true

/-- Entries `lo` to `hi - 1` of a list. -/
def slice (lo hi : Nat) (l : List α) : List α := (l.drop lo).take (hi - lo)

/-- Whether the arrays of a table are well formed (R342): measures are positive normal binary32 values. An array that could
not be read is empty and passes. -/
def arraysOk (p : Port) (nnz : Nat) (measures : List Nat) : Bool :=
  (p.rowp.isEmpty || decide (p.rowp.head? = some 0 ∧ p.rowp.getLast? = some nnz)) && rising p.rowp &&
  p.coli.all (fun i => decide (i < p.nsc)) &&
  (p.rowp.isEmpty || (List.range p.nrc).all fun j => increasing (slice (lget p.rowp j) (lget p.rowp (j + 1)) p.coli)) &&
  (p.wgt.all fun w => decide (bitsOf w.toNat 23 8 ≠ 255)) &&
  measures.all fun m => decide (m < 2 ^ 31 ∧ 1 ≤ bitsOf m 23 8 ∧ bitsOf m 23 8 ≤ 254)

/-- The entries of a table by row, column and weight. -/
def Port.entries (p : Port) : List (Nat × Nat × Exact) :=
  ((List.range p.nrc).map fun j =>
    (slice (lget p.rowp j) (lget p.rowp (j + 1)) (p.coli.zip p.wgt)).map fun e => (j, e.1, (f32.decode e.2.toNat).val)).flatten

/-- The defect of one sender cell (R342), in ULPs of its measure. -/
def cellDefect (measure sum : Exact) : Exact :=
  match measure with
  | .fin _ n d => ((sum.add .rne measure.neg).1.abs).scale (23 - floorLog2 n d)
  | _ => .nan

/-- The worst defect of a table and the lowest sender cell that has it (R342). -/
def conservation (p : Port) (as ar : List Nat) : Exact × Nat :=
  let es := p.entries
  let cells := tabulate p.nsc fun i =>
    let sum := es.foldl (fun (t : Exact) e =>
      if e.2.1 = i then (t.add .rne ((f32.decode (lget ar e.1)).val.mul e.2.2).1).1 else t) (.fin false 0 1)
    cellDefect (f32.decode (lget as i)).val sum
  cells.zipIdx.foldl (fun (w : Exact × Nat) c => if w.1.lt c.1 then c else w) (lget cells 0, 0)

/-- Whether a chain of lag-0 ports leads from one component to another, in at most `n` ports (R347). -/
def lagZeroPath (ps : List Port) : Nat → Nat → Nat → Bool
  | 0, a, b => a == b
  | n + 1, a, b => a == b || ps.any fun q => q.lag == 0 && q.scomp == a && lagZeroPath ps n q.rcomp b

/-- The ports of the graph that an engine keeps for a group (R339). -/
def State.graph (s : State) (eng : BitVec 4) (group : W64) (asid : BitVec 16) : List Port :=
  s.ports.filter fun q => q.eng == eng && q.group == group && q.asid == asid

/-- The groups whose graphs an engine holds (R339). -/
def State.graphs (s : State) (eng : BitVec 4) : List (W64 × BitVec 16) :=
  ((s.ports.filter fun q => q.eng == eng).map fun q => (q.group, q.asid)).eraseDups

/-- A port by descriptor VA and ASID (R339). -/
def State.port (s : State) (asid : BitVec 16) (desc : W64) : Option Port :=
  s.ports.find? fun q => q.asid == asid && q.desc == desc

/-- Changes a bound port. -/
def State.setPort (s : State) (p : Port) : State :=
  { s with ports := s.ports.map fun q => if q.asid = p.asid ∧ q.desc = p.desc then p else q }

/-- The outcome of a bind (R347), with the worst defect when the conservation step is reached, which asks for every array of
the table (`whole`). -/
def bindOutcome (s : State) (p : Port) (h : List W64) (as ar : List Nat) (whole : Bool) : Nat × Option (Exact × Nat) :=
  let g := s.graph p.eng p.group p.asid
  if (s.port p.asid p.desc).isSome then (stBUSY, none)
  else if !headerOk p h || !arraysOk p (blkField h 1 0 32) (as ++ ar) then (stMALFORMED, none)
  else if (g.isEmpty && decide (16 ≤ (s.graphs p.eng).length)) || decide (64 ≤ g.length) then (stFULL, none)
  else if g.any fun q => q.scomp == p.scomp && q.field 2 48 16 == p.field 2 48 16 && q.field 0 48 16 == p.field 0 48 16 &&
      q.field 0 20 28 != p.field 0 20 28 then (stMALFORMED, none)
  else if p.lag = 0 ∧ lagZeroPath g 64 p.rcomp p.scomp then (stCYCLE, none)
  else if !whole then (stOK, none)
  else
    let d := conservation p as ar
    (if (Exact.ofInt (blkField h 1 32 32)).lt d.1 then stMALFORMED else stOK, some d)

/-- The value a sum of products starts at: negative zero, which any other summand replaces (R348, R349). -/
def emptySum : Exact := .fin true 0 1

/-- What the engine keeps in its state area after a command: an encoding the spec leaves open (R343). -/
def Port.keep (p : Port) (q : EngineOp × State) : Port × EngineOp × State :=
  let n := p.areaSize
  let area := tabulate n fun i => Config.freeByte (q.2.tick + i)
  ({ p with area := area }, portWrite (p.ctx q.1) p.state area (q.1, { q.2 with tick := q.2.tick + n }))

/-- The engine writes doublewords 0, 6 and 7 of a port's descriptor (R340). -/
def Port.publish (p : Port) (bnd : Bool) (q : EngineOp × State) : EngineOp × State :=
  let d0 := withField (lget p.dws 0) 0 1 bnd.toNat
  let q := portWrite q.1.ctx' p.desc (leBytes 8 d0.toNat) q
  portWrite q.1.ctx' (p.desc + 48) (leBytes 8 (p.ntake * 2 ^ 32 + p.nsend) ++ leBytes 8 (p.nnan * 2 ^ 32 + p.nsat)) q

/-- The engine writes `NPORT` of a group block (R338). -/
def Port.publishGroup (p : Port) (n : Nat) (q : EngineOp × State) : EngineOp × State :=
  portWrite (p.ctx q.1) p.group (leBytes 8 (n * 256 + p.eng.toNat)) q

/-- Checks that the descriptor of a port may be written. -/
def Port.probeDesc (p : Port) (q : EngineOp × State) : EngineOp × State :=
  portReady q.1.ctx' (p.desc + 48) 16 (portReady q.1.ctx' p.desc 8 q)

/-- Checks that the descriptor and the state area of a port may be written; what fails in the state area of a bound port
only spoils its deliveries (R343). -/
def Port.probe (p : Port) (q : EngineOp × State) : EngineOp × State :=
  portProbe (p.ctx q.1) { write := true } p.state p.areaSize (p.probeDesc q)

/-- What a send accesses is checked before its own outcome, the data it will read too (R346, R348). -/
def Port.probeSend (p : Port) (q : EngineOp × State) : EngineOp × State :=
  portProbe q.1.ctx' {} (blkDw q.1.blk 1) (4 * p.nsc) (p.probe q)

/-- Whether a port's state area is no longer as the engine left it, or an integrity failure lies in it, or all of it
has failed (R343). -/
def Port.check (p : Port) (q : EngineOp × State) : Port × Option W64 × State :=
  let r := (pieces (p.areaSize / 4096 + 2) p.state.toNat p.areaSize).foldl (fun (r : List Byte × Option W64 × Bool × State) x =>
    match translate (p.ctx q.1) {} (BitVec.ofNat 64 x.1) x.2 1 r.2.2.2 with
    | .ok ((pa, _) :: _) s =>
      let f := s.failedVa (BitVec.ofNat 64 x.1) pa x.2
      let all := (cuts 8 (x.2 / 8 + 2) pa x.2).all fun c => !(s.failedIn c.1 c.2).isEmpty
      let s := s.meet pa x.2
      (r.1 ++ s.bytesAt pa x.2, lowerFailed r.2.1 f, r.2.2.1 && all, s)
    | .ok [] s => (r.1, r.2.1, false, s)
    | .error _ s => (r.1, r.2.1, false, s)) ([], none, true, q.2)
  ({ p with dirty := p.dirty || r.2.1.isSome || r.1 != p.area, ruined := p.ruined || r.2.2.1 }, r.2.1, r.2.2.2)

/-- A command that ends with a status and no further effect (R346). -/
def State.endWith (s : State) (o : EngineOp) (st : Nat) : State := s.endOp (o.refuse st 0)

/-- Puts an event before those that come next (R338). -/
def State.pushFirst (s : State) (i : Instr) : State := { s with agenda := .event i :: s.agenda }

/-- Whether a port's next send would have to be held (R348). -/
def Port.full (p : Port) : Bool := p.acc == 0 && decide (2 ≤ p.closed.length)

/-- Held commands of a port whose condition now holds resume before later arrivals (R338, R351). -/
def Port.wake (p : Port) (s : State) : State :=
  let s := match p.heldTake with
    | some id => if p.closed.isEmpty then s else s.pushFirst (.graftHeldResume id)
    | none => s
  match p.heldSend with
  | some id => if p.full then s else s.pushFirst (.graftHeldResume id)
  | none => s

/-- The table that a bind has read: its header, and its arrays by header doubleword 3 to 7; what could not be read is
empty. -/
structure TableRead where
  h : List W64 := []
  rowp : List Nat := []
  coli : List Nat := []
  wgt : List Nat := []
  as : List Nat := []
  ar : List Nat := []
  deriving DecidableEq, Repr

/-- Whether every part of a table was read. -/
def TableRead.whole (t : TableRead) : Bool :=
  !(t.h.isEmpty || t.rowp.isEmpty || t.coli.isEmpty || t.wgt.isEmpty || t.as.isEmpty || t.ar.isEmpty)

/-- An array of a table at the fork's snapshot (R106, R341). -/
def readArray (va : W64) (n : Nat) (q : EngineOp × State) : List Nat × EngineOp × State :=
  let r := portRead q.1.ctx' va (4 * n) q
  ((r.1.map nat32s).getD [], r.2)

/-- Reads the table of a port that is being bound (R341, R343): the arrays only under a well-formed header. -/
def readTable (p : Port) (q : EngineOp × State) : TableRead × EngineOp × State :=
  let (hb, q) := portRead q.1.ctx' (lget p.dws 3) 64 q
  let h := (hb.map dwords).getD []
  if !headerOk p h then ({ h := h }, q)
  else
    let nnz := blkField h 1 0 32
    let (rowp, q) := readArray (blkDw h 3) (blkField h 0 0 32 + 1) q
    let (coli, q) := readArray (blkDw h 4) nnz q
    let (wgt, q) := readArray (blkDw h 5) nnz q
    let (as, q) := readArray (blkDw h 6) (blkField h 0 32 32) q
    let (ar, q) := readArray (blkDw h 7) (blkField h 0 0 32) q
    (⟨h, rowp, coli, wgt, as, ar⟩, q)

/-- A port with the table that was read, and windows empty or, with `LAG` = 1, holding `INIT` (R343, R347). -/
def Port.withTable (p : Port) (t : TableRead) (init : List Nat) : Port :=
  let nsc := blkField t.h 0 32 32
  { p with nsc := nsc, nrc := blkField t.h 0 0 32, rowp := t.rowp, coli := t.coli, wgt := t.wgt.map (BitVec.ofNat 32),
           sums := List.replicate nsc emptySum,
           closed := if p.lag = 1 then [(-1, init.map fun x => (f32.decode x).val)] else [] }

/-- The port that an FPBIND names, from its descriptor's bytes (R340). -/
def EngineOp.newPort (o : EngineOp) (db : List Byte) : Port :=
  { asid := o.asid, desc := blkDw o.blk 0, group := blkDw o.blk 1, eng := BitVec.ofNat 4 o.unit.2, dws := (dwords db).take 6,
    nsc := 0, nrc := 0, rowp := [], coli := [], wgt := [], sums := [], window := o.ctx'.window, recNo := o.ctx'.recNo }

/-- The end of a bind whose port is known (R346, R347): MALFORMED before what its accesses met, and that before the
other outcomes. -/
def finishBind (p : Port) (t : TableRead) (q : EngineOp × State) : State :=
  let out := bindOutcome q.2 p t.h t.as t.ar t.whole
  let worst := match out.2 with | some d => BitVec.ofNat 64 (f64.encode .rup d.1).1 | none => 0
  let o := match out.2 with
    | some d => { q.1 with dw2 := worst, dws := [BitVec.ofNat 64 d.2, 0, 0, 0] }
    | none => q.1
  if out.1 = stMALFORMED ∧ !t.h.isEmpty then
    q.2.endOp (o.refuse stMALFORMED (firstMisaligned ((t.h.drop 3).map fun a => (a, 4))))
  else if o.stopped then q.2.endOp o
  else if out.1 ≠ stOK then q.2.endWith o out.1
  else if o.status ≠ stOK then q.2.endOp o
  else
    let (p, q) := ({ p with worst := worst } : Port).keep (o, q.2)
    let q := p.publish true (p.publishGroup ((q.2.graph p.eng p.group p.asid).length + 1) q)
    ({ q.2 with ports := q.2.ports ++ [p] }).endOp q.1

/-- FPBIND with `UNB` = 0 (R347). -/
def bindPort (o : EngineOp) (s : State) : State :=
  let init := blkDw o.blk 3
  let (db, q) := portRead o.ctx' (blkDw o.blk 0) 64 (o, s)
  let (gb, q) := portRead o.ctx' (blkDw o.blk 1) 64 q
  let badGroup := gb.any fun b => !groupOk (dwords b) o.unit.2
  match db with
  | none => q.2.endOp (if badGroup then q.1.refuse stMALFORMED 0 else q.1)
  | some db =>
    let p := o.newPort db
    if badGroup || !portFieldsOk p init then
      q.2.endOp (q.1.refuse stMALFORMED (firstMisaligned [(lget p.dws 3, 64), (p.state, 64)]))
    else
      let (t, q) := readTable p q
      if t.h.isEmpty || !headerOk p t.h then finishBind p t q
      else
        let (ib, q) := if p.lag = 1 then readArray init (blkField t.h 0 32 32) q else ([], q)
        let p := p.withTable t ib
        let size := 256 + 192 * p.nsc + 8 * blkField t.h 1 0 32 + 4 * (p.nrc + 1)
        finishBind p t (portReady (p.ctx o) p.group 8 (portReady (p.ctx o) p.state size (p.probeDesc q)))

/-- A held command that an unbind discards completes MALFORMED (R347). -/
def State.discardHeld (s : State) (h : Option Nat) : State :=
  match h with
  | none => s
  | some id => match s.ops.find? (·.id == id) with
    | some o => s.endWith o stMALFORMED
    | none => s

/-- The port a command names, when it is bound on this engine and its group block, as far as it can be read, is accepted;
else the command ends (R339, R346). -/
def withPort (o : EngineOp) (s : State) (f : Port → EngineOp × State → State) : State :=
  match s.port o.asid (blkDw o.blk 0) with
  | none => s.endOp (o.meet stMALFORMED)
  | some p =>
    let (gb, q) := portRead (p.ctx o) p.group 64 (o, s)
    if p.eng.toNat ≠ o.unit.2 then s.endOp (o.meet stMALFORMED)
    else if gb.any fun b => !groupOk (dwords b) p.eng.toNat then q.2.endOp (q.1.refuse stMALFORMED 0)
    else f p q

/-- FPBIND with `UNB` = 1 (R347). -/
def unbindPort (o : EngineOp) (s : State) : State :=
  withPort o s fun p q =>
    if p.group ≠ blkDw o.blk 1 then q.2.endOp (q.1.refuse stMALFORMED 0)
    else
      let q := portReady (p.ctx o) p.group 8 (p.probeDesc q)
      if q.1.status ≠ stOK then q.2.endOp q.1
      else
        let s := { q.2 with ports := q.2.ports.filter fun x => !(x.asid == p.asid && x.desc == p.desc) }
        let s := (s.discardHeld p.heldSend).discardHeld p.heldTake
        let q := p.publish false (p.publishGroup (s.graph p.eng p.group p.asid).length (q.1, s))
        q.2.endOp q.1

/-- The snapshot of a send enters the open window (R348). -/
def Port.accept (p : Port) (x : List Exact) (dur : Nat) : Port :=
  let sums := (p.sums.zip x).map fun a => (a.1.add .rne ((Exact.ofInt dur).mul a.2).1).1
  let acc := p.acc + dur
  let p := { p with nsend := (p.nsend + 1) % 2 ^ 32 }
  if acc = p.ircv then
    { p with closed := p.closed ++ [((p.opened : Int), sums.map fun a => (a.div (Exact.ofInt p.ircv)).1)],
             opened := p.opened + 1, acc := 0, sums := List.replicate p.nsc emptySum }
  else { p with acc := acc, sums := sums }

/-- A send that is not held is performed: the snapshot is read now, and one that meets a fault or a failure changes nothing
of the port (R346, R348, R352). -/
def performSend (p : Port) (q : EngineOp × State) : State :=
  let p := { p with heldSend := if p.heldSend = some q.1.id then none else p.heldSend }
  let (data, q) := portRead q.1.ctx' (blkDw q.1.blk 1) (4 * p.nsc) q
  if q.1.status ≠ stOK then (q.2.setPort p).endOp q.1
  else
    let (p, _, s) := p.check q
    let dur := blkField q.1.blk 2 0 32
    let x := (nat32s (data.getD [])).map fun x => (f32.decode x).val
    let w := p.opened
    let p := p.accept x dur
    let o := { q.1 with dw2 := BitVec.ofNat 64 (w % 2 ^ 32 * 2 ^ 32 + p.acc) }
    let (p, q) := p.keep (o, s)
    let q := p.publish true q
    p.wake ((q.2.setPort p).endOp q.1)

/-- FPSEND (R348, R351). -/
def sendPort (o : EngineOp) (s : State) : State :=
  withPort o s fun p q =>
    let dur := blkField o.blk 2 0 32
    let q := p.probeSend q
    if dur = 0 ∨ p.isnd < dur ∨ p.ircv < p.acc + dur then q.2.endOp (q.1.refuse stMALFORMED 0)
    else if q.1.stopped then q.2.endOp q.1
    else if p.heldSend.isSome then q.2.endWith q.1 stBUSY
    else if p.full then (q.2.setOp { q.1 with st := .held }).setPort { p with heldSend := some q.1.id }
    else performSend p q

/-- The remapped value of a receiver cell (R349). -/
def remapped (p : Port) (avg : List Exact) (j : Nat) : Exact :=
  let es := slice (lget p.rowp j) (lget p.rowp (j + 1)) (p.coli.zip p.wgt)
  if es.isEmpty then .fin false 0 1
  else es.foldl (fun (t : Exact) e => (t.add .rne ((f32.decode e.2.toNat).val.mul (lget avg e.1)).1).1) emptySum

/-- The narrow code of a value (R176, R349) and whether it saturated. -/
def Port.code (p : Port) (y : Exact) : Nat × Bool :=
  let v := ((y.add .rne p.off.neg).1).scale p.nsh
  let r : Nat × Flg := match p.field 0 8 2 with
    | 0 => encodeE4m3 .rne v
    | 1 => saturateE5m2 v
    | 2 => let r := quantInt (-128) 127 v; ((r.1 % 256).toNat, r.2)
    | _ => let r := quantInt (-8) 7 v; ((r.1 % 16).toNat, r.2)
  (r.1, !y.isNan && r.2 &&& (nvFlag ||| ofFlag) != 0)

/-- The value of a narrow code in physical units (R349, form 2). -/
def Port.physical (p : Port) (c : Nat) : Exact :=
  let fmt := match p.field 0 8 2 with | 0 => 2 | 1 => 3 | 2 => 0 | _ => 1
  (((codeValue fmt c).val.scale (-p.nsh)).add .rne p.off).1

/-- The bytes of a receiver cell in a form (R349). -/
def Port.cell (p : Port) (form : Nat) (y : Exact) : List Byte :=
  match form with
  | 0 => [BitVec.ofNat 8 (p.code y).1]
  | 1 => leBytes 4 (f32.encode .rne y).1
  | _ => leBytes 4 (f32.encode .rne (p.physical (p.code y).1)).1

/-- Bytes of a delivery (R349). -/
def takeBytes (p : Port) (form : Nat) : Nat := p.nrc * (if form = 0 then 1 else 4)

/-- A take whose window is closed is performed (R343, R349, R352). A state area that failed as a
whole spoils the delivery; whether any other change does depends on an encoding the spec leaves open. A failure met elsewhere
stops no delivery, but leaves the port as it was (R324, R346). -/
def performTake (p : Port) (q : EngineOp × State) : State :=
  match p.closed with
  | [] => q.2
  | (w, avg) :: rest =>
    let (p, failed, s) := p.check q
    let form := blkField q.1.blk 2 0 2
    let (bad, s) := if p.ruined then (true, s) else if p.dirty then (Config.freeKeep s.tick, { s with tick := s.tick + 1 }) else (false, s)
    let ys := tabulate p.nrc (remapped p avg)
    let nan := (ys.filter Exact.isNan).length
    let sat := (ys.filter fun y => (p.code y).2).length
    let data := if bad then List.replicate (takeBytes p form) 0 else (ys.map (p.cell form)).flatten
    let o := { q.1 with bytes := data.length,
                        dw2 := BitVec.ofNat 64 ((w % 2 ^ 32).toNat * 2 ^ 32 + if bad then 0 else sat),
                        dws := [if bad then 0 else BitVec.ofNat 64 nan, 0, 0, 0] }
    let q := portWrite o.ctx' (blkDw o.blk 1) data ((if bad then (o.meet stZEROED).zeroed failed else o), s)
    let done := { p with heldTake := if p.heldTake = some o.id then none else p.heldTake }
    if !bad && q.1.status ≠ stOK then (q.2.setPort done).endOp q.1
    else
      let p := { done with closed := rest, ntake := (p.ntake + 1) % 2 ^ 32,
                           nsat := if bad then p.nsat else (p.nsat + sat) % 2 ^ 32,
                           nnan := if bad then p.nnan else (p.nnan + nan) % 2 ^ 32 }
      let (p, q) := p.keep q
      let q := p.publish true q
      p.wake ((q.2.setPort p).endOp q.1)

/-- What a take accesses is checked before its own outcome, the delivery's range too (R346, R349). -/
def Port.probeTake (p : Port) (q : EngineOp × State) : EngineOp × State :=
  p.probe (portProbe q.1.ctx' { write := true } (blkDw q.1.blk 1) (takeBytes p (blkField q.1.blk 2 0 2)) q)

/-- FPTAKE (R349, R351). -/
def takePort (o : EngineOp) (s : State) : State :=
  withPort o s fun p q =>
    let q := p.probeTake q
    if q.1.stopped then q.2.endOp q.1
    else if p.heldTake.isSome then q.2.endWith q.1 stBUSY
    else if p.closed.isEmpty then (q.2.setOp { q.1 with st := .held }).setPort { p with heldTake := some o.id }
    else performTake p q

/-- FPSTAT (R350, R352). -/
def statPort (o : EngineOp) (s : State) : State :=
  withPort o s fun p q =>
    if q.1.stopped then q.2.endOp q.1
    else q.2.endOp { q.1 with dw2 := BitVec.ofNat 64 p.nsend,
                              dws := [BitVec.ofNat 64 p.ntake, BitVec.ofNat 64 p.nsat, BitVec.ofNat 64 p.nnan, p.worst] }

/-- A graft engine's work on a command (R346). -/
def State.startPort (s : State) (o : EngineOp) : State :=
  if !portBlockOk o then s.endOp o.badBlock
  else match o.cmd with
    | 8 => if blkField o.blk 2 0 1 = 1 then unbindPort o s else bindPort o s
    | 9 => sendPort o s
    | 10 => takePort o s
    | _ => statPort o s

/-- A held command resumes once its window is free or closed (R351). -/
def State.resumeHeld (s : State) (id : Nat) : State :=
  match s.ops.find? (fun o => o.id == id && decide (o.st = .held)), s.ports.find? (fun p => p.heldSend == some id || p.heldTake == some id) with
  | some o, some p =>
    if p.heldSend = some id then
      if p.full then s
      else
        let q := p.probeSend (o, s)
        if q.1.stopped then (q.2.setPort { p with heldSend := none }).endOp q.1 else performSend p q
    else if p.closed.isEmpty then s
    else
      let q := p.probeTake (o, s)
      if q.1.stopped then (q.2.setPort { p with heldTake := none }).endOp q.1 else performTake p q
  | _, _ => s

/-- The command block of a PORT instruction gives it system scope, wider than any its addresses could need
(R105, R344). -/
def portCommand (cmd : Nat) (a tag : Spec) : M Next := do
  checkSrc a
  let s0 ← get
  let va ← readScalar a
  issueCommand s0 cmd tag readBlock va fun _ _ => pure .system

/-- FPBIND (R344, R347). -/
def execFpbind (a c : BitVec 6) (s : State) : Res := word (.fpbind a c) (portCommand 8 a c) s
/-- FPSEND (R344, R348). -/
def execFpsend (a c : BitVec 6) (s : State) : Res := word (.fpsend a c) (portCommand 9 a c) s
/-- FPTAKE (R344, R349). -/
def execFptake (a c : BitVec 6) (s : State) : Res := word (.fptake a c) (portCommand 10 a c) s
/-- FPSTAT (R344, R350). -/
def execFpstat (a c : BitVec 6) (s : State) : Res := word (.fpstat a c) (portCommand 11 a c) s
/-- GRAFT_HELD_RESUME (R351). -/
def execGraftHeldResume (op : Nat) (s : State) : Res := event (fun s => (s.resumeHeld op).serve) s

end Sys2Proof.Machine
end

