-- ==== Sys2Proof/Machine/Complete.lean ====
section
/-! DEFINITION. The start of an engine operation and its end: record, tag, completion counter (R155, R322-R326). -/

namespace Sys2Proof.Machine

/-- The command block of a message the paddock built, read by the engine at its `TILE0` address (R325, R353). -/
def State.fetchBlock (s : State) (o : EngineOp) : EngineOp × State :=
  if o.tag.isSome then (o, s)
  else
    let va := s.recDw (fieldOf o.launch 0 14) 24 + BitVec.ofNat 64 (64 * o.bytes)
    let r := readRange o.ctx' o.reader va 64 s
    let o := { o with blk := dwords r.1.data, bytes := 0 }
    (match r.1.fault with | some f => o.stop f | none => { o with seen := r.1.seen }.zeroed r.1.failed, r.2)

/-- An engine takes a message from its inbox and starts work (R155). -/
def State.startOp (s : State) (id : Nat) : State :=
  match s.ops.find? fun o => o.id == id && decide (o.st = .queued) with
  | none => s
  | some o =>
    let (o, s) := s.fetchBlock o
    if o.stopped then s.endOp o
    else if 8 ≤ o.cmd then s.startPort o
    else if !blockOk s o then s.endOp o.badBlock
    else if o.cmd = 7 then s.startWsload o
    else if 5 ≤ o.cmd then s.startIo o
    else s.startCopy o

/-- The task that has waited longest for an inbox that now has room, its message, its packet and its pops (R311). -/
def State.admissible (s : State) : Option (Nat × EngineOp × List W32 × List Nat) :=
  let ws := s.allTasks.filterMap fun t => match t.waitOn with
    | .inbox o pkt pops => if t.status = .running ∧ !s.inboxFull o.unit then some (t.key, o, pkt, pops) else none
    | _ => none
  ws.foldl (fun (b : Option (Nat × EngineOp × List W32 × List Nat)) x => match b with
    | some y => if x.2.1.id < y.2.1.id then some x else some y
    | none => some x) none

/-- The current task's message enters the inbox it waited for: its instruction is complete (R311, step 4). -/
def State.entered (s : State) (o : EngineOp) (pkt : List W32) (pops : List Nat) : State :=
  let s := (s.enterInbox o).setCluster (clusterId s.task.core) fun c =>
    { c with queues := c.queues.zipIdx.map fun q => q.1.drop (lget pops q.2) }
  let busy := !s.task.high && s.highRuns s.task.core
  let s := s.setTask fun t => { t with pkt := pkt, waitOn := .nothing, status := if busy then .suspended else .running }
  (s.retire s.task.hints s.task.pc .seq).serve

/-- Messages enter the inboxes that have room, in the order in which they were issued, `n` at most (R311). -/
def State.letEnterN : Nat → State → State
  | 0, s => s
  | n + 1, s => match s.admissible with
    | none => s
    | some x => (s.asTask x.1 (·.entered x.2.1 x.2.2.1 x.2.2.2)).letEnterN n

/-- Messages that wait for an inbox enter it (R311). -/
def State.letEnter (s : State) : State := s.letEnterN s.allTasks.length

/-- A completion record (R323, R352). -/
def EngineOp.record (o : EngineOp) (peer : BitVec 16) : List Byte :=
  let d0 := (if o.status = stPEER then peer.toNat else 0) * 2 ^ 48 + o.cause % 256 * 2 ^ 32 + o.cmd % 16 * 2 ^ 20 +
    ((o.tag.map (·.toNat)).getD 0) * 2 ^ 14 + o.fpv.toNat * 2 ^ 8 + o.status % 256
  ([BitVec.ofNat 64 d0, BitVec.ofNat 64 o.bytes, o.dw2, o.recordVa] ++ o.dws).flatMap fun d => leBytes 8 d.toNat

/-- The die's count of records not written and completion adds not made (R322). -/
def State.countLost (s : State) (o : EngineOp) : State :=
  s.setDie o.core.die.toNat fun d => { d with recLost := d.recLost + 1 }

/-- Step 2 of R322: the record is written to the reply address. -/
def State.writeRecord (s : State) (o : EngineOp) (peer : BitVec 16) : State :=
  match o.reply with
  | none => s
  | some va =>
    match translate o.ctx' { write := true } va 64 64 s with
    | .ok ((pa, _) :: _) s => s.enginePut (.task o.task) pa (o.record peer)
    | .ok [] s => s
    | .error _ s => s.countLost o

/-- A task whose tag wait is satisfied goes on, joining at a position of its own (R107, R134, R326). -/
def State.tagWake (s : State) (key : Nat) : State :=
  match s.taskOf key with
  | none => s
  | some t =>
    let done : Bool := match t.waitOn with
      | .tagAny m => t.tags &&& m != 0
      | .tagAll m => t.tags &&& m == m
      | _ => false
    if done ∧ t.status = .waiting then
      let (pos, s) := s.nextPos
      s.completeWait key fun t => { t with snapshot := pos }
    else s

/-- Step 3 of R322: the tag bit is set wherever the task then is, in the saved image of one that is SAVED (R384). -/
def State.setTag (s : State) (o : EngineOp) : State :=
  match o.tag with
  | none => s
  | some n => (s.amend o.task fun t => { t with tags := t.tags ||| (1#64 <<< n.toNat) }).tagWake o.task

/-- Step 4 of R322: the completion counter, which the engine adds to (R68, R97). -/
def State.completionAdd (s : State) (o : EngineOp) : State :=
  let va := blkDw o.blk 7
  if va = 0 ∨ o.status = stTAGFAIL then s
  else match translate o.ctx' { write := true, sync := true } va 8 8 s with
    | .ok ((pa, _) :: _) s => s.counterPut .other pa 1
    | .ok [] s => s
    | .error _ s => s.countLost o

/-- The end of an engine operation (R119, R151, R321, R322, R325). -/
def State.completeOp (s : State) (o : EngineOp) (peer : BitVec 16) : State :=
  let s := ((s.writeRecord o peer).setTag o).completionAdd o
  let s := match o.wsDie with
    | some d =>
      let still := s.ops.any fun x => x.id != o.id && x.wsDie == some d
      s.setDie d fun x => { x with wsLoading := still }
    | none => s
  let s := if o.tag.isNone ∧ o.status ≠ stOK then s.markBad o.launch else s
  let s := { s with ops := s.ops.filter (·.id != o.id) }
  (s.serve).checkComplete o.launch

/-- An operation completes: one whose data is done, or an I/O operation whose peer reports its end (R109, R320). -/
def State.engineEnd (s : State) (id : Nat) (peer : BitVec 16) : State :=
  match s.ops.find? (·.id == id) with
  | none => s
  | some o =>
    if o.st = .finished then s.completeOp o 0
    else if o.st = .remote ∧ (o.cmd = 5 ∨ o.cmd = 6) then let r := s.ioEnd o peer; r.1.completeOp r.2 peer
    else s

/-- Puts bytes at the destination of a remote read as they come in (`sent`), and notes those the source held in the stream
(R45, R80, R317). -/
def State.putPart (s : State) (o : EngineOp) (dst : W64) (off : Nat) (data sent : List Byte) : EngineOp × State :=
  let w := writeRange o.ctx' { write := true } (.task o.task) dst sent s
  let o := { o with got := o.got ++ [(off, data)] }.zeroed w.1.failed
  (match w.1.fault with | some f => o.stopAt f (off + w.1.data.length) | none => o, w.2)

/-- An answer of the fabric to a part of an operation for bytes at a remote VA (R46, R324, R398, R412): data for a remote
read, a status for either. When the last part is answered, the operation's data is done. DESIGN CHOICE (log entry 35): a reply
names no VA, and the failed VA of a part answered ZEROED is taken to be that part's first. -/
def State.partAnswer (s : State) (id : Nat) (dst va : W64) (off : Nat) (status : Nat) (cause : Nat) (data : List Byte) : State :=
  match s.ops.find? fun o => o.id == id && decide (o.st = .remote) with
  | none => s
  | some o =>
    let o := { o with parts := o.parts - 1 }
    let (o, s) :=
      if status = stOK ∨ status = stZEROED ∨ status = stTAGFAIL then
        let o := if status = stZEROED then o.zeroed (some va) else o.meet status
        if data.isEmpty then (o, s)
        else if status = stTAGFAIL then
          let zeros := List.replicate data.length 0
          s.putPart o dst off zeros zeros
        else s.putPart o dst off data (flipAt o.flip off data)
      else
        let first := o.reports status off
        ({ o.meet status with cause := if first then cause else o.cause, bytes := min o.bytes off,
                              errva := if first && (status == stXLATE || status == stPERM) then some va else o.errva }, s)
    if o.parts = 0 then s.endOp o else s.setOp o

/-- ENGINE_OPERATION_START (R155). -/
def execEngineOperationStart (op : Nat) (s : State) : Res := event (fun s => ((s.startOp op).serve).letEnter) s
/-- ENGINE_COMPLETION (R322). -/
def execEngineCompletion (op : Nat) (peer : BitVec 16) (s : State) : Res := event (·.engineEnd op peer) s

end Sys2Proof.Machine
end

