-- ==== Sys2Proof/Machine/Fabric.lean ====
section
/-! DEFINITION. Packets of the Rilah fabric (R390-R407): membership, forwarding, requests performed at this device,
and answers to its own. -/

namespace Sys2Proof

/-- Whether a packet is a reply (R397). -/
def Packet.reply (p : Packet) : Bool := p.op == 0x10 || p.op == 0x11

/-- The flits a packet takes (R393, R395). -/
def Packet.flits (p : Packet) : Nat := (32 + p.data.length + 239) / 240

/-- The words of a message (R395). -/
def Packet.words (p : Packet) : List W32 :=
  (Machine.chunks 4 p.data.length p.data).map fun w => BitVec.ofNat 32 (Machine.leNat w)

/-- The cluster a request names (R46, R434). DESIGN CHOICE (log entry 28): the header of R395 has no field that names it, so
that which it is stays a free constant of the header. -/
def Packet.cluster (p : Packet) : BitVec 2 × BitVec 6 := Config.requestCluster p.h0 p.h1 p.h2 p.h3

end Sys2Proof

namespace Sys2Proof.Machine

/-- Whether a job key is in a link's membership table (R405); key 0 never matches. -/
def Link.member (l : Link) (jkey : BitVec 32) : Bool := jkey != 0 && (List.range 1024).any fun k => l.key k == jkey

/-- The die a link is attached to (R389). -/
def linkDie (n : BitVec 4) : Nat := n.toNat % 4

/-- The flits of a class and network that links still have to send for an input port out of its buffer (R391, R399). -/
def State.portForwards (s : State) (n : Nat) (cls net : BitVec 2) : Nat :=
  ((List.range 14).map fun k =>
    (((if cls = 1 then (s.link k).sendU else (s.link k).sendB).filter fun q =>
        q.src == some (BitVec.ofNat 4 n) && !q.reserved).map fun q =>
      q.flits.countP fun f => flitNet f == net.toNat).sum).sum

/-- Flits a port holds of a class and network (R399): in reassembly, but for what has space of its own (R391), in a frame
not yet verified (R408), in packets that wait, and in packets that go on. A K flit acts as it arrives, so that the buffer
of class K holds none. -/
def State.portUsed (s : State) (n : Nat) (cls net : BitVec 2) : Nat :=
  let l := s.link n
  ((l.ctxs.filter fun c => c.cls == cls && c.net == net && !c.reserved).map (·.flits.length)).sum +
  (l.rxFrame.countP fun f => flitCls f == cls.toNat && flitNet f == net.toNat) +
  ((s.heldPkts.filter fun h => h.link.toNat == n && h.cls == cls && h.net == net).map (·.pkt.flits)).sum +
  s.portForwards n cls net

/-- Sends XOFF or XON for a class and network when its watermark is crossed (R399). -/
def State.flowPair (s : State) (n : Nat) (p : BitVec 2 × BitVec 2) : State :=
  let urgent := decide (p.1 = 1)
  let free := (if urgent then 80 else 192) - s.portUsed n p.1 p.2
  let stopped := (s.link n).stopped.contains p
  let rest := [p.1.setWidth 8, p.2.setWidth 8]
  if free < (if urgent then 68 else 128) ∧ !stopped then
    (s.setLink n fun l => { l with stopped := l.stopped ++ [p] }).queueK n (kFlit 1 rest)
  else if (if urgent then 76 else 136) ≤ free ∧ stopped then
    (s.setLink n fun l => { l with stopped := l.stopped.filter (· != p) }).queueK n (kFlit 2 rest)
  else s

/-- Flow control of a port after its buffers have changed (R399). -/
def State.flow (s : State) (n : Nat) : State :=
  [(1, 0), (1, 1), (1, 2), (2, 0), (2, 1), (2, 2)].foldl (fun s p => s.flowPair n p) s

/-- Whether two arrivals are copies of one request (R403). -/
def Arrival.same (a b : Arrival) : Bool := a.pkt.sdev == b.pkt.sdev && a.pkt.pid == b.pkt.pid

/-- Holds a packet in its port, in place of an earlier copy of it (R137, R402). -/
def State.hold (s : State) (a : Arrival) : State :=
  let s := if s.heldPkts.any a.same then
      { s with heldPkts := s.heldPkts.map fun h => if a.same h then { h with pkt := a.pkt, tnt := h.tnt || a.tnt } else h }
    else { s with heldPkts := s.heldPkts ++ [a] }
  s.flow a.link.toNat

/-- A packet no longer held. -/
def State.release (s : State) (a : Arrival) : State :=
  if s.heldPkts.any a.same then { s with heldPkts := s.heldPkts.filter (!a.same ·) }.flow a.link.toNat else s

/-- The context in which a port translates (R46, R406): a local-window address is one of the scratchpad of the cluster that
the request names, to which the named regions there apply (R25, R434). -/
def State.arrivalCtx (s : State) (a : Arrival) : Ctx :=
  let c := a.pkt.cluster
  ⟨BitVec.ofNat 16 (fieldOf a.pkt.h1 24 16), linkDie a.link, none, some (c.1.toNat, c.2.toNat),
    ((s.occupants (c.1.toNat * 64 + c.2.toNat)).head?).map (·.recNo.toNat)⟩

/-- Answers a request's packet (R398). -/
def State.reply (s : State) (p : Packet) (status : Nat) (data : Option (List Byte)) : State :=
  s.answer p.sdev p.pid p.jkey status data

/-- A packet with an operation or a form that does not exist is discarded and counted (R397). -/
def State.dropOp (s : State) (n : BitVec 4) : State := s.setDie (linkDie n) fun d => { d with opDrops := d.opDrops + 1 }

/-- Status of a request that met a failure or not (R406). -/
def metStatus (failed : Bool) : Nat := if failed then stZEROED else stOK

/-- A fault at an ingress as a status (R406). -/
def ingressStatus : Exc → Nat
  | .trap c _ => faultStatus c
  | .stall => stXLATE

/-- MSG at its device (R397, R398). -/
def State.doMsg (s : State) (a : Arrival) : State :=
  match s.accept a.pkt.h3 a.pkt.words with
  | none => s.hold a
  | some s => (s.release a).reply a.pkt stOK none

/-- A full/empty write at its home (R69, R77, R116): mode 2 waits while the word is full. At a word that it finds failed, and
so empty, the writes that waited there before it come first (R78, R80, log entry 35). -/
def State.doFeWrite (s : State) (a : Arrival) : State :=
  let p := a.pkt
  match translate1 (s.arrivalCtx a) { write := true, fe := true } p.h3 8 s with
  | .error e s => s.reply p (ingressStatus e) none
  | .ok pa s =>
    let failed := p.fem == 2 && !(s.failedIn pa 8).isEmpty
    let s := if p.fem = 2 then s.meet pa 8 else s
    if p.fem = 2 ∧ s.isFull pa then
      ((s.closeAt pa).addWaiter ⟨0, pa, .remoteWrite p.sdev p.pid p.jkey (BitVec.ofNat 64 (leNat p.data)), p.h3, 0⟩).serve
    else
      (((s.homePut (p.fem == 4) .other pa p.data).setFull pa true).serve).reply p (metStatus failed) none

/-- WRITE at its device (R116, R397, R406). -/
def State.doWrite (s : State) (a : Arrival) : State :=
  let p := a.pkt
  let n := p.data.length
  if p.fem = 0 ∧ p.h3.toNat % 4096 + n ≤ 4096 then
    let w := writeRange (s.arrivalCtx a) { write := true } .other p.h3 p.data s
    match w.1.fault with
    | some f => w.2.reply p (faultStatus f.1) none
    | none => (w.2.serve).reply p (metStatus w.1.failed.isSome) none
  else if (p.fem = 2 ∨ p.fem = 4) ∧ n = 8 ∧ p.h3.toNat % 8 = 0 then s.doFeWrite a
  else s.dropOp a.link

/-- A full/empty read at its home (R69, R77, R89, R116): mode 1 waits while the word is empty; mode 3 gives zero for an empty
word. One that meets an integrity failure finds zero and ends ZEROED (R80, R406). -/
def State.doFeRead (s : State) (a : Arrival) : State :=
  let p := a.pkt
  match translate1 (s.arrivalCtx a) { fe := true } p.h3 8 s with
  | .error e s => s.reply p (ingressStatus e) none
  | .ok pa s =>
    let full := s.fullAt pa
    let failed := !(s.failedIn pa 8).isEmpty
    if p.fem = 1 ∧ !full ∧ !failed then ((s.closeAt pa).addWaiter ⟨0, pa, .remoteRead p.sdev p.pid p.jkey, p.h3, 0⟩).serve
    else
      let s := (s.meetFailures pa 8).closeAt pa
      let v := if full then s.bytesAt pa 8 else List.replicate 8 0
      let s := (if p.fem = 1 then s.setFull pa false else s).nextPos.2
      (s.serve).reply p (metStatus failed) (some v)

/-- READ at its device (R116, R397, R406): its snapshot point is where the request came in, and what it has read of each byte
is noted of its port (R93, R94). -/
def State.doRead (s : State) (a : Arrival) : State :=
  let p := a.pkt
  let n := leNat p.data
  if p.data.length = 8 ∧ p.fem = 0 ∧ p.h3.toNat % 4096 + n ≤ 4096 then
    let r := readRange (s.arrivalCtx a) (s.portReader a.link.toNat a.pos) p.h3 n s
    let s := { r.2 with portSeen := setKey r.2.portSeen a.link.toNat r.1.seen }
    match r.1.fault with
    | some f => s.reply p (faultStatus f.1) none
    | none => s.reply p (metStatus r.1.failed.isSome) (some r.1.data)
  else if p.data.length = 8 ∧ (p.fem = 1 ∨ p.fem = 3) ∧ n = 8 ∧ p.h3.toNat % 8 = 0 then s.doFeRead a
  else s.dropOp a.link

/-- A tainted request (R412): a write's range is zeroed, a message is discarded and counted, nothing else happens,
and the answer is TAGFAIL. -/
def State.doTainted (s : State) (a : Arrival) : State :=
  let p := a.pkt
  let s := if p.op = 1 then s.setDie (linkDie a.link) fun d => { d with tntDrops := d.tntDrops + 1 }
    else if p.op = 2 then (writeRange (s.arrivalCtx a) { write := true } .other p.h3 (List.replicate p.data.length 0) s).2.serve
    else s
  s.reply p stTAGFAIL none

/-- Whether a keyed packet's predecessor is still to be performed (R402): not of one so old that no request can still be
unanswered, whose record is let go (R396). -/
def State.awaited (s : State) (p : Packet) : Bool :=
  p.key != 0 && p.kprv != 0 && !s.performed.contains (p.sdev, p.kprv) && recentPid (s.topPid p.sdev p.pid) p.kprv

/-- A request for this device (R402, R403): a copy of an answered one is answered again, of a waiting one dropped; a
keyed one waits for its predecessor. -/
def State.request (s : State) (a : Arrival) : State :=
  let p := a.pkt
  let waits := (s.waiters ++ s.refusedWaits).any fun w => match w.kind with
    | .remoteRead src pid _ | .remoteWrite src pid _ _ => src == p.sdev && pid == p.pid
    | _ => false
  match s.answers.find? fun x => x.src == p.sdev && x.pid == p.pid with
  | some x => s.sendReply x.reply
  | none =>
    if waits || s.performed.contains (p.sdev, p.pid) then s
    else if s.awaited p then s.hold a
    else if a.tnt then (s.release a).doTainted a
    else if p.op = 1 then s.doMsg a
    else if p.op = 2 then (s.release a).doWrite a
    else (s.release a).doRead a

/-- Sends a kept request again (R403). -/
def State.resendRequest (s : State) (r : Request) : State :=
  s.transmit r.dev (if r.urgent then 1 else 2) r.net.toNat r.pkt.key r.pkt

/-- Sends a kept request once more, unless it has been sent eight times (R403). -/
def State.againRequest (s : State) (r : Request) : State :=
  if 8 ≤ r.sends then s
  else
    let q := { r with sends := r.sends + 1 }
    ({ s with requests := s.requests.map fun x => if x = r then q else x }).resendRequest q

/-- After a keyed request ended REMOTE, the later ones of its key and destination are sent again, with their
predecessor past it, which restarts their count of sends (R402). -/
def State.rechain (s : State) (r : Request) : State :=
  if r.pkt.key = 0 then s
  else
    let k := r.dev.toNat * 65536 + r.pkt.key.toNat
    let s := if (lookupKey s.lastKeyed k).getD 0 = r.pid then { s with lastKeyed := setKey s.lastKeyed k r.pkt.kprv } else s
    let mine := fun (q : Request) => q.dev == r.dev && q.pkt.key == r.pkt.key
    let later := ((s.requests.dropWhile (· != r)).drop 1).filter mine
    let fresh := fun (q : Request) =>
      if q.pkt.kprv = r.pid then { q with sends := 0, pkt := { q.pkt with h2 := withField q.pkt.h2 0 32 r.pkt.kprv.toNat } }
      else q
    let s := { s with requests := s.requests.map fun q => if later.contains q then fresh q else q }
    (later.map fresh).foldl State.againRequest s

/-- The cause a failed part of an operation records (R323): of a translation failure elsewhere only that it was one is
known (log entry 4). -/
def State.remoteCause (s : State) (status : Nat) : Nat × State :=
  if status = stPERM then (0x11, s)
  else if status = stXLATE then let (k, s) := s.draw 4; (lget [0x10, 0x12, 0x13, 0x20] k, s)
  else (0, s)

/-- A request ends at its source (R398): its send is no longer outstanding, or its part of an operation is done. -/
def State.endRequest (s : State) (dev : BitVec 16) (pid : BitVec 32) (status : Nat) (data : List Byte) : State :=
  match s.requests.find? fun r => r.dev == dev && r.pid == pid with
  | none => s
  | some r =>
    let s := if status = stREMOTE then s.rechain r else s
    let s := { s with requests := s.requests.filter fun q => !(q.dev == dev && q.pid == pid) }
    let s := State.sendBacklog r.die s.backlog.length s
    match r.owner with
    | .send id => { s with sends := s.sends.filter (·.id != id) }
    | .op id dst va off =>
      let (cause, s) := s.remoteCause status
      s.partAnswer id dst va off status cause data

/-- A reply for this device (R398, R412). -/
def State.answered (s : State) (a : Arrival) : State :=
  let p := a.pkt
  let status := if a.tnt then stTAGFAIL else fieldOf p.h1 16 8
  s.endRequest p.sdev (p.h3.setWidth 32) status (if p.op = 0x10 then p.data else [])

/-- A packet whose job key a port does not know (R405): counted, and the source of the request learns that it ended
REMOTE. -/
def State.refuse (s : State) (n : BitVec 4) (p : Packet) : State :=
  let s := s.setDie (linkDie n) fun d => { d with keyDrops := d.keyDrops + 1 }
  let tell := fun (s : State) (src dst : BitVec 16) (pid : BitVec 32) =>
    let (mine, s) := s.takePid src
    s.sendReply (replyPacket dst src mine pid p.jkey stREMOTE none)
  if !p.reply then tell s p.sdev p.ddev p.pid
  else if p.ddev = s.rid then s.endRequest p.sdev (p.h3.setWidth 32) stREMOTE []
  else tell s p.ddev p.sdev (p.h3.setWidth 32)

/-- Whether a packet for a device is on the second hop of a detour at a port (R391): it goes on in the dimension of the link by
which it came. -/
def State.secondHop (s : State) (n : Nat) (dst : BitVec 16) : Bool :=
  let d := dst.toNat
  let own := s.rid.toNat
  if n < 7 then bitsOf d 0 3 != bitsOf own 0 3 else bitsOf d 0 3 == bitsOf own 0 3 && bitsOf d 3 3 != bitsOf own 3 3

/-- A packet for another device goes on (R391, R392), or is dropped where no link leads there (R390). -/
def State.forward (s : State) (a : Arrival) : State :=
  let p := a.pkt
  if !s.inPlane p.ddev then s
  else match s.routeLink p.ddev a.cls.toNat a.net.toNat (p.key != 0) (some a.link.toNat) with
    | none => s
    | some n => s.queuePacket n a.cls.toNat a.net.toNat a.tnt (some a.link) p (s.secondHop a.link.toNat p.ddev)

/-- What a packet that has entered at a port does (R397, R398). -/
def State.perform (s : State) (a : Arrival) : State :=
  let p := a.pkt
  if p.ddev ≠ s.rid then s.forward a
  else if p.reply then s.answered a
  else if p.op = 1 ∨ p.op = 2 ∨ p.op = 3 then s.request a
  else s.dropOp a.link

/-- A packet that has come in whole at a port enters, if the port knows its job key (R405). -/
def State.enter (s : State) (a : Arrival) : State :=
  if (s.link a.link.toNat).member a.pkt.jkey then s.perform a else s.refuse a.link a.pkt

/-- Another look at the packet of a source that its port holds (R137, R402): it has entered already (R405). -/
def State.lookAgain (s : State) (src : BitVec 16) (pid : BitVec 32) : State :=
  match s.heldPkts.find? fun h => h.pkt.sdev == src && h.pkt.pid == pid with
  | some h => s.perform h
  | none => s

/-- A packet that comes in by a port now, after all that has taken a position (R93). -/
def State.arrivalAs (s : State) (n : BitVec 4) (cls net : BitVec 2) (p : Packet) : Arrival :=
  { link := n, cls := cls, net := net, pkt := p, pos := s.pos - 1 }

/-- A packet whose operation gives its class and network (R397). -/
def State.arrival (s : State) (n : BitVec 4) (p : Packet) : Arrival :=
  s.arrivalAs n (if p.op = 2 ∨ p.op = 0x10 then 2 else 1) (if p.reply then 1 else 0) p

/-- A request unanswered for 64 µs (R403). -/
def State.retryTimeout (s : State) (dev : BitVec 16) (pid : BitVec 32) : State :=
  match s.requests.find? fun r => r.dev == dev && r.pid == pid with
  | none => s
  | some r =>
    if 8 ≤ r.sends then s.endRequest dev pid stREMOTE [] else s.againRequest r

/-- FABRIC_MSG (R397): its class and network are those the SEND named. -/
def execFabricMsg (link : Ingress) (pkt : Packet) (s : State) : Res :=
  event (fun s => s.enter (s.arrivalAs link.port link.cls link.net pkt)) s
/-- FABRIC_WRITE (R406). -/
def execFabricWrite (link : BitVec 4) (pkt : Packet) (s : State) : Res := event (fun s => s.enter (s.arrival link pkt)) s
/-- FABRIC_READ (R406). -/
def execFabricRead (link : BitVec 4) (pkt : Packet) (s : State) : Res := event (fun s => s.enter (s.arrival link pkt)) s
/-- FABRIC_DATA (R398). -/
def execFabricData (link : BitVec 4) (pkt : Packet) (s : State) : Res := event (fun s => s.enter (s.arrival link pkt)) s
/-- FABRIC_DONE (R398). -/
def execFabricDone (link : BitVec 4) (pkt : Packet) (s : State) : Res := event (fun s => s.enter (s.arrival link pkt)) s
/-- E2E_RETRY_TIMEOUT (R403). -/
def execE2eRetryTimeout (dev : BitVec 16) (pid : BitVec 32) (s : State) : Res := event (·.retryTimeout dev pid) s

end Sys2Proof.Machine
end

