-- ==== Sys2Proof/Machine/Gcm.lean ====
section
/-! DEFINITION. AES-256-GCM, with which a link seals its frames (R408). PRESUMED (log entry 15): the spec names the algorithm
and no more; it is taken from FIPS 197 and NIST SP 800-38D. -/

namespace Sys2Proof.Machine

/-- The substitution table of AES, entry 0 lowest. -/
def aesTable : BitVec 2048 :=
  (0x16bb54b00f2d99416842e6bf0d89a18cdf2855cee9871e9b948ed9691198f8e1 : BitVec 256) ++
  (0x9e1dc186b95735610ef6034866b53e708a8bbd4b1f74dde8c6b4a61c2e2578ba : BitVec 256) ++
  (0x08ae7a65eaf4566ca94ed58d6d37c8e779e4959162acd3c25c2406490a3a32e0 : BitVec 256) ++
  (0xdb0b5ede14b8ee4688902a22dc4f816073195d643d7ea7c41744975fec130ccd : BitVec 256) ++
  (0xd2f3ff1021dab6bcf5389d928f40a351a89f3c507f02f94585334d43fbaaefd0 : BitVec 256) ++
  (0xcf584c4a39becb6a5bb1fc20ed00d153842fe329b3d63b52a05a6e1b1a2c8309 : BitVec 256) ++
  (0x75b227ebe28012079a059618c323c7041531d871f1e5a534ccf73f362693fdb7 : BitVec 256) ++
  (0xc072a49cafa2d4adf04759fa7dc982ca76abd7fe2b670130c56f6bf27b777c63 : BitVec 256)

/-- `SubBytes` of one byte. -/
def aesSub (x : Byte) : Byte := aesTable.extractLsb' (8 * x.toNat) 8

/-- A byte times x in the field of AES. -/
def aesTimes2 (x : Byte) : Byte := (x <<< 1) ^^^ (if x.msb then 0x1B else 0)

/-- Two lists of bytes added. -/
def xorBytes (a b : List Byte) : List Byte := List.zipWith (· ^^^ ·) a b

/-- `ShiftRows`: byte i of the state is in row i mod 4. -/
def aesShiftRows (s : List Byte) : List Byte := tabulate 16 fun i => lget s ((i + 4 * (i % 4)) % 16)

/-- `MixColumns`. -/
def aesMixColumns (s : List Byte) : List Byte :=
  tabulate 16 fun i =>
    let a := fun j => lget s (i / 4 * 4 + (i + j) % 4)
    aesTimes2 (a 0) ^^^ aesTimes2 (a 1) ^^^ a 1 ^^^ a 2 ^^^ a 3

/-- The next word of the key schedule after the words so far, the latest first. -/
def aesNextWord (i : Nat) (w : List (List Byte)) : List Byte :=
  let t := lget w 0
  let t := if i % 8 = 0 then xorBytes ((t.drop 1 ++ t.take 1).map aesSub) [(1 : Byte) <<< (i / 8 - 1), 0, 0, 0]
    else if i % 8 = 4 then t.map aesSub
    else t
  xorBytes (lget w 7) t

/-- The fifteen round keys of a 256-bit key. -/
def aesRoundKeys (key : List Byte) : List (List Byte) :=
  let w := (List.range 52).foldl (fun w i => aesNextWord (i + 8) w :: w) (chunks 4 8 key).reverse
  let b := (w.reverse).flatten
  tabulate 15 fun i => (b.drop (16 * i)).take 16

/-- AES of one block under its round keys. -/
def aesBlock (keys : List (List Byte)) (block : List Byte) : List Byte :=
  let last := aesShiftRows ((((keys.drop 1).take 13).foldl (fun s k =>
    xorBytes (aesMixColumns (aesShiftRows (s.map aesSub))) k) (xorBytes block (lget keys 0))).map aesSub)
  xorBytes last (lget keys 14)

/-- Bytes, most significant first. -/
def beBytes (n v : Nat) : List Byte := (leBytes n v).reverse

/-- A 16-byte block as GHASH sees it: its first bit is the coefficient of 1. -/
def ghashBlock (b : List Byte) : BitVec 128 := BitVec.ofNat 128 (leNat b.reverse)

/-- The product of GHASH. -/
def ghashMul (x y : BitVec 128) : BitVec 128 :=
  ((List.range 128).foldl (fun (q : BitVec 128 × BitVec 128) i =>
    (if x.getMsbD i then q.1 ^^^ q.2 else q.1,
     (q.2 >>> 1) ^^^ (if q.2.getLsbD 0 then 0xE1#128 <<< 120 else 0))) (0, y)).1

/-- GHASH of a string of whole blocks. -/
def ghash (h : BitVec 128) (data : List Byte) : BitVec 128 :=
  (chunks 16 data.length data).foldl (fun y b => ghashMul (y ^^^ ghashBlock b) h) 0

/-- Bytes up to a whole number of blocks. -/
def padBlocks (b : List Byte) : List Byte := padTo ((b.length + 15) / 16 * 16) 0 b

/-- The key as bytes (R409: little-endian). -/
def gcmKey (key : List W64) : List (List Byte) := aesRoundKeys (key.flatMap fun w => leBytes 8 w.toNat)

/-- Counter block `i` of a frame (R408): the salt, the invocation counter, the block counter, which GCM keeps most significant
byte first. DEDUCED (log entry 15): the salt and the invocation counter are little-endian, as all data of many bytes is. -/
def gcmCounter (salt : W32) (ctr : W64) (i : Nat) : List Byte := leBytes 4 salt.toNat ++ leBytes 8 ctr.toNat ++ beBytes 4 i

/-- Bytes of a frame sealed or opened (R408): the bytes from offset `off` of its payloads, which the key stream meets there. -/
def gcmCrypt (key : List W64) (salt : W32) (ctr : W64) (off : Nat) (data : List Byte) : List Byte :=
  let keys := gcmKey key
  let first := off / 16
  let stream := (tabulate ((off % 16 + data.length + 15) / 16) fun i => aesBlock keys (gcmCounter salt ctr (first + i + 2))).flatten
  xorBytes data (stream.drop (off % 16))

/-- The tag of a message under expanded keys: its additional data and its ciphertext. -/
def gcmTagOf (keys : List (List Byte)) (j0 aad ct : List Byte) : List Byte :=
  let h := ghashBlock (aesBlock keys (List.replicate 16 0))
  let y := ghash h (padBlocks aad ++ padBlocks ct ++ beBytes 8 (8 * aad.length) ++ beBytes 8 (8 * ct.length))
  xorBytes (beBytes 16 y.toNat) (aesBlock keys j0)

/-- The tag of a frame (R408), as the TAG flit's 16 bytes hold it (R394): key, salt, counter, headers, ciphertexts. A frame is
one message: its headers are the additional data, its payloads the ciphertext. -/
def gcmTag (key : List W64) (salt : W32) (ctr : W64) (hdrs : List W64) (datas : List (List Byte)) : BitVec 128 :=
  BitVec.ofNat 128 (leNat (gcmTagOf (gcmKey key) (gcmCounter salt ctr 1) (hdrs.flatMap fun h => leBytes 8 h.toNat) datas.flatten))

end Sys2Proof.Machine
end

