-- ==== Sys2Proof/Machine/Link.lean ====
section
/-! DEFINITION. Rilah links (R393-R412): the choice of a flit for a slot, frames and keys, the check and reassembly
of received flits, replay, flow control, training, and the link registers. -/

namespace Sys2Proof

/-- The payload bytes that a flit uses (R393). -/
def Flit.used (f : Flit) : List Byte := f.payload.take (Machine.fieldOf f.hdr 44 8)

end Sys2Proof

namespace Sys2Proof.Machine

/-- Link sequence number of a flit (R393). -/
def flitSeq (f : Flit) : Nat := fieldOf f.hdr 52 12

/-- Whether a packet of a class may start: its network is not stopped (R399). -/
def Link.mayStart (l : Link) (cls : BitVec 2) (p : Queued) : Bool :=
  !l.xoff.contains (cls, BitVec.ofNat 2 ((p.flits.head?.map flitNet).getD 0))

/-- The packets of a class with the one to send first: the one in progress, else the oldest that may start (R400). -/
def Link.lineUp (l : Link) (cls : BitVec 2) (isOpen : Bool) (q : List Queued) : Option (List Queued) :=
  if isOpen then some q
  else (q.find? (l.mayStart cls)).map fun p => p :: q.erase p

/-- What a sender has ready: a flit and the link without it (R400). -/
def Link.nextU (l : Link) : Option (Flit × Link) :=
  match l.lineUp 1 l.openU l.sendU with
  | some (⟨p, f :: rest, r⟩ :: q) =>
    some (f, { l with sendU := if rest = [] then q else ⟨p, rest, r⟩ :: q, openU := rest != [],
                      count := if l.openB then l.count + 1 else l.count })
  | _ => none

/-- As `nextU`, for class B: the count returns to zero (R400). -/
def Link.nextB (l : Link) : Option (Flit × Link) :=
  match l.lineUp 2 l.openB l.sendB with
  | some (⟨p, f :: rest, r⟩ :: q) =>
    some (f, { l with sendB := if rest = [] then q else ⟨p, rest, r⟩ :: q, openB := rest != [], count := 0 })
  | _ => none

/-- `ChooseFlit` of R400 past the K flits: U, unless a forced B flit comes first; else B. -/
def Link.chooseUB (l : Link) : Option (Flit × Link) :=
  match l.nextU, l.nextB with
  | some u, some b => if !l.openB || decide (l.count < l.ubudget.toNat) then some u else some b
  | some u, none => some u
  | none, b => b

/-- The key of a slot (R409). -/
def Link.keyOf (l : Link) (slot : BitVec 1) : List W64 := if slot = 0 then l.ka else l.kb
/-- The salts of a slot (R409). -/
def Link.saltOf (l : Link) (slot : BitVec 1) : W64 := if slot = 0 then l.kasalt else l.kbsalt
/-- The salt this side sends with. -/
def Link.txSalt (l : Link) : W32 := (l.saltOf l.ksend).setWidth 32

/-- A flit as it is sent: encrypted in the open frame when `ENC` is set (R408), with its link check (R394). -/
def Link.seal (l : Link) (f : Flit) : Flit :=
  let hdr := if l.enc then withField (withField (withField f.hdr 38 1 1) 39 1 l.ksend.toNat) 37 1 l.mark.toNat else f.hdr
  let off := (l.txFrame.map (·.payload.length)).sum
  let payload := if l.enc then gcmCrypt (l.keyOf l.ksend) l.txSalt l.lframes off f.payload else f.payload
  ⟨hdr, payload, linkCheck hdr payload⟩

/-- A K flit as it is sent; it takes no sequence number of its own (log entry 23). -/
def Link.stamp (l : Link) (f : Flit) : Flit :=
  let hdr := withField f.hdr 52 12 l.txSeq.toNat
  ⟨hdr, f.payload, linkCheck hdr f.payload⟩

/-- The TAG flit that closes the open frame (R408). -/
def Link.tagFlit (l : Link) : Flit :=
  let tag := gcmTag (l.keyOf l.ksend) l.txSalt l.lframes (l.txFrame.map (·.hdr)) (l.txFrame.map (·.payload))
  kFlit 5 (List.replicate 7 0 ++ leBytes 16 tag.toNat ++ leBytes 8 l.lframes.toNat)

/-- The open frame closes: its TAG flit is ready next, and the counter moves on (R408). -/
def Link.closeFrame (l : Link) : Link :=
  { l with sendK := l.sendK ++ [l.tagFlit], txFrame := [], lframes := l.lframes + 1 }

/-- The key switch at a frame boundary (R410). -/
def Link.switchKeys (l : Link) : Link :=
  { l with ksend := ~~~l.ksend, lframes := 0, swreq := false, loaded := false, mark := true }

/-- Sends a U or B flit that has its sequence number. -/
def Link.emit (l : Link) (f : Flit) : Link :=
  let x := l.seal f
  let l := { l with out := some x }
  if !l.enc then l
  else
    let l := { l with txFrame := l.txFrame ++ [x], mark := false }
    if 8 ≤ l.txFrame.length ∨ (l.resend = [] ∧ l.chooseUB.isNone) then l.closeFrame else l

/-- The retry buffer lets flits go and keeps others (R394); the packets whose first flits go are noted. -/
def Link.letGo (l : Link) (gone kept : List Flit) : Link :=
  let tail := fun (cls : Nat) (w : W64) =>
    ((gone.filter fun f => flitCls f == cls && f.hdr.getLsbD 3).getLast?.map fun f =>
      BitVec.ofNat 64 (leNat (f.payload.take 8))).getD w
  { l with replay := kept, tailU := tail 1 l.tailU, tailB := tail 2 l.tailB }

/-- Sends a new flit: it takes the next sequence number and enters the retry buffer (R393, R394). -/
def Link.emitNew (l : Link) (f : Flit) : Link :=
  let f := { f with hdr := withField f.hdr 52 12 l.txSeq.toNat }
  let r := l.replay ++ [f]
  { l.letGo (r.take (r.length - 256)) (r.drop (r.length - 256)) with txSeq := l.txSeq + 1 }.emit f

/-- Nothing is ready: IDLE, or the TAG flit of a frame still open (R394, R408). -/
def Link.idle (l : Link) : Link :=
  if l.txFrame = [] then { l with out := some (l.stamp (kFlit 0 [])) }
  else { l with out := some (l.stamp l.tagFlit), txFrame := [], lframes := l.lframes + 1 }

/-- One flit slot (R400, R408, R410, R411): K flits first, then replayed flits in their order, then new ones. -/
def Link.slot (l : Link) : Link :=
  match l.sendK with
  | f :: rest => { l with sendK := rest, out := some (l.stamp f) }
  | [] =>
    let l := if l.swreq ∧ l.loaded ∧ l.enc then (if l.txFrame = [] then l.switchKeys else l.closeFrame) else l
    match l.sendK with
    | f :: rest => { l with sendK := rest, out := some (l.stamp f) }
    | [] =>
      if l.enc ∧ 2 ^ 48 ≤ l.lframes.toNat then l.idle
      else match l.resend with
        | f :: rest => { l with resend := rest }.emit f
        | [] => match l.chooseUB with
          | some (f, l) => l.emitNew f
          | none => l.idle

/-- Gives a link slots for the flits it holds. -/
def State.giveSlots (s : State) (n : Nat) : State :=
  let l := s.link n
  let k := l.sendK.length + l.resend.length + ((l.sendU ++ l.sendB).map (·.flits.length)).sum
  s.push (List.replicate k (.event (.flitSlot (BitVec.ofNat 4 n))))

/-- A flit slot of a trained link; the ports whose packets it sends gain room (R399). A frame it closes, or a switch still to be made, takes a further slot. -/
def State.flitSlotAt (s : State) (n : Nat) : State :=
  let l := s.link n
  if !l.up then s
  else
    let l' := l.slot
    let s := s.setLink n fun _ => l'
    let s := ((l.sendU ++ l.sendB).filterMap (·.src)).eraseDups.foldl (fun s p => s.flow p.toNat) s
    if l'.sendK.length ≠ 0 ∨ (l'.swreq ∧ l'.loaded ∧ l'.enc ∧ l'.txFrame = []) then s.pushEvent (.flitSlot (BitVec.ofNat 4 n)) else s

/-- Whether a received flit is sound (R393, R394): its check agrees and no reserved bit or value is used. -/
def flitSound (f : Flit) : Bool :=
  let plen := fieldOf f.hdr 44 8
  f.check == linkCheck f.hdr f.payload && reservedZero f.hdr.toNat [(52, 12), (44, 8), (36, 4), (2, 6)] &&
  flitCls f != 3 && flitNet f != 3 && decide (f.payload.length ≤ 240) &&
  if flitCls f = 0 then plen == 0 && decide ((lget f.payload 0).toNat ≤ 5)
  else decide (1 ≤ plen ∧ plen ≤ 240 ∧ plen ≤ f.payload.length)

/-- A NAK flit (R394). -/
def nakFlit (seq : Nat) : Flit := kFlit 3 (0 :: leBytes 2 seq)

/-- A flit failed (R394): it and every later one are discarded until a replay arrives. The flits of an open frame can
no longer be verified, so the replay starts with them (R408, log entry 23). A flit that only comes out of order while a
replay is awaited asks for nothing; one that fails its check asks for the replay again, since it may belong to it. -/
def State.linkFail (s : State) (n : Nat) (seq : BitVec 12) (again : Bool) : State :=
  let l := s.link n
  if l.nakked && !again then s
  else
    let first := (l.rxFrame.head?.map fun f => BitVec.ofNat 12 (flitSeq f)).getD seq
    (s.setLink n fun l => { l with rxSeq := first, rxFrame := [], nakked := true }).queueK n (nakFlit first.toNat)

/-- A packet from its flits (R395). -/
def packetOfFlits (fs : List Flit) : Packet := packetOf (fs.flatMap Flit.used)

/-- XOFF from the peer (R399). -/
def State.onXoff (s : State) (n : Nat) (cls net : BitVec 2) : State :=
  s.setLink n fun l => { l with xoff := if l.xoff.contains (cls, net) then l.xoff else l.xoff ++ [(cls, net)] }

/-- XON from the peer (R399). -/
def State.onXon (s : State) (n : Nat) (cls net : BitVec 2) : State :=
  (s.setLink n fun l => { l with xoff := l.xoff.filter (· != (cls, net)) }).giveSlots n

/-- A verified flit of class U or B joins the reassembly of its class and network (R401); the last one completes its
packet, which is performed and acknowledged. -/
def State.reassemble (s : State) (n : Nat) (f : Flit) : State :=
  let l := s.link n
  if l.nakked then s
  else
    let cls := BitVec.ofNat 2 (flitCls f)
    let net := BitVec.ofNat 2 (flitNet f)
    let mine := fun (c : Reassembly) => c.cls == cls && c.net == net
    let first := f.hdr.getLsbD 3
    let busy := l.ctxs.find? mine
    let others := l.ctxs.filter (!mine ·)
    if first == busy.isSome then
      (s.setLink n fun l => { l with ctxs := others }).linkFail n (BitVec.ofNat 12 (flitSeq f)) true
    else
      let c := busy.getD { cls := cls, net := net, flits := [], 
                               reserved := s.secondHop n (BitVec.ofNat 16 (leNat ((f.payload.drop 6).take 2))) }
      let c := { c with flits := c.flits ++ [f], tainted := c.tainted || f.hdr.getLsbD 36 }
      if f.hdr.getLsbD 2 then
        let s := (s.setLink n fun l => { l with ctxs := others }).queueK n (kFlit 4 (0 :: leBytes 2 (flitSeq f)))
        (s.enter { s.arrivalAs (BitVec.ofNat 4 n) cls net (packetOfFlits c.flits) with tnt := c.tainted }).flow n
      else (s.setLink n fun l => { l with ctxs := others ++ [c] }).flow n

/-- Whether a flit of the retry buffer comes at or after a sequence number, modulo 4096. -/
def seqFrom (seq : BitVec 12) (f : Flit) : Bool := decide ((BitVec.ofNat 12 (flitSeq f) - seq).toNat < 2048)

/-- NAK from the peer (R394, R408): the flits from the named one are sent again; an open frame is abandoned, its
counter value not reused, and its flits are sent again with the others. -/
def State.onNak (s : State) (n : Nat) (seq : BitVec 12) : State :=
  (s.setLink n fun l =>
    let seq := match l.txFrame.head? with
      | some f => if seqFrom (BitVec.ofNat 12 (flitSeq f)) ⟨withField 0 52 12 seq.toNat, [], 0⟩ then BitVec.ofNat 12 (flitSeq f) else seq
      | none => seq
    { l with lreplay := l.lreplay + 1, resend := l.replay.filter (seqFrom seq), txFrame := [],
             lframes := if l.txFrame = [] then l.lframes else l.lframes + 1 }).giveSlots n

/-- Whether a link still holds flits of a packet of a class, waiting or not acknowledged (R394): its first one, or, where its
first one has gone, later ones, before those of any other packet of the class (R400). -/
def Link.carriesIn (l : Link) (cls : Nat) (wait : List Queued) (tail : W64) (p : Packet) : Bool :=
  let fs := (l.replay.filter fun f => flitCls f == cls) ++ wait.flatMap (·.flits)
  (fs.any fun f => f.hdr.getLsbD 3 && f.payload.take 8 == leBytes 8 p.h0.toNat) ||
  (tail == p.h0 && (fs.head?.map fun f => !f.hdr.getLsbD 3).getD false)

/-- Whether a link still holds a packet's flits (R394, R403). -/
def Link.carries (l : Link) (p : Packet) : Bool := l.carriesIn 1 l.sendU l.tailU p || l.carriesIn 2 l.sendB l.tailB p

/-- The device at the other end of a link (R389). -/
def State.neighbour (s : State) (n : Nat) : BitVec 16 :=
  let own := s.rid.toNat
  let at_ := fun (k o : Nat) => if k < o then k else k + 1
  if n < 7 then BitVec.ofNat 16 (own / 8 * 8 + at_ n (own % 8))
  else BitVec.ofNat 16 (own / 64 * 64 + at_ (n - 7) (own / 8 % 8) * 8 + own % 8)

/-- ACK from the peer (R394, R403): the retry buffer lets the acknowledged flits go, and kept answers that have
reached their source by this link are dropped. DEDUCED (log entry 23): the source of an answer that goes by way of other
devices acknowledges nothing here, and that answer is kept while its packet number is recent (R396). -/
def State.onAck (s : State) (n : Nat) (seq : BitVec 12) : State :=
  let s := s.setLink n fun l => let (kept, gone) := l.replay.partition (seqFrom (seq + 1)); l.letGo gone kept
  let l := s.link n
  { s with answers := s.answers.filter fun a => !(a.link == some n && a.src == s.neighbour n && !l.carries a.reply) }

/-- A TAG flit (R408, R412): the frame's flits are decrypted and go on when it verifies; otherwise the frame is
counted, discarded and asked for again. No flit of a frame is released before. -/
def State.onTag (s : State) (n : Nat) (tag : BitVec 128) (ctr : W64) : State :=
  let l := s.link n
  match l.rxFrame with
  | [] => s
  | f :: _ =>
    let slot := BitVec.ofNat 1 (fieldOf f.hdr 39 1)
    let salt := BitVec.ofNat 32 (fieldOf (l.saltOf slot) 32 32)
    let fs := l.rxFrame
    let sealed := fs.map Flit.used
    if gcmTag (l.keyOf slot) salt ctr (fs.map (·.hdr)) sealed = tag then
      let s := s.setLink n fun l => { l with rxFrame := [] }
      fs.zipIdx.foldl (fun s p =>
        let off := ((sealed.take p.2).map List.length).sum
        s.reassemble n { p.1 with payload := gcmCrypt (l.keyOf slot) salt ctr off p.1.used }) s
    else (s.setLink n fun l => { l with ltagf := l.ltagf + 1 }).linkFail n (BitVec.ofNat 12 (flitSeq f)) true

/-- What a received K flit does (R394); IDLE does nothing. -/
def State.onK (s : State) (n : Nat) (p : List Byte) : State :=
  let b := fun i => (lget p i).toNat
  let seq := BitVec.ofNat 12 (leNat ((p.drop 2).take 2))
  match b 0 with
  | 1 => s.onXoff n (BitVec.ofNat 2 (b 1)) (BitVec.ofNat 2 (b 2))
  | 2 => s.onXon n (BitVec.ofNat 2 (b 1)) (BitVec.ofNat 2 (b 2))
  | 3 => s.onNak n seq
  | 4 => s.onAck n seq
  | 5 => s.onTag n (BitVec.ofNat 128 (leNat ((p.drop 8).take 16))) (BitVec.ofNat 64 (leNat ((p.drop 24).take 8)))
  | _ => s

/-- A K flit in the context of its network (R394, R401): a packet of class K is one flit, so that one which continues a
packet fails, and one that leaves its context busy makes the next fail. While a replay is awaited it is discarded. -/
def State.receiveK (s : State) (n : Nat) (f : Flit) : State :=
  let l := s.link n
  let net := BitVec.ofNat 2 (flitNet f)
  let busy := l.ctxs.any fun c => c.cls == 0 && c.net == net
  let idle := l.ctxs.filter fun c => !(c.cls == 0 && c.net == net)
  if l.nakked then s
  else if f.hdr.getLsbD 3 == busy then (s.setLink n fun l => { l with ctxs := idle }).linkFail n l.rxSeq true
  else if f.hdr.getLsbD 2 then
    let s := s.setLink n fun l => { l with ctxs := idle }
    if busy then s else s.onK n f.payload
  else s.setLink n fun l => { l with ctxs := idle ++ [{ cls := 0, net := net, flits := [f] }] }

/-- A flit arrives at a trained link (R394, R401). -/
def State.receive (s : State) (n : Nat) (f : Flit) : State :=
  let l := s.link n
  if !l.up then s
  else if !flitSound f then s.linkFail n l.rxSeq true
  else if flitCls f = 0 then s.receiveK n f
  else if flitSeq f ≠ l.rxSeq.toNat then s.linkFail n l.rxSeq false
  else
    let s := s.setLink n fun l => { l with rxSeq := l.rxSeq + 1, nakked := false }
    if f.hdr.getLsbD 38 then (s.setLink n fun l => { l with rxFrame := l.rxFrame ++ [f] }).flow n else s.reassemble n f

/-- What waits to be sent without the packets that a port holds; one in progress is finished (R399, R404). -/
def unheld (port : BitVec 4) (isOpen : Bool) (q : List Queued) : List Queued :=
  let n := if isOpen then 1 else 0
  q.take n ++ (q.drop n).filter (·.src != some port)

/-- A link goes down (R394, R404): partial packets and the flits its port holds are discarded, and requests that were on it are
sent again at once on another path (R403); an answer sent by it is on no link until it is sent again, so that no later ACK
there drops it (R403); the ports whose flits waited for it gain room (R399). The counter of an open frame is
not used again (R408). DEDUCED (log entry 23): a packet of the port that another link has begun to send is finished. -/
def State.linkDown (s : State) (n : Nat) : State :=
  let l := s.link n
  let lost := s.requests.filter fun r => l.carries r.pkt
  let frame := if l.txFrame = [] then l.lframes else l.lframes + 1
  let links := s.links.map fun l =>
    { l with sendU := unheld (BitVec.ofNat 4 n) l.openU l.sendU, sendB := unheld (BitVec.ofNat 4 n) l.openB l.sendB }
  let s := { s with links := links, heldPkts := s.heldPkts.filter (·.link.toNat != n),
                    answers := s.answers.map fun (a : Answer) => if a.link = some n then { a with link := none } else a }
  let s := s.setLink n fun l =>
    { l with up := false, down := true, sendK := [], sendU := [], sendB := [], openU := false, openB := false, replay := [],
             resend := [], txFrame := [], lframes := frame, rxFrame := [], ctxs := [], xoff := [], stopped := [], nakked := false }
  lost.foldl State.againRequest (((l.sendU ++ l.sendB).filterMap (·.src)).eraseDups.foldl (fun s p => s.flow p.toNat) s)

/-- A link completes training (R409); both directions number their flits from zero (log entry 23). -/
def State.linkUp (s : State) (n : Nat) : State :=
  if (s.link n).up then s
  else (s.setLink n fun l => { l with up := true, down := false, txSeq := 0, rxSeq := 0, nakked := false, count := 0 }).giveSlots n

/-- `SWREQ` set (R410). -/
def State.requestSwitch (s : State) (n : Nat) : State :=
  (s.setLink n fun l => { l with swreq := true }).pushEvent (.flitSlot (BitVec.ofNat 4 n))

/-- A write of `LCTL` (R409). -/
def State.writeLctl (s : State) (n : Nat) (v : W64) : State :=
  let b := BitVec.ofNat 6 (fieldOf v 8 6)
  let s := s.setLink n fun l =>
    { l with ubudget := if b = 0 then l.ubudget else b, enc := if l.up then l.enc else v.getLsbD 4 }
  if v.getLsbD 3 then s.requestSwitch n else s

/-- A write of a key or salt of a slot (R409): ignored for the slot that sends. -/
def State.writeKeySlot (s : State) (n off : Nat) (v : W64) : State :=
  let kb := decide (0x60 ≤ off)
  if (s.link n).ksend = (if kb then 1 else 0) ∨ off % 8 ≠ 0 then s
  else if 0x20 ≤ off ∧ off < 0x40 then s.setLink n fun l => { l with ka := lset l.ka ((off - 0x20) / 8) v, loaded := true }
  else if off = 0x40 then s.setLink n fun l => { l with kasalt := v }
  else if 0x60 ≤ off ∧ off < 0x80 then s.setLink n fun l => { l with kb := lset l.kb ((off - 0x60) / 8) v, loaded := true }
  else if off = 0x80 then s.setLink n fun l => { l with kbsalt := v }
  else s

/-- A write of the registers of a link's block (R409); the others are RO. -/
def State.writeLinkReg (s : State) (n off : Nat) (v : W64) : State := if off = 0 then s.writeLctl n v else s.writeKeySlot n off v

/-- A write of one key of a membership table, or of a pair (R405). -/
def State.writeMember (s : State) (n k : Nat) (wide : Bool) (v : W64) : State :=
  s.setLink n fun l =>
    if wide then { l with keys := setKey (setKey l.keys (k / 2 * 2) (v.setWidth 32)) (k / 2 * 2 + 1) ((v >>> 32).setWidth 32) }
    else { l with keys := setKey l.keys k (v.setWidth 32) }

/-- A write of the Rilah identifier of a die (R389). -/
def State.writeRid (s : State) (d : Nat) (v : W64) : State := s.setDie d fun x => { x with rid := v.setWidth 16 }

/-- Whether a number names a link of the device (R389). -/
def onLink (n : BitVec 4) (f : State → State) (s : State) : Res := event (fun s => if n.toNat < 14 then f s else s) s

/-- As `onLink`, for a write that reaches the control space while BAR0 maps it (R417). -/
def onLinkBar (n : BitVec 4) (f : State → State) (s : State) : Res := onLink n (fun s => if s.boot.stage = 15 then s else f s) s

/-- FLIT_SLOT (R400). -/
def execFlitSlot (link : BitVec 4) (s : State) : Res := onLink link (·.flitSlotAt link.toNat) s
/-- FLIT_RECEIVE (R394). -/
def execFlitReceive (link : BitVec 4) (flit : Flit) (s : State) : Res := onLink link (·.receive link.toNat flit) s
/-- IDLE_FLIT (R394). -/
def execIdleFlit (link : BitVec 4) (s : State) : Res := onLink link id s
/-- XOFF (R399). -/
def execXoff (link : BitVec 4) (cls net : BitVec 2) (s : State) : Res := onLink link (·.onXoff link.toNat cls net) s
/-- XON (R399). -/
def execXon (link : BitVec 4) (cls net : BitVec 2) (s : State) : Res := onLink link (·.onXon link.toNat cls net) s
/-- NAK (R394). -/
def execNak (link : BitVec 4) (lseq : BitVec 12) (s : State) : Res := onLink link (·.onNak link.toNat lseq) s
/-- ACK (R394). -/
def execAck (link : BitVec 4) (lseq : BitVec 12) (s : State) : Res := onLink link (·.onAck link.toNat lseq) s
/-- TAG_FLIT (R412). -/
def execTagFlit (link : BitVec 4) (tag : BitVec 128) (ctr : W64) (s : State) : Res := onLink link (·.onTag link.toNat tag ctr) s
/-- LINK_TRAIN_TIMEOUT (R394): a link not trained is down. -/
def execLinkTrainTimeout (link : BitVec 4) (s : State) : Res :=
  onLink link (fun s => if (s.link link.toNat).up then s else s.linkDown link.toNat) s
/-- LINK_DOWN (R404). -/
def execLinkDown (link : BitVec 4) (s : State) : Res := onLink link (·.linkDown link.toNat) s
/-- LINK_UP (R409). -/
def execLinkUp (link : BitVec 4) (s : State) : Res := onLink link (·.linkUp link.toNat) s
/-- LCTL_WRITE (R409). -/
def execLctlWrite (link : BitVec 4) (val : W64) (s : State) : Res := onLinkBar link (·.writeLctl link.toNat val) s
/-- SWREQ (R410). -/
def execSwreq (link : BitVec 4) (s : State) : Res := onLinkBar link (·.requestSwitch link.toNat) s
/-- KEY_SLOT_WRITE (R409). -/
def execKeySlotWrite (link : BitVec 4) (off : BitVec 8) (val : W64) (s : State) : Res :=
  onLinkBar link (·.writeKeySlot link.toNat off.toNat val) s
/-- MEMBERSHIP_KEY_WRITE (R405). -/
def execMembershipKeyWrite (link : BitVec 4) (index : BitVec 10) (wide : BitVec 1) (val : W64) (s : State) : Res :=
  onLinkBar link (·.writeMember link.toNat index.toNat (wide == 1) val) s
/-- RILAH_ID_WRITE (R389). -/
def execRilahIdWrite (die : BitVec 2) (val : W64) (s : State) : Res := 
  event (fun s => if s.boot.stage = 15 then s else s.writeRid die.toNat val) s

end Sys2Proof.Machine
end

