-- ==== Sys2Proof/Machine/Digest.lean ====
section
/-! DEFINITION. The digests that signed boot and attestation use (R417, R419) and those inside the signatures (R416): SHA-384 and
SHA-512, SHAKE128 and SHAKE256. PRESUMED (log entry 15): the spec names the standards and no more; they are taken from
FIPS 180-4 and FIPS 202. -/

namespace Sys2Proof.Machine

/-- The round constants of SHA-512: the fractions of the cube roots of the first 80 primes. -/
def shaK : List W64 :=
  [0x428a2f98d728ae22, 0x7137449123ef65cd, 0xb5c0fbcfec4d3b2f, 0xe9b5dba58189dbbc,
   0x3956c25bf348b538, 0x59f111f1b605d019, 0x923f82a4af194f9b, 0xab1c5ed5da6d8118,
   0xd807aa98a3030242, 0x12835b0145706fbe, 0x243185be4ee4b28c, 0x550c7dc3d5ffb4e2,
   0x72be5d74f27b896f, 0x80deb1fe3b1696b1, 0x9bdc06a725c71235, 0xc19bf174cf692694] ++
  [0xe49b69c19ef14ad2, 0xefbe4786384f25e3, 0x0fc19dc68b8cd5b5, 0x240ca1cc77ac9c65,
   0x2de92c6f592b0275, 0x4a7484aa6ea6e483, 0x5cb0a9dcbd41fbd4, 0x76f988da831153b5,
   0x983e5152ee66dfab, 0xa831c66d2db43210, 0xb00327c898fb213f, 0xbf597fc7beef0ee4,
   0xc6e00bf33da88fc2, 0xd5a79147930aa725, 0x06ca6351e003826f, 0x142929670a0e6e70] ++
  [0x27b70a8546d22ffc, 0x2e1b21385c26c926, 0x4d2c6dfc5ac42aed, 0x53380d139d95b3df,
   0x650a73548baf63de, 0x766a0abb3c77b2a8, 0x81c2c92e47edaee6, 0x92722c851482353b,
   0xa2bfe8a14cf10364, 0xa81a664bbc423001, 0xc24b8b70d0f89791, 0xc76c51a30654be30,
   0xd192e819d6ef5218, 0xd69906245565a910, 0xf40e35855771202a, 0x106aa07032bbd1b8] ++
  [0x19a4c116b8d2d0c8, 0x1e376c085141ab53, 0x2748774cdf8eeb99, 0x34b0bcb5e19b48a8,
   0x391c0cb3c5c95a63, 0x4ed8aa4ae3418acb, 0x5b9cca4f7763e373, 0x682e6ff3d6b2b8a3,
   0x748f82ee5defb2fc, 0x78a5636f43172f60, 0x84c87814a1f0ab72, 0x8cc702081a6439ec,
   0x90befffa23631e28, 0xa4506cebde82bde9, 0xbef9a3f7b2c67915, 0xc67178f2e372532b] ++
  [0xca273eceea26619c, 0xd186b8c721c0c207, 0xeada7dd6cde0eb1e, 0xf57d4f7fee6ed178,
   0x06f067aa72176fba, 0x0a637dc5a2c898a6, 0x113f9804bef90dae, 0x1b710b35131c471b,
   0x28db77f523047d84, 0x32caab7b40c72493, 0x3c9ebe0a15c9bebc, 0x431d67c49c100d4c,
   0x4cc5d4becb3e42b6, 0x597f299cfc657e2a, 0x5fcb6fab3ad6faec, 0x6c44198c4a475817]

/-- The initial value of SHA-384: the fractions of the square roots of the ninth to sixteenth primes. -/
def sha384Init : List W64 :=
  [0xcbbb9d5dc1059ed8, 0x629a292a367cd507, 0x9159015a3070dd17, 0x152fecd8f70e5939,
   0x67332667ffc00b31, 0x8eb44a8768581511, 0xdb0c2e0d64f98fa7, 0x47b5481dbefa4fa4]

/-- The initial value of SHA-512: the fractions of the square roots of the first eight primes. -/
def sha512Init : List W64 :=
  [0x6a09e667f3bcc908, 0xbb67ae8584caa73b, 0x3c6ef372fe94f82b, 0xa54ff53a5f1d36f1,
   0x510e527fade682d1, 0x9b05688c2b3e6c1f, 0x1f83d9abfb41bd6b, 0x5be0cd19137e2179]

/-- The big-endian value of bytes. -/
def beNat (b : List Byte) : Nat := leNat b.reverse

/-- The three rotations, or two and a shift, of which SHA-512 makes its functions. -/
def shaMix (x : W64) (a b c : Nat) : W64 := x.rotateRight a ^^^ x.rotateRight b ^^^ x.rotateRight c
/-- As `shaMix`, the third a shift. -/
def shaMixShift (x : W64) (a b c : Nat) : W64 := x.rotateRight a ^^^ x.rotateRight b ^^^ x >>> c

/-- The 80 words of the message schedule of a block. -/
def shaSchedule (block : List Byte) : List W64 :=
  let w := ((chunks 8 16 block).map fun b => BitVec.ofNat 64 (beNat b)).toArray
  ((List.range 64).foldl (fun (w : Array W64) i =>
    let at_ := fun (k : Nat) => w.getD (i + k) 0
    w.push (shaMixShift (at_ 14) 19 61 6 + at_ 9 + shaMixShift (at_ 1) 1 8 7 + at_ 0)) w).toList

/-- One round of SHA-512. -/
def shaRound (h : List W64) (kw : W64 × W64) : List W64 :=
  match h with
  | [a, b, c, d, e, f, g, x] =>
    let t := x + shaMix e 14 18 41 + ((e &&& f) ^^^ (~~~e &&& g)) + kw.1 + kw.2
    [t + shaMix a 28 34 39 + ((a &&& b) ^^^ (a &&& c) ^^^ (b &&& c)), a, b, c, d + t, e, f, g]
  | _ => h

/-- The value after one block. -/
def shaBlock (h : List W64) (block : List Byte) : List W64 :=
  List.zipWith (· + ·) h ((List.zip shaK (shaSchedule block)).foldl shaRound h)

/-- A message padded to whole blocks of 128 bytes. -/
def shaPad (m : List Byte) : List Byte :=
  m ++ 0x80 :: List.replicate ((239 - m.length % 128) % 128) 0 ++ beBytes 16 (8 * m.length)

/-- SHA-512 from an initial value. -/
def sha512From (init : List W64) (m : List Byte) : List Byte :=
  let p := shaPad m
  ((chunks 128 p.length p).foldl shaBlock init).flatMap fun (w : W64) => beBytes 8 w.toNat

/-- SHA-512: 64 bytes. -/
def sha512 (m : List Byte) : List Byte := sha512From sha512Init m

/-- SHA-384 (R417, R419): 48 bytes. -/
def sha384 (m : List Byte) : List Byte := (sha512From sha384Init m).take 48

/-- The round constants of Keccak-f[1600]. -/
def keccakRounds : List W64 :=
  [0x0000000000000001, 0x0000000000008082, 0x800000000000808a, 0x8000000080008000,
   0x000000000000808b, 0x0000000080000001, 0x8000000080008081, 0x8000000000008009,
   0x000000000000008a, 0x0000000000000088, 0x0000000080008009, 0x000000008000000a,
   0x000000008000808b, 0x800000000000008b, 0x8000000000008089, 0x8000000000008003] ++
  [0x8000000000008002, 0x8000000000000080, 0x000000000000800a, 0x800000008000000a,
   0x8000000080008081, 0x8000000000008080, 0x0000000080000001, 0x8000000080008008]

/-- The rotation of each lane of Keccak, lane x + 5y at x + 5y. -/
def keccakTurns : List Nat :=
  [0, 1, 62, 28, 27, 36, 44, 6, 55, 20, 3, 10, 43, 25, 39, 41, 45, 15, 21, 8, 18, 2, 61, 56, 14]

/-- One round of Keccak-f[1600] on the 25 lanes, lane x + 5y at x + 5y. -/
def keccakRound (a : List W64) (rc : W64) : List W64 :=
  let a := a.toArray
  let c := ((tabulate 5 fun x => (List.range 5).foldl (fun v y => v ^^^ a.getD (x + 5 * y) 0) 0) : List W64).toArray
  let a := (tabulate 25 fun i => a.getD i 0 ^^^ c.getD ((i + 4) % 5) 0 ^^^ (c.getD ((i + 1) % 5) 0).rotateLeft 1).toArray
  let b := (tabulate 25 fun i =>
    let x := (i % 5 + 3 * (i / 5)) % 5
    let k := x + 5 * (i % 5)
    (a.getD k 0).rotateLeft (lget keccakTurns k)).toArray
  tabulate 25 fun i =>
    let at_ := fun (k : Nat) => b.getD (i / 5 * 5 + (i + k) % 5) 0
    let v := at_ 0 ^^^ (~~~at_ 1 &&& at_ 2)
    if i = 0 then v ^^^ rc else v

/-- The permutation Keccak-f[1600]. -/
def keccakF (a : List W64) : List W64 := keccakRounds.foldl keccakRound a

/-- Lanes to bytes. -/
def laneBytes (a : List W64) : List Byte := a.flatMap fun (w : W64) => leBytes 8 w.toNat

/-- Takes a block into the lanes. -/
def keccakAbsorb (a : List W64) (block : List Byte) : List W64 :=
  let b := ((chunks 8 25 block).map fun w => BitVec.ofNat 64 (leNat w)).toArray
  keccakF (a.zipIdx.map fun x => x.1 ^^^ b.getD x.2 0)

/-- The bytes of `n` blocks of a rate. -/
def keccakSqueeze (rate : Nat) : Nat → List W64 → List Byte
  | 0, _ => []
  | n + 1, a => (laneBytes a).take rate ++ keccakSqueeze rate n (keccakF a)

/-- A message padded to whole blocks of a rate, as the SHAKE functions pad it. -/
def shakePad (rate : Nat) (m : List Byte) : List Byte :=
  let p := m ++ 0x1F :: List.replicate (rate - 1 - m.length % rate) 0
  p.dropLast ++ [p.getLastD 0 ||| 0x80]

/-- `n` bytes of SHAKE with a rate. -/
def shake (rate : Nat) (m : List Byte) (n : Nat) : List Byte :=
  let p := shakePad rate m
  (keccakSqueeze rate (n / rate + 1) ((chunks rate p.length p).foldl keccakAbsorb (List.replicate 25 0))).take n

/-- `n` bytes of SHAKE128. -/
def shake128 (m : List Byte) (n : Nat) : List Byte := shake 168 m n
/-- `n` bytes of SHAKE256. -/
def shake256 (m : List Byte) (n : Nat) : List Byte := shake 136 m n

end Sys2Proof.Machine
end

