-- ==== Sys2Proof/Machine/Ed25519.lean ====
section
/-! DEFINITION. Pure Ed25519 (R416, R419). PRESUMED (log entry 15): the spec names the standard and no more; it is taken from RFC
8032, section 5.1. -/

namespace Sys2Proof.Machine

/-- A power modulo `m`, of an exponent of at most `n` bits. -/
def powMod (m : Nat) : Nat → Nat → Nat → Nat
  | 0, _, _ => 1 % m
  | n + 1, b, e => let r := powMod m n (b * b % m) (e / 2); if e % 2 = 1 then b * r % m else r

/-- The prime of the field of Ed25519. -/
def edP : Nat := 2 ^ 255 - 19
/-- The order of its base point. -/
def edL : Nat := 2 ^ 252 + 27742317777372353535851937790883648493
/-- The inverse in the field. -/
def edInv (x : Nat) : Nat := powMod edP 255 x (edP - 2)
/-- The difference in the field, of two elements of it. -/
def edSub (x y : Nat) : Nat := (x + edP - y) % edP
/-- The constant d of the curve: -121665/121666. -/
def edD : Nat := edSub 0 (121665 * edInv 121666 % edP)

/-- A point of the curve in extended coordinates. -/
structure EdPoint where
  x : Nat
  y : Nat
  z : Nat
  t : Nat
  deriving DecidableEq, Repr

/-- The neutral point. -/
def edZero : EdPoint := ⟨0, 1, 1, 0⟩

/-- The sum of two points. -/
def edAdd (p q : EdPoint) : EdPoint :=
  let a := edSub p.y p.x * edSub q.y q.x % edP
  let b := (p.y + p.x) * (q.y + q.x) % edP
  let c := 2 * p.t * q.t * edD % edP
  let d := 2 * p.z * q.z % edP
  let e := edSub b a
  let f := edSub d c
  let g := d + c
  let h := b + a
  ⟨e * f % edP, g * h % edP, f * g % edP, e * h % edP⟩

/-- A multiple of a point, by a number of at most `n` bits. -/
def edMul : Nat → Nat → EdPoint → EdPoint
  | 0, _, _ => edZero
  | n + 1, k, p => let r := edMul n (k / 2) (edAdd p p); if k % 2 = 1 then edAdd p r else r

/-- Whether two points are one. -/
def edSame (p q : EdPoint) : Bool := p.x * q.z % edP == q.x * p.z % edP && p.y * q.z % edP == q.y * p.z % edP

/-- The x coordinate that belongs to y, of which bit 0 is given. -/
def edRecover (y sign : Nat) : Option Nat :=
  let x2 := edSub (y * y % edP) 1 * edInv ((edD * (y * y % edP) + 1) % edP) % edP
  if edP ≤ y then none
  else if x2 = 0 then (if sign = 0 then some 0 else none)
  else
    let x := powMod edP 255 x2 ((edP + 3) / 8)
    let x := if x * x % edP = x2 then x else x * powMod edP 255 2 ((edP - 1) / 4) % edP
    if x * x % edP ≠ x2 then none else some (if x % 2 = sign then x else edP - x)

/-- The 32 bytes of a point. -/
def edEncode (p : EdPoint) : List Byte :=
  let i := edInv p.z
  leBytes 32 (p.y * i % edP + p.x * i % edP % 2 * 2 ^ 255)

/-- The point that 32 bytes encode, if they encode one. -/
def edDecode (b : List Byte) : Option EdPoint :=
  let v := leNat b
  let y := v % 2 ^ 255
  (edRecover y (v / 2 ^ 255)).map fun x => ⟨x, y, 1, x * y % edP⟩

/-- The base point: y is 4/5, x is even. -/
def edBase : EdPoint :=
  let y := 4 * edInv 5 % edP
  let x := (edRecover y 0).getD 0
  ⟨x, y, 1, x * y % edP⟩

/-- SHA-512 of bytes as a number modulo the order of the base point. -/
def edHash (m : List Byte) : Nat := leNat (sha512 m) % edL

/-- The secret number of a seed. -/
def edScalar (seed : List Byte) : Nat := leNat ((sha512 seed).take 32) % 2 ^ 254 / 8 * 8 + 2 ^ 254

/-- The public key of a seed (R419): 32 bytes. -/
def ed25519Key (seed : List Byte) : List Byte := edEncode (edMul 255 (edScalar seed) edBase)

/-- The signature of a message under the key of a seed (R419): 64 bytes. -/
def ed25519Sign (seed m : List Byte) : List Byte :=
  let r := edHash ((sha512 seed).drop 32 ++ m)
  let p := edEncode (edMul 253 r edBase)
  let k := edHash (p ++ ed25519Key seed ++ m)
  p ++ leBytes 32 ((r + k * edScalar seed) % edL)

/-- Whether a signature of a message verifies under a key (R416, R417): the equation with the cofactor, 8SB = 8R + 8kA. -/
def ed25519Ok (key m sig : List Byte) : Bool :=
  let s := leNat (sig.drop 32)
  match edDecode key, edDecode (sig.take 32) with
  | some a, some r =>
    let k := edHash (sig.take 32 ++ key ++ m)
    decide (s < edL) && edSame (edMul 4 8 (edMul 253 s edBase)) (edMul 4 8 (edAdd r (edMul 253 k a)))
  | _, _ => false

end Sys2Proof.Machine
end

