-- ==== Sys2Proof/Machine/MlDsa.lean ====
section
/-! DEFINITION. Pure ML-DSA-65 with an empty context (R416, R419). PRESUMED (log entry 15): the spec names the standard and no
more; it is taken from FIPS 204. A polynomial is the list of its 256 coefficients modulo q, lowest power first; of one that is
transformed, the list of its values. -/

namespace Sys2Proof.Machine

/-- The modulus q. -/
def dsaQ : Nat := 8380417
/-- Dropped bits d of t. -/
def dsaD : Nat := 13
/-- γ1. -/
def dsaG1 : Nat := 2 ^ 19
/-- γ2. -/
def dsaG2 : Nat := (dsaQ - 1) / 32
/-- β = τη. -/
def dsaBeta : Nat := 196
/-- The greatest number of ones in a hint, ω. -/
def dsaOmega : Nat := 55

/-- A polynomial, or its transform. -/
abbrev Poly := List Nat

/-- The sum of two polynomials. -/
def polyAdd (a b : Poly) : Poly := List.zipWith (fun x y => (x + y) % dsaQ) a b
/-- The difference of two polynomials. -/
def polySub (a b : Poly) : Poly := List.zipWith (fun x y => (x + dsaQ - y) % dsaQ) a b
/-- The product of two transforms. -/
def polyMul (a b : Poly) : Poly := List.zipWith (fun x y => x * y % dsaQ) a b

/-- The powers of ζ = 1753, a primitive 512th root of unity. -/
def dsaZeta : Array Nat := ((List.range 512).map (powMod dsaQ 9 1753)).toArray

/-- The eight bits of a number in reverse. -/
def bitRev8 (i : Nat) : Nat := ((List.range 8).map fun k => bitsOf i k 1 * 2 ^ (7 - k)).sum

/-- The transform: the values of a polynomial at the odd powers of ζ, in the order of the standard. -/
def ntt (w : Poly) : Poly :=
  let a := w.toArray
  tabulate 256 fun i =>
    let r := 2 * bitRev8 i + 1
    (List.range 256).foldl (fun s j => s + a.getD j 0 * dsaZeta.getD (r * j % 512) 0) 0 % dsaQ

/-- The polynomial of a transform. -/
def nttInv (w : Poly) : Poly :=
  let a := w.toArray
  let n := powMod dsaQ 23 256 (dsaQ - 2)
  let roots := ((List.range 256).map fun i => 2 * bitRev8 i + 1).toArray
  tabulate 256 fun j =>
    (List.range 256).foldl (fun s i => s + a.getD i 0 * dsaZeta.getD (511 * roots.getD i 0 * j % 512) 0) 0 % dsaQ * n % dsaQ

/-- The product of a transformed matrix, by rows, and a transformed vector. -/
def matVec (a : List (List Poly)) (v : List Poly) : List Poly :=
  a.map fun row => (List.zipWith polyMul row v).foldl polyAdd (List.replicate 256 0)

/-- The absolute value of a coefficient. -/
def coefAbs (c : Nat) : Nat := Nat.min c (dsaQ - c)

/-- Whether every coefficient is smaller than a bound in absolute value. -/
def normBelow (v : List Poly) (b : Nat) : Bool := v.all fun p => p.all fun c => decide (coefAbs c < b)

/-- The remainder of a coefficient in (-α/2, α/2]. -/
def centred (r α : Nat) : Int := if 2 * (r % α) ≤ α then (r % α : Nat) else ((r % α : Nat) : Int) - α

/-- A number modulo q. -/
def modQ (x : Int) : Nat := (x % (dsaQ : Int)).toNat

/-- `Power2Round`: the high part and the low part. -/
def power2Round (r : Nat) : Nat × Nat :=
  let r0 := centred r (2 ^ dsaD)
  ((((r : Int) - r0) / 2 ^ dsaD).toNat, modQ r0)

/-- `Decompose`: the high part and the low part. -/
def decompose (r : Nat) : Nat × Int :=
  let r0 := centred r (2 * dsaG2)
  if (r : Int) - r0 = dsaQ - 1 then (0, r0 - 1) else ((((r : Int) - r0) / (2 * dsaG2 : Nat)).toNat, r0)

/-- `HighBits` of a vector. -/
def highBits (v : List Poly) : List Poly := v.map fun p => p.map fun c => (decompose c).1
/-- `LowBits` of a vector, modulo q. -/
def lowBits (v : List Poly) : List Poly := v.map fun p => p.map fun c => modQ (decompose c).2

/-- `UseHint` of a coefficient. -/
def useHint (h : Bool) (r : Nat) : Nat :=
  let x := decompose r
  if !h then x.1 else if 0 < x.2 then (x.1 + 1) % 16 else (x.1 + 15) % 16

/-- Coefficients of `b` bits each as bytes. -/
def bitPack (b : Nat) (p : Poly) : List Byte := leBytes (32 * b) (p.foldr (fun c v => c + 2 ^ b * v) 0)
/-- The 256 coefficients of `b` bits each in bytes. -/
def bitUnpack (b : Nat) (data : List Byte) : Poly :=
  let v := leNat data
  tabulate 256 fun i => bitsOf v (b * i) b

/-- A coefficient that a field of bits gives as its distance below γ1. -/
def belowG1 (p : Poly) : Poly := p.map fun z => (dsaG1 + dsaQ - z) % dsaQ

/-- `w1Encode`. -/
def encodeW1 (w : List Poly) : List Byte := w.flatMap (bitPack 4)

/-- `RejNTTPoly`: the numbers below q among 23-bit draws. DESIGN CHOICE (log entry 15): at most 336 draws are made. -/
def rejectNtt (seed : List Byte) : Poly :=
  let draws := (chunks 3 336 (shake128 seed 1008)).map fun b => leNat b % 2 ^ 23
  padTo 256 0 (draws.filter (· < dsaQ))

/-- `RejBoundedPoly` for η = 4: the half bytes below 9. DESIGN CHOICE (log entry 15): at most 1088 draws are made. -/
def rejectBounded (seed : List Byte) : Poly :=
  let draws := (shake256 seed 544).flatMap fun (b : Byte) => [b.toNat % 16, b.toNat / 16]
  padTo 256 0 ((draws.filter (· < 9)).map fun z => (dsaQ + 4 - z) % dsaQ)

/-- `ExpandA`: six rows of five. -/
def expandA (rho : List Byte) : List (List Poly) :=
  tabulate 6 fun r => tabulate 5 fun s => rejectNtt (rho ++ leBytes 1 s ++ leBytes 1 r)

/-- `ExpandMask`: five polynomials. -/
def expandMask (rho : List Byte) (k : Nat) : List Poly :=
  tabulate 5 fun r => belowG1 (bitUnpack 20 (shake256 (rho ++ leBytes 2 (k + r)) 640))

/-- The swaps of `SampleInBall` from index `i` on, with the signs and the draws that are left. -/
def ballSwaps : Nat → Nat → List Nat → List Byte → Poly → Poly
  | 0, _, _, _, c => c
  | n + 1, i, signs, draws, c =>
    match draws.dropWhile fun j => decide (i < j.toNat) with
    | [] => c
    | j :: rest =>
      let sign := if lget signs 0 = 1 then dsaQ - 1 else 1
      ballSwaps n (i + 1) (signs.drop 1) rest (lset (lset c i (lget c j.toNat)) j.toNat sign)

/-- `SampleInBall`: 49 coefficients are 1 or -1. DESIGN CHOICE (log entry 15): at most 264 draws are made. -/
def sampleInBall (seed : List Byte) : Poly :=
  let b := shake256 seed 272
  let signs := leNat (b.take 8)
  ballSwaps 49 207 (tabulate 49 fun i => bitsOf signs i 1) (b.drop 8) (List.replicate 256 0)

/-- `HintBitPack`. -/
def packHint (h : List (List Bool)) : List Byte :=
  let ones := h.map fun p => (p.zipIdx.filter (·.1)).map (·.2)
  padTo dsaOmega 0 (ones.flatten.map (BitVec.ofNat 8)) ++ tabulate 6 fun i => BitVec.ofNat 8 ((ones.take (i + 1)).map (·.length)).sum

/-- Whether numbers rise strictly. -/
def climbs : List Nat → Bool
  | x :: y :: l => decide (x < y) && climbs (y :: l)
  | _ => true

/-- `HintBitUnpack`, none for a malformed hint. -/
def unpackHint (y : List Byte) : Option (List (List Bool)) :=
  let ends := 0 :: tabulate 6 fun i => (lget y (dsaOmega + i)).toNat
  let ones := tabulate 6 fun i => (((y.take (lget ends (i + 1))).drop (lget ends i)).map BitVec.toNat)
  let ordered := (List.range 6).all fun i => decide (lget ends i ≤ lget ends (i + 1) ∧ lget ends (i + 1) ≤ dsaOmega)
  if ordered && ones.all climbs && ((y.take dsaOmega).drop (lget ends 6)).all (· == 0) then
    some (ones.map fun l => tabulate 256 (l.contains ·))
  else none

/-- A secret key of ML-DSA-65 with its public key. -/
structure DsaKey where
  rho : List Byte
  key : List Byte
  s1 : List Poly
  s2 : List Poly
  t0 : List Poly
  pub : List Byte
  deriving DecidableEq, Repr

/-- `KeyGen` from a seed. -/
def dsaKeyGen (seed : List Byte) : DsaKey :=
  let x := shake256 (seed ++ [6, 5]) 128
  let rho := x.take 32
  let small := fun (i : Nat) => rejectBounded ((x.drop 32).take 64 ++ leBytes 2 i)
  let s1 := tabulate 5 small
  let s2 := tabulate 6 fun i => small (5 + i)
  let t := List.zipWith polyAdd ((matVec (expandA rho) (s1.map ntt)).map nttInv) s2
  { rho := rho, key := x.drop 96, s1 := s1, s2 := s2, t0 := t.map fun p => p.map fun c => (power2Round c).2,
    pub := rho ++ t.flatMap fun p => bitPack 10 (p.map fun c => (power2Round c).1) }

/-- The digest μ of a message under a public key; the context is empty. -/
def dsaMu (pub m : List Byte) : List Byte := shake256 (shake256 pub 64 ++ [0, 0] ++ m) 64

/-- One attempt at a signature, none where it is rejected: the matrix, the key with its transforms, μ, and the mask. -/
def dsaAttempt (a : List (List Poly)) (s1 s2 t0 : List Poly) (mu : List Byte) (y : List Poly) : Option (List Byte) :=
  let w := (matVec a (y.map ntt)).map nttInv
  let c := shake256 (mu ++ encodeW1 (highBits w)) 48
  let ch := ntt (sampleInBall c)
  let times := fun (v : List Poly) => v.map fun p => nttInv (polyMul ch p)
  let z := List.zipWith polyAdd y (times s1)
  let low := List.zipWith polySub w (times s2)
  let ct0 := times t0
  let h := List.zipWith (List.zipWith fun x y => x != y) (highBits low) (highBits (List.zipWith polyAdd low ct0))
  if normBelow z (dsaG1 - dsaBeta) && normBelow (lowBits low) (dsaG2 - dsaBeta) && normBelow ct0 dsaG2 &&
      decide ((h.map fun p => p.countP id).sum ≤ dsaOmega) then
    some (c ++ z.flatMap (fun p => bitPack 20 (belowG1 p)) ++ packHint h)
  else none

/-- Attempts until one is not rejected, at most `n`, from a counter. -/
def dsaAttempts (attempt : List Poly → Option (List Byte)) (seed : List Byte) : Nat → Nat → Option (List Byte)
  | 0, _ => none
  | n + 1, k => match attempt (expandMask seed k) with
    | some sig => some sig
    | none => dsaAttempts attempt seed n (k + 5)

/-- The signature of a message under the key of a seed, with 32 random bytes (R419): 3309 bytes. DESIGN CHOICE (log entry 15): at
most 814 attempts are made. -/
def mldsaSign (seed rnd m : List Byte) : List Byte :=
  let k := dsaKeyGen seed
  let mu := dsaMu k.pub m
  let attempt := dsaAttempt (expandA k.rho) (k.s1.map ntt) (k.s2.map ntt) (k.t0.map ntt) mu
  (dsaAttempts attempt (shake256 (k.key ++ rnd ++ mu) 64) 814 0).getD []

/-- The public key of a seed (R419): 1952 bytes. -/
def mldsaKey (seed : List Byte) : List Byte := (dsaKeyGen seed).pub

/-- Whether a signature of a message verifies under a key (R416, R417). -/
def mldsaOk (key m sig : List Byte) : Bool :=
  let c := sig.take 48
  let z := (chunks 640 5 (sig.drop 48)).map fun b => belowG1 (bitUnpack 20 b)
  match unpackHint (sig.drop 3248) with
  | none => false
  | some h =>
    let t1 := (chunks 320 6 (key.drop 32)).map fun b => (bitUnpack 10 b).map (2 ^ dsaD * ·)
    let ch := ntt (sampleInBall c)
    let az := matVec (expandA (key.take 32)) (z.map ntt)
    let w := List.zipWith (fun p t => nttInv (polySub p (polyMul ch (ntt t)))) az t1
    let w1 := List.zipWith (List.zipWith useHint) h w
    normBelow z (dsaG1 - dsaBeta) && shake256 (dsaMu key m ++ encodeW1 w1) 48 == c

end Sys2Proof.Machine
end

