-- ==== Sys2Proof/Machine/Launch.lean ====
section
/-! DEFINITION. Launch records (R142-R153): arming, cancelling, patching and reading one, by instruction
(R334-R337) and by host command (R435). -/

namespace Sys2Proof.Machine

/-- The bits of a record's doubleword that are RW (R143): of a doubleword that is RW whole the reserved bits too, which arming
then refuses (R24, R145, R150). -/
def recordMask (i : Nat) : W64 :=
  if i = 0 then 0xFFFFFF00
  else if i = 3 then 0xF000000001FFFFFF
  else if i = 4 then 0x0000FFFFFFFFFFFF
  else if i = 14 ∨ i = 15 ∨ 56 ≤ i then 0
  else BitVec.allOnes 64

/-- The bits of a level descriptor that are not reserved (R145). -/
def levelFields : W64 := 0xFFFFFF0300FFFFFF
/-- The bits of a region descriptor that are not reserved (R23). -/
def regionFields : W64 := 0x00000003FFFFFFF5

/-- The bits of a record's doubleword that `LPATCH` writes (R143): of a region descriptor its fields only (R23). -/
def patchMask (i : Nat) : W64 := if 40 ≤ i ∧ i < 56 then regionFields else recordMask i

/-- Whether a VA may be an entry point (R150). -/
def entryOk (va : W64) : Bool := canonical va && decide (va.toNat % 4 = 0)

/-- Whether an engine header is accepted for a unit class (R325, R353). -/
def headerFits (unit : Nat) (e : W64) : Bool :=
  decide (fieldOf e 4 36 = 0) && match unit with
    | 2 => decide (fieldOf e 0 4 < 4)
    | 3 => decide (fieldOf e 0 4 < 5)
    | _ => decide (fieldOf e 0 4 = 5 ∨ fieldOf e 0 4 = 6)

/-- Whether a PA may be a counter of the device (R150, R435). -/
def counterPa (pa : W64) : Bool := decide (pa.toNat % 8 = 0) && hasFullBits pa.toNat

/-- Whether a die is enabled (R420). -/
def State.dieUp (s : State) (d : Nat) : Bool := s.dieMask.getLsbD d

/-- The reserved bits of a record outside its level and region descriptors, and its tile shapes (R143, R144). -/
def State.recReserved (s : State) (r : Nat) : Bool :=
  let dw := s.recDw r
  let odd := (List.range 8).any fun k => fieldOf (dw (25 + 2 * k)) 60 2 != 0 || fieldOf (dw (25 + 2 * k)) 62 2 == 3
  fieldOf (dw 0) 0 8 != 0 || fieldOf (dw 3) 25 35 != 0 || fieldOf (dw 4) 48 16 != 0 ||
  (dw 12 ||| dw 13) &&& 0x4000400040004000 != 0 || dw 14 != 0 || dw 15 != 0 ||
  ((List.range 8).any fun k => dw (56 + k) != 0) || odd

/-- Whether a record is malformed (R150). -/
def State.recMalformed (s : State) (r : Nat) : Bool :=
  let u := s.unit r
  s.recReserved r || s.recField r 0 24 8 == 0 || decide (5 ≤ u) || decide (5 ≤ s.recField r 3 60 4) ||
  !counterPa (s.recDw r 5) || (s.successors r).any (fun x => !s.dieUp (x / 4096)) ||
  if u < 2 then
    decide (s.recField r 7 40 24 * 4096 < 0x5400 + 64 * s.recField r 7 20 20 + 128 + 64 * s.recField r 7 0 20) ||
    !entryOk (s.recDw r 1) || (u == 1 && !entryOk (s.recDw r 2))
  else !headerFits u (s.recDw r 1)

/-- Whether two valid regions overlap. -/
def regionsOverlap : List (Nat × Nat) → Bool
  | [] => false
  | a :: l => l.any (fun b => decide (a.1 < b.1 + b.2 ∧ b.1 < a.1 + a.2)) || regionsOverlap l

/-- Whether a record's named regions are refused (R24). -/
def State.recRegionsBad (s : State) (r : Nat) : Bool :=
  let v := ((List.range 16).map fun k => s.recDw r (40 + k)).filter fun d => d.getLsbD 0
  let rs := v.map fun d => (fieldOf d 20 14, fieldOf d 5 15)
  v.any (fun d => d &&& ~~~regionFields != 0) || rs.any (fun x => x.2 == 0 || decide (16384 < x.1 + x.2)) || regionsOverlap rs

/-- The least `SCOPE` of a level (R145). -/
def leastScope (n : Nat) : Nat := lget [0, 1, 2, 2, 3, 3, 3, 3] n

/-- Whether a record's levels are refused (R145, R146). -/
def State.recLevelsBad (s : State) (r : Nat) : Bool :=
  let top := s.recField r 0 14 3
  let lev := fun n => s.recDw r (16 + n)
  let bad := (List.range 8).any fun n =>
    if n ≤ top then lev n &&& ~~~levelFields != 0 || decide (fieldOf (lev n) 32 2 < leastScope n) else lev n != 0
  let e0 := s.extent r 0
  bad || !(if s.unit r = 0 then decide (1 ≤ e0 ∧ e0 ≤ 8) else e0 == 1) ||
  ((List.range (s.topLevel r + 1)).map (s.extent r)).foldl (· * ·) 1 != s.work r

/-- `Arm` of R149 with a class of its own, if a hint or command gave one (R336, R435). -/
def State.arm (s : State) (r : Nat) (pri : Option (BitVec 2)) : Nat × State :=
  if s.recField r 0 24 8 ≤ s.live r then (stFULL, s)
  else if 2 ^ 24 ≤ s.work r then (stRANGE, s)
  else if s.recMalformed r then (stMALFORMED, s)
  else if s.recRegionsBad r then (stREGION, s)
  else if s.recLevelsBad r then (stLEVEL, s)
  else if s.recField r 0 20 1 = 1 ∧ (s.die (r / 4096)).wsLoading then (stBUSY, s)
  else
    let gen := (s.gen r + 1) % 2 ^ 16
    let s := s.setRecField r 0 48 16 gen
    if s.work r = 0 then (stOK, s.signal r stOK)
    else
      let preds := s.recField r 0 8 6
      let take := min (s.cred r) preds
      let s := s.setRecField r 0 32 8 (s.cred r - take)
      let i : Instance := { recNo := BitVec.ofNat 14 r, gen := BitVec.ofNat 16 gen, st := .waiting, pending := preds - take,
                            event := s.recField r 3 60 4 != 0, cls := pri.getD (BitVec.ofNat 2 (s.recField r 0 22 2)) }
      let s := s.setRecField r 0 40 8 (s.live r + 1)
      (stOK, ({ s with insts := s.insts ++ [i] }).wakeInst i.recNo i.gen)

/-- LCANCEL (R153): status, and the number cancelled in bits 15:8. -/
def State.cancel (s : State) (r : Nat) : Nat × State :=
  let mine := fun (i : Instance) => i.recNo.toNat == r
  let gone := (s.insts.filter fun (i : Instance) => mine i && decide (i.st ≠ InstState.dispatched)).length
  if gone = 0 then (if s.insts.any mine then stDISPATCHED else stNONE, s)
  else
    let s := { s with insts := s.insts.filter fun (i : Instance) => !(mine i && decide (i.st ≠ InstState.dispatched)) }
    (stOK + 256 * gone, (s.setRecField r 0 40 8 (s.live r - gone)).fillPaddock)

/-- LSTAT (R337). -/
def State.recStat (s : State) (r : Nat) : W64 :=
  let waitn := (s.insts.filter fun i => i.recNo.toNat == r && decide (i.st = .waiting)).length
  let last := ((lookupKey s.recLast r).getD 0).toNat
  BitVec.ofNat 64 (s.gen r * 2 ^ 48 + s.live r * 2 ^ 40 + s.cred r * 2 ^ 32 + min waitn 255 * 2 ^ 24 + last % 512)

/-- Writes the RW fields of a record's doubleword (R143). -/
def State.putRecord (s : State) (r i : Nat) (mask v : W64) : State :=
  s.setRecDw r i ((s.recDw r i &&& ~~~mask) ||| (v &&& mask))

/-- LPATCH past the check of R335 for its ASID. A patch of doubleword 0 clears `COVF` (R337). -/
def State.patch (s : State) (r i : Nat) (v : W64) (mgmt : Bool) : Nat × State :=
  let mask := patchMask i
  if mask = 0 then (stMALFORMED, s)
  else if s.live r ≠ 0 then (stBUSY, s)
  else
    let s := s.putRecord r i (if i = 4 ∧ !mgmt then 0 else mask) v
    (stOK, if i = 0 then { s with recLast := setKey s.recLast r ((lookupKey s.recLast r).getD 0 &&& 0xFF) } else s)

/-- The selector of a launch instruction (R334): record and doubleword. -/
def launchSelector (a : Spec) (patch : Bool) : M (Nat × Nat) := do
  let x ← readScalar a
  need (reservedZero x.toNat (if patch then [(0, 14), (16, 6)] else [(0, 14)])) 0x01 x
  pure (fieldOf x 0 14, fieldOf x 16 6)

/-- Performs a launch instruction at the record's die, when the task may act on the record (R335). -/
def atRecord (d : Spec) (r : Nat) (f : Bool → State → W64 × State) : M Next := do
  let mgmt ← isManagement
  let s ← get
  if !mgmt && s.xasid r != s.task.asid then writeLoaded d (BitVec.ofNat 64 stDENIED)
  else
    let v ← runS (f mgmt)
    writeLoaded d v
    upd State.serve
  pure .seq

/-- A status as d receives it. -/
def statusWord (r : Nat × State) : W64 × State := (BitVec.ofNat 64 r.1, r.2)

/-- LPATCH (R335). DEDUCED (log entry 25): the selector of a is refused before b is read, so a channel that b names keeps its
words. -/
def lpatchBody (d a b : Spec) : M Next := do
  checkSrc a; checkSrc b; checkDst d
  let (r, i) ← launchSelector a true
  let v ← readScalar b
  atRecord d r fun mgmt s => statusWord (s.patch r i v mgmt)

/-- LARM (R334, R336): first a boundary at system scope. -/
def larmBody (d a : Spec) : M Next := do
  checkSrc a; checkDst d
  let (r, _) ← launchSelector a false
  let pri := (← get).task.hints.hpri
  boundary .system
  atRecord d r fun _ s => statusWord (s.arm r pri)

/-- LCANCEL (R336). -/
def lcancelBody (d a : Spec) : M Next := do
  checkSrc a; checkDst d
  let (r, _) ← launchSelector a false
  atRecord d r fun _ s => statusWord (s.cancel r)

/-- LSTAT (R337). -/
def lstatBody (d a : Spec) : M Next := do
  checkSrc a; checkDst d
  let (r, _) ← launchSelector a false
  atRecord d r fun _ s => (s.recStat r, s)

/-- A launch command of the host (R435): the result to `STATPA`, then the counter. One that names a bad PA or a record
of a disabled die is discarded. -/
def State.launchCommand (s : State) (r : BitVec 14) (statpa ctrpa : W64) (f : State → W64 × State) : State :=
  if counterPa statpa && counterPa ctrpa && s.dieUp (r.toNat / 4096) then
    let v := f s
    (v.2.agentWrite false .other statpa.toNat (leBytes 8 v.1.toNat)).signalCounter ctrpa
  else s

/-- LPATCH (R335). -/
def execLpatch (d a b : Spec) (s : State) : Res := word (.lpatch d a b) (lpatchBody d a b) s
/-- LARM (R336). -/
def execLarm (d a : Spec) (s : State) : Res := issue .any { pri := true } (.larm d a) (larmBody d a) s
/-- LCANCEL (R336). -/
def execLcancel (d a : Spec) (s : State) : Res := word (.lcancel d a) (lcancelBody d a) s
/-- LSTAT (R337). -/
def execLstat (d a : Spec) (s : State) : Res := word (.lstat d a) (lstatBody d a) s
/-- LAUNCH_CMD_ARM (R435). -/
def execLaunchCmdArm (pv : BitVec 1) (pcls : BitVec 2) (recNo : BitVec 14) (statpa ctrpa : W64) (s : State) : Res :=
  throughBar (·.launchCommand recNo statpa ctrpa fun s => statusWord (s.arm recNo.toNat (if pv = 1 then some pcls else none))) s
/-- LAUNCH_CMD_CANCEL (R435). -/
def execLaunchCmdCancel (recNo : BitVec 14) (statpa ctrpa : W64) (s : State) : Res :=
  throughBar (·.launchCommand recNo statpa ctrpa fun s => statusWord (s.cancel recNo.toNat)) s
/-- LAUNCH_CMD_STATE (R435). -/
def execLaunchCmdState (recNo : BitVec 14) (statpa ctrpa : W64) (s : State) : Res :=
  throughBar (·.launchCommand recNo statpa ctrpa fun s => (s.recStat recNo.toNat, s)) s

end Sys2Proof.Machine
end

