-- ==== Sys2Proof/Machine/Matrix.lean ====
section
/-! DEFINITION. The matrix unit (R172-R175, R280-R300): its mode, operands, runs, scale-and-accumulate, the
recurrence mode and its memory image. Its state belongs to the issuer task. -/

namespace Sys2Proof.Machine

/-- A row-buffer half (R280). -/
def Mx.half (m : Mx) (h : Nat) : List (List Byte) := if h = 0 then m.half0 else m.half1
/-- Fills a half. -/
def Mx.setHalf (m : Mx) (h : Nat) (rows : List (List Byte)) : Mx :=
  if h = 0 then { m with half0 := rows } else { m with half1 := rows }

/-- The A code of element k in a row's bytes (R172, R292). -/
def aCode (h : MxShape) (row : Array Byte) (k : Nat) : Int :=
  if h.int4 then signedNat 4 (bitsOf (row.getD (k / 2) 0).toNat (4 * (k % 2)) 4)
  else signedNat 8 (row.getD k 0).toNat

/-- The B code of element k in a column, or none where a sparse B omits it (R291). -/
def bCode (h : MxShape) (sparse : Bool) (b : Array Byte) (col k : Nat) : Option Nat :=
  let m := col / 128 * h.c + k / h.km
  let x := col % 128
  let r := k % h.km
  if sparse then
    let base := 24576 * m
    let u := r / 4
    let meta_ := (b.getD (base + 16384 + 128 * u + x) 0).toNat
    if r % 4 = bitsOf meta_ 0 2 then some (b.getD (base + 128 * (2 * u) + x) 0).toNat
    else if r % 4 = bitsOf meta_ 2 2 then some (b.getD (base + 128 * (2 * u + 1) + x) 0).toNat
    else none
  else if h.int4 then some (bitsOf (b.getD (16384 * m + 128 * (r / 2) + x) 0).toNat (4 * (r % 2)) 4)
  else some (b.getD (16384 * m + 128 * r + x) 0).toNat

/-- The group descriptor of a column (R290); none loaded reads as zero. -/
def descOf (h : MxShape) (d : Array W32) (col g : Nat) : Nat := (d.getD (col * h.ngPitch + g) 0).toNat

/-- A B element less its zero point (R173); an omitted element is zero (R189). -/
def bValue (h : MxShape) (sparse : Bool) (b : Array Byte) (d : Array W32) (col k : Nat) : Int :=
  match bCode h sparse b col k with
  | none => 0
  | some q => (q : Int) - bitsOf (descOf h d col (k / h.gsz)) 24 8

/-- The partial sum of a row, column and span (R173, R282, R293). -/
def partialSum (h : MxShape) (sparse : Bool) (row b : Array Byte) (d : Array W32) (col sp : Nat) : W32 :=
  BitVec.ofInt 32 (((List.range h.span).map fun i =>
    let k := sp * h.span + i
    aCode h row k * bValue h sparse b d col k).sum)

/-- The recurrence of one row and column from K-step `k0` to `k1` - 1 (R297, R298). -/
def recurrence (m : Mx) (h : MxShape) (row b : Array Byte) (d : Array W32) (col k0 k1 : Nat) (v : ProgState) : ProgState :=
  (List.range (k1 - k0)).foldl (fun v i =>
    let k := k0 + i
    let conv := fun (x : Int) => if progFp m.uprog then BitVec.ofNat 32 (f32.encode .rne (.ofInt x)).1 else BitVec.ofInt 32 x
    runProg m.uprog (conv (aCode h row k)) (conv (bValue h false b d col k)) v) v

/-- The recurrence of one row and column over K-steps `k0` to `k1` - 1 (R297, R298). Where it does not begin at 0, `s` goes on
from a latch and `t` from the value kept of the run; an image that software restores does not hold that one, which is then open
(R300, log entry 18). -/
def Mx.recur (m : Mx) (row b : Array Byte) (d : Array W32) (i col k0 k1 : Nat) (old : W32) : ProgState :=
  recurrence m m.shape row b d col k0 k1
    (if k0 = 0 then ⟨lget m.uprog 2, 0, 0⟩ else ⟨old, m.carry.getD col ((Config.freeWord i).setWidth 32), 0⟩)

/-- The latches after a run in progress has done its rows up to `row`, and `step` K-steps of that one, each with the t of its
column and the flags of what it does beyond the latches `latched` tells of (R293, R298, R299). DESIGN CHOICE (log entry 27): the bytes of
a half that was fed under another `SP` are taken apart by the shape of the run. -/
def Mx.results (m : Mx) (row step : Nat) : List ProgState :=
  let h := m.shape
  let rows := ((m.half (fieldOf m.mxstate 25 1)).map (·.toArray)).toArray
  let b := m.bcells.toArray
  let d := m.desc.toArray
  let old := m.latch.toArray
  let kept := m.carry.toArray
  tabulate (128 * h.n * h.nsPitch * 32) fun i =>
    let r := i % 32
    let col := i / 32 / h.nsPitch
    let sp := i / 32 % h.nsPitch
    let k0 := if r = m.latched.1 then m.latched.2 else 0
    let k1 := if r < row then h.k else step
    let was : ProgState := ⟨old.getD i 0, kept.getD col 0, 0⟩
    if r < m.latched.1 ∨ row < r ∨ h.ns ≤ sp then was
    else if m.bit 26 then (if sp ≠ 0 ∨ k1 ≤ k0 then was else m.recur (rows.getD r #[]) b d i col k0 k1 was.s)
    else if r < row then ⟨partialSum h (m.bit 17) (rows.getD r #[]) b d col sp, 0, 0⟩
    else was

/-- A run whose latches stand at K-step `step` of row `row`. -/
def Mx.settle (m : Mx) (row step : Nat) : Mx :=
  let r := m.results row step
  let h := m.shape
  let ts := (r.map ProgState.t).toArray
  ({ m with latch := r.map ProgState.s, runFlags := (r.map ProgState.flags).foldl (· ||| ·) m.runFlags, latched := (row, step),
            carry := if step = 0 then [] else tabulate (128 * h.n) fun col => ts.getD (col * h.nsPitch * 32 + row) 0 }.put
      32 6 row).put 44 13 step

/-- The block scales a run keeps with its latches (R282, R293). -/
def Mx.keptScales (m : Mx) : List (List Byte) :=
  (m.half (fieldOf m.mxstate 25 1)).map fun row => (row.drop m.shape.codeBytes).take m.shape.scaleBytes

/-- The end of a run (R293, R298): latches and scales, the half emptied, `LV` set. DEDUCED (log entry 27): an `MXREC` ends as an
`MXRUN` does, though its listing names neither the scales nor the half. -/
def Mx.finish (m : Mx) : Mx :=
  let m := { m.settle 32 0 with scales := m.keptScales }
  ((m.put (20 + fieldOf m.mxstate 25 1) 1 0).put 27 1 1).put 24 1 0

/-- Changes the current task's matrix state. -/
def State.setMx (s : State) (f : Mx → Mx) : State := s.setTask fun t => { t with mx := f t.mx }

/-- Ends the current task's run, if one is in progress: the flags of a recurrence go into `FSTAT` (R298), with those that an image
has left pending (log entry 27). -/
def State.finishRun (s : State) : State :=
  if s.task.mx.running then
    let s := s.setMx Mx.finish
    (s.raiseFlags s.task.mx.runFlags).setMx fun m => { m with runFlags := 0 }
  else s

/-- The end of a run (R166, R293, R298): an enabled flag of a recurrence parks an issuer that is RUNNING (R133), which resumes
where it stands; one whose command waits for an inbox executes the command again (R311). DEDUCED (log entry 22): the flags of an
issuer in another state are recorded and do not park it; those of one that waits go to its context area (R386). -/
def State.runEnd (s : State) (key : Nat) (rec : Bool) : State :=
  match s.taskOf key with
  | none => s
  | some t =>
    if t.mx.running && t.mx.bit 26 == rec then
      let s := (s.reload key).asTask key fun s =>
        let f := s.task.mx.finish.runFlags &&& s.task.fena.setWidth 5
        let s := s.finishRun
        let live := s.task.status == .running && !s.task.waitOn.again
        if f ≠ 0 ∧ live ∧ (s.die s.task.core.die.toNat).supv.getLsbD 0 then s.park f s.task.mx.runPc else s
      (if t.status = .waiting then s.writeBack key else s).serve
    else s

/-- MX members wait until no run is in progress (R286); the wait ends by itself (log entry 6). A run whose end parks the
issuer (R166) leaves the member to be executed when the task goes on, and one whose parking ends the task (R167) leaves nothing
to execute it. -/
def afterRun (body : M Next) : M Next := do
  upd fun s => s.runEnd s.task.key (s.task.mx.bit 26)
  if (← get).task.status = .running then body else pure .gone

/-- The current matrix state. -/
def mxNow : M Mx := do pure (← get).task.mx

/-- A state check: the illegal-operand trap with `MXSTATE` (R288). -/
def mxNeed (c : Bool) : M Unit := do need c 0x01 (← mxNow).mxstate

/-- Reads at one position with `.acq` ordering (R287): the issuer's snapshot point moves there, unless what is read is
refused, which changes nothing (R374). -/
def acqPieces (ps : List (Nat × Nat)) (unit : Nat) (bad : List Byte → Option W64) : M (List Byte) := do
  let t := (← get).task
  acquireHere
  let bs ← ps.mapM fun p => runS (·.readHeld unit p.1 p.2)
  match bad bs.flatten with
  | none => pure bs.flatten
  | some v =>
    upd (·.setTask fun u => { u with snapshot := t.snapshot, seen := t.seen })
    raise 0x01 v

/-- Reads memory with `.acq` ordering (R287), translated first; a refusal gives `TVAL`. -/
def acqBytes (va : W64) (n align : Nat) (bad : List Byte → Option W64) : M (List Byte) := do
  acqPieces (← translate (← myCtx) {} va n align) (min align 8) bad

/-- Little-endian words of bytes. -/
def wordsOfBytes (b : List Byte) : List W32 := (chunks 4 b.length b).map fun w => BitVec.ofNat 32 (leNat w)

/-- MXMODE (R289). -/
def mxmodeBody (a : Spec) : M Next := do
  checkSrc a
  afterRun do
    let w ← readScalar a
    need (modeOk w) 0x01 w
    upd (·.setMx fun m =>
      ((((({ m with mode := w, bcells := [], desc := [], latch := [], scales := [], half0 := [], half1 := [] }.put 0 16
        w.toNat).put 16 3 0).put 20 2 0).put 27 1 0)))
    pure .seq

/-- Whether a descriptor is accepted (R172, R290). -/
def descOk (int4 : Bool) (w : W32) : Bool := bitsOf w.toNat 16 8 == 0 && (!int4 || bitsOf w.toNat 28 4 == 0)

/-- Byte offset of the first descriptor that is refused (R290). -/
def descFault (int4 : Bool) (b : List Byte) : Option W64 :=
  ((wordsOfBytes b).zipIdx.find? fun w => !descOk int4 w.1).map fun w => BitVec.ofNat 64 (4 * w.2)

/-- The descriptors after loading those of the groups in force (R290): entry col·NG + g of the image. -/
def Mx.withDescs (m : Mx) (d : List W32) : Mx :=
  let h := m.shape
  let new := d.toArray
  let old := m.desc.toArray
  { m with desc := tabulate (128 * h.n * h.ngPitch) fun i =>
      if i % h.ngPitch < h.ng then new.getD (i / h.ngPitch * h.ng + i % h.ngPitch) 0 else old.getD i 0 }

/-- MXZP (R172, R290). -/
def mxzpBody (a : Spec) : M Next := do
  checkSrc a
  afterRun do
    let va ← readScalar a
    let h := (← mxNow).shape
    let b ← acqBytes va (512 * h.n * h.ng) 4 (descFault h.int4)
    upd (·.setMx fun m => (m.withDescs (wordsOfBytes b)).put 18 1 1)
    pure .seq

/-- Offset of the first bad metadata byte of a sparse image (R291). -/
def sparseFault (b : List Byte) : Option Nat :=
  (b.zipIdx.find? fun p =>
    decide (16384 ≤ p.2 % 24576) && !(bitsOf p.1.toNat 4 4 == 0 && decide (bitsOf p.1.toNat 0 2 < bitsOf p.1.toNat 2 2))).map
    (·.2)

/-- MXWLD (R291). -/
def mxwldBody (sp : BitVec 1) (a : Spec) : M Next := do
  checkSrc a
  afterRun do
    let va ← readScalar a
    mxNeed (!(sp == 1 && (← mxNow).shape.int4))
    let b ← acqBytes va (32 * (if sp = 1 then 24576 else 16384)) 64 fun b =>
      if sp = 1 then (sparseFault b).map (BitVec.ofNat 64) else none
    upd (·.setMx fun m => ({ m with bcells := b }.put 16 1 1).put 17 1 sp.toNat)
    pure .seq

/-- MXFEED (R292): only a run on the same half holds it up (R286). -/
def mxfeedBody (half : BitVec 1) (a b : Spec) : M Next := do
  checkSrc a; checkSrc b
  let feed : M Next := do
    let va ← readScalar a
    let pitch ← readScalar b
    let m ← mxNow
    let n := m.shape.codeBytes + m.shape.scaleBytes
    need (va.toNat % 4 == 0) 0x20 va
    need (pitch.toNat % 4 == 0) 0x20 pitch
    need (decide (n ≤ pitch.toNat)) 0x01 pitch
    let c ← myCtx
    let ps ← (List.range 32).mapM fun r => translate c {} (va + BitVec.ofNat 64 r * pitch) n 4
    let bs ← acqPieces ps.flatten 4 fun _ => none
    upd (·.setMx fun m => (m.setHalf half.toNat (chunks n 32 bs)).put (20 + half.toNat) 1 1)
    pure .seq
  if fieldOf (← mxNow).mxstate 25 1 = half.toNat then afterRun feed else feed

/-- Starts a run (R293, R298), which replaces the latches and goes on by itself. -/
def startRun (half : BitVec 1) (rec : Bool) : M Next := do
  let at_ := (← get).task.pc
  upd (·.setMx fun m =>
    ((((({ m with runPc := at_, latch := [], latched := (0, 0) }.put 27 1 0).put 24 1 1).put 26 1 rec.toNat).put 25 1 half.toNat).put
      32 6 0).put 44 13 0)
  pure .seq

/-- MXRUN (R293). DESIGN CHOICE (log entry 27): one that is issued while a run is in progress waits for its end as the other
members do (R286). -/
def mxrunBody (sp half : BitVec 1) : M Next := afterRun do
  let m ← mxNow
  mxNeed (m.bit 16 && m.bit (20 + half.toNat) && (sp == 1) == m.bit 17)
  startRun half false

/-- MXUPROG (R297): its read orders nothing (R287). -/
def mxuprogBody (a : Spec) : M Next := do
  checkSrc a
  afterRun do
    let va ← readScalar a
    let p := wordsOfBytes (← loadBytes va 32 8)
    match progFault true p with
    | some off => raise 0x01 (BitVec.ofNat 64 off)
    | none =>
      upd (·.setMx fun m => { m with uprog := p }.put 19 1 1)
      pure .seq

/-- MXREC (R298). DESIGN CHOICE (log entry 27): as an MXRUN, one that is issued while a run is in progress waits for its end. -/
def mxrecBody (half : BitVec 1) : M Next := afterRun do
  let m ← mxNow
  mxNeed (m.bit 19 && m.bit 16 && !m.bit 17 && m.bit (20 + half.toNat))
  startRun half true

/-- The binary32 scale of a kept block (R174). -/
def keptScale (scales : List (List Byte)) (r blk : Nat) : Nat := leNat (((lget scales r).drop (4 * blk)).take 4)

/-- The delta of a kept block (R175). -/
def keptDelta (scales : List (List Byte)) (r blk : Nat) : Nat :=
  bitsOf ((lget scales r).getD (blk / 2) 0).toNat (4 * (blk % 2)) 4

/-- Whether a block scale is refused (R174): negative, a zero, infinite or NaN. -/
def scaleBad (w : Nat) : Bool := bitAt w 31 || w == 0 || decide (0x7F800000 ≤ w)

/-- The scale trap an `MXSACC` raises, if any (R174, R175, R294): its `TVAL`. -/
def scaleFault (m : Mx) (base : W64) : Option W64 :=
  let h := m.shape
  (List.range (32 * h.nb)).findSome? fun i =>
    let r := i / h.nb
    let blk := i % h.nb
    if h.asc = 1 then
      let w := keptScale m.scales r blk
      if scaleBad w then some (BitVec.ofNat 64 (i * 2 ^ 32 + w)) else none
    else if h.asc = 2 then
      let e := base.toInt - keptDelta m.scales r blk
      if -126 ≤ e ∧ e ≤ 127 then none else some (BitVec.ofInt 64 e)
    else none

/-- One accumulator of `MXSACC` (R186, R294). DESIGN CHOICE (log entry 27): where an `MXWLD` has changed `SP` since the run, the
latches and scales are read by the present shape. -/
def saccCell (m : Mx) (rm : Rm) (base : W64) (j r x acc : Nat) : Nat × Flg :=
  let h := m.shape
  let col := 128 * j + x
  (List.range h.ns).foldl (fun (v : Nat × Flg) sp =>
    let sa : Exact :=
      if h.asc = 0 then .ofInt 1
      else if h.asc = 1 then (f32.decode (keptScale m.scales r sp)).val
      else .ofScaled false 1 (base.toInt - keptDelta m.scales r sp)
    let sc := f16.decode (bitsOf ((m.desc.getD (col * h.ngPitch + sp * h.span / h.gsz) 0).toNat) 0 16)
    let p : Exact := .ofInt (m.latch.getD ((col * h.nsPitch + sp) * 32 + r) 0).toInt
    let q := accumulate rm v.1 sa sc.val p
    (q.1, v.2 ||| q.2 ||| sc.nv ||| (f32.decode v.1).nv)) (acc, 0)

/-- MXSACC (R294). DEDUCED (log entry 27): a b that is not g0 where `ASC` is 0 is refused with its specifier as TVAL. -/
def mxsaccBody (t : BitVec 3) (a b : Spec) : M Next := do
  checkSrc a; checkSrc b
  afterRun do
    let j ← readScalar a
    let base ← readScalar b
    let m ← mxNow
    let h := m.shape
    mxNeed (m.bit 27 && !m.bit 26 && decide (j.toNat < h.n))
    need (h.asc != 0 || b == 0) 0x01 (b.setWidth 64)
    match scaleFault m base with
    | some v => raise 0x52 v
    | none =>
      let rm := rmOf (← get).task.rmode
      let cells := tabulate 4096 fun i =>
        saccCell m rm base j.toNat (i / 128) (i % 128) (m.tiles.getD (4096 * t.toNat + i) 0).toNat
      let all := padTo 32768 0 m.tiles
      let tiles := all.take (4096 * t.toNat) ++ cells.map (fun c => BitVec.ofNat 32 c.1) ++ all.drop (4096 * t.toNat + 4096)
      upd (·.setMx fun m => { m with tiles := tiles })
      pure (.flags (cells.foldl (fun f c => f ||| c.2) 0))

/-- Direct writes of the issuer (R287): a boundary at cluster scope when it holds a store to a destination
byte; each write takes its own position; the snapshot point then moves past them. -/
def directWrites (ws : List (Nat × List Byte)) : M Unit := do
  let t := (← get).task
  if ws.any fun w => t.holdsAny w.1 w.2.length then boundary .cluster else pure ()
  upd fun s => ws.foldl (fun s w => s.writeAt (.task t.key) w.1 w.2) s
  acquire
  upd State.serve

/-- Words put over translated pieces, four bytes at a time. -/
def pieceWrites (ps : List (Nat × Nat)) (d : List Byte) : List (Nat × List Byte) :=
  let at_ := (ps.map fun p => tabulate (p.2 / 4) fun i => p.1 + 4 * i).flatten
  at_.zip (chunks 4 d.length d)

/-- What a row of `MXDRAIN` holds (R295): 128 words of a tile, or the raw sums of a column group, which are the states where
the latches belong to a recurrence (R298). -/
def drainRow (m : Mx) (d r : Nat) : List W32 :=
  let h := m.shape
  if d < 32 then tabulate 128 fun x => m.tiles.getD (4096 * (d % 8) + 128 * r + x) 0
  else tabulate 128 fun x =>
    ((List.range (if m.bit 26 then 1 else h.ns)).map fun sp => m.latch.getD (((128 * (d % 32) + x) * h.nsPitch + sp) * 32 + r) 0).sum

/-- Bytes of words. -/
def bytesOfWords (w : List W32) : List Byte := (w.map fun x => leBytes 4 x.toNat).flatten

/-- MXDRAIN (R295): a tile, zeroed afterwards when d[3] is set, or raw partial sums. -/
def mxdrainBody (d a b : Spec) : M Next := do
  checkSrc a; checkSrc b
  afterRun do
    let va ← readScalar a
    let pitch ← readScalar b
    let m ← mxNow
    if d.toNat < 32 then pure () else mxNeed (m.bit 27 && decide (d.toNat % 32 < m.shape.n))
    need (va.toNat % 4 == 0) 0x20 va
    need (pitch.toNat % 4 == 0) 0x20 pitch
    need (decide (512 ≤ pitch.toNat)) 0x01 pitch
    let c ← myCtx
    let ps ← (List.range 32).mapM fun r => translate c { write := true } (va + BitVec.ofNat 64 r * pitch) 512 4
    directWrites ((ps.zipIdx.map fun p => pieceWrites p.1 (bytesOfWords (drainRow m d.toNat p.2))).flatten)
    if d.toNat < 32 ∧ d.toNat / 8 % 2 = 1 then
      let all := padTo 32768 0 m.tiles
      upd (·.setMx fun m =>
        { m with tiles := all.take (4096 * (d.toNat % 8)) ++ List.replicate 4096 0 ++ all.drop (4096 * (d.toNat % 8) + 4096) })
    else pure ()
    pure .seq

/-- A row list as an image area at a pitch, zero beyond the used extent (R300). -/
def rowArea (pitch : Nat) (rows : List (List Byte)) : List Byte :=
  ((padTo 32 [] rows).map fun r => padTo pitch 0 r).flatten

/-- A doubleword's bytes. -/
def dwBytes (w : W64) : List Byte := leBytes 8 w.toNat

/-- The descriptors in the order of an image, col·NG + g (R290, R300). -/
def Mx.descArea (m : Mx) : List W32 :=
  let h := m.shape
  let d := m.desc.toArray
  tabulate (128 * h.n * h.ng) fun i => d.getD (i / h.ng * h.ngPitch + i % h.ng) 0

/-- The latches in the order of an image, (col·NS + s)·32 + r (R300). -/
def Mx.latchArea (m : Mx) : List W32 :=
  let h := m.shape
  let l := m.latch.toArray
  tabulate (128 * h.n * h.ns * 32) fun i => l.getD ((i / 32 / h.ns * h.nsPitch + i / 32 % h.ns) * 32 + i % 32) 0

/-- The areas of an MX image without its queue area, by offset (R300). DESIGN CHOICE (log entry 27): the scales of row r stand
1024·r bytes into their area. -/
def Mx.areas (m : Mx) : List (Nat × List Byte) :=
  [(0x0, dwBytes m.mxstate ++ dwBytes m.mode ++ dwBytes (m.runFlags.setWidth 64)),
   (0x20, bytesOfWords (padTo 8 0 m.uprog)),
   (0x1000, bytesOfWords (padTo 32768 0 m.tiles)),
   (0x21000, bytesOfWords (padTo 32768 0 m.descArea)),
   (0x41000, padTo 0xC0000 0 m.bcells),
   (0x101000, rowArea 9216 m.half0 ++ rowArea 9216 m.half1),
   (0x191000, bytesOfWords (padTo 0x100000 0 m.latchArea)),
   (0x591000, rowArea 1024 m.scales)]

/-- The queue area of an MX image (R300). -/
def queueArea (q : List (List W64)) : List (Nat × List Byte) :=
  [(0x18, (padTo 8 [] q).map fun x => BitVec.ofNat 8 x.length),
   (0x100, ((padTo 8 [] q).map fun x => ((padTo 4 0 x).map dwBytes).flatten).flatten)]

/-- The matrix state an image gives, read through a function of offset and length; bytes beyond the used extent of an area
are ignored, and reserved bits stay zero (R8, R300). What it does not hold is given beside it. DESIGN CHOICE (log entry
27): where `MODE` of its `MXSTATE` differs from its mode word, both are kept and the mode word counts; run flags pending in an
image that holds no run stay pending until the next run ends. -/
def Mx.ofImage (rd : Nat → Nat → List Byte) (runPc : W64) (carry : List W32) : Mx :=
  let dw := fun off => BitVec.ofNat 64 (leNat (rd off 8))
  let state := dw 0 &&& mxstateMask
  let mode := dw 8 &&& mxmodeMask
  let h := shapeOf mode (state.getLsbD 17)
  let rows := fun off pitch n => tabulate 32 fun r => rd (off + pitch * r) n
  let latch := (wordsOfBytes (rd 0x191000 (4 * (128 * h.n * h.ns * 32)))).toArray
  let m : Mx :=
    { mode := mode, bcells := rd 0x41000 (32 * (if state.getLsbD 17 then 24576 else 16384)),
      half0 := rows 0x101000 9216 (h.codeBytes + h.scaleBytes), half1 := rows 0x149000 9216 (h.codeBytes + h.scaleBytes),
      latch := tabulate (128 * h.n * h.nsPitch * 32) fun i =>
        let sp := i / 32 % h.nsPitch
        if sp < h.ns then latch.getD ((i / 32 / h.nsPitch * h.ns + sp) * 32 + i % 32) 0 else 0,
      scales := rows 0x591000 1024 h.scaleBytes, tiles := wordsOfBytes (rd 0x1000 0x20000), uprog := wordsOfBytes (rd 0x20 32),
      mxstate := state, runFlags := BitVec.ofNat 5 (leNat (rd 0x10 8)), runPc := runPc,
      latched := (fieldOf state 32 6, fieldOf state 44 13), carry := carry }
  m.withDescs (wordsOfBytes (rd 0x21000 (512 * h.n * h.ng)))

/-- Bytes of an image by offset and length. -/
def cutOf (b : List Byte) : Nat → Nat → List Byte :=
  let a := b.toArray
  fun off n => (a.extract off (off + n)).toList

/-- Whether `MXREST` accepts an image's header (R300). -/
def imageOk (b : List Byte) : Bool :=
  let dw := fun off => BitVec.ofNat 64 (leNat (cutOf b off 8))
  let state := dw 0
  let mode := dw 8
  let flags := dw 16
  reservedZero state.toNat [(0, 14), (16, 4), (20, 2), (24, 5), (32, 6), (44, 13)] && modeOk mode &&
  decide (flags.toNat < 32) && !state.getLsbD 24

/-- A suspended run goes on (R299, R300). -/
def State.resumeRun (s : State) : State :=
  if s.task.mx.bit 28 then s.setMx fun m => (m.put 28 1 0).put 24 1 1 else s

/-- A run in progress stops at the end of its row or K-step and is marked suspended (R299); the last one ends the run. -/
def Mx.suspend (m : Mx) : Mx :=
  let row := fieldOf m.mxstate 32 6
  let step := fieldOf m.mxstate 44 13 + 1
  let stop := fun (m : Mx) => (m.put 24 1 0).put 28 1 1
  if !m.running ∨ 32 ≤ row then m
  else if m.bit 26 ∧ step < m.shape.k then stop (m.settle row step)
  else if row + 1 < 32 then stop (m.settle (row + 1) 0)
  else m.put 32 6 32

/-- MXSAVE (R300): the image without the queue area. -/
def mxsaveBody (a : Spec) : M Next := do
  checkSrc a
  afterRun do
    let va ← readScalar a
    need (va.toNat % 4096 == 0) 0x20 va
    let m ← mxNow
    let c ← myCtx
    let ws ← m.areas.mapM fun p => do
      let ps ← translate c { write := true } (va + BitVec.ofNat 64 p.1) p.2.length 8
      pure (pieceWrites ps p.2)
    directWrites ws.flatten
    pure .seq

/-- MXREST (R300). DESIGN CHOICE (log entry 27): an image does not hold the address of the instruction that started its run; the
event message of a run that it resumes names that of the run this task started last, 0 if none. -/
def mxrestBody (a : Spec) : M Next := do
  checkSrc a
  afterRun do
    let va ← readScalar a
    need (va.toNat % 4096 == 0) 0x20 va
    let m ← mxNow
    let b ← acqBytes va 0x599000 4096 fun b => if imageOk b then none else some m.mxstate
    upd fun s => (s.setMx fun m => Mx.ofImage (cutOf b) m.runPc []).resumeRun
    pure .seq

/-- MXSTAT waits for the run (R296). -/
def mxstatBody (d : Spec) : M Next := do
  checkDst d
  afterRun do
    writeScalar d (← mxNow).mxstate
    pure .seq

/-- The meaning of a word that only the issuer runs (R200, R286). -/
abbrev issuerWord (i : Instr) (body : M Next) (s : State) : Res := issue .issuer plain i body s

/-- MXMODE (R289). -/
def execMxmode (a : Spec) (s : State) : Res := issuerWord (.mxmode a) (mxmodeBody a) s
/-- MXZP (R290). -/
def execMxzp (a : Spec) (s : State) : Res := issuerWord (.mxzp a) (mxzpBody a) s
/-- MXWLD (R291). -/
def execMxwld (sp : BitVec 1) (a : Spec) (s : State) : Res := issuerWord (.mxwld sp a) (mxwldBody sp a) s
/-- MXFEED (R292). -/
def execMxfeed (h : BitVec 1) (a b : Spec) (s : State) : Res := issuerWord (.mxfeed h a b) (mxfeedBody h a b) s
/-- MXRUN (R293). -/
def execMxrun (sp h : BitVec 1) (s : State) : Res := issuerWord (.mxrun sp h) (mxrunBody sp h) s
/-- MXUPROG (R297). -/
def execMxuprog (a : Spec) (s : State) : Res := issuerWord (.mxuprog a) (mxuprogBody a) s
/-- MXREC (R298). -/
def execMxrec (h : BitVec 1) (s : State) : Res := issuerWord (.mxrec h) (mxrecBody h) s
/-- MXSACC (R294). -/
def execMxsacc (t : BitVec 3) (a b : Spec) (s : State) : Res := issuerWord (.mxsacc t a b) (mxsaccBody t a b) s
/-- MXDRAIN (R295). -/
def execMxdrain (d a b : Spec) (s : State) : Res := issuerWord (.mxdrain d a b) (mxdrainBody d a b) s
/-- MXSAVE (R300). -/
def execMxsave (a : Spec) (s : State) : Res := issuerWord (.mxsave a) (mxsaveBody a) s
/-- MXREST (R300). -/
def execMxrest (a : Spec) (s : State) : Res := issuerWord (.mxrest a) (mxrestBody a) s
/-- MXSTAT (R296). -/
def execMxstat (d : Spec) (s : State) : Res := issuerWord (.mxstat d) (mxstatBody d) s

/-- The end of an `MXRUN` run (R293). -/
def execMxRunEnd (key : Nat) (s : State) : Res := event (·.runEnd key false) s

end Sys2Proof.Machine
end

