-- ==== Sys2Proof/Machine/Preempt.lean ====
section
/-! DEFINITION. Pre-emption and resumption of launch instances (R115, R299, R381-R384) with the save and restore
of named regions (R26). -/

namespace Sys2Proof.Machine

/-- What a waiting access does, for its translation (R37). -/
def WaitKind.access : WaitKind → Access
  | .consume .. => { fe := true }
  | .produce .. => { write := true, fe := true }
  | .counter .. | .park .. => { sync := true }
  | .push .. | .pop .. => { write := true, sync := true }
  | .remoteRead .. | .remoteWrite .. => {}

/-- A withdrawn access of the current task translated again where the task now is (R79). -/
def reissueAt (w : Waiter) : M Waiter := do
  let c ← myCtx
  let pa ← translate1 c w.kind.access w.va w.kind.size
  match w.kind with
  | .push d _ z acq => do
    let e ← translate1 c {} w.entry (entryBytes z.toNat)
    pure { w with pa := pa, kind := .push d e z acq }
  | .pop d _ z => do
    let e ← translate1 c { write := true } w.entry (entryBytes z.toNat)
    pure { w with pa := pa, kind := .pop d e z }
  | _ => pure { w with pa := pa }

/-- A withdrawn access of the current task is issued again, as a new arrival, with the operands the instruction read when it
first issued (R79, R98). -/
def waitAgain (w : Waiter) : M Next := do
  let w ← reissueAt w
  match w.kind with
  | .push d e z acq => precisely (pushNow d w.va w.entry w.pa e z.toNat acq)
  | .pop d e z => precisely (popNow d w.va w.entry w.pa e z.toNat)
  | _ =>
    upd (·.reach w)
    let s ← get
    if !s.waiterReady w then waitAt w.va w.entry w.pa w.kind
    else if w.kind.dest.all (s.destReady w.task) then
      upd fun s => (s.performNow w).serve
      pure .gone
    else stallHere

/-- A task that was PARKED waits again for its resume word, as a new arrival (R98, R167, R383). -/
def parkAgain (w : Waiter) : M Next := fun s =>
  let va := s.task.ctx + 0xF8
  match translate1 s.task.tctx { sync := true } va 8 s with
  | .error (.trap c _) s => .ok .gone (s.terminate c va s.task.pc)
  | .error .stall s => .error .stall s
  | .ok pa s =>
    let w := { w with pa := pa }
    let s := s.reach w
    if s.waiterReady w then .ok .gone (s.performNow w).serve
    else .ok .gone (((s.setTask fun t => { t with status := .parked, waitOn := .resumeWord }).addWaiter w).leaveCore.serve)

/-- What the current task, resumed at a wait, does first: it waits again, for its tags, its resume word or with the access that
was withdrawn (R79, R98, R125, R383). DEDUCED (log entry 37): it is this access that is issued again, and the instruction is
not executed anew; one that no longer translates traps. -/
def reissueBody : M Next := do
  let s ← get
  let key := s.task.key
  upd fun s => { s.setTask (fun t => { t with waitOn := .nothing }) with withdrawn := s.withdrawn.filter (·.task != key) }
  match s.task.waitOn, (s.withdrawn.filter (·.task == key)).getLast? with
  | .home, some w => waitAgain w
  | .resumeWord, some w => parkAgain w
  | .tagAny m, _ => tagAny m
  | .tagAll m, _ => tagAll m
  | _, _ => pure .gone

/-- The current task issues the wait again at which it was pre-empted. -/
def State.reissue (s : State) : State := s.carryOut reissueBody

/-- A RUNNING task that is to issue a wait again does so. -/
def State.reissueFor (s : State) (key : Nat) : State :=
  if (s.taskOf key).any fun t => decide (t.status = .running) && t.waitOn.again then (s.reload key).asTask key State.reissue else s

/-- The tasks of a launch word that are on their cores (R437). -/
def State.tasksOf (s : State) (w : W64) : List Task := s.allTasks.filter fun t => t.launch == w && t.onCore

/-- A run in progress stops at the next boundary of its rows or K-steps; the last one ends it (R299). -/
def State.stopRun (s : State) (key : Nat) : State :=
  match s.taskOf key with
  | none => s
  | some t =>
    let m := t.mx.suspend
    let s := s.updTask key fun t => { t with mx := m }
    if m.complete then ((s.reissueFor key).runEnd key (m.bit 26)).withdraw key else s

/-- The end of an `MXREC` as an event (R298). DEDUCED (log entry 22): an issuer that is RUNNING and is to issue a wait again does
so first, since the flags of the run park it only between instructions (R166); while the wait cannot be issued, its destination a
full queue (R284), the run goes on. -/
def State.recurrenceEnd (s : State) (key : Nat) : State :=
  if (s.taskOf key).any fun t => t.mx.running && t.mx.bit 26 then
    let s := s.reissueFor key
    if (s.taskOf key).any fun t => decide (t.status = .running) && t.waitOn.again then s else s.runEnd key true
  else s

/-- A task stops at an instruction boundary (R382, R384): its waiting access is withdrawn, `TEPC` holds the address of an
instruction that waits for a queue (R284), a command that waits for its inbox is abandoned (R311), a trap that waits to be
taken is taken first, a run stops. -/
def State.halt (s : State) (key : Nat) : State :=
  match s.taskOf key with
  | none => s
  | some t =>
    let s := s.withdraw key
    let s := if t.stalled then s.amend key fun t => { t with tepc := t.pc, stalled := false } else s
    let s := match t.waitOn with
      | .trapped c v =>
        (s.reload key).asTask key fun s => (s.setTask fun t => { t with waitOn := .nothing }).takeTrap c v s.task.pc
      | .inbox .. => s.updTask key fun t => { t with waitOn := .nothing }
      | _ => s
    s.stopRun key

/-- Bytes of a context area of a record (R143). -/
def State.ctxBytes (s : State) (r : Nat) : Nat := 4096 * s.recField r 7 40 24

/-- VA of the MX image of a pair's issuer (R283). -/
def State.mxImageVa (s : State) (t : Task) : W64 :=
  let r := fieldOf t.launch 0 14
  s.recDw r 6 + BitVec.ofNat 64 (2 * s.work r * s.ctxBytes r + t.tid.toNat * 0x600000)

/-- Whether a task is the issuer of a matrix-pair unit (R283). -/
def State.isIssuer (s : State) (t : Task) : Bool :=
  t.core.core == 9 && t.activation.isNone && s.unit (fieldOf t.launch 0 14) == 1

/-- Whether a task is the stager of a matrix-pair unit whose issuer has ended (R283). -/
def State.isLoneStager (s : State) (t : Task) : Bool :=
  t.core.core == 8 && t.activation.isNone && s.unit (fieldOf t.launch 0 14) == 1 &&
  !s.allTasks.any fun u => u.launch == t.launch && u.tid == t.tid && decide (u.status ≠ .ended) && s.isIssuer u

/-- Writes the MX image of an issuer with the queues of its pair (R287, R299, R300), or the queues alone for a stager whose
issuer has ended (R285, R382). DESIGN CHOICE (log entry 27): of an image some address of which does not translate, the areas that
do are written, and the queues are emptied all the same; the device's writes make no boundary and move no snapshot point, which
R115 leaves to the task. -/
def State.saveImage (s : State) (key : Nat) : State :=
  match s.taskOf key with
  | none => s
  | some t =>
    if !s.isIssuer t && !s.isLoneStager t then s
    else
      let cl := clusterId t.core
      let va := s.mxImageVa t
      let s := ((if s.isIssuer t then t.mx.areas else []) ++ queueArea (s.cluster cl).queues).foldl (fun s p =>
        match translate t.tctx { write := true } (va + BitVec.ofNat 64 p.1) p.2.length 8 s with
        | .ok ps s => (pieceWrites ps p.2).foldl (fun s w => s.writeAt .other w.1 w.2) s
        | .error _ s => s) s
      s.setCluster cl fun c => { c with queues := List.replicate 8 [] }

/-- Bytes of an image at an offset, where they translate; failures there are met (R80). -/
def State.imageBytes (s : State) (c : Ctx) (va : W64) (off n : Nat) : Option (List Byte) × State :=
  match translate c {} (va + BitVec.ofNat 64 off) n 1 s with
  | .ok ps s =>
    let s := ps.foldl (fun s p => s.meetFailures p.1 p.2) s
    (some (ps.flatMap fun p => s.bytesAt p.1 p.2), s)
  | .error _ s => (none, s)

/-- The queues an MX image holds (R300). -/
def queuesOfImage (rd : Nat → Nat → List Byte) : List (List W64) :=
  tabulate 8 fun q => tabulate (min 4 (leNat (rd (0x18 + q) 1))) fun k => BitVec.ofNat 64 (leNat (rd (0x100 + 32 * q + 8 * k) 8))

/-- Restores the MX image of an issuer before it issues, and lets a suspended run go on (R299, R383), or the queues of a
stager whose issuer has ended; an image that does not translate leaves the state the task holds. -/
def State.restoreImage (s : State) (key : Nat) : State :=
  match s.taskOf key with
  | none => s
  | some t =>
    let fill := fun (rd : Nat → Nat → List Byte) (s : State) =>
      s.setCluster (clusterId t.core) fun c => { c with queues := queuesOfImage rd }
    if s.isIssuer t then
      match s.imageBytes t.tctx (s.mxImageVa t) 0 0x599000 with
      | (none, s) => s.asTask key State.resumeRun
      | (some b, s) => (fill (cutOf b) s).asTask key fun s => (s.setMx fun m => Mx.ofImage (cutOf b) m.runPc m.carry).resumeRun
    else if s.isLoneStager t then
      match s.imageBytes t.tctx (s.mxImageVa t) 0 0x200 with
      | (none, s) => s
      | (some b, s) => fill (cutOf b) s
    else s

/-- Writes the lines a task holds to its context area (R88, R115). -/
def State.saveLines (s : State) (key : Nat) : State :=
  match s.taskOf key with
  | none => s
  | some t => s.putImages t t.lineImages

/-- A halted task is saved whole (R115, R128, R140, R198, R382): its load replies are in, its earlier publications are
settled at system scope, and its registers, pending hints, lanes and held lines are in its context area. -/
def State.saveTask (s : State) (key : Nat) : State :=
  let s := (s.reload key).updTask key fun t => { t with live := BitVec.allOnes 22, outstanding := [] }.saveHints
  let s := { s with writes := s.writes.map (settleFor (.task key) .system), ready := s.ready.filter (· != key) }
  let s := ((s.writeBack key).saveLines key).saveImage key
  s.updTask key fun t =>
    { t with laneImage := if t.lanes = [] then t.laneImage else t.lanes, lanes := [],
             status := .saved (t.waitOn == .resumeWord) }

/-- The address space in which the named regions of a launch on a cluster are saved (R26). -/
def State.regionCtx (s : State) (r cl : Nat) : Ctx := ⟨s.xasid r, cl / 64, none, none, some r⟩

/-- Saves a named region of a record on a cluster in the launch's context area (R26). DESIGN CHOICE (log entry 18): where its
image lies there, which R128 does not say, is a free constant; which words are full, and bytes that the area cannot take, stay
with the instance. -/
def State.saveRegion (s : State) (r cl off n : Nat) : SavedRegion × State :=
  let pa := scratchBase (cl / 64) (cl % 64) + off
  let va := s.recDw r 6 + Config.regionPlace r cl off
  let s := s.meetFailures pa n
  let data := s.bytesAt pa n
  (⟨cl, off, va, data, (s.full.filter fun x => decide (pa ≤ x ∧ x < pa + n)).map (· - pa)⟩,
   (writeRange (s.regionCtx r cl) { write := true } .other va data s).2)

/-- Saves the named regions of a record on a cluster (R26). -/
def State.saveRegions (s : State) (r : BitVec 14) (gen : BitVec 16) (cl : Nat) : State :=
  let x := (s.namedRegions r.toNat).foldl (fun (x : List SavedRegion × State) g =>
    let y := x.2.saveRegion r.toNat cl g.1 g.2.1
    (x.1 ++ [y.1], y.2)) ([], s)
  x.2.updInst r gen fun i => { i with regions := i.regions.filter (·.clu != cl) ++ x.1 }

/-- The clusters on which the bindings of a launch word are (R137, R437). -/
def State.boundClusters (s : State) (w : W64) : List Nat := ((s.bindings.filter (·.launch == w)).map fun b => clusterId b.core).eraseDups

/-- Saves every task of an instance that is on a core, and the named regions of the clusters that its tasks or bindings occupy
(R26, R382, R437). -/
def State.saveInstance (s : State) (r : BitVec 14) (gen : BitVec 16) : State :=
  let w := launchWord r gen
  let s := ((s.tasksOf w).map (·.key)).foldl State.halt s
  let ts := s.tasksOf w
  let s := (((ts.map fun t => clusterId t.core) ++ s.boundClusters w).eraseDups).foldl (fun s cl => s.saveRegions r gen cl) s
  let s := ts.foldl (fun s t => s.saveTask t.key) s
  (((ts.map (·.core)).eraseDups).foldl (fun s c => (s.unsuspend c).startQueued c) s).serve

/-- Pre-empt (R381, R382, R384). -/
def State.preEmpt (s : State) (r : BitVec 14) (gen : BitVec 16) (ctrpa : W64) : State :=
  if ctrpa.toNat % 8 ≠ 0 then s
  else match s.inst r gen with
    | none => s.signalCounter ctrpa
    | some i =>
      if i.st = .dispatched ∧ !i.pre then
        ((s.updInst r gen fun x => { x with pre := true }).saveInstance r gen).pushEvent (.preemptSaveDone r gen ctrpa)
      else s.signalCounter ctrpa

/-- The end of a pre-emption (R382): whatever of the instance came to a core meanwhile is saved too, and the counter
is added. -/
def State.saveDone (s : State) (r : BitVec 14) (gen : BitVec 16) (ctrpa : W64) : State :=
  (if (s.inst r gen).any (·.pre) then s.saveInstance r gen else s).signalCounter ctrpa

/-- Whether a cluster takes resuming tasks of an instance (R383, R437). -/
def State.canHost (s : State) (i : Instance) (cl : Nat) : Bool :=
  let c : CoreId := ⟨BitVec.ofNat 2 (cl / 64), BitVec.ofNat 6 cl, 8⟩
  s.clusterUp c && !s.occupiedByOther cl (s.launchOf i.recNo) &&
  (s.unit i.recNo.toNat != 1 || (s.hasRoom c false && s.hasRoom { c with core := 9 } false))

/-- The cluster that the saved tasks of a cluster resume on (R146, R383): the same one, else the lowest of the same
level domain that no launch occupies, so that its window holds no region in use (R26, R437); with a binding there, no other
(R382). -/
def State.hostFor (s : State) (i : Instance) (taken : List Nat) (cl : Nat) : Option Nat :=
  if s.canHost i cl && !taken.contains cl then some cl
  else if s.bindings.any fun b => b.launch == launchWord i.recNo i.gen && clusterId b.core == cl then none
  else ((List.range 64).map (cl / 64 * 64 + ·)).find? fun x => s.canHost i x && (s.occupants x).isEmpty && !taken.contains x &&
    (decide (s.topLevel i.recNo.toNat < 2) || quadrantOf (x % 64) == quadrantOf (cl % 64))

/-- Where each cluster's saved tasks go, if all find a place. -/
def State.hosts (s : State) (i : Instance) : List Nat → List (Nat × Nat) → Option (List (Nat × Nat))
  | [], m => some m
  | cl :: rest, m => match s.hostFor i (m.map (·.2)) cl with
    | none => none
    | some x => s.hosts i rest (m ++ [(cl, x)])

/-- Restores a saved region of a record on a cluster from the launch's context area (R26); accesses that wait there go on
(R78). -/
def State.restoreRegion (s : State) (r cl : Nat) (g : SavedRegion) : State :=
  let x := readRange (s.regionCtx r cl) s.systemReader g.va g.data.length s
  let data := x.1.data ++ g.data.drop x.1.data.length
  let pa := scratchBase (cl / 64) (cl % 64) + g.off
  let s := x.2.clearSpan pa data.length
  (g.full.foldl (fun (s : State) x => s.setFull (pa + x) true) { s with mem := memSetBytes s.mem pa data }).serve

/-- The current task, resumed, is READY (R133, R383): to issue its wait again (`keep`), or the instruction at its pc. -/
def State.readyAgain (keep : Bool) (s : State) : State :=
  let key := s.task.key
  let s := s.setTask fun t => { t with status := .ready, waitOn := if keep ∨ t.waitOn = .ownCore then t.waitOn else .nothing }
  let s := { s with ready := s.ready ++ [key], withdrawn := s.withdrawn.filter fun w => keep || w.task != key }
  let at_ := s.aimOf { s.task with waitOn := .nothing }
  (if s.task.high then s.suspendNormals at_ else s).pushEvent (.taskChosen at_)

/-- A saved task comes back on a cluster, READY (R133, R383), its held lines as its context area gives them (R115, R386).
DESIGN CHOICE (log entry 37): one that waited, and whose pc was changed in its context area, does not issue its wait again. -/
def State.resumeTask (s : State) (cl : Nat) (key : Nat) : State :=
  match s.taskOf key with
  | none => s
  | some t =>
    let t := { t with core := ⟨BitVec.ofNat 2 (cl / 64), BitVec.ofNat 6 cl, t.core.core⟩ }
    let (held, s) := s.loadLines t
    let (pc, s) := s.imageWords t [(t.ctx, 8, t.pc.toNat)]
    let s := (s.updTask key fun _ => { t with held := held }).restoreImage key
    s.asTask key (State.readyAgain (t.waitOn = .resumeWord || (t.waitOn.again && pc == [t.pc.toNat])))

/-- The saved tasks of a launch word on a cluster. -/
def State.savedOn (s : State) (w : W64) (cl : Nat) : List Nat :=
  (s.allTasks.filter fun t => t.launch == w && !t.onCore && t.status != .ended && clusterId t.core == cl).map (·.key)

/-- The saved tasks of one cluster resume on another or the same, where the named regions get back the bytes that were saved
(R26, R383, R437). -/
def State.resumeOn (s : State) (i : Instance) (m : Nat × Nat) : State :=
  let l := s.launchOf i.recNo
  let keys := s.savedOn (launchWord i.recNo i.gen) m.1
  let s := s.takeCluster m.2 l
  let s := (i.regions.filter (·.clu == m.1)).foldl (fun s g => s.restoreRegion i.recNo.toNat m.2 g) s
  keys.foldl (fun s k => s.resumeTask m.2 k) s

/-- A resume takes place once every cluster's saved tasks find room; then its counters are added (R383). -/
def State.tryResume (s : State) (r : BitVec 14) (gen : BitVec 16) : State :=
  match s.inst r gen with
  | none => s
  | some i =>
    if i.resuming = [] then s
    else
      let w := launchWord r gen
      let cls := ((s.allTasks.filter fun t => t.launch == w && !t.onCore && t.status != .ended).map
        fun t => clusterId t.core).eraseDups
      match s.hosts i cls [] with
      | none => s
      | some m =>
        let bound := (s.boundClusters w).filter (!cls.contains ·)
        let s := (m ++ bound.map fun cl => (cl, cl)).foldl (fun s x => s.resumeOn i x) s
        let s := s.updInst r gen fun x => { x with pre := false, resuming := [], regions := [] }
        let s := ((s.bindings.filter (·.launch == w)).map (·.core)).eraseDups.foldl State.startQueued s
        i.resuming.foldl State.signalCounter s

/-- Resume (R381, R383). -/
def State.resume (s : State) (r : BitVec 14) (gen : BitVec 16) (ctrpa : W64) : State :=
  if ctrpa.toNat % 8 ≠ 0 then s
  else match s.inst r gen with
    | none => s.signalCounter ctrpa
    | some i =>
      if i.st = .dispatched ∧ i.pre then
        (s.updInst r gen fun x => { x with resuming := x.resuming ++ [ctrpa] }).tryResume r gen
      else s.signalCounter ctrpa

/-- The end of an `MXREC` run (R298). -/
def execMxRecEnd (key : Nat) (s : State) : Res := event (·.recurrenceEnd key) s
/-- PRE_EMPT (R382). -/
def execPreEmpt (recNo : BitVec 14) (gen : BitVec 16) (ctrpa : W64) (s : State) : Res := throughBar (·.preEmpt recNo gen ctrpa) s
/-- PREEMPT_SAVE_DONE (R382). -/
def execPreemptSaveDone (recNo : BitVec 14) (gen : BitVec 16) (ctrpa : W64) (s : State) : Res :=
  event (·.saveDone recNo gen ctrpa) s
/-- RESUME (R383). -/
def execResume (recNo : BitVec 14) (gen : BitVec 16) (ctrpa : W64) (s : State) : Res := throughBar (·.resume recNo gen ctrpa) s

end Sys2Proof.Machine
end

