-- ==== Sys2Proof/Machine/Paddock.lean ====
section
/-! DEFINITION. The paddock (R146, R147, R154-R160): choosing and dispatching work units, waking and choosing tasks,
event sources, energy windows, temperature, and the failure of a cluster. -/

namespace Sys2Proof.Machine

/-- Product of the extents of levels below `n` (R146). -/
def State.below (s : State) (r n : Nat) : Nat := ((List.range n).map (s.extent r)).foldl (· * ·) 1

/-- The level indices of a work unit (R146). -/
def State.levels (s : State) (r tid : Nat) : Vector W64 8 :=
  let m := s.topLevel r
  vec8 fun n => BitVec.ofNat 64 (
    if n < m then tid / s.below r n % s.extent r n
    else if n = m then tid / s.below r m
    else if 5 ≤ n ∧ n ≤ s.recField r 0 14 3 then s.recField r (16 + n) 40 24
    else 0)

/-- The VA of tile `i` as a task receives it: zero when it is absent (R144). -/
def State.tileVa (s : State) (r i : Nat) : W64 := if s.recField r (25 + 2 * i) 20 20 = 0 then 0 else s.recDw r (24 + 2 * i)

/-- A dispatched task on a core (R147, R283): `at_` numbers its context area. -/
def State.unitTask (s : State) (r : Nat) (w : W64) (core : CoreId) (tid at_ : Nat) (entry : W64) : Task :=
  s.newTask core false w (BitVec.ofNat 64 tid) (s.levels r tid)
    (s.recDw r 6 + BitVec.ofNat 64 (at_ * s.ctxBytes r)) entry (s.tileVa r)

/-- The level-3 unit of a TID, which is a part of its own (R154). -/
def State.level3 (s : State) (r tid : Nat) : Nat := if s.topLevel r < 3 then 0 else tid / s.below r 3

/-- The die whose paddock holds a unit (R154). -/
def State.unitDie (s : State) (r tid : Nat) : Nat := (r / 4096 + s.level3 r tid) % 4

/-- The TIDs of the next dispatch of each part that an instance has in a die (R154, R155): lost units of one team of the part
first (R159), else its next team. -/
def State.offers (s : State) (i : Instance) (d : Nat) : List (List Nat) :=
  let r := i.recNo.toNat
  let team := Nat.max 1 (s.extent r 0)
  let lost := i.lost.filter fun t => s.unitDie r t == d
  let gone := (lost.map (s.level3 r)).eraseDups
  let again := gone.filterMap fun u => (lost.find? fun t => s.level3 r t == u).map fun t => i.lost.filter fun x => x / team == t / team
  again ++ (i.parts.filter fun p => p.die.toNat == d && decide (p.next < p.stop) && !gone.contains (s.level3 r p.next)).map
    fun p => tabulate (Nat.min team (p.stop - p.next)) (p.next + ·)

/-- The level-2 unit of a TID (R146, R155). -/
def State.level2 (s : State) (r tid : Nat) : Option Nat := if s.topLevel r < 2 then none else some (tid / s.below r 2)

/-- Whether a unit may go to a quadrant of its die (R155). -/
def State.quadAllowed (s : State) (i : Instance) (tid q : Nat) : Bool :=
  match s.level2 i.recNo.toNat tid with
  | none => true
  | some u => (lookupKey i.quads u).all (· == q)

/-- Free lane cores of a cluster (R155). -/
def State.freeCores (s : State) (d clu : Nat) : Nat :=
  ((List.range 8).map (coreAt d clu)).countP fun c => s.residents c false none == 0

/-- The lane core of a cluster on which a team's unit is placed: LCi for `LVL0` = i (R423). -/
def State.teamCore (s : State) (r d clu tid : Nat) : CoreId := coreAt d clu (tid % Nat.max 1 (s.extent r 0) % 8)

/-- Whether the units with some TIDs of an instance fit a cluster (R155, R423, R437). -/
def State.fitsCluster (s : State) (i : Instance) (d : Nat) (tids : List Nat) (clu : Nat) : Bool :=
  let unit := s.unit i.recNo.toNat
  s.clusterUp (coreAt d clu 0) && !s.occupiedByOther (d * 64 + clu) (s.launchOf i.recNo) &&
  if unit = 0 then tids.all fun t => s.hasRoom (s.teamCore i.recNo.toNat d clu t) false
  else if unit = 1 then s.hasRoom (coreAt d clu 8) false && s.hasRoom (coreAt d clu 9) false
  else !s.inboxFull (0, d * 64 + clu)

/-- The first cluster with the most free lane cores (R155). -/
def State.bestCluster (s : State) (d : Nat) (l : List Nat) : Option Nat :=
  l.foldl (fun (b : Option Nat) c => match b with
    | none => some c
    | some x => if s.freeCores d x < s.freeCores d c then some c else some x) none

/-- The first cluster of a quadrant. -/
def quadCluster (q : Nat) : Nat := q / 2 * 32 + q % 2 * 4

/-- Where the units with some TIDs go, if they fit now (R155): a cluster, for a graft engine the first of its
quadrant. -/
def State.placeFor (s : State) (i : Instance) (d : Nat) (tids : List Nat) : Option CoreId :=
  let unit := s.unit i.recNo.toNat
  let quad := s.quadAllowed i (lget tids 0)
  if unit = 2 then ((List.range 4).find? fun q => quad q && !s.inboxFull (3, 4 * d + q)).map fun q => coreAt d (quadCluster q) 9
  else if unit = 4 then if s.inboxFull (2, d) then none else some (coreAt d 0 9)
  else (s.bestCluster d ((List.range 64).filter fun c => quad (quadrantOf c) && s.fitsCluster i d tids c)).map
    fun c => coreAt d c 9

/-- Whether a class is deferred on a die (R158). -/
def State.deferred (s : State) (d c : Nat) : Bool :=
  let x := s.die d
  let budget := fieldOf x.ebudget 32 28
  decide (budget ≠ 0 ∧ budget ≤ x.energy - x.winEnergy) && x.ebudget.getLsbD (60 + c)

/-- The oldest instance of a class whose next unit fits, with that unit's TIDs and place (R156). -/
def State.candidate (s : State) (d c : Nat) : Option (Instance × List Nat × CoreId) :=
  if s.deferred d c then none
  else s.insts.findSome? fun i =>
    if i.st ≠ .waiting ∧ !i.pre ∧ i.cls.toNat = c then
      (s.offers i d).findSome? fun tids => (s.placeFor i d tids).map fun core => (i, tids, core)
    else none

/-- `Choose(n)` of R156. -/
def State.choose (s : State) (d n : Nat) : Option (Instance × List Nat × CoreId) :=
  let reserved := if 12 ≤ n % 16 then s.candidate d (n % 16 - 12) else none
  match reserved with
  | some x => some x
  | none => [3, 2, 1, 0].findSome? (s.candidate d)

/-- Dispatches the message of an engine unit (R155, R325); a graft message's command code is that of its member (R352,
R353). -/
def State.buildOp (s : State) (i : Instance) (w : W64) (core : CoreId) (tid : Nat) : State :=
  let r := i.recNo.toNat
  let o : EngineOp :=
    { id := s.nextId, task := 0, core := core, asid := s.xasid r, jobkey := BitVec.ofNat 32 (s.recField r 4 0 32), ctx := 0,
      launch := w, cmd := fieldOf (s.recDw r 1) 0 4 + (if s.unit r = 2 then 8 else 0), tag := none, blk := [],
      reply := some (s.recDw r 2 + BitVec.ofNat 64 (64 * tid)), snapshot := s.pos - 1, bytes := tid }
  ({ s with ops := s.ops ++ [o], nextId := s.nextId + 1 }).pushEvent (.engineOperationStart o.id)

/-- Dispatches a lane team: each unit to the lane core that its `LVL0` names (R155, R423). -/
def State.dispatchTeam (s : State) (r : Nat) (w : W64) (core : CoreId) (tids : List Nat) : State :=
  tids.foldl (fun s t =>
    s.enlist (s.unitTask r w (s.teamCore r core.die.toNat core.clu.toNat t) t t (s.recDw r 1))) s

/-- Dispatches a matrix pair with empty queues (R147, R155, R283). -/
def State.dispatchPair (s : State) (r : Nat) (w : W64) (core : CoreId) (tid : Nat) : State :=
  let s := s.setCluster (clusterId core) fun c => { c with queues := List.replicate 8 [] }
  let s := s.enlist (s.unitTask r w { core with core := 8 } tid tid (s.recDw r 1))
  s.enlist (s.unitTask r w { core with core := 9 } tid (s.work r + tid) (s.recDw r 2))

/-- An instance after the dispatch of some TIDs in a die to a quadrant (R148, R154, R155). -/
def Instance.dispatchedTo (i : Instance) (d : Nat) (tids : List Nat) (l2 : Option Nat) (q : Nat) : Instance :=
  let lost := i.lost.filter fun t => tids.contains t
  { i with
    st := .dispatched, lost := i.lost.filter (!tids.contains ·),
    parts := if lost ≠ [] then i.parts
      else (i.parts.map fun p => if p.die.toNat = d ∧ p.next = lget tids 0 then { p with next := p.next + tids.length, fresh := false } else p).filter
        fun p => decide (p.next < p.stop),
    quads := match l2 with
      | some u => if (lookupKey i.quads u).isNone then setKey i.quads u q else i.quads
      | none => i.quads }

/-- One dispatch (R155). -/
def State.dispatch (s : State) (d : Nat) (i : Instance) (tids : List Nat) (core : CoreId) : State :=
  let r := i.recNo.toNat
  let unit := s.unit r
  let w := launchWord i.recNo i.gen
  let tid := lget tids 0
  let s := if unit < 2 ∨ unit = 3 then s.takeCluster (clusterId core) (s.launchOf i.recNo) else s
  let s := if unit = 0 then s.dispatchTeam r w core tids else if unit = 1 then s.dispatchPair r w core tid
    else s.buildOp i w core tid
  (s.updInst i.recNo i.gen fun x => x.dispatchedTo d tids (s.level2 r tid) (quadrantOf core.clu.toNat)).fillPaddock

/-- A dispatch slot (R156, R418, R422); resuming tasks are placed first. -/
def State.slot (s : State) (d : Nat) : State :=
  let n := (s.die d).slotNo
  let s := s.setDie d fun x => { x with slotNo := n + 1 }
  let s := s.insts.foldl (fun s i => s.tryResume i.recNo i.gen) s
  if s.boot.stage ≠ 3 ∨ (s.die d).hot ∨ !s.dieUp d then s
  else match s.choose d n with
    | none => s
    | some (i, tids, core) => s.dispatch d i tids core

/-- A high-priority task comes to a core: its normal tasks stop, and those of the cluster's cores that it was expected on go
on (R133, R136). -/
def State.highOn (s : State) (c : CoreId) : State :=
  (List.range 8).foldl (fun s k => if k = c.core.toNat then s else s.unsuspend { c with core := BitVec.ofNat 4 k }) (s.suspendNormals c)

/-- A lane core takes a READY task (R131, R133, R135, R136, R140): its lanes, its window and the hints that a pre-emption
saved are loaded (R198), and a trap that waits for it is taken. On another core than its own it has waited for `USC` (R113,
R135). -/
def State.take (s : State) (t : Task) (c : CoreId) : State :=
  let s := { s with ready := s.ready.filter (· != t.key) }
  let moved := decide (c ≠ t.core)
  let (lanes, s) := if t.laneImage = [] then (t.lanes, s) else s.laneValues t
  let s := s.updTask t.key fun t =>
    { t with core := c, status := .running, waitOn := if t.waitOn.again then t.waitOn else .nothing, usc := if moved then 0 else t.usc,
             slotsIn := t.slotsIn && !moved, lanes := lanes, laneImage := [] }
  let s := if moved ∨ t.waitOn = .ownCore then s.seat t.key else s
  let s := (s.reload t.key).updTask t.key Task.unsaveHints
  let s := if t.high then s.highOn c
    else if s.highRuns c then s.updTask t.key fun t => { t with status := .suspended } else s
  match t.waitOn with
  | .trapped cause v => s.asTask t.key fun s => s.takeTrap cause v s.task.pc
  | _ => s.serve

/-- A core chooses the oldest READY task it can take, high priority first (R135). -/
def State.chooseTask (s : State) (c : CoreId) : State :=
  match s.readyTasks.find? fun t => s.coreFor t == some c with
  | none => s
  | some t => s.take t c

/-- A WAITING or PARKED task whose condition holds becomes READY (R133, R136, R160). -/
def State.wakeTask (s : State) (key : Nat) : State :=
  match s.taskOf key with
  | none => s
  | some t =>
    let holds : Bool := match t.waitOn with
      | .nothing | .trapped .. => true
      | _ => false
    if holds ∧ (t.status = .waiting ∨ t.status = .parked) then
      let s := { s.updTask key (fun t => { t with status := .ready }) with ready := s.ready ++ [key] }
      let u := { t with status := .ready }
      let s := if t.high then s.suspendNormals (s.aimOf u) else s
      match s.coreFor u with
      | some c => s.pushEvent (.taskChosen c)
      | none => s
    else s

/-- Cycles waited by the oldest waiting `TRPOP` on an instance's trough, as the sample gives them; none waits: zero
(R156). -/
def State.starved (s : State) (r : Nat) (value : W64) : Nat × State :=
  let c : Ctx := ⟨s.xasid r, r / 4096, none, none, some r⟩
  match translate1 c {} (s.recDw r 11) 8 s with
  | .ok pa s =>
    let waits := s.waiters.any fun w => w.pa == pa && match w.kind with | .pop .. => true | _ => false
    (if waits then value.toNat else 0, s)
  | .error _ s => (0, s)

/-- The value an instance's event source has (R156). DESIGN CHOICE (log entry 31): the link numbers 14 and 15, which name no
link, read link 0 and link 1. -/
def State.eventValue (s : State) (r : Nat) (value : W64) : Nat × State :=
  let d := s.die (r / 4096)
  match s.recField r 3 60 4 with
  | 1 => (d.energy, s)
  | 2 => (d.temp.toNat, s)
  | 3 => s.starved r value
  | _ => ((s.link (s.recField r 11 0 4)).lframes.toNat, s)

/-- A sample of the event source of a WAITING instance (R156). -/
def State.sample (s : State) (r : BitVec 14) (gen : BitVec 16) (value : W64) : State :=
  match s.inst r gen with
  | none => s
  | some i =>
    if i.st = .waiting ∧ i.event then
      let (v, s) := s.eventValue r.toNat value
      if (s.recDw r.toNat 10).toNat ≤ v then (s.updInst r gen fun x => { x with event := false }).wakeInst r gen else s
    else s

/-- Advances the refresh schedule by some cycles (R60, R61): a refresh in progress ends before a pause begins. -/
def Die.advance (d : Die) (n : Nat) : Die :=
  if d.wsPause = 0 then { d with wsPos := (d.wsPos + n) % 81600 }
  else
    let k := if d.inRefresh then 2040 - d.wsPos % 5100 else 0
    if n ≤ k then { d with wsPos := d.wsPos + n }
    else
      let held := Nat.min (n - k) d.wsPause
      { d with wsPos := (d.wsPos + k + (n - k - held)) % 81600, wsPause := d.wsPause - held }

/-- A die's sensors (R157, R421): energy drawn since the last update, temperature in eighths of a degree. -/
def Die.sense (d : Die) (energy : Nat) (temp : BitVec 16) : Die :=
  { d with energy := Nat.min (d.energy + energy) (2 ^ 64 - 1), temp := temp }

/-- Whether a die's paddock dispatches nothing (R422): from 920 units until the temperature is below 840. -/
def Die.trip (d : Die) : Die :=
  { d with hot := if 920 ≤ d.temp.toNat then true else if d.temp.toNat < 840 then false else d.hot }

/-- The WAITING records of a die whose event source is its temperature are released at their `EVTHR` (R156, R422). -/
def State.releaseHot (s : State) (d : Nat) : State :=
  (s.insts.filter fun i => decide (i.recNo.toNat / 4096 = d) && s.recField i.recNo.toNat 3 60 4 == 2).foldl
    (fun s i => s.sample i.recNo i.gen 0) s

/-- An update of a die's sensors (R421, R422): a record that waits for a temperature is released before the trip. -/
def State.senseAt (s : State) (d : Nat) (energy : Nat) (temp : BitVec 16) : State :=
  ((s.setDie d fun x => x.sense energy temp).releaseHot d).setDie d Die.trip

/-- The TID of an engine unit's operation (R325). -/
def State.opTid (s : State) (o : EngineOp) : Nat :=
  ((o.reply.getD 0) - s.recDw (fieldOf o.launch 0 14) 2).toNat / 64

/-- What the failure of a cluster does to an instance with lost units (R159). -/
def State.loseUnits (s : State) (i : Instance) (lost : List Nat) : Instance :=
  if s.recField i.recNo.toNat 0 21 1 = 1 then { i with lost := (i.lost ++ lost).eraseDups }
  else { i with bad := true, lost := [], parts := [], outside := [] }

/-- A lost task (R159). -/
def Task.lose (t : Task) : Task := { t with status := .ended, lanes := [], laneImage := [], pkt := [], activation := none }

/-- A cluster fails (R159, R388): it goes offline, and every task, binding and engine unit on it is lost. DEDUCED (log entry
31): an instance that has lost nothing there but the activation of a channel counts as one that lost a unit. -/
def State.failCluster (s : State) (d clu : Nat) : State :=
  let cl := d % 4 * 64 + clu
  if (s.die d).offline.getLsbD clu then s
  else
    let s := s.setDie d fun x => { x with offline := x.offline ||| (1#64 <<< clu) }
    let gone := s.allTasks.filter fun t => t.onCore && clusterId t.core == cl
    let keys := gone.map (·.key)
    let units := s.ops.filter fun o => isCopyCmd o.cmd && decide (o.st ≠ .finished) && clusterId o.core == cl
    let lostOf := fun (w : W64) =>
      ((gone.filter fun t => t.launch == w && t.activation.isNone).map fun t => t.tid.toNat) ++
      ((units.filter fun o => o.launch == w && o.tag.isNone).map s.opTid)
    let hit := fun (w : W64) => gone.any (·.launch == w) || units.any fun o => o.launch == w && o.tag.isNone
    let insts := s.insts.map fun i =>
      let w := launchWord i.recNo i.gen
      if hit w then s.loseUnits i (lostOf w).eraseDups else i
    let s := keys.foldl State.withdraw s
    let s := { s with
      insts := insts, withdrawn := s.withdrawn.filter (!keys.contains ·.task), ready := s.ready.filter (!keys.contains ·),
      task := if keys.contains s.task.key then s.task.lose else s.task,
      tasks := s.tasks.filter (!keys.contains ·.key), ops := s.ops.filter (!units.contains ·),
      bindings := s.bindings.filter fun b => clusterId b.core != cl, chq := s.chq.filter fun q => clusterId q.core != cl }
    let s := keys.foldl (fun s k => (List.range 4).foldl (fun s d => s.dropStaging d (.task k)) s) s
    let s := (List.range 10).foldl (fun s k => s.rearrive (coreAt d clu k)) s
    ((insts.map fun i => launchWord i.recNo i.gen).foldl State.checkComplete s).letEnter

/-- DISPATCH_SLOT (R156). -/
def execDispatchSlot (die : BitVec 2) (s : State) : Res := event (·.slot die.toNat) s
/-- TASK_CHOSEN (R135). -/
def execTaskChosen (core : CoreId) (s : State) : Res := event (·.chooseTask core) s
/-- TASK_WAKE (R160). -/
def execTaskWake (task : Nat) (s : State) : Res := event (·.wakeTask task) s
/-- EVENT_SAMPLE (R156). -/
def execEventSample (recNo : BitVec 14) (gen : BitVec 16) (value : W64) (s : State) : Res := event (·.sample recNo gen value) s
/-- ENERGY_WINDOW (R158). -/
def execEnergyWindow (die : BitVec 2) (s : State) : Res :=
  event (fun s => s.setDie die.toNat fun d => { d with winEnergy := d.energy }) s
/-- SENSOR_UPDATE (R421). -/
def execSensorUpdate (die : BitVec 2) (energy : BitVec 32) (temp : BitVec 16) (s : State) : Res :=
  event (·.senseAt die.toNat energy.toNat temp) s
/-- THERMAL_TRIP (R422): the temperature has reached 920 units. -/
def execThermalTrip (die : BitVec 2) (s : State) : Res :=
  event (fun s => s.setDie die.toNat fun d => { d with hot := d.hot || decide (920 ≤ d.temp.toNat) }) s
/-- THERMAL_RECOVER (R422): the temperature has fallen below 840 units. -/
def execThermalRecover (die : BitVec 2) (s : State) : Res :=
  event (fun s => s.setDie die.toNat fun d => { d with hot := d.hot && decide (840 ≤ d.temp.toNat) }) s
/-- CLUSTER_FAILURE (R159, R388). -/
def execClusterFailure (die : BitVec 2) (clu : BitVec 6) (s : State) : Res := event (·.failCluster die.toNat clu.toNat) s
/-- WS_REFRESH (R60). -/
def execWsRefresh (die : BitVec 2) (cycles : BitVec 32) (s : State) : Res :=
  event (fun s => s.setDie die.toNat fun d => d.advance cycles.toNat) s

end Sys2Proof.Machine
end

