-- ==== Sys2Proof/Machine/Command.lean ====
section
/-! DEFINITION. The control space as a writer sees it (R48, R436): command buffers, invalidation (R47, R49), page
commands (R71, R72), pre-emption and launch commands (R381, R435), the registers, host memory accesses (R118, R414),
signed boot (R416-R418) and attestation (R419). -/

namespace Sys2Proof.Machine

/-- Whether a counter PA of a command is well aligned (R47, R71, R381, R419). -/
def counterOk (pa : W64) : Bool := decide (pa.toNat % 8 = 0)

/-- Drops translations from every TLB of the package (R49): page entries and range entries by their own tests. -/
def State.dropTlbs (s : State) (page range : TlbEntry → Bool) : State :=
  { s with l1 := s.l1.filter (!page ·.2), dtlb := s.dtlb.filter (!page ·.2), rtlb := s.rtlb.filter (!range ·.2) }

/-- Whether a page entry maps a byte of a span of VAs (R49); VAs wrap at 2^56. -/
def TlbEntry.meets (e : TlbEntry) (va len : Nat) : Bool :=
  let lo := va % 2 ^ 56
  decide ((e.va < lo + len ∧ lo < e.va + e.len) ∨ (e.va + 2 ^ 56 < lo + len ∧ lo < e.va + 2 ^ 56 + e.len))

/-- An invalidation command (R49): one with a bad counter PA is discarded (R47). -/
def State.invalidate (s : State) (page range : TlbEntry → Bool) (ctrpa : W64) : State :=
  if counterOk ctrpa then (s.dropTlbs page range).signalCounter ctrpa else s

/-- KIND 0 (R47, R49). -/
def State.invalidatePages (s : State) (asid : BitVec 16) (vabase valen ctrpa : W64) : State :=
  if canonical vabase && decide (vabase.toNat % 4096 = 0 ∧ valen ≠ 0 ∧ valen.toNat % 4096 = 0) then
    s.invalidate (fun e => e.asid == asid && e.meets vabase.toNat valen.toNat) (fun _ => false) ctrpa
  else s

/-- KIND 1 (R49). -/
def State.invalidateAsidPages (s : State) (asid : BitVec 16) (ctrpa : W64) : State :=
  s.invalidate (fun e => e.asid == asid) (fun _ => false) ctrpa

/-- KIND 2 (R49). -/
def State.invalidateAsidRanges (s : State) (asid : BitVec 16) (ctrpa : W64) : State :=
  s.invalidate (fun _ => false) (fun e => e.asid == asid) ctrpa

/-- KIND 3 (R49). -/
def State.invalidateAsidAll (s : State) (asid : BitVec 16) (ctrpa : W64) : State :=
  s.invalidate (fun e => e.asid == asid) (fun e => e.asid == asid) ctrpa

/-- KIND 4 (R49). -/
def State.invalidateAll (s : State) (ctrpa : W64) : State := s.invalidate (fun _ => true) (fun _ => true) ctrpa

/-- An invalidation command from its doublewords (R47). -/
def State.invalidateCommand (s : State) (d0 d1 d2 d3 : W64) : State :=
  let asid := BitVec.ofNat 16 (fieldOf d0 0 16)
  if fieldOf d0 16 44 ≠ 0 then s
  else match fieldOf d0 60 4 with
    | 0 => s.invalidatePages asid d1 d2 d3
    | 1 => s.invalidateAsidPages asid d3
    | 2 => s.invalidateAsidRanges asid d3
    | 3 => s.invalidateAsidAll asid d3
    | 4 => s.invalidateAll d3
    | _ => s

/-- Whether a span lies in HBM, or in the far tier (R40). -/
def inHbm (pa n : Nat) : Bool := decide (pa + n ≤ 0x8000000000)
/-- Whether a span lies in the far tier (R40). -/
def inFar (pa n : Nat) : Bool := decide (0x100000000000 ≤ pa ∧ pa + n ≤ 0x1C0000000000)

/-- Zeroes pages (R72): their words, full/empty bits and sectors, before any access that waits there goes on. -/
def State.zeroPages (s : State) (pa n : Nat) : State :=
  let inside := fun (sec : Nat) => decide (pa ≤ sec * 64 ∧ sec * 64 < pa + n)
  let s := s.clearSpan pa n
  { s with sectors := s.sectors.filter (!inside ·.1), wcs := s.wcs.filter (!inside ·.sector) }

/-- Whether a page command's span and counter are accepted (R71). -/
def pageSpanOk (pabase palen ctrpa : W64) : Bool :=
  let pa := pabase.toNat
  let n := palen.toNat
  decide (pa % 4096 = 0 ∧ n ≠ 0 ∧ n % 4096 = 0) && counterOk ctrpa && (inHbm pa n || inFar pa n)

/-- Gives one page its metadata, zeroing it when they differ (R72). -/
def State.setPage (s : State) (m : PageMeta) (page : Nat) : State :=
  if s.pageMeta (page * 4096) = m then s
  else
    let s := s.zeroPages (page * 4096) 4096
    ({ s with metas := if m = {} then s.metas.filter (·.1 != page) else setKey s.metas page m } : State).serve

/-- Page command KIND 0 (R71, R72). -/
def State.setFormat (s : State) (lay : BitVec 1) (cmp : BitVec 2) (owner : BitVec 16) (pabase palen ctrpa : W64) : State :=
  if pageSpanOk pabase palen ctrpa && decide (cmp.toNat < 2) && (inHbm pabase.toNat palen.toNat || (cmp == 0 && lay == 0)) then
    let first := pabase.toNat / 4096
    ((tabulate (palen.toNat / 4096) (first + ·)).foldl (fun s p => s.setPage ⟨cmp, lay, owner⟩ p) s).pushEvent
      (.pageCommandCompletion ctrpa)
  else s

/-- Page command KIND 1 (R71, R72). -/
def State.zeroCommand (s : State) (pabase palen ctrpa : W64) : State :=
  if pageSpanOk pabase palen ctrpa then
    (s.zeroPages pabase.toNat palen.toNat).serve.pushEvent (.pageCommandCompletion ctrpa)
  else s

/-- A page command from its doublewords (R71). -/
def State.pageCommand (s : State) (d0 d1 d2 d3 : W64) : State :=
  let lay := BitVec.ofNat 1 (fieldOf d0 18 1)
  let cmp := BitVec.ofNat 2 (fieldOf d0 16 2)
  let far := !inHbm d1.toNat d2.toNat
  if fieldOf d0 19 41 ≠ 0 ∨ 2 ≤ cmp.toNat ∨ (far ∧ (cmp ≠ 0 ∨ lay ≠ 0)) then s
  else match fieldOf d0 60 4 with
    | 0 => s.setFormat lay cmp (BitVec.ofNat 16 (fieldOf d0 0 16)) d1 d2 d3
    | 1 => s.zeroCommand d1 d2 d3
    | _ => s

/-- A pre-emption command from its doublewords (R381). -/
def State.preemptCommand (s : State) (d0 d1 d2 d3 : W64) : State :=
  let r := BitVec.ofNat 14 (fieldOf d0 0 14)
  let gen := BitVec.ofNat 16 (fieldOf d0 14 16)
  if fieldOf d0 30 30 ≠ 0 ∨ d2 ≠ 0 ∨ d3 ≠ 0 then s
  else match fieldOf d0 60 4 with
    | 0 => s.preEmpt r gen d1
    | 1 => s.resume r gen d1
    | _ => s

/-- A launch command from its doublewords (R435). -/
def State.hostLaunch (s : State) (d0 d1 d2 d3 : W64) : State :=
  let r := BitVec.ofNat 14 (fieldOf d0 0 14)
  let pri := if d0.getLsbD 18 then some (BitVec.ofNat 2 (fieldOf d0 16 2)) else none
  if fieldOf d0 14 2 ≠ 0 ∨ fieldOf d0 19 41 ≠ 0 ∨ d2 ≠ 0 then s
  else match fieldOf d0 60 4 with
    | 0 => s.launchCommand r d1 d3 fun s => statusWord (s.arm r.toNat pri)
    | 1 => s.launchCommand r d1 d3 fun s => statusWord (s.cancel r.toNat)
    | 2 => s.launchCommand r d1 d3 fun s => (s.recStat r.toNat, s)
    | _ => s

/-- The measurement of the running image (R419). -/
def State.measurement (s : State) : List Byte := sha384 s.boot.image

/-- The seed of the identity Ed25519 key (R419): an open function of the measurement (log entry 15). -/
def State.edSeed (s : State) : List Byte := padTo 32 0 (Config.edSeed s.measurement)
/-- The seed of the identity ML-DSA-65 key (R419): an open function of the measurement (log entry 15). -/
def State.dsaSeed (s : State) : List Byte := padTo 32 0 (Config.dsaSeed s.measurement)

/-- The attestation report up to its signatures (R419). -/
def State.report (s : State) (nonce : List Byte) : List Byte :=
  nonce ++ s.measurement ++ leBytes 8 s.boot.svn.toNat ++ leBytes 8 s.capcl.toNat ++ padTo 48 0 Config.fusedKeyHash ++
    ed25519Key s.edSeed ++ mldsaKey s.dsaSeed

/-- The attestation report with its signatures (R419), and one drawn value used: the random bytes of the second. -/
def State.signedReport (s : State) (nonce : List Byte) : List Byte × State :=
  let b := s.report nonce
  (b ++ ed25519Sign s.edSeed b ++ padTo 3309 0 (mldsaSign s.dsaSeed (padTo 32 0 (Config.signRandom s.tick)) b),
   { s with tick := s.tick + 1 })

/-- Whether 32 bytes at a PA are memory. -/
def nonceOk (pa : Nat) : Bool :=
  match regionOf pa, regionOf (pa + 31) with
  | .hole, _ | _, .hole | .control .., _ | _, .control .. => false
  | _, _ => true

/-- An attestation command (R419); firmware must run for it. -/
def State.attest (s : State) (noncepa reppa ctrpa : W64) : State :=
  if nonceOk noncepa.toNat && decide (reppa.toNat % 4096 = 0) && inHbm reppa.toNat 8192 && counterOk ctrpa &&
      (s.boot.stage == 2 || s.boot.stage == 3) then
    let (nonce, s) := s.readAs s.systemReader noncepa.toNat 32
    let (b, s) := s.signedReport nonce
    (s.agentWrite false .other reppa.toNat b).signalCounter ctrpa
  else s

/-- Performs a command of a queue (R48). -/
def State.command (s : State) (slot : CmdSlot) (d0 d1 d2 d3 : W64) : State :=
  match slot with
  | .invalidate => s.invalidateCommand d0 d1 d2 d3
  | .page => s.pageCommand d0 d1 d2 d3
  | .preempt => s.preemptCommand d0 d1 d2 d3
  | .launch => s.hostLaunch d0 d1 d2 d3
  | .attest => if d2 = 0 then s.attest d0 d1 d3 else s

/-- Whether a turn is a command of an offset of a die that has been taken and not yet performed (R48). -/
def Turn.ofSlot (d : Nat) (slot : CmdSlot) : Turn → Bool
  | .command e x .. => e == d && x == slot
  | _ => false

/-- Clears a writer's buffer (R48). -/
def State.clearStaging (s : State) (w : Writer) (d : Nat) (slot : CmdSlot) : State :=
  s.setDie d fun x => { x with staging := x.staging.filter fun b => !(b.writer == w && b.slot == slot) }

/-- A doubleword 3 takes its writer's buffer as a command (R48). While 256 commands of the offset wait, the write waits and
the oldest of them comes first; an attestation command that another has not finished before is discarded (R419). -/
def State.takeCommand (s : State) (w : Writer) (d : Nat) (slot : CmdSlot) (v : W64) : State :=
  let b := s.stagingOf w d slot
  let queue := s.agenda.filter (Turn.ofSlot d slot)
  match queue with
  | [] => (s.clearStaging w d slot).push [.command d slot b.dw0 b.dw1 b.dw2 v]
  | first :: _ =>
    if slot = .attest then s.clearStaging w d slot
    else if queue.length < 256 then (s.clearStaging w d slot).push [.command d slot b.dw0 b.dw1 b.dw2 v]
    else
      let again : Turn := .event (.registerWrite (.control w (BitVec.ofNat 2 d) (BitVec.ofNat 30 (slotOffset slot + 24))) v)
      { s with agenda := first :: again :: s.agenda.erase first }

/-- A write of a doubleword of a command (R48): doublewords 0 to 2 into the writer's buffer; doubleword 3 takes it. Only the
host writes launch commands (R435); a writer without a buffer changes nothing. -/
def State.stage (s : State) (w : Writer) (d : Nat) (slot : CmdSlot) (dw : Nat) (v : W64) : State :=
  if (slot = .launch ∧ w ≠ .host) ∨ (slot = .attest ∧ d ≠ 0) ∨ w = .unit then s
  else if dw = 3 then s.takeCommand w d slot v
  else
    let b := s.stagingOf w d slot
    let b := if dw = 0 then { b with dw0 := v } else if dw = 1 then { b with dw1 := v } else { b with dw2 := v }
    (s.clearStaging w d slot).setDie d fun x => { x with staging := b :: x.staging }

/-- A host write of a launch record (R142): ignored while `LIVE` is not zero. -/
def State.recordWrite (s : State) (r dw : Nat) (v : W64) : State :=
  if s.live r ≠ 0 then s else s.putRecord r dw (recordMask dw) v

/-- Bytes of an image at an offset. -/
def fileAt (rd : Nat → Byte) (off n : Nat) : List Byte := tabulate n fun i => rd (off + i)
/-- A little-endian field of an image. -/
def fileNum (rd : Nat → Byte) (off n : Nat) : Nat := leNat (fileAt rd off n)

/-- The signed message of an image (R416). -/
def signedMessage (rd : Nat → Byte) : List Byte := fileAt rd 0 0x7E0 ++ fileAt rd 0x2000 (fileNum rd 0x10 8)

/-- The first check of R417 that an image fails, 0 for none. -/
def imageCheck (rd : Nat → Byte) : Nat :=
  let body := fileNum rd 0x10 8
  if fileAt rd 0 4 ≠ [0x42, 0x46, 0x57, 0x31] ∨ fileNum rd 4 4 ≠ 1 ∨ fileNum rd 0xC 4 ≠ 0 ∨ body = 0 ∨ 0x3000000 < body ∨
      (fileAt rd 0x150D 0xAF3).any (· != 0) then 1
  else if sha384 (fileAt rd 0x20 0x7C0) ≠ padTo 48 0 Config.fusedKeyHash then 2
  else if !ed25519Ok (fileAt rd 0x20 32) (signedMessage rd) (fileAt rd 0x7E0 64) then 3
  else if !mldsaOk (fileAt rd 0x40 1952) (signedMessage rd) (fileAt rd 0x820 3309) then 4
  else if fileNum rd 8 4 < Config.fusedMinSvn.toNat then 5
  else 0

/-- The ROM verifies an image (R417): it runs, or is refused. -/
def State.verify (s : State) (rd : Nat → Byte) : State :=
  let k := imageCheck rd
  let b := if k = 0 then
      { s.boot with stage := 2, fail := 0, svn := BitVec.ofNat 16 (fileNum rd 8 4), image := signedMessage rd }
    else { s.boot with stage := 15, fail := BitVec.ofNat 8 k }
  { s with boot := b }

/-- `BOOTST.RETRY` written 1 (R417): the image in the recovery window is to be verified, while the last one is refused.
DESIGN CHOICE (log entry 32): the bit clears when the verification ends. -/
def State.retryBoot (s : State) : State :=
  if s.boot.stage = 15 then { s with boot := { s.boot with stage := 1, retry := true } }.push [.verify true] else s

/-- Device reset (R417): everything but the boot flash is as after reset, and the ROM is to check the flash's image. -/
def State.deviceReset (s : State) : State :=
  { State.reset with boot := { flash := s.boot.flash, stage := 1 }, tick := s.tick, agenda := [.verify false] }

/-- The ROM verifies the image of the recovery window or of the flash (R417). -/
def State.verifyImage (s : State) (recovery : Bool) : State :=
  let w := s.boot.recovery
  let flash := s.boot.flash.toArray
  { s with boot := { s.boot with retry := false } }.verify fun i =>
    if recovery then BitVec.ofNat 8 (bitsOf ((lookupKey w (i / 8 * 8)).getD 0).toNat (8 * (i % 8)) 8) else flash.getD i 0

/-- Banks of a lane core of a physical cluster that can be used (R387). -/
def bootBanks (d k core : Nat) : Nat := 32 - Nat.min 32 (Config.badBanks d k core)

/-- Whether a physical cluster has failed at boot (R387): a failed core, a lane core with fewer than 6 banks among them, or
more than 8 failed lanes. -/
def clusterFailed (d k : Nat) : Bool :=
  (List.range 10).any (Config.badCore d k) || (List.range 8).any (fun c => decide (bootBanks d k c < 6)) ||
  decide (8 < Config.badLanes d k)

/-- The physical cluster that bears a cluster's name after boot, none for a disabled one (R387). DEDUCED (log entry 32): the
spare of a row goes to its first failed cluster by column. -/
def physicalOf (d clu : Nat) : Option Nat :=
  let row := clu / 8 * 9
  let failed := fun (col : Nat) => clusterFailed d (row + col)
  if !failed (clu % 8) then some (row + clu % 8)
  else if failed 8 || (List.range (clu % 8)).any failed then none
  else some (row + 8)

/-- The mask of a die's clusters that a test names. -/
def clusterMask (f : Nat → Bool) : BitVec 64 := BitVec.ofNat 64 (((List.range 64).filter f).map (2 ^ ·)).sum

/-- Boot firmware maps out faulty parts (R387, R420). -/
def State.mapOut (s : State) : State :=
  let up := fun (d clu : Nat) => !Config.badDie d && (physicalOf d clu).isSome
  let s := (List.range 4).foldl (fun s d => s.setDie d fun x => { x with enabled := clusterMask (up d) }) s
  let lost := fun (n : Nat) =>
    let d := n / 512
    let clu := n / 8 % 64
    (physicalOf d clu).map fun k => (coreAt d clu (n % 8), Nat.min 32 (Config.badBanks d k (n % 8)))
  { s with dieMask := BitVec.ofNat 4 (((List.range 4).filter (!Config.badDie ·)).map (2 ^ ·)).sum,
           badBanks := ((List.range 2048).filterMap lost).filter fun b => b.2 != 0 }

/-- The firmware's steps (R418): faulty parts are mapped out, HBM, far tier and scratchpads are zero, every die's `ASIDTBL`
is written, `STAGE` is 3, and records armed before go on. -/
def State.stageReady (s : State) : State :=
  if s.boot.stage = 2 then
    let s := ((s.mapOut.zeroPages 0 0x8000000000).zeroPages 0x100000000000 0xC0000000000).serve
    let s := s.zeroSpan 0x8100000000 0x40000000
    let s := (List.range 4).foldl (fun s d => s.setDie d fun x => { x with asidTbl := Config.asidTable.toNat }) s
    let s := { s with boot := { s.boot with stage := 3 } }
    s.insts.foldl (fun s i => s.wakeInst i.recNo i.gen) s
  else s

/-- The bits of a doubleword of an I/O queue table entry that are not reserved (R8, R319). -/
def ioqMask (i : Nat) : W64 :=
  match i % 8 with
  | 0 => 0xFF
  | 2 | 6 => 0x0000FFFFFFFFFFFF
  | 7 => 0
  | _ => BitVec.allOnes 64

/-- An aligned 64-bit write to a die's control space (R436); an offset without a rule, and a register that is RO,
discard it. While an image is refused the host reaches only `BOOTST` and the recovery window (R417). -/
def State.controlWrite (s : State) (w : Writer) (d off : Nat) (v : W64) : State :=
  if off % 8 ≠ 0 then s
  else if off = 0x100 then if d = 0 ∧ v.getLsbD 32 then s.retryBoot else s
  else if 0x10000000 ≤ off ∧ off < 0x14000000 then
    if d = 0 ∧ s.boot.stage = 15 then
      { s with boot := { s.boot with recovery := setKey s.boot.recovery (off - 0x10000000) v } }
    else s
  else if s.boot.stage = 15 then s
  else match slotAt off with
    | some slot => s.stage w d slot (off % 32 / 8) v
    | none =>
      if 0x4000 ≤ off ∧ off < 0x8000 then
        s.setDie d fun x => { x with ioq := setKey x.ioq ((off - 0x4000) / 8) (v &&& ioqMask (off / 8)) }
      else if 0x8000 ≤ off ∧ off < 0x8E00 then
        let n := (off - 0x8000) / 0x100
        if n % 4 = d then s.writeLinkReg n (off % 0x100) v else s
      else if off = 0x8F00 then s.writeRid d v
      else if 0x10000 ≤ off ∧ off < 0x1E000 then
        let n := (off - 0x10000) / 0x1000
        if n % 4 = d then s.writeMember n (off % 0x1000 / 4) true v else s
      else if 0x100000 ≤ off ∧ off < 0x300000 then
        if w = .host then s.recordWrite (d * 4096 + (off - 0x100000) / 512) (off % 512 / 8) v else s
      else s

/-- A plain register write (R237, R436). -/
def State.registerWrite (s : State) (x : RegTarget) (v : W64) : State :=
  match x with
  | .creg n => State.cregEvent n.toNat v s
  | .control w die off => s.controlWrite w die.toNat off.toNat v

/-- Whether the host reaches a span by CXL.mem (R413): HBM, and the far tier once boot firmware has programmed the expanders
(R418). -/
def State.hostMem (s : State) (pa n : Nat) : Bool := inHbm pa n || (inFar pa n && s.boot.stage == 3)

/-- The offset in BAR0 of a byte of a die's control space (R413): die d at d times 4 GiB. -/
def barOffset (die off : Nat) : Nat := die * 2 ^ 32 + off

/-- The PA behind an offset in BAR0 (R413): none for a hole, past the 1 GiB that each die's control space takes (R40). -/
def barPa (b : Nat) : Option Nat :=
  if b < 2 ^ 34 ∧ b % 2 ^ 32 < 2 ^ 30 then some (0xF000000000 + b / 2 ^ 32 * 2 ^ 30 + b % 2 ^ 32) else none

/-- A read through BAR0 (R413, R436): zero from a hole. DESIGN CHOICE (log entry 32): R436 states only aligned reads of 32 or 64
bits; a read of another width or alignment returns what the bytes hold as well. -/
def State.barRead (s : State) (b n : Nat) : List Byte :=
  tabulate n fun i => ((barPa (b + i)).map (s.controlByte .host)).getD 0

/-- A write through BAR0 (R413, R436): a hole discards it. -/
def State.barWrite (s : State) (b : Nat) (data : List Byte) : State :=
  match barPa b with
  | some pa => s.push (controlEvents .host pa data)
  | none => s

/-- A read of the host (R94, R118, R413, R414, R436): CXL.mem of the memory it reaches, or a read through BAR0. -/
def State.hostRead (s : State) (pa n : Nat) : State :=
  if s.hostMem pa n then
    let x := s.agentRead (s.hostReader pa) pa n
    { x.2.2 with hostData := x.1, hostSeen := x.2.1 }
  else match regionOf pa with
    | .control die off => { s with hostData := s.barRead (barOffset die off) n }
    | _ => s

/-- A write of the host (R118, R413, R414, R436), to memory or through BAR0. -/
def State.hostWrite (s : State) (pa : Nat) (data : List Byte) : State :=
  if s.hostMem pa data.length then s.agentWrite false .other pa data
  else match regionOf pa with
    | .control die off => s.barWrite (barOffset die off) data
    | _ => s

/-- COMMAND_STAGING_WRITE (R48). -/
def execCommandStagingWrite (w : Writer) (die : BitVec 2) (slot : CmdSlot) (dw : BitVec 2) (val : W64) (s : State) : Res :=
  throughBar (·.stage w die.toNat slot dw.toNat val) s
/-- INVALIDATE_PAGES (R49). -/
def execInvalidatePages (asid : BitVec 16) (vabase valen ctrpa : W64) (s : State) : Res :=
  throughBar (·.invalidatePages asid vabase valen ctrpa) s
/-- INVALIDATE_ASID_PAGES (R49). -/
def execInvalidateAsidPages (asid : BitVec 16) (ctrpa : W64) (s : State) : Res := throughBar (·.invalidateAsidPages asid ctrpa) s
/-- INVALIDATE_ASID_RANGES (R49). -/
def execInvalidateAsidRanges (asid : BitVec 16) (ctrpa : W64) (s : State) : Res := throughBar (·.invalidateAsidRanges asid ctrpa) s
/-- INVALIDATE_ASID_ALL (R49). -/
def execInvalidateAsidAll (asid : BitVec 16) (ctrpa : W64) (s : State) : Res := throughBar (·.invalidateAsidAll asid ctrpa) s
/-- INVALIDATE_ALL (R49). -/
def execInvalidateAll (ctrpa : W64) (s : State) : Res := throughBar (·.invalidateAll ctrpa) s
/-- SET_FORMAT_AND_OWNER (R72). -/
def execSetFormatAndOwner (lay : BitVec 1) (cmp : BitVec 2) (owner : BitVec 16) (pabase palen ctrpa : W64) (s : State) : Res :=
  throughBar (·.setFormat lay cmp owner pabase palen ctrpa) s
/-- ZERO_ONLY (R72). -/
def execZeroOnly (pabase palen ctrpa : W64) (s : State) : Res := throughBar (·.zeroCommand pabase palen ctrpa) s
/-- PAGE_COMMAND_COMPLETION (R72). -/
def execPageCommandCompletion (ctrpa : W64) (s : State) : Res := event (·.signalCounter ctrpa) s
/-- ATTESTATION_COMMAND (R419). -/
def execAttestationCommand (noncepa reppa ctrpa : W64) (s : State) : Res := throughBar (·.attest noncepa reppa ctrpa) s
/-- HOST_MEM_READ (R118, R413). -/
def execHostMemRead (pa : BitVec 52) (n : BitVec 16) (s : State) : Res := event (·.hostRead pa.toNat n.toNat) s
/-- HOST_MEM_WRITE (R118, R413). -/
def execHostMemWrite (pa : BitVec 52) (data : List Byte) (s : State) : Res := event (·.hostWrite pa.toNat data) s
/-- LAUNCH_RECORD_HOST_WRITE (R142). -/
def execLaunchRecordHostWrite (recNo : BitVec 14) (dw : BitVec 6) (val : W64) (s : State) : Res :=
  throughBar (·.recordWrite recNo.toNat dw.toNat val) s
/-- REGISTER_WRITE (R237, R436). -/
def execRegisterWrite (target : RegTarget) (val : W64) (s : State) : Res := event (·.registerWrite target val) s
/-- RETRY (R417). -/
def execRetry (s : State) : Res := event (·.retryBoot) s
/-- DEVICE_RESET (R417). -/
def execDeviceReset (s : State) : Res := event (·.deviceReset) s
/-- STAGE_READY (R418). -/
def execStageReady (s : State) : Res := event (·.stageReady) s

end Sys2Proof.Machine
end

