-- ==== Sys2Proof/Machine/Long.lean ====
section
/-! DEFINITION. Long-float instructions (R252-R261, R17): e-slots, arithmetic with one rounding to the length
`PREC` sets, and element loads and stores. -/

namespace Sys2Proof.Machine

/-- The current task's e-slots are in the long-slot file from here on (R130); accesses that wait for a word which an eviction
writes go on (R78). -/
def State.takeSlots (s : State) : State := if s.task.slotsIn then s else s.useSlots.serve

/-- Reads the element named by an e-slot (R181): its length code and its words. -/
def readSlots (n : Spec) : M (Nat × List W32) := do
  upd State.takeSlots
  let t := (← get).task
  let k := bitsOf (vget t.e n.toNat).toNat 28 3
  need (decide (n.toNat + k ≤ 63)) 0x01 (n.setWidth 64)
  pure (k, tabulate (k + 1) fun j => vget t.e (n.toNat + j))

/-- `ReadVF` (R252). -/
def readVf (n : Spec) : M Exact := do pure (vfValue (← readSlots n).2)

/-- Words written to successive e-slots (R181). -/
def Task.putSlots (t : Task) (n : Nat) (ws : List W32) : Task :=
  { t with e := ws.zipIdx.foldl (fun e w => vset e (n + w.2) w.1) t.e }

/-- Writes words to successive e-slots of the current task, whose image is in the long-slot file from here on (R130). -/
def putElement (d : Spec) (ws : List W32) : M Unit := do
  upd State.takeSlots
  upd (·.setTask (·.putSlots d.toNat ws))

/-- The result length code (R164, R182). -/
def koutOf : M Nat := do pure (fieldOf (← get).task.prec 0 3)

/-- The check of a VF destination (R181, R252 step 2). -/
def checkVf (d : Spec) : M Unit := do need (decide (d.toNat + (← koutOf) ≤ 63)) 0x01 (d.setWidth 64)

/-- `WriteVF` of `RoundVF` (R182, R252), with the flags of the operation. -/
def writeVf (d : Spec) (v : Exact × Flg) : M Next := do
  let r := vfEncode (← rounding) (← koutOf) v.1
  putElement d r.1
  pure (.flags (v.2 ||| r.2))

/-- A member of one e-slot source and a VF destination (R253). -/
def longUnary (d a : Spec) (f : Rm → Exact → Exact × Flg) : M Next := do
  let x ← readVf a
  checkVf d
  writeVf d (f (← rounding) x)

/-- A member of two e-slot sources (R253). -/
def longBinary (d a b : Spec) (f : Rm → Exact → Exact → Exact × Flg) : M Next := do
  let x ← readVf a
  let y ← readVf b
  checkVf d
  writeVf d (f (← rounding) x y)

/-- The cancellation check (R184): traps before any write or flag. -/
def checkCancel (x y v : Exact) : M Unit := do
  let p : Int := 14 + 32 * (← koutOf)
  let g : Int := fieldOf (← get).task.prec 8 6
  match cancellation x y v with
  | some c => need (decide (c ≤ p - g)) 0x50 (BitVec.ofInt 64 c)
  | none => pure ()

/-- EADD and ESUB (R184, R253): `sign` makes the second operand effective. -/
def longSum (d a b : Spec) (sign : Exact → Exact) : M Next := do
  let x ← readVf a
  let y ← readVf b
  checkVf d
  let v := x.add (← rounding) (sign y)
  checkCancel x (sign y) v.1
  writeVf d v

/-- EFMA reads eD as its third source (R253). -/
def efmaBody (d a b : Spec) : M Next := do
  let x ← readVf a
  let y ← readVf b
  let z ← readVf d
  checkVf d
  writeVf d (x.fma (← rounding) y z)

/-- A selector of the conversion members (R257). -/
def checkSel (sel : Spec) (n : Nat) : M Unit := need (decide (sel.toNat < n)) 0x01 (sel.setWidth 64)

/-- ECMP (R255): exact comparison, no flag; conditions 4-7 trap. -/
def ecmpBody (c p : BitVec 3) (a b : Spec) : M Next := do
  let x ← readVf a
  let y ← readVf b
  need (decide (c.toNat < 4)) 0x01 (BitVec.ofNat 64 (8 * c.toNat + p.toNat))
  writePred p (if c = 0 then x.eq y else if c = 1 then !(x.eq y) else if c = 2 then x.lt y else y.le x)
  pure .seq

/-- ECVTE (R257). DEDUCED (log entry 24): the destination is refused before the selector. -/
def ecvteBody (d a sel : Spec) : M Next := do
  checkSrc a
  let x ← readScalar a
  checkVf d
  checkSel sel 4
  let v := (fmtOf sel.toNat).decode x.toNat
  writeVf d (v.val, v.nv)

/-- ECVTF (R257). -/
def ecvtfBody (d a sel : Spec) : M Next := do
  checkDst d
  let x ← readVf a
  checkSel sel 4
  writeFlagged d ((fmtOf sel.toNat).encode (← rounding) x)

/-- ECVTI (R257). -/
def ecvtiBody (d a sel : Spec) : M Next := do
  checkDst d
  let x ← readVf a
  checkSel sel 2
  let rm ← rounding
  let r := if sel = 0 then x.toIntIn rm (-2 ^ 63) (2 ^ 63 - 1) else x.toIntIn rm 0 (2 ^ 64 - 1)
  writeScalar d (BitVec.ofInt 64 r.1)
  pure (.flags r.2)

/-- ECVTL (R257). DEDUCED (log entry 24): the destination is refused before the selector. -/
def ecvtlBody (d a sel : Spec) : M Next := do
  checkSrc a
  let x ← readScalar a
  checkVf d
  checkSel sel 2
  writeVf d (.ofInt (if sel = 0 then x.toInt else x.toNat), 0)

/-- ECLASS (R258): the class bit and the length code. -/
def eclassBody (d a : Spec) : M Next := do
  checkDst d
  let x ← readSlots a
  writeScalar d (BitVec.ofNat 64 (x.1 * 2 ^ 16 + (vf x.1).classify ⟨vfValue x.2, false⟩))
  pure .seq

/-- PRECSET (R17). -/
def precsetBody (a : Spec) : M Next := do
  checkSrc a
  let x ← readScalar a
  writePrec x
  pure .seq

/-- Loads an element to e-slots (R259, R261): header first, then its `k` + 1 words as one access whose words are
single-copy atomic each (R36, R84), all at the one position of the load (R261); nothing is written before every check. -/
def loadElement (d : Spec) (va : W64) : M Unit := do
  let c ← myCtx
  let pa ← translate1 c {} va 4
  let h ← runS (·.readHeld 4 pa 4)
  let k := bitsOf (leNat h) 28 3
  need (decide (d.toNat + k ≤ 63)) 0x01 (BitVec.ofNat 64 (leNat h))
  let ps ← translate c {} va (4 * (k + 1)) 4
  let rest ← (cutPieces 4 ps).mapM fun p => runS (·.readHeld 4 p.1 p.2)
  let _ ← takePos
  putElement d ((chunks 4 8 (h ++ rest.flatten)).map fun w => BitVec.ofNat 32 (leNat w))

/-- Stores an element from e-slots (R259): each word is a store of its own, held privately (R84, R86). -/
def storeElement (va : W64) (d : Spec) : M Unit := do
  let x ← readSlots d
  let ps ← translate (← myCtx) { write := true } va (4 * x.2.length) 4
  let words := (ps.map fun p => tabulate (p.2 / 4) fun j => (p.1 + 4 * j, 4)).flatten
  holdStores va (splitData words ((x.2.map fun (w : W32) => leBytes 4 w.toNat).flatten))

/-- ELD (R259). -/
def eldBody (d a : Spec) (i : BitVec 14) : M Next := do
  checkSrc a
  let x ← readScalar a
  loadElement d (x + (← immediate 14 i.toNat))
  pure .seq

/-- EST (R259). -/
def estBody (d a : Spec) (i : BitVec 14) : M Next := do
  checkSrc a
  let x ← readScalar a
  storeElement (x + (← immediate 14 i.toNat)) d
  pure .seq

/-- ELDS and ESTS (R260): the base must be g1-g31 and is stepped once the access completes. -/
def strideBody (a b : Spec) (access : W64 → M Unit) : M Next := do
  checkSrc a; checkSrc b
  need (decide (1 ≤ a.toNat ∧ a.toNat < 32)) 0x01 (a.setWidth 64)
  let x ← readScalar a
  let y ← readScalar b
  access x
  writeScalar a (x + y)
  pure .seq

/-- EADD (R253). -/
def execEadd (d a b : Spec) (s : State) : Res := word (.eadd d a b) (longSum d a b id) s
/-- ESUB (R253). -/
def execEsub (d a b : Spec) (s : State) : Res := word (.esub d a b) (longSum d a b Exact.neg) s
/-- EMUL (R253). -/
def execEmul (d a b : Spec) (s : State) : Res := word (.emul d a b) (longBinary d a b fun _ => Exact.mul) s
/-- EDIV (R253). -/
def execEdiv (d a b : Spec) (s : State) : Res := word (.ediv d a b) (longBinary d a b fun _ => Exact.div) s
/-- ESQRT (R253). -/
def execEsqrt (d a : Spec) (s : State) : Res := word (.esqrt d a) (longUnary d a fun _ => Exact.sqrt rootBits) s
/-- EFMA (R253). -/
def execEfma (d a b : Spec) (s : State) : Res := word (.efma d a b) (efmaBody d a b) s
/-- ENEG (R253). -/
def execEneg (d a : Spec) (s : State) : Res := word (.eneg d a) (longUnary d a fun _ x => (x.neg, 0)) s
/-- EABS (R253). -/
def execEabs (d a : Spec) (s : State) : Res := word (.eabs d a) (longUnary d a fun _ x => (x.abs, 0)) s
/-- ECMP (R255). -/
def execEcmp (c p : BitVec 3) (a b : Spec) (s : State) : Res := word (.ecmp c p a b) (ecmpBody c p a b) s
/-- ERND (R256). -/
def execErnd (d a : Spec) (s : State) : Res := word (.ernd d a) (longUnary d a Exact.integral) s
/-- ECVTE (R257). -/
def execEcvte (d a sel : BitVec 6) (s : State) : Res := word (.ecvte d a sel) (ecvteBody d a sel) s
/-- ECVTF (R257). -/
def execEcvtf (d a sel : BitVec 6) (s : State) : Res := word (.ecvtf d a sel) (ecvtfBody d a sel) s
/-- ECVTI (R257). -/
def execEcvti (d a sel : BitVec 6) (s : State) : Res := word (.ecvti d a sel) (ecvtiBody d a sel) s
/-- ECVTL (R257). -/
def execEcvtl (d a sel : BitVec 6) (s : State) : Res := word (.ecvtl d a sel) (ecvtlBody d a sel) s
/-- EMOV (R253). -/
def execEmov (d a : Spec) (s : State) : Res := word (.emov d a) (longUnary d a fun _ x => (x, 0)) s
/-- ECLASS (R258). -/
def execEclass (d a : Spec) (s : State) : Res := word (.eclass d a) (eclassBody d a) s
/-- PRECSET (R17). -/
def execPrecset (a : Spec) (s : State) : Res := word (.precset a) (precsetBody a) s
/-- ELD (R259). -/
def execEld (d a : Spec) (i : BitVec 14) (s : State) : Res := issue .any withImm (.eld d a i) (eldBody d a i) s
/-- EST (R259). -/
def execEst (d a : Spec) (i : BitVec 14) (s : State) : Res := issue .any withImm (.est d a i) (estBody d a i) s
/-- ELDS (R260). -/
def execElds (d a b : Spec) (s : State) : Res := word (.elds d a b) (strideBody a b (loadElement d)) s
/-- ESTS (R260). -/
def execEsts (d a b : Spec) (s : State) : Res := word (.ests d a b) (strideBody a b fun va => storeElement va d) s

end Sys2Proof.Machine
end

