-- ==== Sys2Proof/Machine/Gnode.lean ====
section
/-! DEFINITION. The Gaussian node machine (R357-R373): blocks of long floats in the local window, elimination,
damping, residuals, means, and mailboxes. -/

namespace Sys2Proof.Machine

/-- An information form as an instruction reads it (R357): `lam` is the whole symmetric matrix. -/
structure GBlock where
  n : Nat
  ofs : Nat
  k : Nat
  thr : Nat
  eta : List Exact
  lam : List (List Exact)
  raw : List Byte
  deriving DecidableEq, Repr, Inhabited

/-- Elements of a block of `n` variables (R357). -/
def blockElems (n : Nat) : Nat := n + n * (n + 1) / 2

/-- Bytes of a block of `n` variables at length code `k` (R357). -/
def blockBytes (n k : Nat) : Nat := 8 + 4 * (k + 1) * blockElems n

/-- Element (i, j) of a matrix. -/
def entry (m : List (List Exact)) (i j : Nat) : Exact := lget (lget m i) j

/-- Position of Λ_ij, i ≤ j, in the packed triangle of `n` variables (R357). -/
def packedAt (n i j : Nat) : Nat := i * n - i * (i - 1) / 2 + (j - i)

/-- The symmetric matrix of a packed triangle. -/
def unpackLam (n : Nat) (l : List Exact) : List (List Exact) :=
  tabulate n fun i => tabulate n fun j => lget l (packedAt n (min i j) (max i j))

/-- Every address is 8-byte-aligned and lies, with its extent, in the local window (R358). -/
def inGWindow (va : W64) (n : Nat) : Bool :=
  decide (va.toNat % 8 = 0 ∧ windowBase ≤ va.toNat ∧ va.toNat + n ≤ windowBase + 0x400000)

/-- Refuses an address a G instruction may not use (R358). -/
def gAddr (va : W64) (n : Nat) : M Unit := do
  need (decide (va.toNat % 8 = 0)) 0x20 va
  need (inGWindow va n) 0x01 va

/-- Loads bytes of a block (R359). -/
def gLoad (va : W64) (n : Nat) : M (List Byte) := do
  gAddr va n
  loadBytes va n 8

/-- Stores bytes of a block, held until the next boundary (R359). -/
def gStore (va : W64) (data : List Byte) : M Unit := do
  gAddr va data.length
  storeBytes va data 8

/-- Whether a block's header is accepted (R357, R358). -/
def headerGood (h : Nat) (empty : Bool) : Bool :=
  reservedZero h [(0, 7), (8, 4), (16, 8)] && decide (bitsOf h 0 4 ≤ 8 ∧ bitsOf h 8 4 + bitsOf h 0 4 ≤ 8) &&
  (empty || bitsOf h 0 4 != 0)

/-- The words of the elements of a block's bytes. -/
def elemWords (k : Nat) (b : List Byte) : List (List W32) :=
  (chunks (4 * (k + 1)) b.length b).map fun e => (chunks 4 (k + 1) e).map fun w => BitVec.ofNat 32 (leNat w)

/-- The length code of an element (R181). -/
def elemCode (ws : List W32) : Nat := bitsOf (lget ws 0).toNat 28 3

/-- Reads a block (R358, R359): an element of another length code is refused at its own VA. -/
def readGBlock (va : W64) (empty : Bool) : M GBlock := do
  let hb ← gLoad va 8
  let h := leNat hb
  need (headerGood h empty) 0x01 va
  let n := bitsOf h 0 4
  let k := bitsOf h 4 3
  let raw ← if n = 0 then pure hb else gLoad va (blockBytes n k)
  let ws := elemWords k (raw.drop 8)
  match ws.findIdx? fun e => elemCode e != k with
  | some i => raise 0x01 (va + BitVec.ofNat 64 (8 + 4 * (k + 1) * i))
  | none =>
    let v := ws.map vfValue
    pure ⟨n, bitsOf h 8 4, k, bitsOf h 16 8, v.take n, unpackLam n (v.drop n), raw⟩

/-- `RoundVF` as a value (R182, R364), with its flags. -/
def roundVf (rm : Rm) (k : Nat) (x : Exact × Flg) : Exact × Flg :=
  let r := vfEncode rm k x.1
  (vfValue r.1, x.2 ||| r.2)

/-- m - l·x rounded once (R366). -/
def mulSub (rm : Rm) (k : Nat) (m l x : Exact) : Exact × Flg :=
  let p := l.mul x
  let s := m.add rm p.1.neg
  roundVf rm k (s.1, p.2 ||| s.2)

/-- The flags of values together. -/
def allFlags (l : List (Exact × Flg)) : Flg := l.foldl (fun f x => f ||| x.2) 0

/-- The elements of a block over chosen variables, in its order (R357). -/
def flatten (eta : List Exact) (m : List (List Exact)) (idx : List Nat) : List Exact :=
  idx.map (lget eta) ++ (idx.zipIdx.map fun i => (idx.drop i.2).map fun j => entry m i.1 j).flatten

/-- A block's bytes at `KOUT` (R357, R364), with the flags of the roundings. -/
def emitBlock (rm : Rm) (k n ofs thr : Nat) (vec : Bool) (elems : List Exact) : List Byte × Flg :=
  let es := elems.map (vfEncode rm k)
  (leBytes 8 (thr * 2 ^ 16 + ofs * 2 ^ 8 + vec.toNat * 2 ^ 7 + k * 2 ^ 4 + n) ++
     (es.map fun e => (e.1.map fun w => leBytes 4 w.toNat).flatten).flatten,
   es.foldl (fun f e => f ||| e.2) 0)

/-- Stores a result block and ends the instruction with its flags (R364). -/
def gResult (va : W64) (n ofs thr : Nat) (vec : Bool) (elems : List Exact) (f : Flg) : M Next := do
  let r := emitBlock (← rounding) (← koutOf) n ofs thr vec elems
  gStore va r.1
  pure (.flags (f ||| r.2))

/-- GADD (R365). -/
def gaddBody (d a b : Spec) : M Next := do
  checkSrc a; checkSrc b; checkSrc d
  let va ← readScalar a
  let vb ← readScalar b
  let vd ← readScalar d
  let x ← readGBlock va false
  let y ← readGBlock vb true
  need (decide (y.ofs + y.n ≤ x.n)) 0x01 vb
  let rm ← rounding
  let inB := fun i => decide (y.ofs ≤ i ∧ i < y.ofs + y.n)
  let eta := tabulate x.n fun i =>
    if inB i then (lget x.eta i).add rm (lget y.eta (i - y.ofs)) else (lget x.eta i, 0)
  let lam := tabulate x.n fun i => tabulate x.n fun j =>
    if inB i && inB j then (entry x.lam i j).add rm (entry y.lam (i - y.ofs) (j - y.ofs)) else (entry x.lam i j, 0)
  gResult vd x.n x.ofs x.thr false (flatten (eta.map (·.1)) (lam.map fun r => r.map (·.1)) (List.range x.n))
    (allFlags eta ||| allFlags lam.flatten)

/-- Elimination in progress (R366): the matrix and vector, what each eliminated variable left, the flags. -/
structure Elim where
  m : List (List Exact)
  h : List Exact
  piv : List (Nat × Exact) := []
  row : List (Nat × List Exact) := []
  flags : Flg := 0
  deriving DecidableEq, Repr, Inhabited

/-- The scale of an elimination (R366): none when a diagonal element is NaN or infinite. -/
def elimScale (m : List (List Exact)) (e : List Nat) : Option Exact :=
  e.foldl (fun s v => match s, entry m v v with
    | some x, .fin _ a b => some (if x.lt (.fin false a b) then .fin false a b else x)
    | _, _ => none) (some (.fin false 0 1))

/-- Whether a pivot is refused (R366). -/
def pivotRefused (scale : Option Exact) (thr : Nat) (d : Exact) : Bool :=
  match scale, d with
  | some s, .fin _ a b => Exact.le (.fin false a b) (s.scale (-(thr : Int)))
  | _, _ => true

/-- Eliminates one variable from those not yet eliminated (R366). -/
def Elim.step (rm : Rm) (k v : Nat) (rest : List Nat) (x : Elim) : Elim :=
  let n := x.h.length
  let pv := entry x.m v v
  let l := tabulate n fun i => if rest.contains i then let q := (entry x.m i v).div pv; roundVf rm k q else (.nan, 0)
  let upd := fun i j => mulSub rm k (entry x.m i j) (lget l i).1 (entry x.m v j)
  let ms := rest.map fun i => (rest.filter fun j => decide (i ≤ j)).map fun j => upd i j
  let hs := tabulate n fun i => if rest.contains i then mulSub rm k (lget x.h i) (lget l i).1 (lget x.h v) else (lget x.h i, 0)
  { m := tabulate n fun i => tabulate n fun j =>
      if rest.contains i && rest.contains j then (upd (min i j) (max i j)).1 else entry x.m i j,
    h := hs.map (·.1),
    piv := x.piv ++ [(v, pv)],
    row := x.row ++ [(v, lget x.m v)],
    flags := x.flags ||| allFlags l ||| allFlags ms.flatten ||| allFlags hs }

/-- `Eliminate` of R366 over the variables that remain, with the singular-block trap of R367. -/
def eliminate (rm : Rm) (k thr : Nat) (scale : Option Exact) : List Nat → Nat → List Nat → Elim → M Elim
  | [], _, _, x => pure x
  | v :: e, step, live, x => do
    need (!pivotRefused scale thr (entry x.m v v)) 0x51 (BitVec.ofNat 64 (step * 256 + v))
    let rest := live.filter (· != v)
    eliminate rm k thr scale e (step + 1) rest (x.step rm k v rest)

/-- Runs an elimination on a block (R366). -/
def eliminateBlock (b : GBlock) (e : List Nat) : M Elim := do
  eliminate (← rounding) (← koutOf) b.thr (elimScale b.lam e) e 0 (List.range b.n) { m := b.lam, h := b.eta }

/-- GSCHUR (R366). -/
def gschurBody (d a b : Spec) : M Next := do
  checkSrc a; checkSrc b; checkSrc d
  let va ← readScalar a
  let c ← readScalar b
  let vd ← readScalar d
  let x ← readGBlock va false
  let mask := fieldOf c 0 8
  let keep := (List.range x.n).filter fun i => bitAt mask i
  let drop := (List.range x.n).filter fun i => !bitAt mask i
  need (decide (c.toNat < 2 ^ 11 ∧ mask ≠ 0 ∧ mask < 2 ^ x.n ∧ drop ≠ [] ∧ fieldOf c 8 3 + keep.length ≤ 8)) 0x01 c
  let r ← eliminateBlock x drop
  gResult vd keep.length (fieldOf c 8 3) x.thr false (flatten r.h r.m keep) r.flags

/-- A damping factor (R361, R368): a finite binary16 value in [0, 1]. -/
def alphaOf (w : Nat) : Option Exact :=
  match (f16.decode w).val with
  | .fin s a b => if (s && a != 0) || b < a then none else some (.fin s a b)
  | _ => none

/-- Whether an entry header matches its block (R361). -/
def recordHeaderOk (e : Nat) (n k : Nat) : Bool := decide (bitsOf e 7 9 = 0 ∧ bitsOf e 4 3 = k ∧ bitsOf e 0 4 = n)

/-- GDAMP (R368). -/
def gdampBody (d a : Spec) : M Next := do
  checkSrc a; checkSrc d
  let va ← readScalar a
  let vd ← readScalar d
  let e := leNat (← gLoad va 8)
  let x ← readGBlock (va + 8) false
  need (recordHeaderOk e x.n x.k) 0x01 va
  match alphaOf (bitsOf e 32 16) with
  | none => raise 0x01 (BitVec.ofNat 64 (bitsOf e 32 16))
  | some al =>
    let y ← readGBlock vd true
    let new := flatten x.eta x.lam (List.range x.n)
    if y.n = 0 then gResult vd x.n x.ofs x.thr false new 0
    else
      need (decide (y.n = x.n ∧ y.ofs = x.ofs)) 0x01 vd
      let rm ← rounding
      let keep := ((Exact.fin false 1 1).add rm al.neg).1
      let es := (new.zip (flatten y.eta y.lam (List.range y.n))).map fun z =>
        let p := keep.mul z.1
        let q := al.mul z.2
        let s := p.1.add rm q.1
        (s.1, p.2 ||| q.2 ||| s.2)
      gResult vd x.n x.ofs x.thr false (es.map (·.1)) (allFlags es)

/-- The residual of two elements (R369). -/
def residual (x y : Exact) : Exact :=
  match x, y with
  | .inf s, .inf t => if s = t then .fin false 0 1 else .inf false
  | _, _ => (x.add .rne y.neg).1.abs

/-- The residual of two lists of elements (R369): NaN wins, then the largest. -/
def residualOf (l : List (Exact × Exact)) : Exact :=
  let rs := l.map fun z => residual z.1 z.2
  if rs.any Exact.isNan then .nan else rs.foldl (fun (m x : Exact) => if m.lt x then x else m) (.fin false 0 1)

/-- GRES (R369). -/
def gresBody (d a b : Spec) : M Next := do
  checkSrc a; checkSrc b; checkDst d
  let va ← readScalar a
  let vb ← readScalar b
  let x ← readGBlock va true
  let y ← readGBlock vb true
  let r ← if x.n = 0 ∨ y.n = 0 then pure (Exact.inf false)
    else do
      need (decide (x.n = y.n)) 0x01 vb
      pure (residualOf ((flatten x.eta x.lam (List.range x.n)).zip (flatten y.eta y.lam (List.range y.n))))
  writeScalar d (BitVec.ofNat 64 (f64.encode .rup r).1)
  pure .seq

/-- Back-substitution (R370) over the variables, last first; `mu` holds those already known. -/
def backSub (rm : Rm) (k : Nat) (x : Elim) : List Nat → List (Nat × Exact) → Flg → List (Nat × Exact) × Flg
  | [], mu, f => (mu, f)
  | v :: vs, mu, f =>
    let row := (lookupKey x.row v).getD []
    let s := mu.foldl (fun (s : Exact × Flg) w =>
      let p := (lget row w.1).mul w.2
      let t := s.1.add rm p.1.neg
      (t.1, s.2 ||| p.2 ||| t.2)) (lget x.h v, 0)
    let q := s.1.div ((lookupKey x.piv v).getD .nan)
    let r := roundVf rm k (q.1, s.2 ||| q.2)
    backSub rm k x vs (mu ++ [(v, r.1)]) (f ||| r.2)

/-- GMEAN (R370). `H[v]` is what the elimination left in h, which later steps do not change. -/
def gmeanBody (d a : Spec) : M Next := do
  checkSrc a; checkSrc d
  let va ← readScalar a
  let vd ← readScalar d
  let x ← readGBlock va false
  let r ← eliminateBlock x (List.range x.n)
  let mu := backSub (← rounding) (← koutOf) r (List.range x.n).reverse [] r.flags
  gResult vd x.n x.ofs 0 true (tabulate x.n fun v => (lookupKey mu.1 v).getD .nan) mu.2

/-- GSEND (R371): as SEND on the request network in class bulk with release; the block is checked first, and the record formed
after the boundary, `N` and `K` bits 6:0 of its header. -/
def gsendBody (d a b : Spec) : M Next := do
  checkSrc a; checkSrc b; checkSrc d
  let va ← readScalar a
  let w ← readScalar b
  let route ← readScalar d
  need (decide (w.toNat < 2 ^ 32) && (alphaOf (fieldOf w 16 16)).isSome) 0x01 w
  checkRoute route
  checkDepth 0 route
  let x ← readGBlock va false
  sendPacket 0 0 route 1 (w.setWidth 16) do
    let raw ← gLoad va x.raw.length
    let head := fieldOf w 16 16 * 2 ^ 32 + fieldOf w 0 16 * 2 ^ 16 + leNat (raw.take 8) % 2 ^ 7
    pure ((chunks 4 (8 + raw.length) (leBytes 8 head ++ raw)).map fun b => BitVec.ofNat 32 (leNat b))

/-- A node block as GPOP reads it (R360). -/
structure Node where
  dw0 : W64
  ring : W64
  taken : W64
  owner : W64
  deriving DecidableEq, Repr

/-- `NSEQ` (R360). -/
def Node.nseq (n : Node) : Nat := fieldOf n.dw0 32 16
/-- Bytes of a ring slot (R360). -/
def Node.slot (n : Node) : Nat := 8 * fieldOf n.dw0 24 8
/-- `MCAP` (R360). -/
def Node.mcap (n : Node) : Nat := fieldOf n.dw0 16 5
/-- `MCNT` (R360). -/
def Node.mcnt (n : Node) : Nat := fieldOf n.dw0 8 5
/-- `MHEAD` (R360). -/
def Node.mhead (n : Node) : Nat := fieldOf n.dw0 0 4

/-- Whether a node block is accepted on a core (R360, R372). -/
def Node.ok (n : Node) (va : W64) (c : CoreId) : Bool :=
  decide (va.toNat % 64 = 0) && reservedZero n.dw0.toNat [(32, 16), (24, 8), (16, 5), (8, 5), (0, 4)] &&
  decide (n.owner.toNat = c.die.toNat * 2 ^ 10 + c.clu.toNat * 2 ^ 4 + c.core.toNat) &&
  decide (1 ≤ n.mcap ∧ n.mcap ≤ 16 ∧ n.slot ≠ 0 ∧ n.mcnt ≤ n.mcap ∧ n.mhead < n.mcap) &&
  inGWindow n.ring (n.mcap * n.slot) && inGWindow n.taken n.slot

/-- A node's first doubleword with new counts (R372). -/
def Node.put (n : Node) (nseq mcnt mhead : Nat) : List Byte :=
  leBytes 8 (nseq % 2 ^ 16 * 2 ^ 32 + n.slot / 8 * 2 ^ 24 + n.mcap * 2 ^ 16 + mcnt * 2 ^ 8 + mhead)

/-- Whether bytes form exactly one message record that fits a slot (R358, R361, R372). -/
def recordGood (b : List Byte) (slot : Nat) : Bool :=
  let e := leNat (b.take 8)
  let h := leNat ((b.drop 8).take 8)
  let n := bitsOf h 0 4
  let k := bitsOf h 4 3
  decide (16 ≤ b.length ∧ b.length ≤ slot ∧ b.length = 8 + blockBytes n k) && headerGood h false && recordHeaderOk e n k &&
  bitsOf e 48 16 == 0 && (alphaOf (bitsOf e 32 16)).isSome &&
  (elemWords k (b.drop 16)).all fun x => elemCode x == k

/-- The outcome word of GPOP (R372). -/
def popOutcome (seq edge cnt st : Nat) : W64 := BitVec.ofNat 64 (seq * 2 ^ 32 + edge * 2 ^ 16 + cnt * 2 ^ 8 + st)

/-- GPOP's append (R372). -/
def nodeAppend (va : W64) (n : Node) (ch : BitVec 4) : M W64 := do
  let t := (← get).task
  let b := if t.pktChan = some ch then t.pkt.flatMap fun w => leBytes 4 w.toNat else []
  if !recordGood b n.slot then pure (popOutcome 0 0 n.mcnt 3)
  else if n.mcnt = n.mcap then pure (popOutcome 0 0 n.mcnt 2)
  else
    let e := leNat (b.take 8)
    let rec_ := leBytes 8 (n.nseq * 2 ^ 48 + e % 2 ^ 48) ++ b.drop 8
    gStore (n.ring + BitVec.ofNat 64 ((n.mhead + n.mcnt) % n.mcap * n.slot)) rec_
    gStore va (n.put (n.nseq + 1) (n.mcnt + 1) n.mhead)
    upd (·.setTask fun t => { t with pkt := [] })
    pure (popOutcome n.nseq (bitsOf e 16 16) (n.mcnt + 1) 0)

/-- GPOP's take: the oldest record, as long as its entry header gives (R361, R372). -/
def nodeTake (va : W64) (n : Node) : M W64 := do
  if n.mcnt = 0 then pure (popOutcome 0 0 0 1)
  else
    let at_ := n.ring + BitVec.ofNat 64 (n.mhead * n.slot)
    let hb ← gLoad at_ 8
    let e := leNat hb
    let block ← gLoad (at_ + 8) (blockBytes (bitsOf e 0 4) (bitsOf e 4 3))
    gStore n.taken (hb ++ block)
    gStore va (n.put n.nseq (n.mcnt - 1) ((n.mhead + 1) % n.mcap))
    pure (popOutcome (bitsOf e 48 16) (bitsOf e 16 16) (n.mcnt - 1) 0)

/-- GPOP (R372). -/
def gpopBody (d a b : Spec) : M Next := do
  checkSrc a; checkDst d
  need (b == 0 || decide (32 ≤ b.toNat ∧ b.toNat < 48)) 0x01 (b.setWidth 64)
  let va ← readScalar a
  let bs ← gLoad va 64
  let dw := fun i => BitVec.ofNat 64 (leNat ((bs.drop (8 * i)).take 8))
  let n : Node := ⟨dw 0, dw 1, dw 2, dw 3⟩
  need (n.ok va (← get).task.core) 0x01 va
  let v ← if b = 0 then nodeTake va n else nodeAppend va n (b.setWidth 4)
  writeScalar d v
  pure .seq

/-- The meaning of a G instruction: one that traps pops nothing (R364). -/
abbrev gWord (i : Instr) (body : M Next) (s : State) : Res := issue .lane plain i (precisely body) s

/-- GADD (R365). -/
def execGadd (d a b : Spec) (s : State) : Res := gWord (.gadd d a b) (gaddBody d a b) s
/-- GSCHUR (R366). -/
def execGschur (d a b : Spec) (s : State) : Res := gWord (.gschur d a b) (gschurBody d a b) s
/-- GDAMP (R368). -/
def execGdamp (d a : Spec) (s : State) : Res := gWord (.gdamp d a) (gdampBody d a) s
/-- GRES (R369). -/
def execGres (d a b : Spec) (s : State) : Res := gWord (.gres d a b) (gresBody d a b) s
/-- GMEAN (R370). -/
def execGmean (d a : Spec) (s : State) : Res := gWord (.gmean d a) (gmeanBody d a) s
/-- GSEND (R371). -/
def execGsend (d a b : Spec) (s : State) : Res := gWord (.gsend d a b) (gsendBody d a b) s
/-- GPOP (R372). -/
def execGpop (d a b : Spec) (s : State) : Res := gWord (.gpop d a b) (gpopBody d a b) s

end Sys2Proof.Machine
end

