-- ==== Sys2Proof/Machine/Hint.lean ====
section
/-! DEFINITION. Hint words (R195-R198): each becomes pending, unless one of its kind already is. -/

namespace Sys2Proof.Machine

/-- HIMM (R195, R196). -/
def execHimm (p : BitVec 22) (s : State) : Res := issueHint (.himm p) (·.himm.isSome) (fun h => { h with himm := some p }) s
/-- HLIVE (R132, R195). -/
def execHlive (p : BitVec 22) (s : State) : Res :=
  issueHint (.hlive p) (·.hlive.isSome) (fun h => { h with hlive := some p }) s
/-- HNT (R195): a policy that changes no value; 3 is unassigned (R197). -/
def execHnt (p : BitVec 2) (s : State) : Res :=
  issueHint (.hnt p) (fun h => h.hnt.isSome || p == 3) (fun h => { h with hnt := some p }) s
/-- HPRED (R10, R195). -/
def execHpred (sel : BitVec 1) (p : BitVec 3) (s : State) : Res :=
  issueHint (.hpred sel p) (·.hpred.isSome) (fun h => { h with hpred := some (sel ++ p) }) s
/-- HORD (R195). -/
def execHord (o : BitVec 2) (k : BitVec 16) (s : State) : Res :=
  issueHint (.hord o k) (·.hord.isSome) (fun h => { h with hord := some (o, k) }) s
/-- HPRI (R195). -/
def execHpri (p : BitVec 2) (s : State) : Res := issueHint (.hpri p) (·.hpri.isSome) (fun h => { h with hpri := some p }) s
/-- A hint of kind 6-15 (R195): no operation, and pending hints stay pending. -/
def execHintReserved (k : BitVec 4) (p : BitVec 22) (s : State) : Res :=
  issueHint (.hintReserved k p) (fun _ => false) id s

end Sys2Proof.Machine
end

