-- ==== Sys2Proof/Machine/Dispatch.lean ====
section
/-! DEFINITION. One arm per constructor of `Instr`: the call of its meaning. -/

namespace Sys2Proof.Machine

/-- Executes one instruction, or performs one event. -/
def exec (i : Instr) (s : State) : Host.Outcome State Fault Refusal :=
  match i with
  | .add d a b => Sys2Proof.Machine.execAdd d a b s
  | .sub d a b => Sys2Proof.Machine.execSub d a b s
  | .and d a b => Sys2Proof.Machine.execAnd d a b s
  | .or d a b => Sys2Proof.Machine.execOr d a b s
  | .xor d a b => Sys2Proof.Machine.execXor d a b s
  | .andn d a b => Sys2Proof.Machine.execAndn d a b s
  | .orn d a b => Sys2Proof.Machine.execOrn d a b s
  | .shl d a b => Sys2Proof.Machine.execShl d a b s
  | .shr d a b => Sys2Proof.Machine.execShr d a b s
  | .sar d a b => Sys2Proof.Machine.execSar d a b s
  | .rol d a b => Sys2Proof.Machine.execRol d a b s
  | .mul d a b => Sys2Proof.Machine.execMul d a b s
  | .mulh d a b => Sys2Proof.Machine.execMulh d a b s
  | .mulhz d a b => Sys2Proof.Machine.execMulhz d a b s
  | .div d a b => Sys2Proof.Machine.execDiv d a b s
  | .divz d a b => Sys2Proof.Machine.execDivz d a b s
  | .rem d a b => Sys2Proof.Machine.execRem d a b s
  | .remz d a b => Sys2Proof.Machine.execRemz d a b s
  | .min d a b => Sys2Proof.Machine.execMin d a b s
  | .max d a b => Sys2Proof.Machine.execMax d a b s
  | .minz d a b => Sys2Proof.Machine.execMinz d a b s
  | .maxz d a b => Sys2Proof.Machine.execMaxz d a b s
  | .clz d a => Sys2Proof.Machine.execClz d a s
  | .ctz d a => Sys2Proof.Machine.execCtz d a s
  | .popc d a => Sys2Proof.Machine.execPopc d a s
  | .brev d a => Sys2Proof.Machine.execBrev d a s
  | .bswap d a => Sys2Proof.Machine.execBswap d a s
  | .ext d a b => Sys2Proof.Machine.execExt d a b s
  | .ins d a b => Sys2Proof.Machine.execIns d a b s
  | .crc d a b => Sys2Proof.Machine.execCrc d a b s
  | .sel d a b p => Sys2Proof.Machine.execSel d a b p s
  | .addi d a imm => Sys2Proof.Machine.execAddi d a imm s
  | .andi d a imm => Sys2Proof.Machine.execAndi d a imm s
  | .ori d a imm => Sys2Proof.Machine.execOri d a imm s
  | .xori d a imm => Sys2Proof.Machine.execXori d a imm s
  | .shli d a n => Sys2Proof.Machine.execShli d a n s
  | .shri d a n => Sys2Proof.Machine.execShri d a n s
  | .sari d a n => Sys2Proof.Machine.execSari d a n s
  | .ldi d imm => Sys2Proof.Machine.execLdi d imm s
  | .ldhi d imm => Sys2Proof.Machine.execLdhi d imm s
  | .addpc d imm => Sys2Proof.Machine.execAddpc d imm s
  | .cmp p a b c => Sys2Proof.Machine.execCmp p a b c s
  | .cmpi c p a imm => Sys2Proof.Machine.execCmpi c p a imm s
  | .pand d a b => Sys2Proof.Machine.execPand d a b s
  | .por d a b => Sys2Proof.Machine.execPor d a b s
  | .pxor d a b => Sys2Proof.Machine.execPxor d a b s
  | .pnot d a => Sys2Proof.Machine.execPnot d a s
  | .psave d => Sys2Proof.Machine.execPsave d s
  | .pload a => Sys2Proof.Machine.execPload a s
  | .bp sel p o => Sys2Proof.Machine.execBp sel p o s
  | .bz t o => Sys2Proof.Machine.execBz t o s
  | .bnz t o => Sys2Proof.Machine.execBnz t o s
  | .j o => Sys2Proof.Machine.execJ o s
  | .call o => Sys2Proof.Machine.execCall o s
  | .jr a => Sys2Proof.Machine.execJr a s
  | .callr a => Sys2Proof.Machine.execCallr a s
  | .ret => Sys2Proof.Machine.execRet s
  | .done => Sys2Proof.Machine.execDone s
  | .yield => Sys2Proof.Machine.execYield s
  | .nop => Sys2Proof.Machine.execNop s
  | .trap c => Sys2Proof.Machine.execTrap c s
  | .eret => Sys2Proof.Machine.execEret s
  | .brk c => Sys2Proof.Machine.execBrk c s
  | .idle => Sys2Proof.Machine.execIdle s
  | .crd d n => Sys2Proof.Machine.execCrd d n s
  | .cwr d n => Sys2Proof.Machine.execCwr d n s
  | .ld d a z o => Sys2Proof.Machine.execLd d a z o s
  | .ldz d a z o => Sys2Proof.Machine.execLdz d a z o s
  | .st d a z o => Sys2Proof.Machine.execSt d a z o s
  | .ldx d a b z h => Sys2Proof.Machine.execLdx d a b z h s
  | .ldzx d a b z h => Sys2Proof.Machine.execLdzx d a b z h s
  | .stx d a b z h => Sys2Proof.Machine.execStx d a b z h s
  | .ldfe d a p m => Sys2Proof.Machine.execLdfe d a p m s
  | .stfe d a p m => Sys2Proof.Machine.execStfe d a p m s
  | .pref a imm => Sys2Proof.Machine.execPref a imm s
  | .fadd d a b f => Sys2Proof.Machine.execFadd d a b f s
  | .fsub d a b f => Sys2Proof.Machine.execFsub d a b f s
  | .fmul d a b f => Sys2Proof.Machine.execFmul d a b f s
  | .fdiv d a b f => Sys2Proof.Machine.execFdiv d a b f s
  | .fsqrt d a f => Sys2Proof.Machine.execFsqrt d a f s
  | .fma d a b f => Sys2Proof.Machine.execFma d a b f s
  | .fms d a b f => Sys2Proof.Machine.execFms d a b f s
  | .fnma d a b f => Sys2Proof.Machine.execFnma d a b f s
  | .fmin d a b f => Sys2Proof.Machine.execFmin d a b f s
  | .fmax d a b f => Sys2Proof.Machine.execFmax d a b f s
  | .feq p a b f => Sys2Proof.Machine.execFeq p a b f s
  | .flt p a b f => Sys2Proof.Machine.execFlt p a b f s
  | .fle p a b f => Sys2Proof.Machine.execFle p a b f s
  | .fun p a b f => Sys2Proof.Machine.execFun p a b f s
  | .fclass d a f => Sys2Proof.Machine.execFclass d a f s
  | .fsgnj d a b f => Sys2Proof.Machine.execFsgnj d a b f s
  | .fsgnjn d a b f => Sys2Proof.Machine.execFsgnjn d a b f s
  | .fsgnjx d a b f => Sys2Proof.Machine.execFsgnjx d a b f s
  | .fcvt d a sel f => Sys2Proof.Machine.execFcvt d a sel f s
  | .eadd d a b => Sys2Proof.Machine.execEadd d a b s
  | .esub d a b => Sys2Proof.Machine.execEsub d a b s
  | .emul d a b => Sys2Proof.Machine.execEmul d a b s
  | .ediv d a b => Sys2Proof.Machine.execEdiv d a b s
  | .esqrt d a => Sys2Proof.Machine.execEsqrt d a s
  | .efma d a b => Sys2Proof.Machine.execEfma d a b s
  | .eneg d a => Sys2Proof.Machine.execEneg d a s
  | .eabs d a => Sys2Proof.Machine.execEabs d a s
  | .ecmp c p a b => Sys2Proof.Machine.execEcmp c p a b s
  | .ernd d a => Sys2Proof.Machine.execErnd d a s
  | .ecvte d a sel => Sys2Proof.Machine.execEcvte d a sel s
  | .ecvtf d a sel => Sys2Proof.Machine.execEcvtf d a sel s
  | .ecvti d a sel => Sys2Proof.Machine.execEcvti d a sel s
  | .ecvtl d a sel => Sys2Proof.Machine.execEcvtl d a sel s
  | .emov d a => Sys2Proof.Machine.execEmov d a s
  | .eclass d a => Sys2Proof.Machine.execEclass d a s
  | .precset a => Sys2Proof.Machine.execPrecset a s
  | .eld d a imm => Sys2Proof.Machine.execEld d a imm s
  | .est d a imm => Sys2Proof.Machine.execEst d a imm s
  | .elds d a b => Sys2Proof.Machine.execElds d a b s
  | .ests d a b => Sys2Proof.Machine.execEsts d a b s
  | .vadd d a b t => Sys2Proof.Machine.execVadd d a b t s
  | .vsub d a b t => Sys2Proof.Machine.execVsub d a b t s
  | .vmul d a b t => Sys2Proof.Machine.execVmul d a b t s
  | .vfma d a b t => Sys2Proof.Machine.execVfma d a b t s
  | .vmin d a b t => Sys2Proof.Machine.execVmin d a b t s
  | .vmax d a b t => Sys2Proof.Machine.execVmax d a b t s
  | .vand d a b => Sys2Proof.Machine.execVand d a b s
  | .vor d a b => Sys2Proof.Machine.execVor d a b s
  | .vxor d a b => Sys2Proof.Machine.execVxor d a b s
  | .vshl d a b => Sys2Proof.Machine.execVshl d a b s
  | .vshr d a b => Sys2Proof.Machine.execVshr d a b s
  | .vsar d a b => Sys2Proof.Machine.execVsar d a b s
  | .veq d a b t => Sys2Proof.Machine.execVeq d a b t s
  | .vlt d a b t => Sys2Proof.Machine.execVlt d a b t s
  | .vle d a b t => Sys2Proof.Machine.execVle d a b t s
  | .vsel d a b t => Sys2Proof.Machine.execVsel d a b t s
  | .vred d a o t => Sys2Proof.Machine.execVred d a o t s
  | .vshuf d a b t => Sys2Proof.Machine.execVshuf d a b t s
  | .vbcast d a t => Sys2Proof.Machine.execVbcast d a t s
  | .vext d a b t => Sys2Proof.Machine.execVext d a b t s
  | .vsacc d a b => Sys2Proof.Machine.execVsacc d a b s
  | .vld d a n => Sys2Proof.Machine.execVld d a n s
  | .vst d a n => Sys2Proof.Machine.execVst d a n s
  | .vlds d a b n => Sys2Proof.Machine.execVlds d a b n s
  | .vsts d a b n => Sys2Proof.Machine.execVsts d a b n s
  | .vgath d a b n => Sys2Proof.Machine.execVgath d a b n s
  | .vscat d a b n => Sys2Proof.Machine.execVscat d a b n s
  | .vamo d a b o => Sys2Proof.Machine.execVamo d a b o s
  | .vcvt d a sel => Sys2Proof.Machine.execVcvt d a sel s
  | .vqnt d a sel => Sys2Proof.Machine.execVqnt d a sel s
  | .vdq d a sel => Sys2Proof.Machine.execVdq d a sel s
  | .vstat d a b => Sys2Proof.Machine.execVstat d a b s
  | .vexp2 d a => Sys2Proof.Machine.execVexp2 d a s
  | .vlog2 d a => Sys2Proof.Machine.execVlog2 d a s
  | .vrcp d a => Sys2Proof.Machine.execVrcp d a s
  | .vrsq d a => Sys2Proof.Machine.execVrsq d a s
  | .vtanh d a => Sys2Proof.Machine.execVtanh d a s
  | .lclaim d a => Sys2Proof.Machine.execLclaim d a s
  | .lrelease => Sys2Proof.Machine.execLrelease s
  | .mxmode a => Sys2Proof.Machine.execMxmode a s
  | .mxzp a => Sys2Proof.Machine.execMxzp a s
  | .mxwld sel a => Sys2Proof.Machine.execMxwld sel a s
  | .mxfeed h a b => Sys2Proof.Machine.execMxfeed h a b s
  | .mxrun sel h => Sys2Proof.Machine.execMxrun sel h s
  | .mxuprog a => Sys2Proof.Machine.execMxuprog a s
  | .mxrec h => Sys2Proof.Machine.execMxrec h s
  | .mxsacc t a b => Sys2Proof.Machine.execMxsacc t a b s
  | .mxdrain d a b => Sys2Proof.Machine.execMxdrain d a b s
  | .mxsave a => Sys2Proof.Machine.execMxsave a s
  | .mxrest a => Sys2Proof.Machine.execMxrest a s
  | .mxstat d => Sys2Proof.Machine.execMxstat d s
  | .phase sel => Sys2Proof.Machine.execPhase sel s
  | .ctradd a b sel o => Sys2Proof.Machine.execCtradd a b sel o s
  | .ctrwait a b sel o => Sys2Proof.Machine.execCtrwait a b sel o s
  | .ctrrd d a p sel o => Sys2Proof.Machine.execCtrrd d a p sel o s
  | .trpush d a b sel o => Sys2Proof.Machine.execTrpush d a b sel o s
  | .trpop d a b sel o => Sys2Proof.Machine.execTrpop d a b sel o s
  | .trstat d a b sel => Sys2Proof.Machine.execTrstat d a b sel s
  | .aadd d a b sel z => Sys2Proof.Machine.execAadd d a b sel z s
  | .amin d a b sel z => Sys2Proof.Machine.execAmin d a b sel z s
  | .amax d a b sel z => Sys2Proof.Machine.execAmax d a b sel z s
  | .aminz d a b sel z => Sys2Proof.Machine.execAminz d a b sel z s
  | .amaxz d a b sel z => Sys2Proof.Machine.execAmaxz d a b sel z s
  | .aand d a b sel z => Sys2Proof.Machine.execAand d a b sel z s
  | .aor d a b sel z => Sys2Proof.Machine.execAor d a b sel z s
  | .axor d a b sel z => Sys2Proof.Machine.execAxor d a b sel z s
  | .aswap d a b sel z => Sys2Proof.Machine.execAswap d a b sel z s
  | .afadd d a b sel => Sys2Proof.Machine.execAfadd d a b sel s
  | .acas d a b sel z => Sys2Proof.Machine.execAcas d a b sel z s
  | .ufload d a b sel z => Sys2Proof.Machine.execUfload d a b sel z s
  | .upd d a b sel z => Sys2Proof.Machine.execUpd d a b sel z s
  | .cpy d a b c => Sys2Proof.Machine.execCpy d a b c s
  | .cpy2d a c => Sys2Proof.Machine.execCpy2d a c s
  | .cpym a c => Sys2Proof.Machine.execCpym a c s
  | .cpyx a c => Sys2Proof.Machine.execCpyx a c s
  | .gath a c => Sys2Proof.Machine.execGath a c s
  | .iord a c => Sys2Proof.Machine.execIord a c s
  | .iowr a c => Sys2Proof.Machine.execIowr a c s
  | .wsload a c => Sys2Proof.Machine.execWsload a c s
  | .tagwaitany a => Sys2Proof.Machine.execTagwaitany a s
  | .tagwaitall a => Sys2Proof.Machine.execTagwaitall a s
  | .tagff d a => Sys2Proof.Machine.execTagff d a s
  | .tagclr a => Sys2Proof.Machine.execTagclr a s
  | .send d a b n c => Sys2Proof.Machine.execSend d a b n c s
  | .sendv d a n c => Sys2Proof.Machine.execSendv d a n c s
  | .bind n a b p => Sys2Proof.Machine.execBind n a b p s
  | .unbind n => Sys2Proof.Machine.execUnbind n s
  | .chlen d n => Sys2Proof.Machine.execChlen d n s
  | .chskip n b => Sys2Proof.Machine.execChskip n b s
  | .migrate a => Sys2Proof.Machine.execMigrate a s
  | .lpatch d a b => Sys2Proof.Machine.execLpatch d a b s
  | .larm d a => Sys2Proof.Machine.execLarm d a s
  | .lcancel d a => Sys2Proof.Machine.execLcancel d a s
  | .lstat d a => Sys2Proof.Machine.execLstat d a s
  | .fpbind a c => Sys2Proof.Machine.execFpbind a c s
  | .fpsend a c => Sys2Proof.Machine.execFpsend a c s
  | .fptake a c => Sys2Proof.Machine.execFptake a c s
  | .fpstat a c => Sys2Proof.Machine.execFpstat a c s
  | .gadd d a b => Sys2Proof.Machine.execGadd d a b s
  | .gschur d a b => Sys2Proof.Machine.execGschur d a b s
  | .gdamp d a => Sys2Proof.Machine.execGdamp d a s
  | .gres d a b => Sys2Proof.Machine.execGres d a b s
  | .gmean d a => Sys2Proof.Machine.execGmean d a s
  | .gsend d a b => Sys2Proof.Machine.execGsend d a b s
  | .gpop d a b => Sys2Proof.Machine.execGpop d a b s
  | .himm p => Sys2Proof.Machine.execHimm p s
  | .hlive p => Sys2Proof.Machine.execHlive p s
  | .hnt p => Sys2Proof.Machine.execHnt p s
  | .hpred sel p => Sys2Proof.Machine.execHpred sel p s
  | .hord o k => Sys2Proof.Machine.execHord o k s
  | .hpri c => Sys2Proof.Machine.execHpri c s
  | .hintReserved k p => Sys2Proof.Machine.execHintReserved k p s
  | .commandStagingWrite w die slot dw val => Sys2Proof.Machine.execCommandStagingWrite w die slot dw val s
  | .invalidatePages asid vabase valen ctrpa => Sys2Proof.Machine.execInvalidatePages asid vabase valen ctrpa s
  | .invalidateAsidPages asid ctrpa => Sys2Proof.Machine.execInvalidateAsidPages asid ctrpa s
  | .invalidateAsidRanges asid ctrpa => Sys2Proof.Machine.execInvalidateAsidRanges asid ctrpa s
  | .invalidateAsidAll asid ctrpa => Sys2Proof.Machine.execInvalidateAsidAll asid ctrpa s
  | .invalidateAll ctrpa => Sys2Proof.Machine.execInvalidateAll ctrpa s
  | .setFormatAndOwner lay cmp owner pabase palen ctrpa => Sys2Proof.Machine.execSetFormatAndOwner lay cmp owner pabase palen ctrpa s
  | .zeroOnly pabase palen ctrpa => Sys2Proof.Machine.execZeroOnly pabase palen ctrpa s
  | .preEmpt recNo gen ctrpa => Sys2Proof.Machine.execPreEmpt recNo gen ctrpa s
  | .preemptSaveDone recNo gen ctrpa => Sys2Proof.Machine.execPreemptSaveDone recNo gen ctrpa s
  | .resume recNo gen ctrpa => Sys2Proof.Machine.execResume recNo gen ctrpa s
  | .launchCmdArm pv pcls recNo statpa ctrpa => Sys2Proof.Machine.execLaunchCmdArm pv pcls recNo statpa ctrpa s
  | .launchCmdCancel recNo statpa ctrpa => Sys2Proof.Machine.execLaunchCmdCancel recNo statpa ctrpa s
  | .launchCmdState recNo statpa ctrpa => Sys2Proof.Machine.execLaunchCmdState recNo statpa ctrpa s
  | .attestationCommand noncepa reppa ctrpa => Sys2Proof.Machine.execAttestationCommand noncepa reppa ctrpa s
  | .hostMemRead pa n => Sys2Proof.Machine.execHostMemRead pa n s
  | .hostMemWrite pa data => Sys2Proof.Machine.execHostMemWrite pa data s
  | .launchRecordHostWrite recNo dw val => Sys2Proof.Machine.execLaunchRecordHostWrite recNo dw val s
  | .wsrefset val => Sys2Proof.Machine.execWsrefset val s
  | .ebudgetWrite val => Sys2Proof.Machine.execEbudgetWrite val s
  | .supvWrite val => Sys2Proof.Machine.execSupvWrite val s
  | .rmodeWrite val => Sys2Proof.Machine.execRmodeWrite val s
  | .cflagsClear val => Sys2Proof.Machine.execCflagsClear val s
  | .errinjWrite val => Sys2Proof.Machine.execErrinjWrite val s
  | .egdepthWrite val => Sys2Proof.Machine.execEgdepthWrite val s
  | .registerWrite target val => Sys2Proof.Machine.execRegisterWrite target val s
  | .rilahIdWrite die val => Sys2Proof.Machine.execRilahIdWrite die val s
  | .membershipKeyWrite link index wide val => Sys2Proof.Machine.execMembershipKeyWrite link index wide val s
  | .lctlWrite link val => Sys2Proof.Machine.execLctlWrite link val s
  | .swreq link => Sys2Proof.Machine.execSwreq link s
  | .keySlotWrite link off val => Sys2Proof.Machine.execKeySlotWrite link off val s
  | .retry => Sys2Proof.Machine.execRetry s
  | .deviceReset => Sys2Proof.Machine.execDeviceReset s
  | .wsRefresh die cycles => Sys2Proof.Machine.execWsRefresh die cycles s
  | .wcEntryTimeout sector => Sys2Proof.Machine.execWcEntryTimeout sector s
  | .retryRepeat task => Sys2Proof.Machine.execRetryRepeat task s
  | .pageWalk die asid va => Sys2Proof.Machine.execPageWalk die asid va s
  | .tlbMissRetry core asid va => Sys2Proof.Machine.execTlbMissRetry core asid va s
  | .loadReply task reg => Sys2Proof.Machine.execLoadReply task reg s
  | .forwardedReply task reg => Sys2Proof.Machine.execForwardedReply task reg s
  | .taskWake task => Sys2Proof.Machine.execTaskWake task s
  | .taskChosen core => Sys2Proof.Machine.execTaskChosen core s
  | .dispatchSlot die => Sys2Proof.Machine.execDispatchSlot die s
  | .eventSample recNo gen value => Sys2Proof.Machine.execEventSample recNo gen value s
  | .energyWindow die => Sys2Proof.Machine.execEnergyWindow die s
  | .sensorUpdate die energy temp => Sys2Proof.Machine.execSensorUpdate die energy temp s
  | .thermalTrip die => Sys2Proof.Machine.execThermalTrip die s
  | .thermalRecover die => Sys2Proof.Machine.execThermalRecover die s
  | .mxRunEnd task => Sys2Proof.Machine.execMxRunEnd task s
  | .mxRecEnd task => Sys2Proof.Machine.execMxRecEnd task s
  | .engineOperationStart op => Sys2Proof.Machine.execEngineOperationStart op s
  | .engineCompletion op peer => Sys2Proof.Machine.execEngineCompletion op peer s
  | .graftHeldResume op => Sys2Proof.Machine.execGraftHeldResume op s
  | .channelPacketArrival send => Sys2Proof.Machine.execChannelPacketArrival send s
  | .activationStart core chan => Sys2Proof.Machine.execActivationStart core chan s
  | .clusterFailure die clu => Sys2Proof.Machine.execClusterFailure die clu s
  | .flitReceive link flit => Sys2Proof.Machine.execFlitReceive link flit s
  | .flitSlot link => Sys2Proof.Machine.execFlitSlot link s
  | .idleFlit link => Sys2Proof.Machine.execIdleFlit link s
  | .xoff link cls net => Sys2Proof.Machine.execXoff link cls net s
  | .xon link cls net => Sys2Proof.Machine.execXon link cls net s
  | .nak link lseq => Sys2Proof.Machine.execNak link lseq s
  | .ack link lseq => Sys2Proof.Machine.execAck link lseq s
  | .tagFlit link tag ctr => Sys2Proof.Machine.execTagFlit link tag ctr s
  | .fabricMsg link pkt => Sys2Proof.Machine.execFabricMsg link pkt s
  | .fabricWrite link pkt => Sys2Proof.Machine.execFabricWrite link pkt s
  | .fabricRead link pkt => Sys2Proof.Machine.execFabricRead link pkt s
  | .fabricData link pkt => Sys2Proof.Machine.execFabricData link pkt s
  | .fabricDone link pkt => Sys2Proof.Machine.execFabricDone link pkt s
  | .e2eRetryTimeout dev pid => Sys2Proof.Machine.execE2eRetryTimeout dev pid s
  | .linkTrainTimeout link => Sys2Proof.Machine.execLinkTrainTimeout link s
  | .linkDown link => Sys2Proof.Machine.execLinkDown link s
  | .linkUp link => Sys2Proof.Machine.execLinkUp link s
  | .homeAcknowledgement task => Sys2Proof.Machine.execHomeAcknowledgement task s
  | .pageCommandCompletion ctrpa => Sys2Proof.Machine.execPageCommandCompletion ctrpa s
  | .stageReady => Sys2Proof.Machine.execStageReady s

end Sys2Proof.Machine
end

