-- ==== Sys2Proof/Machine/Step.lean ====
section
/-! DEFINITION. One step of the package: the next turn of the agenda, else an instruction of the current task,
else the move that `State.pass` names (log entry 2). -/

namespace Sys2Proof.Machine

/-- The current task's next instruction: fetch, decode, execute; or first the wait that it issues again after a resumption
(R79, R98). A word that is no instruction raises the illegal-instruction trap (R199). -/
def stepTask (s : State) : Host.Outcome State Fault Refusal :=
  if s.task.waitOn.again then .next s.age.reissue
  else match fetch s.age with
  | .ok w s' =>
    match decode w with
    | .ok i => exec i s'
    | .error _ => .next (s'.takeTrap 0x00 (BitVec.ofNat 64 w) s'.task.pc)
  | .error (.trap c v) s' => .next (s'.takeTrap c v s'.task.pc)
  | .error .stall s' => .next s'

/-- Instructions one task issues before the others get their turn (log entry 2). -/
def turnLength : Nat := 64

/-- The turn passes on: to the RUNNING task that has waited longest, if there is another. -/
def State.rotate (s : State) : State :=
  match s.nextRunning with
  | some key => { s with turns := 0 }.switchTo key
  | none => { s with turns := 0 }

/-- What happens when the current task does not issue: what is due, else an instruction of a RUNNING task, else an
idle dispatch slot. -/
def State.pass (s : State) : Host.Outcome State Fault Refusal :=
  let s := s.rotate
  match s.due with
  | i :: rest => exec i { s with agenda := rest.map .event }
  | [] => if s.task.issues then stepTask { s with turns := 1 } else exec (.dispatchSlot 0) s

/-- One step. -/
def step (s : State) : Host.Outcome State Fault Refusal :=
  match s.agenda with
  | .event i :: rest => exec i { s with agenda := rest }
  | .command _ slot d0 d1 d2 d3 :: rest => .next ({ s with agenda := rest }.command slot d0 d1 d2 d3)
  | .verify recovery :: rest => .next ({ s with agenda := rest }.verifyImage recovery)
  | .held src pid :: rest => .next ({ s with agenda := rest }.lookAgain src pid)
  | .core c :: rest =>
    let s := { s with agenda := rest }
    match s.runningOn c with
    | some key => stepTask (s.switchTo key)
    | none => .next s
  | [] => if s.task.issues ∧ s.turns < turnLength then stepTask { s with turns := s.turns + 1 } else s.pass

/-- The state with one instruction word stored where the next step fetches it (log entry 3). -/
def State.withFetchWord (s : State) (nbits w : Nat) : State := s.placeWord (w % 2 ^ nbits)

end Sys2Proof.Machine
end

