-- ==== Sys2Proof/Safety.lean ====
section
/-! DEFINITION. What counts as a safe run, the invariant of the machine's storage, and the words in which the
statements about instructions are written: when an instruction executes, and how it ends. -/

namespace Sys2Proof.Machine

/-- The form of the storage: memory is canonical (log entry 1); the full words are listed once each, in order, and lie
where full/empty bits exist (R76); every write event of the publication order has a position already given (R89). -/
structure Stored (mem : List Host.Cell) (full : List Nat) (writes : List WriteEvent) (pos : Nat) : Prop where
  mem_wf : Memory.wf mem = true
  full_sorted : full.Pairwise (· < ·)
  full_bits : ∀ x ∈ full, x % 8 = 0 ∧ hasFullBits x = true
  write_pos : ∀ e ∈ writes, e.pos < pos

/-- The invariant every step keeps. -/
abbrev State.Inv (s : State) : Prop := Stored s.mem s.full s.writes s.pos

/-- A step is safe when it answers a next state. -/
def State.Safe (s : State) : Prop := ∃ t, step s = .next t

/-- The current task may execute an instruction of a core class and a set of hints: the core runs it (R200), no pending
hint is out of place (R197), the guard holds (R10). -/
def State.Enabled (s : State) (k : CoreClass) (a : HintSet) : Prop :=
  k.allows s.task.core = true ∧ a.allows s.task.hints = true ∧ s.task.guard = true

/-- The state after an instruction of the state `s` whose work left `s'`, when it goes on as `nx` says: hints consumed
(R195), the pc moved, liveness applied (R132), flags recorded (R166), queues served (R284). -/
def State.ends (s s' : State) (nx : Next) : State := (s'.retire s.task.hints s.task.pc nx).serveQueues s

/-- Which cores run an instruction word and which restricted hints may govern it (R195, R200); none for a hint word
and for an event, which nothing governs. -/
def gateOf : Instr → Option (CoreClass × HintSet)
  | .addi .. | .andi .. | .ori .. | .xori .. | .ldi .. | .ldhi .. | .addpc .. | .cmpi .. | .bp .. | .bz .. | .bnz ..
  | .j .. | .call .. | .ld .. | .ldz .. | .st .. | .eld .. | .est .. => some (.any, { imm := true })
  | .aadd .. | .amin .. | .amax .. | .aminz .. | .amaxz .. | .aand .. | .aor .. | .axor .. | .aswap .. | .afadd ..
  | .acas .. | .ufload .. | .upd .. => some (.any, { ord := true })
  | .send .. | .sendv .. => some (.any, { ord := true, ordKey := true, pri := true })
  | .larm .. => some (.any, { pri := true })
  | .vadd .. | .vsub .. | .vmul .. | .vfma .. | .vmin .. | .vmax .. | .vand .. | .vor .. | .vxor .. | .vshl .. | .vshr ..
  | .vsar .. | .veq .. | .vlt .. | .vle .. | .vsel .. | .vred .. | .vshuf .. | .vbcast .. | .vext .. | .vsacc .. | .vld ..
  | .vst .. | .vlds .. | .vsts .. | .vgath .. | .vscat .. | .vamo .. | .vcvt .. | .vqnt .. | .vdq .. | .vstat ..
  | .vexp2 .. | .vlog2 .. | .vrcp .. | .vrsq .. | .vtanh .. | .lclaim .. | .lrelease | .gadd .. | .gschur .. | .gdamp ..
  | .gres .. | .gmean .. | .gsend .. | .gpop .. => some (.lane, {})
  | .mxmode .. | .mxzp .. | .mxwld .. | .mxfeed .. | .mxrun .. | .mxuprog .. | .mxrec .. | .mxsacc .. | .mxdrain ..
  | .mxsave .. | .mxrest .. | .mxstat .. => some (.issuer, {})
  | .himm .. | .hlive .. | .hnt .. | .hpred .. | .hord .. | .hpri .. | .hintReserved .. => none
  | i => if (encode i).isSome then some (.any, {}) else none

/-- A scalar source that exists is read: its value and the state after. -/
def Reads (a : Spec) (s : State) (x : W64) (s' : State) : Prop :=
  scalarSrcOk s.task.core a = true ∧ readScalar a s = .ok x s'

/-- Two scalar sources are read, in order. -/
def Reads2 (a b : Spec) (s : State) (x y : W64) (s' : State) : Prop :=
  scalarSrcOk s.task.core b = true ∧ ∃ s1, Reads a s x s1 ∧ readScalar b s1 = .ok y s'

/-- A scalar destination that exists on the core of `s` is written in the state `s1`. -/
def Writes (s : State) (d : Spec) (v : W64) (s1 s' : State) : Prop :=
  scalarDstOk s.task.core d = true ∧ writeScalar d v s1 = .ok () s'

/-- An instruction of two sources writes a function of their values, whatever the operand forms (R15, R215). -/
def BinaryResult (i : Spec → Spec → Spec → Instr) (f : W64 → W64 → W64) : Prop :=
  ∀ d a b x y s s1 s2, s.Enabled .any {} → Reads2 a b s x y s1 → Writes s d (f x y) s1 s2 →
    exec (i d a b) s = .next (s.ends s2 .seq)

/-- An instruction of one source writes a function of its value, whatever the operand forms (R15, R215). -/
def UnaryResult (i : Spec → Spec → Instr) (f : W64 → W64) : Prop :=
  ∀ d a x s s1 s2, s.Enabled .any {} → Reads a s x s1 → Writes s d (f x) s1 s2 →
    exec (i d a) s = .next (s.ends s2 .seq)

/-- The current task after an instruction on general registers alone: the sources have arrived (R216), one register is
written, the hints are gone and the pc is at the next word. -/
def Task.computed (t : Task) (srcs : List Spec) (d : Spec) (v : W64) : Task :=
  { (t.setG d.toNat v) with outstanding := t.outstanding.filter fun x => !(d :: srcs).contains x,
                            hints := {}, pc := t.pc + 4, stalled := false }

/-- The immediate of a field under the pending hints: the field, or the HIMM payload followed by it, sign-extended
(R196). -/
def immediateOf (h : Hints) (f : BitVec w) : W64 :=
  match h.himm with
  | none => f.signExtend 64
  | some p => (p ++ f).signExtend 64

/-- The address that a word offset names from the current instruction (R192). -/
def targetOf (s : State) (f : BitVec w) : W64 := s.task.pc + 4 * immediateOf s.task.hints f

/-- The CRC-32C state after `n` data bits (R220). -/
def crcAfter (c : W32) (data : W64) : Nat → W32
  | 0 => c
  | n + 1 =>
    let r := crcAfter c data n
    if r.getLsbD 0 != data.getLsbD n then (r >>> 1) ^^^ 0x82F63B78#32 else r >>> 1

/-- The conditions of CMP and CMPI by code (R225). -/
def conditionHolds (c : Nat) (x y : W64) : Bool :=
  match c with
  | 0 => decide (x = y)
  | 1 => decide (x ≠ y)
  | 2 => decide (x.toInt < y.toInt)
  | 3 => decide (y.toInt ≤ x.toInt)
  | 4 => decide (x.toNat < y.toNat)
  | 5 => decide (y.toNat ≤ x.toNat)
  | _ => decide (x &&& y ≠ 0)

/-- The state with one predicate of the current task written; p0 discards (R194). -/
def State.withPred (s : State) (p : BitVec 3) (b : Bool) : State :=
  if p = 0 then s
  else s.setTask fun t => { t with p := if b then t.p ||| 1#8 <<< p.toNat else t.p &&& ~~~(1#8 <<< p.toNat) }

/-- A load destination that exists on the core of `s` receives a value and stays pending (R216). -/
def Loads (s : State) (d : Spec) (v : W64) (s1 s' : State) : Prop :=
  scalarDstOk s.task.core d = true ∧ writeLoaded d v s1 = .ok () s'

/-- The state after a home operation with an acquire half: it takes a position, the snapshot point moves there (R99,
R117). -/
def State.acquired (s : State) : State := { s with pos := s.pos + 1 }.setTask fun t => { t with snapshot := s.pos }

/-- The current task waits, its instruction to be completed by another event (R134). -/
def State.waits (s : State) (w : WaitOn) : State := s.setTask fun t => { t with status := .waiting, waitOn := w }

/-- An instruction of `s` that stops to be issued again leaves it as it was but for the translations it has filled and the mark of
one that waits for a queue, found in `s1`; the turn of its core's partner follows (R284, R311; log entry 6). -/
def State.stays (s s1 : State) : State :=
  ({ s with l1 := s1.l1, rtlb := s1.rtlb, dtlb := s1.dtlb, task := { s.task with stalled := s1.task.stalled } } : State).push
    [.core (partner s.task.core)]

/-- The current task, marked as one that waits for a queue (R284). -/
def State.stuck (s : State) : State := s.setTask fun t => { t with stalled := true }

/-- A task that holds lanes may execute a vector instruction (R200, R262). -/
def State.EnabledV (s : State) : Prop := s.Enabled .lane {} ∧ s.task.lanes ≠ []

/-- A vector source is read lane by lane (R193, R263). -/
def ReadsV (a : Spec) (s : State) (x : List Nat) (s' : State) : Prop := a.toNat < 48 ∧ readVector a s = .ok x s'

/-- The state with a vector register written lane by lane; no load of it is outstanding any more (R216, R263). -/
def State.withVector (s : State) (d : Spec) (v : List Nat) : State :=
  s.setTask fun t => { t.setVreg d.toNat v with outstanding := t.outstanding.filter (· != vecPending d) }

/-- An elementwise member of type `t` computes every element of d from those of a, b and d, in the task's rounding mode,
and raises the OR of the elements' flags (R166, R265, R266). -/
def VectorResult (i : Spec → Spec → Spec → Instr) (t : BitVec 2) (f : Rm → Nat → Nat → Nat → Nat × Flg) : Prop :=
  ∀ d a b x y s s1 s2, s.EnabledV → d.toNat < 32 → ReadsV a s x s1 → ReadsV b s1 y s2 →
    ∀ r, r = zipElements (f (rmOf s.task.rmode)) (elements t x).length (elements t x) (elements t y)
      (elements t (s2.task.vreg d.toNat)) →
    exec (i d a b) s = .next (s.ends (s2.withVector d (fromElements t r.1)) (.flags r.2))

/-- A member that maps each lane of a to a lane of d (R275, R278). -/
def LaneResult (i : Spec → Spec → Instr) (f : Rm → Nat → Nat × Flg) : Prop :=
  ∀ d a x s s1, s.EnabledV → d.toNat < 32 → ReadsV a s x s1 → ∀ r, r = mapLanes (f (rmOf s.task.rmode)) x →
    exec (i d a) s = .next (s.ends (s1.withVector d r.1) (.flags r.2))

/-- A conversion to an integer of `w` bits: rounded to an integer, `NX` when inexact; out of range the nearer bound with the
flags `past`; an infinity the bound of its sign, and a NaN 0, with `NV` (R176, R251, R275). -/
def IntConversion (w : Nat) (lo hi : Int) (past : Flg) (rm : Rm) (v : Exact) (r : Nat × Flg) : Prop :=
  (v = .nan → r = (0, nvFlag)) ∧
  (∀ neg, v = .inf neg → r = (((if neg then lo else hi) % 2 ^ w).toNat, nvFlag)) ∧
  (∀ neg n d q, ∀ i : Int, v = .fin neg n d → q = roundAt rm neg n d 0 → i = (if neg then -(q.1 : Int) else q.1) →
    (i < lo → r = ((lo % 2 ^ w).toNat, past)) ∧ (hi < i → r = ((hi % 2 ^ w).toNat, past)) ∧
    (lo ≤ i → i ≤ hi → r = ((i % 2 ^ w).toNat, if q.2 then nxFlag else 0)))

/-- A saturating conversion to an FP8 byte (R170, R176): rounded once, with its flags; a finite value beyond the greatest
magnitude `most` gives that with `OF` and `NX`, an infinity the same with `NV`, a NaN the format's NaN, with `NV` when it is
signalling. -/
def Fp8Conversion (f : Fmt) (most nan : Nat) (rm : Rm) (v : Exact) (snan : Bool) (r : Nat × Flg) : Prop :=
  ∀ sign : Bool → Nat, (sign = fun neg => if neg then 128 else 0) →
  (v = .nan → r = (nan, if snan then nvFlag else 0)) ∧
  (∀ neg, v = .inf neg → r = (sign neg + most, nvFlag)) ∧
  (∀ neg n d q, v = .fin neg n d → q = roundFin f.p f.emin rm neg n d →
    (n = 0 → r = (sign neg, 0)) ∧
    (n ≠ 0 → r = if most < f.pack q then (sign neg + most, ofFlag ||| nxFlag) else (sign neg + f.pack q, q.flags)))

/-- A conversion to an IEEE-shaped format: rounded once, and `NV` besides when the source is a signalling NaN (R162, R171). -/
def FmtConversion (f : Fmt) (rm : Rm) (x : Datum) (r : Nat × Flg) : Prop :=
  r = ((f.encode rm x.val).1, (f.encode rm x.val).2 ||| if x.snan then nvFlag else 0)

/-- A conversion from FP8 to a wider format: the same value, no flag but the `NV` of a signalling NaN, and a NaN canonical
(R171). -/
def Fp8Widened (f : Fmt) (rm : Rm) (x : Datum) (r : Nat × Flg) : Prop :=
  r = ((f.encode rm x.val).1, if x.snan then nvFlag else 0) ∧ (x.val = .nan → r.1 = f.canon) ∧
  (x.val ≠ .nan → (f.decode r.1).val.eq x.val = true)

/-- The table of R251: what selector `c` makes of the register value `x` in the format `f`. -/
def FcvtTable (f : Fmt) (rm : Rm) (c x : Nat) (r : Nat × Flg) : Prop :=
  ∀ u, u = f.decode x →
  match c with
  | 0 => FmtConversion f16 rm u r
  | 1 => FmtConversion f32 rm u r
  | 2 => FmtConversion f64 rm u r
  | 3 => FmtConversion bf16 rm u r
  | 4 => IntConversion 64 (-2 ^ 63) (2 ^ 63 - 1) nvFlag rm u.val r
  | 5 => IntConversion 64 0 (2 ^ 64 - 1) nvFlag rm u.val r
  | 6 => Fp8Conversion e4m3 0x7E 0x7F rm u.val u.snan r
  | 7 => FmtConversion e5m2 rm u r
  | 8 => r = f.encode rm (.ofInt (BitVec.ofNat 64 x).toInt)
  | 9 => r = f.encode rm (.ofInt (BitVec.ofNat 64 x).toNat)
  | 10 => Fp8Widened f rm (decodeE4m3 x) r
  | 11 => Fp8Widened f rm (e5m2.decode x) r
  | _ => True

/-- The table of R275: what selector `c` makes of a lane. -/
def VcvtTable (rm : Rm) (c x : Nat) (r : Nat × Flg) : Prop :=
  ∀ u, u = f32.decode x →
  match c with
  | 0 => IntConversion 32 (-2 ^ 31) (2 ^ 31 - 1) nvFlag rm u.val r
  | 1 => r = f32.encode rm (.ofInt (BitVec.ofNat 32 x).toInt)
  | 2 => FmtConversion f16 rm u r
  | 3 => FmtConversion bf16 rm u r
  | 4 => FmtConversion f32 rm (f16.decode x) r
  | 5 => FmtConversion f32 rm (bf16.decode x) r
  | 6 => Fp8Conversion e4m3 0x7E 0x7F rm u.val u.snan r
  | 7 => FmtConversion e5m2 rm u r
  | 8 => Fp8Widened f32 rm (decodeE4m3 x) r
  | 9 => Fp8Widened f32 rm (e5m2.decode x) r
  | _ => True

/-- The tables of R176 and R276: the code of a binary32 lane `x` under the shift `s`, always under RNE. -/
def VqntTable (c : Nat) (s : Int) (x : Nat) (r : Nat × Flg) : Prop :=
  ∀ u, u = f32.decode x → ∀ v, v = u.val.scale (-s) →
  match c with
  | 0 => IntConversion 8 (-128) 127 (ofFlag ||| nxFlag) .rne v r
  | 1 => IntConversion 4 (-8) 7 (ofFlag ||| nxFlag) .rne v r
  | 2 => Fp8Conversion e4m3 0x7E 0x7F .rne v u.snan r
  | 3 => Fp8Conversion e5m2 0x7B 0x7E .rne v u.snan r
  | _ => True

/-- The tables of R177 and R276: the binary32 value of a code under the shift `s`, always under RNE. -/
def VdqTable (c : Nat) (s : Int) (x : Nat) (r : Nat × Flg) : Prop :=
  match c with
  | 0 => r = f32.encode .rne ((Exact.ofInt (BitVec.ofNat 8 x).toInt).scale s)
  | 1 => r = f32.encode .rne ((Exact.ofInt (BitVec.ofNat 4 x).toInt).scale s)
  | 2 => r = f32.encode .rne ((decodeE4m3 x).val.scale s)
  | 3 => FmtConversion f32 .rne ⟨(e5m2.decode x).val.scale s, (e5m2.decode x).snan⟩ r
  | _ => True

/-- An i32 element function of two operands. -/
def onWords (g : W32 → W32 → W32) (x y : Nat) : Nat × Flg := ((g (BitVec.ofNat 32 x) (BitVec.ofNat 32 y)).toNat, 0)

/-- The engine operation a task issues in a state: its command, tag, block, reply address and issuer (R311). -/
def State.opFor (s : State) (t : Task) (cmd : Nat) (tag : Spec) (blk : List W64) (r : Option W64) : EngineOp :=
  { id := s.nextId, task := t.key, core := t.core, asid := t.asid, jobkey := t.jobkey, ctx := t.ctx, launch := t.launch,
    cmd := cmd, tag := some tag, blk := blk, reply := r, snapshot := s.task.snapshot }

/-- The state with that operation queued (R311). -/
def State.withOp (s : State) (t : Task) (cmd : Nat) (tag : Spec) (blk : List W64) (r : Option W64) : State :=
  { s with ops := s.ops ++ [s.opFor t cmd tag blk r], nextId := s.nextId + 1 }

/-- Whether a PA takes bytes: it lies in no hole and not in the control space (R40, R436). -/
def takesBytes (pa : Nat) : Bool :=
  match regionOf pa with
  | .hole | .control .. => false
  | _ => true

/-- Whether a held store goes to the control space (R436). -/
def HeldStore.toControl (h : HeldStore) : Bool :=
  match regionOf h.pa with
  | .control .. => true
  | _ => false

/-- The bytes of memory after a write of bytes at a PA. -/
def State.PutsBytes (s t : State) (pa : Nat) (data : List Byte) : Prop :=
  ∀ x, (∀ d off, regionOf x ≠ .control d off) →
    t.byteAt x = if pa ≤ x ∧ x < pa + data.length then data.getD (x - pa) 0 else s.byteAt x

/-- What one write at a home leaves where no failure is met: its position taken, its event at the end of the publication
order, settled for the domains named, its bytes in memory, the sector code and its open entries as R64 and R68 have them, and
nothing else changed (R68, R89, R90). -/
def State.Put (s t : State) (a : Agent) (doms : List Domain) (pa : Nat) (data : List Byte) : Prop :=
  s.PutsBytes t pa data ∧
  t = { s with pos := s.pos + 1, writes := s.writes ++ [⟨s.pos, a, pa, data, s.bytesAt pa data.length, doms⟩],
               mem := t.mem, sectors := t.sectors, wcs := t.wcs }

/-- An operation succeeds with a value and a state. -/
def Gives (m : M α) (s : State) (x : α) (s' : State) : Prop := m s = .ok x s'

end Sys2Proof.Machine
end

