-- ==== Sys2Proof/Certificates/Slice0/Obligations.lean ====
section
/-! DEFINITION. The obligations: what the rules of the spec say of the model's machine. Each docstring names the rule it
formalises, or the log entry on which it rests. -/

open Sys2Proof Sys2Proof.Machine

/-- The storage invariant holds in the state after reset. Derived: the form of memory is the model's (log entry 1). -/
def Obligations.ResetKeepsTheStorageForm : Prop := State.reset.Inv

/-- From every state that meets the storage invariant, every step that answers a next state keeps it: memory stays
canonical (log entry 1), a full word lies where full/empty bits exist (R76), write events lie before the position to be
given next (R89). -/
def Obligations.StepKeepsTheStorageForm : Prop := ∀ s s', s.Inv → step s = .next s' → s'.Inv

/-- No step faults and no step refuses: an access that fails traps, reports a status or delivers zero. -/
def Obligations.EveryStepAnswers : Prop := ∀ s : State, s.Safe

/-- Decoding the word of a well-formed instruction gives the instruction back, every operand at every value (R191,
R201-R203). -/
def Obligations.DecodeOfEncode : Prop :=
  ∀ i w, wellFormed i = true → encode i = some w → w < 2 ^ 32 ∧ decode w = .ok i

/-- A word that decodes is the word of the instruction it decodes to, and that instruction is well-formed: no two words
have one meaning, and no bit of a word is dropped (R191, R199 step 1). -/
def Obligations.EncodeOfDecode : Prop :=
  ∀ i w, w < 2 ^ 32 → decode w = .ok i → wellFormed i = true ∧ encode i = some w

/-- When no turn waits and the current task issues and has not used up its turn (log entry 2), a step fetches the
word at its pc and, where it decodes, performs exactly that instruction. A task resumed at a wait issues that wait again
instead (log entry 37). -/
def Obligations.StepRunsTheDecodedInstruction : Prop :=
  (∀ s w s' i, s.agenda = [] → s.task.issues = true → s.task.waitOn.again = false → s.turns < turnLength →
    Gives fetch ({ s with turns := s.turns + 1 }).age w s' → decode w = .ok i → step s = exec i s') ∧
  (∀ s, s.agenda = [] → s.task.issues = true → s.task.waitOn.again = true → s.turns < turnLength →
    step s = .next ({ s with turns := s.turns + 1 }).age.reissue)

/-- A word that no instruction has raises the illegal-instruction trap with the word as its value (R199 step 1). A fetch that
fails takes its fault's trap at the pc: an address that is not canonical, one that is not a multiple of 4, one without a
translation or without a place, and one that may not be executed (R36, R37, R232). -/
def Obligations.StepTrapsOnAnUnassignedWord : Prop :=
  (∀ s w s' e, s.agenda = [] → s.task.issues = true → s.task.waitOn.again = false → s.turns < turnLength →
     Gives fetch ({ s with turns := s.turns + 1 }).age w s' → decode w = .error e →
     step s = .next (s'.takeTrap 0x00 (BitVec.ofNat 64 w) s'.task.pc)) ∧
  (∀ (s u : State) c v s', s.agenda = [] → s.task.issues = true → s.task.waitOn.again = false → s.turns < turnLength →
      u = ({ s with turns := s.turns + 1 }).age → fetch u = .error (.trap c v) s' → step s = .next (s'.takeTrap c v s'.task.pc)) ∧
    (∀ (u : State) pc, pc = u.task.pc → ∀ fails : BitVec 8 → State → Prop, (fails = fun c t => fetch u = .error (.trap c pc) t) →
      (canonical pc = false ∨ canonical (pc + 3) = false → fails 0x13 u) ∧
      (canonical pc = true → canonical (pc + 3) = true →
        (pc.toNat % 4 ≠ 0 → fails 0x20 u) ∧
        (pc.toNat % 4 = 0 → inWindow pc.toNat = true → fails 0x11 u) ∧
        (pc.toNat % 4 = 0 → inWindow pc.toNat = false →
          (∀ t, leafOf u.task.tctx pc.toNat u = .error (.trap 0x10 pc) t → fails 0x10 t) ∧
          (∀ a e t, Gives (leafOf u.task.tctx pc.toNat) u (a, e) t →
            (regionOf (e.place pc.toNat) = .hole → fails 0x10 t) ∧
            (regionOf (e.place pc.toNat) ≠ .hole → bitAt e.attr 3 = false → fails 0x11 t)))))

/-- With a false guard an instruction has no effect: its hints are consumed and the pc moves to the next word (R11,
R195). Every word but the hints, in every operand form. -/
def Obligations.FalseGuardHasNoEffect : Prop :=
  ∀ i k a s, gateOf i = some (k, a) → k.allows s.task.core = true → a.allows s.task.hints = true → s.task.guard = false →
    exec i s = .next (s.setTask fun t => { t with hints := {}, pc := t.pc + 4, stalled := false })

/-- A core that may not run a group, or a pending hint that may not govern the instruction, raises the
illegal-instruction trap at it, whether the guard holds or not (R197, R199 step 1, R200). -/
def Obligations.MisplacedWordTraps : Prop :=
  ∀ i k a s w, gateOf i = some (k, a) → (k.allows s.task.core && a.allows s.task.hints) = false → encode i = some w →
    exec i s = .next (s.takeTrap 0x00 (BitVec.ofNat 64 w) s.task.pc)

/-- How an instruction that goes on ends. With no HLIVE, no queue touched and no failed unit met, nothing of the state its
work left changes but the pending hints,
    the pc and the mark of an instruction that waits for a queue. A governing HLIVE only makes the registers it declares dead read as their value or as zero
(R132, log entry 8): register `k` of g4-g7 and g16-g31 keeps its value unless its payload bit is 0. -/
def Obligations.HowAnInstructionEnds : Prop :=
  (∀ s s' : State, s.task.hints.hlive = none → s'.queues = s.queues → s'.failed = s.failed →
    (s.ends s' .seq = s'.setTask fun t => { t with hints := {}, pc := s.task.pc + 4, stalled := false }) ∧
    (∀ pc, s.ends s' (.goto pc) = s'.setTask fun t => { t with hints := {}, pc := pc, stalled := false }) ∧
    s.ends s' .gone = s') ∧
  (∀ s s' : State, ∀ p, s.task.hints.hlive = some p → s'.queues = s.queues → s'.failed = s.failed →
    ∃ t, s.ends s' .seq = { s' with task := t, tick := s'.tick + 1 } ∧ t.pc = s.task.pc + 4 ∧ t.hints = {} ∧
      t = { s'.task with pc := s.task.pc + 4, hints := {}, stalled := false, g := t.g, lanes := t.lanes, e := t.e } ∧
      (∀ k, k < 32 → (vget t.g k = vget s'.task.g k ∨
        (vget t.g k = 0 ∧ ((16 ≤ k ∧ p.getLsbD (k - 16) = false) ∨ (4 ≤ k ∧ k < 8 ∧ p.getLsbD (k + 12) = false))))) ∧
      (t.lanes = s'.task.lanes ∨ (p.getLsbD 20 = false ∧ t.lanes = s'.task.lanes.map fun _ => Vector.replicate 32 0)) ∧
      (t.e = s'.task.e ∨ (p.getLsbD 21 = false ∧ t.e = Vector.replicate 64 0)))

/-- Taking a trap outside a handler whose vector word can be read and is not zero: cause, value, resume address and
pending hints are saved, `IN` and `DEPTH` set, and the pc goes to the address the vector table gives (R377,
    R198); what waits for a word
that the vector read has emptied goes on (R80). -/
def Obligations.TrapEntry : Prop :=
  ∀ (s s' : State) (c : BitVec 8) (v epc : W64) (h : Nat), s.task.tstat.getLsbD 0 = false → s.task.tvec.getLsbD 0 = true →
    Gives (loadNat (s.task.tvec &&& ~~~63#64 ||| BitVec.ofNat 64 (8 * (c.toNat / 16 % 8))) 8)
      (s.setTask (·.saveTrap c v epc)) h s' → h ≠ 0 →
    s.takeTrap c v epc = (s'.setTask fun t => { t with pc := BitVec.ofNat 64 h }).serve ∧
    (s.task.saveTrap c v epc = { s.task with
      tcause := c.setWidth 64, tval := v, tepc := epc, thint := s.task.hints.save.1, thintx := s.task.hints.save.2.1,
      tstat := BitVec.ofNat 64 (s.task.saved.length % 256 * 65536 + (if s.task.hints.save.2.2 then 2 else 0) + 1),
      hints := {}, stalled := false, operands := none })

/-- A trap inside a handler, without a handler, or with a vector word that is zero or cannot be read, terminates the task (R377,
R379): the die counts it and keeps the record, and the task ends with its instance in error (`endTask true`, of which
ControlResults states what it does). -/
def Obligations.TrapWithoutHandlerTerminates : Prop :=
  (∀ (s : State) (c : BitVec 8) (v epc : W64), s.task.tstat.getLsbD 0 = true → s.takeTrap c v epc = s.terminate c v epc) ∧
  (∀ (s : State) (c : BitVec 8) (v epc : W64), s.task.tstat.getLsbD 0 = false → s.task.tvec.getLsbD 0 = false →
    s.takeTrap c v epc = (s.setTask (·.saveTrap c v epc)).terminate c v epc) ∧
  (∀ (s s' : State) (c : BitVec 8) (v epc va : W64), s.task.tstat.getLsbD 0 = false → s.task.tvec.getLsbD 0 = true →
    va = (s.task.tvec &&& ~~~63#64 ||| BitVec.ofNat 64 (8 * (c.toNat / 16 % 8))) →
    (Gives (loadNat va 8) (s.setTask (·.saveTrap c v epc)) 0 s' ∨ ∃ e,
        loadNat va 8 (s.setTask (·.saveTrap c v epc)) = .error e s') →
    s.takeTrap c v epc = s'.terminate c v epc) ∧
  (∀ (s : State) (c : BitVec 8) (v epc : W64), ∃ s1 : State, s.terminate c v epc = s1.endTask true ∧ s1.task = s.task ∧
    s1.mem = s.mem ∧ (s1.die s.task.core.die.toNat).terms = (s.die s.task.core.die.toNat).terms + 1 ∧
    (s1.die s.task.core.die.toNat).termLaunch = s.task.launch ∧ (s1.die s.task.core.die.toNat).termEpc = epc ∧
    (s1.die s.task.core.die.toNat).termVal = v ∧
    (s1.die s.task.core.die.toNat).termWord = BitVec.ofNat 64 (c.toNat * 16777216 + s.task.tid.toNat % 16777216))

/-- The return from a trap makes pending again exactly the hints that were pending when it was taken, leaves `IN` 0 and
resumes at the saved address; the handler's `TEPC` is all it needs (R198, R235). -/
def Obligations.TrapReturnRestoresHints : Prop :=
  ∀ (t : Task) (c : BitVec 8) (v epc : W64),
    (t.saveTrap c v epc).eret = { t.saveTrap c v epc with
      pc := epc, hints := t.hints, tstat := (t.saveTrap c v epc).tstat - 1 }

/-- The forms of a scalar operand (R15, R193, R216): a general register waits for its load reply and g0 reads zero; a
channel pops the next 64 bits of the packet the task reads; a queue pops its oldest entry; a register destination is
written and g0 discards; a queue destination appends, unless it holds four (R284). An access to a queue takes one position
(R285). -/
def Obligations.OperandForms : Prop :=
  (∀ (s : State) (x : Spec), x.toNat < 32 → Reads x s (if x = 0 then 0 else vget s.task.g x.toNat)
    (s.setTask fun t => { t with outstanding := t.outstanding.filter (· != x) })) ∧
  (∀ (s : State) (x : Spec) c lo hi rest, 32 ≤ x.toNat → x.toNat < 48 → s.task.pktChan = some c → c.toNat = x.toNat - 32 →
    s.task.pkt = lo :: hi :: rest → Reads x s (hi ++ lo) (s.setTask fun t => { t with pkt := rest })) ∧
  (∀ (s : State) (x : Spec) v rest, readsQueue s.task.core x = true → lget s.queues (x.toNat - 48) = v :: rest →
    ∀ u, u = s.setCluster (clusterId s.task.core) (fun c => { c with queues := lset c.queues (x.toNat - 48) rest }) →
    Reads x s v { u with pos := u.pos + 1 }) ∧
  (∀ (s s1 : State) (d : Spec) v, d.toNat < 32 → Writes s d v s1 (s1.setTask fun t =>
    { t with outstanding := t.outstanding.filter (· != d), g := if d = 0 then t.g else vset t.g d.toNat v })) ∧
  (∀ (s : State) (d : Spec) v, writesQueue s.task.core d = true → (lget s.queues (d.toNat - 48)).length < 4 →
    ∀ u, u = s.setCluster (clusterId s.task.core) (fun c =>
      { c with queues := lset c.queues (d.toNat - 48) (lget c.queues (d.toNat - 48) ++ [v]) }) →
    Writes s d v s { u with pos := u.pos + 1 }) ∧
  (∀ (s : State) (x : Spec), 32 ≤ x.toNat → x.toNat < 48 → (∀ c, s.task.pktChan = some c → c.toNat ≠ x.toNat - 32) →
    readScalar x s = .error (.trap 0x30 (BitVec.ofNat 64 (x.toNat - 32))) s)

/-- The integer instructions of two sources write the function of their values that R217 gives, in every operand
form. -/
def Obligations.IntegerResults : Prop :=
  BinaryResult .add (fun x y => x + y) ∧ BinaryResult .sub (fun x y => x - y) ∧
  BinaryResult .and (fun x y => x &&& y) ∧ BinaryResult .or (fun x y => x ||| y) ∧
  BinaryResult .xor (fun x y => x ^^^ y) ∧ BinaryResult .andn (fun x y => x &&& ~~~y) ∧
  BinaryResult .orn (fun x y => x ||| ~~~y) ∧ BinaryResult .shl (fun x y => x <<< (y.toNat % 64)) ∧
  BinaryResult .shr (fun x y => x >>> (y.toNat % 64)) ∧ BinaryResult .sar (fun x y => x.sshiftRight (y.toNat % 64)) ∧
  BinaryResult .rol (fun x y => x.rotateLeft (y.toNat % 64)) ∧ BinaryResult .mul (fun x y => x * y) ∧
  BinaryResult .mulh (fun x y => (x.signExtend 128 * y.signExtend 128).extractLsb' 64 64) ∧
  BinaryResult .mulhz (fun x y => (x.setWidth 128 * y.setWidth 128).extractLsb' 64 64) ∧
  BinaryResult .min (fun x y => if x.toInt ≤ y.toInt then x else y) ∧
  BinaryResult .max (fun x y => if x.toInt ≤ y.toInt then y else x) ∧
  BinaryResult .minz (fun x y => if x.toNat ≤ y.toNat then x else y) ∧
  BinaryResult .maxz (fun x y => if x.toNat ≤ y.toNat then y else x)

/-- Division and remainder, with their defined edge cases (R218): truncated quotients, all ones for division by zero,
the remainder `a - b × quotient`, which is `a` after division by zero; -2^63 by -1 gives -2^63 and 0. -/
def Obligations.DivisionResults : Prop :=
  ∃ q r qz rz : W64 → W64 → W64,
    BinaryResult .div q ∧ BinaryResult .rem r ∧ BinaryResult .divz qz ∧ BinaryResult .remz rz ∧
    (∀ x y, y ≠ 0 → ¬(x = 0x8000000000000000 ∧ y = -1) → (q x y).toInt = x.toInt.tdiv y.toInt) ∧
    (∀ x y, y ≠ 0 → (qz x y).toNat = x.toNat / y.toNat) ∧
    (∀ x y, y ≠ 0 → r x y = x - y * q x y ∧ rz x y = x - y * qz x y) ∧
    (∀ x, q x 0 = -1 ∧ qz x 0 = -1 ∧ r x 0 = x ∧ rz x 0 = x) ∧
    q 0x8000000000000000 (-1) = 0x8000000000000000 ∧ r 0x8000000000000000 (-1) = 0

/-- The integer instructions of one source, EXT, CRC and INS (R217, R219, R220): counts, bit and byte reversal, the bit field
that b names, the CRC-32C state after 64 data bits; INS reads a, b and then d, and replaces in d the field that b names by
low bits of a. -/
def Obligations.BitFieldResults : Prop :=
  (UnaryResult .clz (fun x => x.clz) ∧ UnaryResult .ctz (fun x => x.ctz) ∧ UnaryResult .popc (fun x => x.cpop) ∧
  (∃ f, UnaryResult .brev f ∧ ∀ x : W64, ∀ i, i < 64 → (f x).getLsbD i = x.getLsbD (63 - i)) ∧
  (∃ f, UnaryResult .bswap f ∧ ∀ x : W64, ∀ i, i < 8 → (f x).extractLsb' (8 * i) 8 = x.extractLsb' (56 - 8 * i) 8) ∧
  (∃ f, BinaryResult .ext f ∧ ∀ x y : W64, ∀ i, i < 64 →
    ((f x y).getLsbD i = (x.getLsbD (y.toNat % 64 + i) &&
      decide (i < if y.toNat / 256 % 64 = 0 then 64 else y.toNat / 256 % 64)))) ∧
  BinaryResult .crc (fun x y => (crcAfter (x.setWidth 32) y 64).setWidth 64)) ∧
  (∃ f : W64 → W64 → W64 → W64,
    (∀ d a b x y z s s1 s2 s3, s.Enabled .any {} → scalarSrcOk s.task.core d = true → Reads2 a b s x y s1 →
      readScalar d s1 = .ok z s2 → Writes s d (f z x y) s2 s3 → exec (.ins d a b) s = .next (s.ends s3 .seq)) ∧
    ∀ z x y : W64, ∀ i, i < 64 → (f z x y).getLsbD i =
      (if y.toNat % 64 ≤ i ∧ i - y.toNat % 64 < (if y.toNat / 256 % 64 = 0 then 64 else y.toNat / 256 % 64)
       then x.getLsbD (i - y.toNat % 64) else z.getLsbD i))

/-- SEL reads both sources and writes a when predicate N holds, else b (R221). -/
def Obligations.SelectResults : Prop :=
  ∀ d a b p x y s s1 s2, s.Enabled .any {} → Reads2 a b s x y s1 →
    Writes s d (if p = 0 ∨ s.task.p.getLsbD p.toNat = true then x else y) s1 s2 →
    exec (.sel d a b p) s = .next (s.ends s2 .seq)

/-- The immediate instructions (R222-R224) under the immediate that HIMM may widen (R196): ADDI, ANDI, ORI and XORI; the
shifts by an amount; LDI, LDHI, which keeps bits 19:0 of d, and ADDPC, which adds to the address of its own word. -/
def Obligations.ImmediateResults : Prop :=
  (∀ p ∈ [(Instr.addi, fun x y : W64 => x + y), (.andi, fun x y => x &&& y), (.ori, fun x y => x ||| y),
      (.xori, fun x y => x ^^^ y)],
    ∀ d a i x s s1 s2, s.Enabled .any { imm := true } → Reads a s x s1 →
      Writes s d (p.2 x (immediateOf s.task.hints i)) s1 s2 → exec (p.1 d a i) s = .next (s.ends s2 .seq)) ∧
  (∀ n : BitVec 6, UnaryResult (fun d a => .shli d a n) (fun x => x <<< n.toNat) ∧
    UnaryResult (fun d a => .shri d a n) (fun x => x >>> n.toNat) ∧
    UnaryResult (fun d a => .sari d a n) (fun x => x.sshiftRight n.toNat)) ∧
  ((∀ d i s s1, s.Enabled .any { imm := true } → Writes s d (immediateOf s.task.hints i) s s1 →
    exec (.ldi d i) s = .next (s.ends s1 .seq)) ∧
  (∀ d i x s s1 s2, s.Enabled .any { imm := true } → Reads d s x s1 →
    Writes s d (immediateOf s.task.hints i <<< 20 ||| (x.setWidth 20).setWidth 64) s1 s2 →
    exec (.ldhi d i) s = .next (s.ends s2 .seq)) ∧
  (∀ d i s s1, s.Enabled .any { imm := true } → Writes s d (targetOf s i) s s1 →
    exec (.addpc d i) s = .next (s.ends s1 .seq)))

/-- On general registers an integer or immediate instruction changes one register, the pc, the pending hints and the pending
marks of the registers it names, and nothing else of the machine: no flag, no control register, no byte of memory (R215, R217,
R222-R224). -/
def Obligations.IntegerFrame : Prop :=
  (∀ i ∈ [Instr.add, .sub, .and, .or, .xor, .andn, .orn, .shl, .shr, .sar, .rol, .mul, .mulh, .mulhz, .div, .divz, .rem,
      .remz, .min, .max, .minz, .maxz, .ext, .crc],
    ∃ f : W64 → W64 → W64, ∀ d a b s, s.Enabled .any {} → s.task.hints.hlive = none → d.toNat < 32 → a.toNat < 32 →
      b.toNat < 32 → exec (i d a b) s =
        .next { s with task := s.task.computed [a, b] d (f (s.task.reg a.toNat) (s.task.reg b.toNat)) }) ∧
  (∀ n : BitVec 6, ∀ i ∈ [Instr.clz, .ctz, .popc, .brev, .bswap, fun d a => .shli d a n, fun d a => .shri d a n,
      fun d a => .sari d a n],
    ∃ f : W64 → W64, ∀ d a s, s.Enabled .any {} → s.task.hints.hlive = none → d.toNat < 32 → a.toNat < 32 →
      exec (i d a) s = .next { s with task := s.task.computed [a] d (f (s.task.reg a.toNat)) }) ∧
  (∃ f : W64 → W64 → W64 → W64, ∀ d a b p s, s.Enabled .any {} → s.task.hints.hlive = none → d.toNat < 32 → a.toNat < 32 →
    b.toNat < 32 → exec (.ins d a b) s = .next { s with
        task := s.task.computed [a, b, d] d (f (s.task.reg d.toNat) (s.task.reg a.toNat) (s.task.reg b.toNat)) } ∧
      exec (.sel d a b p) s = .next { s with
        task := s.task.computed [a, b] d (if s.task.pred p.toNat then s.task.reg a.toNat else s.task.reg b.toNat) }) ∧
  (∀ i ∈ [Instr.addi, .andi, .ori, .xori], ∃ f : W64 → W64 → W64, ∀ d a m s, s.Enabled .any { imm := true } →
    s.task.hints.hlive = none → d.toNat < 32 → a.toNat < 32 → exec (i d a m) s =
      .next { s with task := s.task.computed [a] d (f (s.task.reg a.toNat) (immediateOf s.task.hints m)) }) ∧
  (∀ d m s, s.Enabled .any { imm := true } → s.task.hints.hlive = none → d.toNat < 32 →
    exec (.ldi d m) s = .next { s with task := s.task.computed [] d (immediateOf s.task.hints m) } ∧
    exec (.addpc d m) s = .next { s with task := s.task.computed [] d (targetOf s m) } ∧
    exec (.ldhi d m) s = .next { s with
      task := s.task.computed [d] d (immediateOf s.task.hints m <<< 20 ||| (s.task.reg d.toNat &&& 0xFFFFF)) })

/-- An operand specifier that names no scalar raises the illegal-operand trap with the specifier as its value, before
anything is read: the sources in their order, then the destination (R193, R199 step 2; log entry 24). Every scalar group:
integer, compare, predicate, branch, control register, memory and floating point. -/
def Obligations.IllegalScalarOperand : Prop :=
  ∀ refused : HintSet → Instr × List Spec × List Spec → Prop, (refused = fun g q => ∀ s, s.Enabled .any g → ∀ x,
      (q.2.1.filter (fun x => !scalarSrcOk s.task.core x) ++ q.2.2.filter (fun x => !scalarDstOk s.task.core x)).head? = some x →
      exec q.1 s = .next (s.takeTrap 0x01 (x.setWidth 64) s.task.pc)) →
  ∀ d a b : Spec,
    (∀ i ∈ [Instr.add, .sub, .and, .or, .xor, .andn, .orn, .shl, .shr, .sar, .rol, .mul, .mulh, .mulhz, .div, .divz, .rem,
      .remz, .min, .max, .minz, .maxz, .ext, .crc], refused {} (i d a b, [a, b], [d])) ∧
    (∀ i ∈ [Instr.clz, .ctz, .popc, .brev, .bswap], refused {} (i d a, [a], [d])) ∧
    (∀ n : BitVec 6, ∀ i ∈ [Instr.shli, .shri, .sari], refused {} (i d a n, [a], [d])) ∧
    (∀ m, ∀ i ∈ [Instr.addi, .andi, .ori, .xori], refused { imm := true } (i d a m, [a], [d])) ∧
    (∀ m, refused { imm := true } (.ldi d m, [], [d]) ∧ refused { imm := true } (.ldhi d m, [d], [d]) ∧
      refused { imm := true } (.addpc d m, [], [d]) ∧ refused { imm := true } (.bz a m, [a], []) ∧
      refused { imm := true } (.bnz a m, [a], [])) ∧
    (∀ p c, refused {} (.sel d a b p, [a, b], [d]) ∧ refused {} (.ins d a b, [a, b, d], [d]) ∧
      refused {} (.cmp p a b c, [a, b], []) ∧ refused {} (.psave d, [], [d]) ∧ refused {} (.pload a, [a], []) ∧
      refused {} (.jr a, [a], []) ∧ refused {} (.callr a, [a], [])) ∧
    (∀ c p m, refused { imm := true } (.cmpi c p a m, [a], [])) ∧
    (∀ n, refused {} (.crd d n, [], [d]) ∧ refused {} (.cwr d n, [d], [])) ∧
    (∀ z o, refused { imm := true } (.ld d a z o, [a], [d]) ∧ refused { imm := true } (.ldz d a z o, [a], [d]) ∧
      refused { imm := true } (.st d a z o, [a, d], [])) ∧
    (∀ z h, refused {} (.ldx d a b z h, [a, b], [d]) ∧ refused {} (.ldzx d a b z h, [a, b], [d]) ∧
      refused {} (.stx d a b z h, [a, b, d], [])) ∧
    (∀ p m, refused {} (.ldfe d a p m, [a], [d]) ∧ refused {} (.stfe d a p m, [a, d], []) ∧ refused {} (.pref a m, [a], [])) ∧
    (∀ n, (∀ i ∈ [Instr.fadd, .fsub, .fmul, .fdiv, .fmin, .fmax, .fsgnj, .fsgnjn, .fsgnjx], refused {} (i d a b n, [a, b], [d])) ∧
      (∀ i ∈ [Instr.fma, .fms, .fnma], refused {} (i d a b n, [a, b, d], [d])) ∧
      (∀ p, ∀ i ∈ [Instr.feq, .flt, .fle, .fun], refused {} (i p a b n, [a, b], [])) ∧
      refused {} (.fsqrt d a n, [a], [d]) ∧ refused {} (.fclass d a n, [a], [d]) ∧ ∀ c, refused {} (.fcvt d a c n, [a], [d]))

/-- CMP and CMPI write the predicate that their condition gives (R225); PAND, POR, PXOR and PNOT combine predicates (R226).
p0 reads true, and a predicate destination of p0 discards (R194). -/
def Obligations.CompareAndPredicateResults : Prop :=
  ((∀ p a b c x y s s1, c.toNat < 7 → s.Enabled .any {} → Reads2 a b s x y s1 →
    exec (.cmp p a b c) s = .next (s.ends (s1.withPred p (conditionHolds c.toNat x y)) .seq)) ∧
  (∀ p a c i x s s1, c ≠ 7 → s.Enabled .any { imm := true } → Reads a s x s1 →
    exec (.cmpi c p a i) s =
      .next (s.ends (s1.withPred p (conditionHolds c.toNat x (immediateOf s.task.hints i))) .seq))) ∧
  (∀ d a b s, s.Enabled .any {} → ∀ x y : Bool, x = (decide (a = 0) || s.task.p.getLsbD a.toNat) →
    y = (decide (b = 0) || s.task.p.getLsbD b.toNat) →
    exec (.pand d a b) s = .next (s.ends (s.withPred d (x && y)) .seq) ∧
    exec (.por d a b) s = .next (s.ends (s.withPred d (x || y)) .seq) ∧
    exec (.pxor d a b) s = .next (s.ends (s.withPred d (x != y)) .seq) ∧
    exec (.pnot d a) s = .next (s.ends (s.withPred d (!x)) .seq))

/-- PSAVE puts predicate k in bit k, bit 0 being 1; PLOAD sets p1-p7 from bits 7:1 (R227). -/
def Obligations.PredicateSaveAndLoad : Prop :=
  (∀ d v s s1, s.Enabled .any {} → (∀ i, i < 64 → v.getLsbD i = (decide (i = 0) || decide (i < 8) && s.task.p.getLsbD i)) →
    Writes s d v s s1 → exec (.psave d) s = .next (s.ends s1 .seq)) ∧
  (∀ a x s s1, s.Enabled .any {} → Reads a s x s1 → ∃ p : BitVec 8,
    exec (.pload a) s = .next (s.ends (s1.setTask fun t => { t with p := p }) .seq) ∧
    ∀ k, 1 ≤ k → k < 8 → p.getLsbD k = x.getLsbD k)

/-- The branches and jumps (R228, R229, R232): BP by the sense of a predicate, BZ and BNZ by a source, J always, JR to a
4-byte-aligned address in a source. -/
def Obligations.BranchesAndJumps : Prop :=
  (∀ n p o s, s.Enabled .any { imm := true } → exec (.bp n p o) s = .next (s.ends s
    (if (decide (p = 0) || s.task.p.getLsbD p.toNat) = decide (n = 0) then .goto (targetOf s o) else .seq))) ∧
  (∀ t o x s s1, s.Enabled .any { imm := true } → Reads t s x s1 →
    exec (.bz t o) s = .next (s.ends s1 (if x = 0 then .goto (targetOf s o) else .seq)) ∧
    exec (.bnz t o) s = .next (s.ends s1 (if x = 0 then .seq else .goto (targetOf s o)))) ∧
  (∀ o s, s.Enabled .any { imm := true } → exec (.j o) s = .next (s.ends s (.goto (targetOf s o)))) ∧
  (∀ a x s s1, s.Enabled .any {} → Reads a s x s1 → x.toNat % 4 = 0 → exec (.jr a) s = .next (s.ends s1 (.goto x))) ∧
  (∀ a x s s1, s.Enabled .any {} → Reads a s x s1 → x.toNat % 4 ≠ 0 → s1.queues = s.queues →
    exec (.jr a) s = .next (s1.takeTrap 0x20 x s.task.pc))

/-- CALL and CALLR enter a new depth when the stack has room (R129, R230): the caller's g24-g30 are the callee's g8-g14,
its g15 is the address of the next word, g16-g31 are zero, g0-g7 stay; without room they trap and change nothing. The frame
left takes a bank of the register file; where none is free the task's deepest frame goes to its register stack first (R131;
log entry 10), and where the frame below has gone there, g8-g15 go to that frame's upper half (R129). -/
def Obligations.CallsSlideTheWindow : Prop :=
  ∀ enter : State → State, (enter = fun s => s.leaveFrame.serve.setTask fun t => { t with
      outstanding := [], saved := vec16 (fun i => vget t.g (8 + i)) :: t.saved,
      g := vec32 fun i => if i < 8 then vget t.g i else if i < 15 then vget t.g (i + 16)
        else if i = 15 then t.pc + 4 else 0 }) →
  ∀ limit : Task → Nat, (limit = fun t => t.sbase.toNat + 128 * (t.saved.length + 2)) →
  (∀ s u : State, (u = if 0 < s.freeBanks s.task then s else s.spillFrame s.task.key) →
    (u.task.saved = [] ∨ u.task.outFrames < u.task.saved.length → s.leaveFrame = u) ∧
    (u.task.saved ≠ [] → u.task.saved.length ≤ u.task.outFrames → s.leaveFrame = u.putImages u.task (tabulate 8 fun i =>
      (u.task.sbase + BitVec.ofNat 64 (128 * (u.task.saved.length - 1) + 64 + 8 * i), leBytes 8 (vget u.task.g (8 + i)).toNat)))) ∧
  (∀ o s, s.Enabled .any { imm := true } →
    (limit s.task ≤ s.task.slim.toNat → exec (.call o) s = .next (s.ends (enter s) (.goto (targetOf s o)))) ∧
    (s.task.slim.toNat < limit s.task →
      exec (.call o) s = .next (s.takeTrap 0x40 (BitVec.ofNat 64 (limit s.task)) s.task.pc))) ∧
  (∀ a x s s1, s.Enabled .any {} → Reads a s x s1 → x.toNat % 4 = 0 → limit s1.task ≤ s1.task.slim.toNat →
    exec (.callr a) s = .next (s.ends (enter s1) (.goto x))) ∧
  (∀ a x s s1, s.Enabled .any {} → Reads a s x s1 → s1.queues = s.queues →
    (x.toNat % 4 ≠ 0 → exec (.callr a) s = .next (s1.takeTrap 0x20 x s.task.pc)) ∧
    (x.toNat % 4 = 0 → s1.task.slim.toNat < limit s1.task →
      exec (.callr a) s = .next (s1.takeTrap 0x40 (BitVec.ofNat 64 (limit s1.task)) s.task.pc)))

/-- RET above depth 0 goes to the address in g15, which must be aligned (R232),
    and gives the caller its window back: g24-g31 are the callee's
g8-g15, g8-g23 what they were at the call, g0-g7 stay (R231); what has gone to the register stack comes from there: g16-g23 with
the caller's frame, g8-g15 with the frame below it (R129, R130, R432). At depth 0 it ends the task, as DONE does at every depth
(R233; ControlResults states what the end of a task does). A return right after a call finds every register of the caller's
window as it was but g31, which holds the return address (R129, R230). -/
def Obligations.ReturnsSlideTheWindowBack : Prop :=
  ((∀ s v rest, s.Enabled .any {} → s.task.saved = v :: rest → (vget s.task.g 15).toNat % 4 = 0 →
    ∀ w s2, (w, s2) = s.callerRegs s.task v →
    exec .ret s = .next (s.ends (s2.setTask fun t => { t with
      outstanding := [], saved := t.saved.tail, outFrames := min t.outFrames (t.saved.length - 1),
      g := vec32 fun i => if i < 8 then vget t.g i else if i < 24 then vget w (i - 8)
        else vget t.g (i - 16) }) (.goto (vget s.task.g 15))) ∧
    (s.task.outFrames < max 1 rest.length → w = v ∧ s2 = s) ∧
    (∀ low : List (W64 × Nat × Nat), (low = tabulate 8 fun i => (if rest = [] then s.task.ctx + BitVec.ofNat 64 (0x140 + 8 * i)
        else s.task.sbase + BitVec.ofNat 64 (128 * (rest.length - 1) + 64 + 8 * i), 8, (vget v i).toNat)) →
      (1 ≤ rest.length → s.task.outFrames = rest.length → ∃ ws, (ws, s2) = s.imageWords s.task low ∧
        ∀ i, i < 16 → vget w i = if i < 8 then BitVec.ofNat 64 (lget ws i) else vget v i) ∧
      (rest.length < s.task.outFrames → ∃ ws, (ws, s2) = s.imageWords s.task (low ++ tabulate 8 fun i =>
          (s.task.sbase + BitVec.ofNat 64 (128 * rest.length + 8 * i), 8, (vget v (8 + i)).toNat)) ∧
        ∀ i, i < 16 → vget w i = BitVec.ofNat 64 (lget ws i)))) ∧
  (∀ s, s.Enabled .any {} → s.task.saved ≠ [] → (vget s.task.g 15).toNat % 4 ≠ 0 →
    exec .ret s = .next (s.takeTrap 0x20 (vget s.task.g 15) s.task.pc)) ∧
  (∀ s, s.Enabled .any {} → s.task.saved = [] →
    exec .ret s = .next (s.ends (s.endTask false) .gone)) ∧
  (∀ s, s.Enabled .any {} → exec .done s = .next (s.ends (s.endTask false) .gone))) ∧
  (∀ (t u : Task) (ret : W64) (k : Nat), k < 31 → u = (t.slide ret).slideBack (vec16 fun i => vget t.g (8 + i)) →
    vget u.g k = vget t.g k ∧ u.saved = t.saved ∧ vget u.g 31 = ret)

/-- NOP and IDLE only advance; DONE ends the task at every depth (R233); YIELD makes the task READY behind every task of the ready set, and its core may then go on with
those a high-priority task kept suspended, and with queued packets (R134, R136, R137, R233). TRAP consumes its
hints and resumes after itself; BRK resumes at itself; ERET in a handler returns, elsewhere it is an illegal instruction
(R198, R234, R235). The end of a task, here and in a RET at depth 0 and a termination, is a boundary at system scope, after
which the task is ENDED, holds no lanes, no packet and no activation, and its unfinished control writes are gone (R119, R133,
R379); its instance completes when nothing of it is left: its counter is signalled, `LAST` holds its status, its successors'
credits count down, `LIVE` is one less and its regions are released (R151). -/
def Obligations.ControlResults : Prop :=
  ((∀ s, s.Enabled .any {} → exec .nop s = .next (s.ends s .seq) ∧ exec .idle s = .next (s.ends s .seq) ∧
    exec .done s = .next (s.ends (s.endTask false) .gone)) ∧
  (∀ s, s.Enabled .any {} → s.task.high = false → s.chq = [] → s.task.hints.hlive = none →
    exec .yield s = .next { s with
      ready := s.ready ++ [s.task.key],
      task := { s.task with status := .ready, hints := {}, pc := s.task.pc + 4, stalled := false } }) ∧
  (∀ s, s.Enabled .any {} → ∀ t : State, t =
      { s with ready := s.ready ++ [s.task.key] }.setTask (fun t => { t with status := .ready }) →
    exec .yield s = .next (s.ends ((if s.task.high then t.unsuspend s.task.core else t).startQueued s.task.core) .seq))) ∧
  ((∀ c s, s.Enabled .any {} → ∃ s1 : State,
      s1 = (s.setTask fun t => { t with hints := {} }).takeTrap 0x70 (c.setWidth 64) (s.task.pc + 4) ∧
    exec (.trap c) s = .next (s.ends s1 .gone)) ∧
  (∀ c s, s.Enabled .any {} → exec (.brk c) s = .next (s.takeTrap 0x71 (c.setWidth 64) s.task.pc)) ∧
  (∀ s, s.Enabled .any {} → s.task.tstat.getLsbD 0 = true →
    exec .eret s = .next { s with task := { s.task with
      pc := s.task.tepc, tstat := s.task.tstat - 1,
      hints := if s.task.tstat.getLsbD 1 then Hints.restore s.task.thint s.task.thintx else {} } }) ∧
  (∀ s, s.Enabled .any {} → s.task.tstat.getLsbD 0 = false →
    exec .eret s = .next (s.takeTrap 0x00 0x48000007 s.task.pc))) ∧
  (∀ (u v : State) bad r gen, v = u.boundary .system → r = BitVec.ofNat 14 (bitsOf v.task.launch.toNat 0 14) →
      gen = BitVec.ofNat 16 (bitsOf v.task.launch.toNat 14 16) →
      ∃ w : State, u.endTask bad = w.checkComplete v.task.launch ∧
      w.task = { v.task with status := .ended, lanes := [], laneImage := [], pkt := [], pktChan := none, hints := {},
                             outstanding := [], activation := none, waitOn := .nothing } ∧
      (∀ d, w.die d = { v.die d with staging := (v.die d).staging.filter fun b => b.writer != .task v.task.key }) ∧
      w.insts = (if bad = true then v.insts.map fun i => if i.recNo = r ∧
          i.gen = gen then { i with bad := true } else i else v.insts) ∧
      w.ready = v.ready.filter (· != v.task.key) ∧ w.mem = v.mem ∧ w.full = v.full ∧ w.recs = v.recs ∧
          w.bindings = v.bindings ∧ w.ops = v.ops) ∧
  (∀ (w : State) l i, w.inst (BitVec.ofNat 14 (bitsOf (BitVec.toNat l) 0 14)) (BitVec.ofNat 16 (bitsOf l.toNat 14 16)) = some i →
      ∀ all : Bool, all = (decide (i.st = .dispatched ∧ i.parts = [] ∧ i.outside = [] ∧ i.lost = []) &&
        w.allTasks.all (fun t => t.launch != launchWord i.recNo i.gen || decide (t.status = .ended)) &&
        w.ops.all (fun o => o.launch != launchWord i.recNo i.gen) &&
            w.bindings.all (fun b => b.launch != launchWord i.recNo i.gen)) →
      (all = false → w.checkComplete l = w) ∧
      (all = true → ∀ k n, k = i.recNo.toNat → n = (if i.bad then stERROR else stOK) →
        ∀ x : State, x = w.counterAdd .other (w.recDw k 5).toNat 1 →
        ∀ y : State, y = { x with recLast := setKey x.recLast k (((lookupKey x.recLast k).getD 0 &&& 0x100) ||| BitVec.ofNat 64 n) } →
        ∀ z : State, z = (if n = stOK then (y.successors k).foldl State.decrement y else y) →
            ∀ q : State, q = z.setRecField k 0 40 8 (z.live k - 1) →
        w.checkComplete l = (({ q with insts := q.insts.filter fun j => !(j.recNo == i.recNo && j.gen == i.gen) } : State).dropRegions
          (({ q with insts := q.insts.filter fun j => !(j.recNo == i.recNo && j.gen == i.gen) } : State).launchOf i.recNo)).fillPaddock)) ∧
    (∀ (w : State) l, w.inst (BitVec.ofNat 14 (bitsOf (BitVec.toNat l) 0 14)) (BitVec.ofNat 16 (bitsOf l.toNat 14 16)) = none →
        w.checkComplete l = w) ∧
    (∀ (w : State) k, (∀ i, w.insts.find? (fun i => i.recNo.toNat == k && decide (i.st = .waiting) && i.pending != 0) = some i →
        w.decrement k = (w.updInst i.recNo i.gen fun x => { x with pending := x.pending - 1 }).wakeInst i.recNo i.gen) ∧
      (w.insts.find? (fun i => i.recNo.toNat == k && decide (i.st = .waiting) && i.pending != 0) = none →
        (w.cred k < 255 → w.decrement k = w.setRecField k 0 32 8 (w.cred k + 1)) ∧
        (255 ≤ w.cred k → w.decrement k = { w with recLast := setKey w.recLast k ((lookupKey w.recLast k).getD 0 ||| 0x100) })))

/-- A hint word becomes pending with its payload and the pc moves on; one of a kind already pending is an illegal
instruction; a hint of a kind without meaning does nothing (R195, R197). -/
def Obligations.HintsBecomePending : Prop :=
  ∀ s : State, ∀ pending : Instr → Hints → Hints → Prop,
    (pending = fun i h h' => exec i { s with task := { s.task with hints := h } } =
      .next { s with task := { s.task with hints := h', pc := s.task.pc + 4 } }) →
    (∀ h p, h.himm = none → pending (.himm p) h { h with himm := some p }) ∧
    (∀ h p, h.hlive = none → pending (.hlive p) h { h with hlive := some p }) ∧
    (∀ h p, p ≠ 3 → h.hnt = none → pending (.hnt p) h { h with hnt := some p }) ∧
    (∀ h n p, h.hpred = none → pending (.hpred n p) h { h with hpred := some (n ++ p) }) ∧
    (∀ h o k, h.hord = none → pending (.hord o k) h { h with hord := some (o, k) }) ∧
    (∀ h p, h.hpri = none → pending (.hpri p) h { h with hpri := some p }) ∧
    (∀ h k p, pending (.hintReserved k p) h h) ∧
    (∀ p w, s.task.hints.himm.isSome → encode (.himm p) = some w →
      exec (.himm p) s = .next (s.takeTrap 0x00 (BitVec.ofNat 64 w) s.task.pc)) ∧
    (∀ p w, s.task.hints.hlive.isSome → encode (.hlive p) = some w →
      exec (.hlive p) s = .next (s.takeTrap 0x00 (BitVec.ofNat 64 w) s.task.pc)) ∧
    (∀ n p w, s.task.hints.hpred.isSome → encode (.hpred n p) = some w →
      exec (.hpred n p) s = .next (s.takeTrap 0x00 (BitVec.ofNat 64 w) s.task.pc)) ∧
    (∀ p w, s.task.hints.hnt.isSome ∨ p = 3 → encode (.hnt p) = some w →
      exec (.hnt p) s = .next (s.takeTrap 0x00 (BitVec.ofNat 64 w) s.task.pc)) ∧
    (∀ o k w, s.task.hints.hord.isSome → encode (.hord o k) = some w →
      exec (.hord o k) s = .next (s.takeTrap 0x00 (BitVec.ofNat 64 w) s.task.pc)) ∧
    (∀ p w, s.task.hints.hpri.isSome → encode (.hpri p) = some w →
      exec (.hpri p) s = .next (s.takeTrap 0x00 (BitVec.ofNat 64 w) s.task.pc))

/-- CRD writes the control register as it stands (R204, R236); a number not in the table, in its gaps or past its end, is an
illegal operand. The model's choices (log entries 11, 35): `CAPRF` of a stager or an issuer, and `ACT` of `WSREF` at reset,
where the position lies in a refresh. -/
def Obligations.ControlRegisterReads : Prop :=
  (∀ (s : State) (d : Spec) (n : BitVec 12) (v : W64) (s1 : State), s.Enabled .any {} →
      (n, v) ∈ ([(0x000#12, s.task.tid), (0x001#12, s.task.lvl[0]), (0x002#12, s.task.lvl[1]),
      (0x003#12, s.task.lvl[2]), (0x004#12, s.task.lvl[3]), (0x005#12, s.task.lvl[4]), (0x006#12, s.task.lvl[5]),
      (0x007#12, s.task.lvl[6]), (0x008#12, s.task.lvl[7]), (0x009#12, s.task.launch), (0x010#12, s.task.prec), (0x011#12,
          s.task.rmode),
      (0x012#12, s.task.fstat), (0x013#12, s.task.fena), (0x020#12, BitVec.ofNat 64 s.task.lanes.length), (0x021#12, s.task.tags),
      (0x030#12, s.task.usc), (0x031#12, s.task.slim), (0x032#12, s.task.sbase), (0x040#12, s.task.tepc), (0x041#12, s.task.tcause),
      (0x042#12, s.task.tval), (0x043#12, s.task.tstat), (0x044#12, s.task.thint), (0x045#12, s.task.thintx), (0x046#12,
          s.task.tvec),
      (0x047#12, (s.die s.task.core.die.toNat).supv), (0x048#12, (s.cluster (clusterId s.task.core)).cflags.setWidth 64),
      (0x050#12, s.task.wcwait), (0x051#12, s.task.vdone), (0x054#12, if s.task.core.core = 9 then s.task.mx.mxstate else 0),
      (0x055#12, s.task.asid.setWidth 64), (0x056#12, s.task.jobkey.setWidth 64), (0x061#12, (s.die s.task.core.die.toNat).ebudget),
      (0x052#12, BitVec.ofNat 64 (s.outstandingSends s.task.key 1 % 16 * 4096 + s.outstandingSends s.task.key 0 % 16 * 256 +
        s.task.egdepth.toNat % 256)), (0x053#12, (s.die s.task.core.die.toNat).wsref),
      (0x060#12, BitVec.ofNat 64 (min (s.die s.task.core.die.toNat).energy (2 ^ 64 - 1))), (0x063#12, s.capcl),
      (0x062#12, BitVec.ofNat 64 (16 * s.banks s.task.core)), (0x070#12,
          (s.die s.task.core.die.toNat).errinj)] : List (BitVec 12 × W64)) → Writes s d v s s1 →
    exec (.crd d n) s = .next (s.ends s1 .seq)) ∧
  (∀ s d n, s.Enabled .any {} → scalarDstOk s.task.core d = true → s.creg n.toNat = none →
    exec (.crd d n) s = .next (s.takeTrap 0x01 (n.setWidth 64) s.task.pc)) ∧
  (∀ s : State, ∀ n, n ∉ [0x000, 0x001, 0x002, 0x003, 0x004, 0x005, 0x006, 0x007, 0x008, 0x009, 0x010, 0x011, 0x012, 0x013,
    0x020, 0x021, 0x030, 0x031, 0x032, 0x040, 0x041, 0x042, 0x043, 0x044, 0x045, 0x046, 0x047, 0x048, 0x050, 0x051, 0x052,
    0x053, 0x054, 0x055, 0x056, 0x060, 0x061, 0x062, 0x063, 0x070] → s.creg n = none) ∧
  (∀ d : Die, ∀ p, p = d.wsPos % 5100 → d.wsref = BitVec.ofNat 64 (d.wsShift * 4294967296 + (if p < 2040 then 131072 else 0) +
    p * 16 + d.wsPos / 5100)) ∧
  (∀ s : State, ∀ n : Nat → Nat, (n = fun d => if s.dieMask.getLsbD d then (List.range 64).countP (s.die d).enabled.getLsbD else 0) →
    s.capcl = BitVec.ofNat 64 (s.dieMask.toNat * 4294967296 + n 3 * 16777216 + n 2 * 65536 + n 1 * 256 + n 0))

/-- CWR sets the registers that software may write, each to the bits its rule keeps, and changes nothing else; a write of
a read-only register is ignored (R8, R204, R237). A flag set in `FSTAT` reaches the cluster's `CFLAGS` too (R168). A register
of a die takes a write of a management task only (R61, R157, R165, R317); a number not in the table is an illegal operand, and
so is a mode that `RMODE` does not have, a `PREC` with a reserved bit set, an `EGDEPTH` whose depths are not 1 to 8, and a
`SUPV` of a management task with a reserved bit set or a core that is no lane core (R17, R165, R330). -/
def Obligations.ControlRegisterWrites : Prop :=
  (∀ d v s s1, s.Enabled .any {} → Reads d s v s1 → ∀ sets : BitVec 12 → (Task → Task) → Prop,
    (sets = fun n f => exec (.cwr d n) s = .next (s.ends (s1.setTask f) .seq)) →
    (v.toNat < 5 → sets 0x011 fun t => { t with rmode := v }) ∧
    sets 0x013 (fun t => { t with fena := v &&& 0x1F }) ∧ sets 0x031 (fun t => { t with slim := v }) ∧
    sets 0x040 (fun t => { t with tepc := v }) ∧ sets 0x042 (fun t => { t with tval := v }) ∧
    sets 0x043 (fun t => { t with tstat := t.tstat &&& ~~~3#64 ||| (v &&& 3) }) ∧
    sets 0x044 (fun t => { t with thint := v &&& 0xFFFFFFFFFFF00000 }) ∧
    sets 0x045 (fun t => { t with thintx := v &&& 0x3FFFFFCF33 }) ∧
    sets 0x046 (fun t => { t with tvec := v &&& 0xFFFFFFFFFFFFFFC1 }) ∧
    sets 0x050 (fun t => { t with wcwait := v &&& 0xFFFF }) ∧ sets 0x051 (fun t => { t with vdone := v &&& 0xFF00FF }) ∧
    (∀ n ∈ [0x000#12, 0x001, 0x002, 0x003, 0x004, 0x005, 0x006, 0x007, 0x008, 0x009, 0x020, 0x021, 0x030, 0x032, 0x041, 0x054,
      0x055, 0x056, 0x060, 0x062, 0x063], sets n id)) ∧
  (∀ d v s s1, s.Enabled .any {} → Reads d s v s1 → ∀ t, t = s1.setTask (fun t => { t with fstat := v &&& 0x1F }) →
    exec (.cwr d 0x012) s = .next (s.ends (if v.setWidth 5 = 0#5 then t
      else t.setCluster (clusterId s1.task.core) fun c => { c with cflags := c.cflags ||| v.setWidth 5 }) .seq)) ∧
  (∀ d v s s1, s.Enabled .any {} → Reads d s v s1 → exec (.cwr d 0x048) s = .next (s.ends
    (s1.setCluster (clusterId s1.task.core) fun c => { c with cflags := c.cflags &&& ~~~v.setWidth 5 }) .seq)) ∧
  (∀ d v s s1, s.Enabled .any {} → Reads d s v s1 → s1.queues = s.queues → 5 ≤ v.toNat →
    exec (.cwr d 0x011) s = .next (s1.takeTrap 0x01 v s.task.pc)) ∧
  (∀ d v s s1, s.Enabled .any {} → Reads d s v s1 →
    (v &&& 0x3F07 = v → exec (.cwr d 0x010) s = .next (s.ends (s1.setTask fun t => { t with prec := v }) .seq)) ∧
    (v &&& 0x3F07 ≠ v → exec (.cwr d 0x010) s = .next ((s1.restoreQueues s).takeTrap 0x01 v s.task.pc)) ∧
    (¬(1 ≤ v.toNat % 16 ∧ v.toNat % 16 ≤ 8 ∧ 1 ≤ v.toNat / 16 % 16 ∧ v.toNat / 16 % 16 ≤ 8) →
      exec (.cwr d 0x052) s = .next ((s1.restoreQueues s).takeTrap 0x01 v s.task.pc)) ∧
    (1 ≤ v.toNat % 16 → v.toNat % 16 ≤ 8 → 1 ≤ v.toNat / 16 % 16 → v.toNat / 16 % 16 ≤ 8 →
      exec (.cwr d 0x052) s = .next (s.ends (s1.setTask fun t => { t with egdepth := v &&& 0xFF }) .seq)) ∧
    (∀ n, s1.creg (BitVec.toNat n) = none → s1.queues = s.queues →
      exec (.cwr d n) s = .next (s1.takeTrap 0x01 (n.setWidth 64) s.task.pc))) ∧
  (∀ d v s s1 m s2, s.Enabled .any {} → Reads d s v s1 → Gives isManagement s1 m s2 →
    ∀ done : BitVec 12 → State → Prop, (done = fun n t => exec (.cwr d n) s = .next (s.ends t .seq)) →
    (m = false → ∀ n ∈ [0x047#12, 0x053, 0x061, 0x070], done n s2) ∧
    (m = true → ∀ set : (Die → Die) → State, (set = s2.setDie s2.task.core.die.toNat) →
      (v &&& 0xFFFF3FF1 = v → v.toNat / 16 % 16 < 8 → done 0x047 (set fun d => { d with supv := v })) ∧
      (v &&& 0xFFFF3FF1 ≠ v ∨ 8 ≤ v.toNat / 16 % 16 →
        exec (.cwr d 0x047) s = .next ((s2.restoreQueues s).takeTrap 0x01 v s.task.pc)) ∧
      (∀ x, x = v.toNat / 2 ^ 32 % 2 ^ 17 →
        (x ≤ 81599 → s2.claimHeld s2.task.core.die.toNat = false → done 0x053 (set fun d =>
          { d with wsShift := x, wsPause := d.wsPause + (x + 81600 - d.wsShift) % 81600 })) ∧
        (81599 < x ∨ s2.claimHeld s2.task.core.die.toNat = true → done 0x053 s2)) ∧
      done 0x061 (set fun d => { d with ebudget := if v.toNat % 2 ^ 32 = 0 then v ||| 1 else v, winEnergy := d.energy }) ∧
      done 0x070 (set fun d => { d with errinj := v &&& 0x8000FFF7FFFFFFFF, errSeen := 0 })))

/-- LD, LDZ, LDX and LDZX write what memory holds at their address, sign- or zero-extended, and leave the destination
pending (R216, R239, R240). -/
def Obligations.LoadResults : Prop :=
  (∀ d a z o x v s s1 s2 s3, s.Enabled .any { imm := true } → Reads a s x s1 →
    Gives (loadNat (x + immediateOf s.task.hints o) (2 ^ z.toNat)) s1 v s2 →
    (Loads s d ((BitVec.ofNat (8 * 2 ^ z.toNat) v).signExtend 64) s2 s3 →
      exec (.ld d a z o) s = .next (s.ends s3 .seq)) ∧
    (Loads s d (BitVec.ofNat 64 v) s2 s3 → exec (.ldz d a z o) s = .next (s.ends s3 .seq))) ∧
  (∀ d a b z h x y v s s1 s2 s3, s.Enabled .any {} → Reads2 a b s x y s1 →
    Gives (loadNat (x + (y <<< h.toNat)) (2 ^ z.toNat)) s1 v s2 →
    (Loads s d ((BitVec.ofNat (8 * 2 ^ z.toNat) v).signExtend 64) s2 s3 →
      exec (.ldx d a b z h) s = .next (s.ends s3 .seq)) ∧
    (Loads s d (BitVec.ofNat 64 v) s2 s3 → exec (.ldzx d a b z h) s = .next (s.ends s3 .seq)))

/-- ST and STX hold the low bytes of their data, privately and in place of what the task held of them,
    at the physical address their address translates to; no byte
of memory changes but through the translation itself (R86, R239-R241). A store that would hold more lines than the private
area and the spill area have raises the stack-limit trap (R88; log entry 36). -/
def Obligations.StoreResults : Prop :=
  (∀ d a z o x v pa s s1 s2, s.Enabled .any { imm := true } → Reads2 a d s x v s1 →
    Gives (translate1 s1.task.tctx { write := true } (x + immediateOf s.task.hints o) (2 ^ z.toNat)) s1 pa s2 →
    ((heldLines (holdOne s2.task.held ⟨pa, leBytes (2 ^ z.toNat) v.toNat⟩)).length ≤ 64 + s2.task.spillLines →
    exec (.st d a z o) s = .next (s.ends
      (s2.setTask fun t => { t with held := holdOne t.held ⟨pa, leBytes (2 ^ z.toNat) v.toNat⟩ }) .seq)) ∧
    (64 + s2.task.spillLines < (heldLines (holdOne s2.task.held ⟨pa, leBytes (2 ^ z.toNat) v.toNat⟩)).length →
      exec (.st d a z o) s = .next ((s2.restoreQueues s).takeTrap 0x40 (x + immediateOf s.task.hints o) s.task.pc))) ∧
  (∀ d a b z h x y v pa s s0 s1 s2, s.Enabled .any {} → Reads2 a b s x y s0 → scalarSrcOk s.task.core d = true →
    readScalar d s0 = .ok v s1 →
    Gives (translate1 s1.task.tctx { write := true } (x + (y <<< h.toNat)) (2 ^ z.toNat)) s1 pa s2 →
    (heldLines (holdOne s2.task.held ⟨pa, leBytes (2 ^ z.toNat) v.toNat⟩)).length ≤ 64 + s2.task.spillLines →
    exec (.stx d a b z h) s = .next (s.ends
      (s2.setTask fun t => { t with held := holdOne t.held ⟨pa, leBytes (2 ^ z.toNat) v.toNat⟩ }) .seq))

/-- What translation gives and which fault it raises (R19-R39): canonical form, then alignment, for the whole access; then for a
piece that crosses no 4 KiB boundary the local window with its named regions, or a range entry, or else a page, and its
permissions before its attributes; a first piece that faults is the fault of the whole. The ASID entry, a range held or the
whole range table, a page held or the walk of the tables. And neither translation nor a load changes any register or byte: they
fill TLBs and note what the task has read (R41, R94). The model's choice: which held page of a 64 KiB block serves, and which
translations a full TLB drops (log entry 9). -/
def Obligations.TranslationAndLoadFrame : Prop :=
  (∀ c a va n al ps s s', s.failed = [] → Gives (translate c a va n al) s ps s' →
    s' = { s with l1 := s'.l1, rtlb := s'.rtlb, dtlb := s'.dtlb, pos := s'.pos, tick := s'.tick }) ∧
  (∀ va n v s s', s.failed = [] → Gives (loadNat va n) s v s' →
    s' = { s with
      l1 := s'.l1, rtlb := s'.rtlb, dtlb := s'.dtlb, pos := s'.pos, tick := s'.tick,
          task := { s.task with seen := s'.task.seen } }) ∧
  (∀ c a (va : W64) n al s, ∀ T, T = translate c a va n al s → ∀ last : W64, last = va + BitVec.ofNat 64 (n - 1) →
    (canonical va = false ∨ canonical last = false → T = .error (.trap 0x13 va) s) ∧
    (canonical va = true → canonical last = true →
      (va.toNat % al ≠ 0 → T = .error (.trap 0x20 va) s) ∧
      (va.toNat % al = 0 → 4096 < va.toNat % 4096 + n → ∀ e u,
        translatePiece c a va.toNat (4096 - va.toNat % 4096) s = .error e u → T = .error e u) ∧
      (va.toNat % al = 0 → 0 < n → va.toNat % 4096 + n ≤ 4096 →
        (inWindow va.toNat = true →
          (c.window = none → T = .error (.trap 0x10 va) s) ∧
          (∀ die clu, c.window = some (die, clu) → ∀ o, o = va.toNat - 0x7F0000000000 →
            ∀ hit, hit = ((c.recNo.map s.namedRegions).getD []).filter (fun r => decide (r.1 < o + n ∧ o < r.1 + r.2.1)) →
            (a.fetch = true ∨ a.load = true ∨ (a.write = true ∧ ∃ r ∈ hit, r.2.2.2 = false) ∨
              (a.fe = true ∧ ∃ r ∈ hit, r.2.2.1 = false) → T = .error (.trap 0x11 va) s) ∧
            (a.fetch = false → a.load = false → (a.write = true → ∀ r ∈ hit, r.2.2.2 = true) →
              (a.fe = true → ∀ r ∈ hit, r.2.2.1 = true) → T = .ok [(scratchBase die clu + o, n)] s))) ∧
        (inWindow va.toNat = false →
          (∀ e u, leafOf c va.toNat s = .error e u → T = .error e u) ∧
          (∀ m e u, Gives (leafOf c va.toNat) s (m, e) u → ∀ pa, pa = e.pa + (va.toNat % 2 ^ 56 - e.va) →
            (regionOf pa = .hole → T = .error (.trap 0x10 va) u) ∧
            (regionOf pa ≠ .hole → permitted a e.attr pa m.mgmt = false → T = .error (.trap 0x11 va) u) ∧
            (regionOf pa ≠ .hole → permitted a e.attr pa m.mgmt = true → attributesAgree u e.attr pa = false →
              T = .error (.trap 0x12 va) u) ∧
            (regionOf pa ≠ .hole → permitted a e.attr pa m.mgmt = true → attributesAgree u e.attr pa = true →
              T = .ok [(pa, n)] u)))))) ∧
  (∀ (a : Access) attr pa m, permitted a attr pa m = true ↔
    (a.write = true → bitAt attr 2 = true ∧ inPool pa = false ∧ (a.load = true ∨ ∀ d, regionOf pa ≠ .weight d)) ∧
    (a.load = true → ∃ d, regionOf pa = .weight d) ∧ (a.sync = true ∨ a.fe = true → hasFullBits pa = true) ∧
    (a.fetch = true → bitAt attr 3 = true) ∧ (a.fe = true → bitAt attr 8 = true) ∧ ((∃ d o, regionOf pa = .control d o) →
        m = true)) ∧
  (∀ c va s, ∀ none10 : State → Prop, (none10 = fun u => leafOf c va s = .error (.trap 0x10 (BitVec.ofNat 64 va)) u) →
    (∀ ds u, Gives ((List.range 8).mapM fun i => walkRead ((s.die c.die).asidTbl + 64 * c.asid.toNat + 8 * i)) s ds u →
      ∀ d0 d1, d0 = lget ds 0 → d1 = lget ds 1 → ∀ ok : Bool, ok = (bitAt d0 0 && reservedZero d0 [(0, 2), (12, 40)] &&
        bitsOf d0 12 8 == 0 && reservedZero d1 [(0, 9), (12, 40)] && decide (bitsOf d1 0 9 ≤ 256) && (ds.drop 2).all (· == 0)) →
      Gives (asidEntry c) s (if ok then some ⟨bitsOf d0 12 40 * 4096, bitAt d0 1, bitsOf d1 12 40 * 4096,
          bitsOf d1 0 9⟩ else none) u) ∧
    (∀ u, Gives (asidEntry c) s none u → none10 u) ∧
    (∀ m u, Gives (asidEntry c) s (some m) u →
      (∀ e w, rangeLookup c m va u = .error e w → leafOf c va s = .error e w) ∧
      (∀ e w, Gives (rangeLookup c m va) u (some e) w → Gives (leafOf c va) s (m, e) w) ∧
      (∀ w, Gives (rangeLookup c m va) u none w →
        (∀ e x, Gives (pageLookup c m va) w (some e) x → Gives (leafOf c va) s (m, e) x) ∧
        (∀ x, Gives (pageLookup c m va) w none x → none10 x)))) ∧
  (∀ c m va s, ∀ v, v = va % 2 ^ 56 → ∀ held, held = (if m.rcount = 0 then none
      else c.core.bind fun k => s.rtlb.find? fun p => p.1 == k && p.2.covers c.asid v) →
    (∀ p, held = some p → Gives (rangeLookup c m va) s (some p.2) s) ∧
    (held = none → ∀ es u, Gives ((List.range m.rcount).mapM fun i => rangeEntry c.asid (m.rtbase + 32 * i)) s es u →
      ∀ ts, ts = es.filterMap id →
      (ts.find? (·.covers c.asid v) = none → Gives (rangeLookup c m va) s none u) ∧
      (∀ e, ts.find? (·.covers c.asid v) = some e →
        ∀ lap, lap = ts.filter (fun x => decide (x.va < e.va + e.len ∧ e.va < x.va + x.len)) →
        (1 < lap.length → rangeLookup c m va s = .error (.trap 0x10 (BitVec.ofNat 64 va)) u) ∧
        (lap.length ≤ 1 → (c.core = none → Gives (rangeLookup c m va) s (some e) u) ∧
          ∀ k, c.core = some k → Gives (rangeLookup c m va) s (some e) { u with rtlb := tlbAdd 32 k e u.rtlb })))) ∧
  (∀ asid pa s d0 d1 d2 d3 s1 s2 s3 s4, Gives (walkRead pa) s d0 s1 → Gives (walkRead (pa + 8)) s1 d1 s2 →
    Gives (walkRead (pa + 16)) s2 d2 s3 → Gives (walkRead (pa + 24)) s3 d3 s4 →
    ∀ b l p, b = bitsOf d0 12 44 → l = bitsOf d1 12 44 → p = bitsOf d2 12 40 →
    ∀ ok : Bool, ok = (bitAt d0 0 && reservedZero d0 [(0, 1), (12, 44)] && reservedZero d1 [(12, 44)] &&
      reservedZero d2 [(12, 40)] && reservedZero d3 [(2, 9)] && decide (bitsOf d3 5 2 ≤ 1) && decide (b ≤ l) &&
      decide ((p + l - b) * 4096 + 4095 < 2 ^ 52)) →
    Gives (rangeEntry asid pa) s (if ok then some ⟨asid, b * 4096, (l + 1 - b) * 4096, p * 4096, d3 % 4096⟩ else none) s4) ∧
  (∀ c m va s, ∀ v, v = va % 2 ^ 56 → ∀ die, die = BitVec.ofNat 2 c.die →
    ∀ one two, one = c.core.bind (fun k => s.l1.find? fun p => p.1 == k && p.2.covers c.asid v) →
    two = s.dtlb.find? (fun p => p.1 == die && p.2.covers c.asid v) →
    ∀ fill : TlbEntry → State → State, (fill = fun e u => match c.core with
      | some k => { u with l1 := tlbAdd 1024 k e u.l1 }
      | none => u) →
    (∀ p, one = some p → Gives (pageLookup c m va) s (some p.2) s) ∧
    (∀ p, one = none → two = some p → Gives (pageLookup c m va) s (some p.2) (fill p.2 s)) ∧
    (one = none → two = none →
      (∀ u, Gives (walk c.asid v 3 m.ptroot) s none u → Gives (pageLookup c m va) s none u) ∧
      (∀ e u, Gives (walk c.asid v 3 m.ptroot) s (some e) u →
        Gives (pageLookup c m va) s (some e) (fill e { u with dtlb := tlbAdd 32768 die e u.dtlb })))) ∧
  (∀ asid va level table s e u, level ≤ 3 →
    Gives (walkRead (table + 8 * if level = 3 then bitsOf va 39 17 else bitsOf va (12 + 9 * level) 9)) s e u →
    ∀ addr span, addr = bitsOf e 12 40 * 4096 → span = (if bitAt e 11 = true ∧ level = 0 then 2 ^ 16 else 2 ^ (12 + 9 * level)) →
    (bitAt e 0 = false ∨ 2 ≤ bitsOf e 5 2 ∨ (bitAt e 1 = true ∧ (level = 3 ∨ (bitAt e 11 = true ∧ level ≠ 0) ∨ addr % span ≠ 0)) ∨
      (bitAt e 1 = false ∧ (level = 0 ∨ bitsOf e 2 10 ≠ 0)) → Gives (walk asid va level table) s none u) ∧
    (bitAt e 0 = true → bitsOf e 5 2 < 2 → bitAt e 1 = true → level ≠ 3 → (bitAt e 11 = true → level = 0) → addr % span = 0 →
      Gives (walk asid va level table) s (some ⟨asid, va / span * span, span, addr, e % 4096⟩) u) ∧
    (bitAt e 0 = true → bitsOf e 5 2 < 2 → bitAt e 1 = false → bitsOf e 2 10 = 0 → ∀ l, level = l + 1 →
      walk asid va level table s = walk asid va l addr u))

/-- A task reads back the bytes it holds, whatever memory and other agents hold (R86). -/
def Obligations.LoadSeesOwnHeldStore : Prop :=
  ∀ (s : State) (unit pa : Nat) (data : List Byte), 0 < unit →
    ((s.setTask fun t => { t with held := holdOne t.held ⟨pa, data⟩ }).readTask unit pa data.length).1 = data

/-- Bytes put into memory are read back there, and every other byte reads as before (R84): for canonical memory without
failed units, over the whole address space but the control space and the holes. -/
def Obligations.StoredBytesReadBack : Prop :=
  ∀ (s : State) (pa : Nat) (data : List Byte), Memory.wf s.mem = true → s.failed = [] →
    (∀ x, pa ≤ x → x < pa + data.length → (∀ d o, regionOf x ≠ .control d o) ∧ regionOf x ≠ .hole) →
    ∀ x, (∀ d o, regionOf x ≠ .control d o) → data ≠ [] →
      (s.putBytes false pa data).byteAt x = if pa ≤ x ∧ x < pa + data.length then data.getD (x - pa) 0 else s.byteAt x

/-- LDFE and STFE in their modes (R77, R242, R243): plain; consume, which empties a full word and waits at an empty one;
read-if-full, which tells in the predicate whether the word was full; produce, which fills an empty word and waits at a full
one; fill, which fills whatever the word is. A fill and a produce write the word at its home and make it full. A failed word
is met first and is empty from then on, but by a fill, which reads nothing (R80). The write leaves the word's bytes as one
event at one position and every other byte as it was; a full/empty bit set or cleared is that of its word alone. DEDUCED (log entries 6, 9, 35): a consume whose
destination is a full queue waits for the queue first, a produce and a fill need `W` as well as `FE`, and what waits for the
emptied word comes before a produce. -/
def Obligations.FullEmptyResults : Prop :=
  ((∀ d a p va v s s1 s2 s3, s.Enabled .any {} → Reads a s va s1 → Gives (loadNat va 8) s1 v s2 →
    Loads s d (BitVec.ofNat 64 v) s2 s3 → exec (.ldfe d a p 0) s = .next (s.ends (s3.withPred p true) .seq)) ∧
  (∀ d a p va pa v s s1 s2 s3 s4, s.Enabled .any {} → Reads a s va s1 → Gives (feWord va false) s1 pa s2 →
    Gives (homeRead pa) s2 v s3 → s3.isFull pa = true → Writes s d v (s3.setFull pa false).acquired s4 →
    exec (.ldfe d a p 1) s = .next (s.ends (s4.withPred p true).serve .seq)) ∧
  (∀ d a p va pa v s s1 s2 s3, s.Enabled .any {} → scalarDstOk s.task.core d = true → Reads a s va s1 →
    Gives (feWord va false) s1 pa s2 → Gives (homeRead pa) s2 v s3 → s3.isFull pa = false →
    (s3.destReady s3.task.key d = true →
      exec (.ldfe d a p 1) s = .next (s.ends ((s3.addWaiter ⟨s3.task.key, pa, .consume d p, va, 0⟩).waits .home) .wait)) ∧
    (s3.destReady s3.task.key d = false → exec (.ldfe d a p 1) s = .next (s.stays s3.stuck))) ∧
  (∀ d a p va pa v s s1 s2 s3 s4, s.Enabled .any {} → Reads a s va s1 → Gives (feWord va false) s1 pa s2 →
    Gives (homeRead pa) s2 v s3 → s3.isFull pa = true → Writes s d v s3.acquired s4 →
    exec (.ldfe d a p 3) s = .next (s.ends (s4.withPred p true) .seq)) ∧
  (∀ d a p va pa v s s1 s2 s3 s4, s.Enabled .any {} → Reads a s va s1 → Gives (feWord va false) s1 pa s2 →
    Gives (homeRead pa) s2 v s3 → s3.isFull pa = false → Writes s d 0 { s3 with pos := s3.pos + 1 } s4 →
    exec (.ldfe d a p 3) s = .next (s.ends (s4.withPred p false) .seq))) ∧
  ((∀ d a p va v pa s s1 s2, s.Enabled .any {} → Reads2 a d s va v s1 →
    Gives (translate1 s1.task.tctx { write := true } va 8) s1 pa s2 →
    (heldLines (holdOne s2.task.held ⟨pa, leBytes 8 v.toNat⟩)).length ≤ 64 + s2.task.spillLines →
    exec (.stfe d a p 0) s = .next (s.ends
      ((s2.setTask fun t => { t with held := holdOne t.held ⟨pa, leBytes 8 v.toNat⟩ }).withPred p true) .seq)) ∧
  (∀ d a p va v pa s s1 s2, s.Enabled .any {} → Reads2 a d s va v s1 → Gives (feWord va true) s1 pa s2 →
    ∀ s3, s3 = (s2.meet pa 8).closeAt pa → s3.isFull pa = false → exec (.stfe d a p 2) s = .next (s.ends
      ((((s3.homePut false (.task s1.task.key) pa (leBytes 8 v.toNat)).setFull pa true).serve).withPred p true) .seq)) ∧
  (∀ d a p va v pa s s1 s2, s.Enabled .any {} → Reads2 a d s va v s1 → Gives (feWord va true) s1 pa s2 →
    ∀ s3, s3 = (s2.meet pa 8).closeAt pa → s3.isFull pa = true → exec (.stfe d a p 2) s =
      .next (s.ends ((s3.addWaiter ⟨s1.task.key, pa, .produce v p, va, 0⟩).waits .home) .wait)) ∧
  (∀ d a p va v pa s s1 s2, s.Enabled .any {} → Reads2 a d s va v s1 → Gives (feWord va true) s1 pa s2 →
    exec (.stfe d a p 4) s = .next (s.ends
      ((((s2.homePut true (.task s1.task.key) pa (leBytes 8 v.toNat)).setFull pa true).serve).withPred p true) .seq))) ∧
  (∀ (u : State) whole a pa data, Memory.wf u.mem = true → u.failed = [] → takesBytes pa = true →
    u.Put (u.homePut whole a pa data) a [.system] pa data) ∧
  (∀ (u : State) pa b, hasFullBits pa = true → (∀ x, (u.setFull pa b).isFull x = if x / 8 = pa / 8 then b else u.isFull x) ∧
    ({ u.setFull pa b with full := u.full } : State) = u)

/-- PREF has no visible effect: it reads its operand and goes on (R244). -/
def Obligations.PrefetchHasNoEffect : Prop :=
  ∀ a i x s s1, s.Enabled .any {} → Reads a s x s1 → exec (.pref a i) s = .next (s.ends s1 .seq)

/-- The floating-point arithmetic of R246 and R247 in the four formats: the exact result of the decoded operands, rounded
once in the task's mode, written zero-extended; its flags are raised (R162-R164, R166). -/
def Obligations.FloatArithmeticResults : Prop :=
  (∀ p ∈ [(Instr.fadd, fun rm x y => Exact.add rm x y), (.fsub, fun rm x y => Exact.add rm x y.neg),
      (.fmul, fun _ x y => Exact.mul x y), (.fdiv, fun _ x y => Exact.div x y), (.fmin, fun _ x y => (Exact.minimum x y, 0)),
      (.fmax, fun _ x y => (Exact.maximum x y, 0))],
    ∀ d a b n x y s s1 s2, s.Enabled .any {} → Reads2 a b s x y s1 →
      ∀ r, r = (fmtOf (BitVec.toNat n)).op2 (rmOf s.task.rmode) (p.2 (rmOf s.task.rmode)) x.toNat y.toNat →
      Writes s d (BitVec.ofNat 64 r.1) s1 s2 → exec (p.1 d a b n) s = .next (s.ends s2 (.flags r.2))) ∧
  (∀ p ∈ [(Instr.fma, fun rm x y z => Exact.fma rm x y z), (.fms, fun rm x y z => Exact.fma rm x y z.neg),
      (.fnma, fun rm x y z => Exact.fma rm x.neg y z)],
    ∀ d a b n x y z s s0 s1 s2, s.Enabled .any {} → Reads2 a b s x y s0 → scalarSrcOk s.task.core d = true →
      readScalar d s0 = .ok z s1 →
      ∀ r, r = (fmtOf (BitVec.toNat n)).op3 (rmOf s.task.rmode) (p.2 (rmOf s.task.rmode)) x.toNat y.toNat z.toNat →
      Writes s d (BitVec.ofNat 64 r.1) s1 s2 → exec (p.1 d a b n) s = .next (s.ends s2 (.flags r.2))) ∧
  (∀ d a n x s s1 s2, s.Enabled .any {} → Reads a s x s1 →
    ∀ r, r = (fmtOf (BitVec.toNat n)).op1 (rmOf s.task.rmode) (Exact.sqrt rootBits) x.toNat →
    Writes s d (BitVec.ofNat 64 r.1) s1 s2 → exec (.fsqrt d a n) s = .next (s.ends s2 (.flags r.2)))

/-- The other floating-point members: comparisons with their invalid flags (R248), the class mask, which raises no flag
(R249), sign injection on bits alone (R250), and conversion by selector, whose target, rounding, saturation, NaN and flags are
those of R251's table. -/
def Obligations.FloatOtherResults : Prop :=
  (∀ p a b n x y s s1, s.Enabled .any {} → Reads2 a b s x y s1 →
    ∀ u v : Datum, u = (fmtOf (BitVec.toNat n)).decode x.toNat → v = (fmtOf (BitVec.toNat n)).decode y.toNat →
    ∀ quiet signal : Flg, quiet = (if u.snan || v.snan then nvFlag else 0) →
    signal = (if u.val.isNan || v.val.isNan then nvFlag else 0) →
    exec (.feq p a b n) s = .next (s.ends (s1.withPred p (u.val.eq v.val)) (.flags quiet)) ∧
    exec (.flt p a b n) s = .next (s.ends (s1.withPred p (u.val.lt v.val)) (.flags signal)) ∧
    exec (.fle p a b n) s = .next (s.ends (s1.withPred p (u.val.lt v.val || u.val.eq v.val)) (.flags signal)) ∧
    exec (.fun p a b n) s = .next (s.ends (s1.withPred p (u.val.isNan || v.val.isNan)) (.flags quiet))) ∧
  (∀ d a n x s s1 s2, s.Enabled .any {} → Reads a s x s1 →
    Writes s d (BitVec.ofNat 64 ((fmtOf (BitVec.toNat n)).classify ((fmtOf (BitVec.toNat n)).decode x.toNat))) s1 s2 →
    exec (.fclass d a n) s = .next (s.ends s2 .seq)) ∧
  (∀ p ∈ [(Instr.fsgnj, fun _ y : Bool => y), (.fsgnjn, fun _ y => !y), (.fsgnjx, fun x y => x != y)],
    ∀ d a b n x y s s1 s2, s.Enabled .any {} → Reads2 a b s x y s1 →
      ∀ k, k = (fmtOf (BitVec.toNat n)).width - 1 →
      Writes s d (BitVec.ofNat 64 (x.toNat % 2 ^ k +
        (if p.2 (x.getLsbD k) (y.getLsbD k) then 2 ^ k else 0))) s1 s2 →
      exec (p.1 d a b n) s = .next (s.ends s2 (.flags 0))) ∧
  (∀ d a c n x s s1 s2, s.Enabled .any {} → Reads a s x s1 →
    ∀ r, r = convert (fmtOf (BitVec.toNat n)) (BitVec.toNat c) (rmOf s.task.rmode) x.toNat →
    Writes s d (BitVec.ofNat 64 r.1) s1 s2 → exec (.fcvt d a c n) s = .next (s.ends s2 (.flags r.2))) ∧
  (∀ n < 4, ∀ rm c x, FcvtTable (fmtOf n) rm c x (convert (fmtOf n) c rm x))

/-- A value that a format represents is delivered unchanged, with no flag, in every rounding mode, subnormals and both
zeros included; a NaN is delivered as the canonical NaN of the format (R161-R163). The same holds of the bytes of the two FP8
formats (R169). -/
def Obligations.RepresentableValuesAreExact : Prop :=
  (∀ n : Fin 4, ∀ rm w, w < 2 ^ (fmtOf n.val).width →
    (fmtOf n.val).encode rm ((fmtOf n.val).decode w).val =
      (if ((fmtOf n.val).decode w).val = .nan then [0x7E00, 0x7FC00000, 0x7FF8000000000000, 0x7FC0].getD n.val 0 else w, 0)) ∧
  (∀ rm, ∀ w < 256, encodeE4m3 rm (decodeE4m3 w).val = (if w % 128 = 127 then 0x7F else w, 0) ∧
    e5m2.encode rm (e5m2.decode w).val = (if (e5m2.decode w).val = .nan then 0x7E else w, 0))

/-- Flags an instruction raises are ORed into `FSTAT` and into the cluster's `CFLAGS`; with `SUPV.V` = 0, or with none of
them enabled, the task goes on at the next word; else it has completed and parks with the enabled ones (R166, R168). A parked
task is PARKED, waits until the doubleword at context + 0xF8 exceeds what it held, and its event message goes to the supervisor
core that `SUPV` names; where that address does not translate it ends (R167). -/
def Obligations.RaisedFlagsAreRecorded : Prop :=
  (∀ s s' : State, ∀ f : BitVec 5, ∀ t, s.task.hints.hlive = none → s'.queues = s.queues → s'.failed = s.failed →
     t = (let u := s'.setTask fun t =>
           { t with hints := {}, pc := s.task.pc + 4, stalled := false, fstat := t.fstat ||| f.setWidth 64 }
          if f = 0 then u else u.setCluster (clusterId s'.task.core) fun c => { c with cflags := c.cflags ||| f }) →
     ((s'.die s'.task.core.die.toNat).supv.getLsbD 0 = false ∨ f &&& s'.task.fena.setWidth 5 = 0 →
       s.ends s' (.flags f) = t) ∧
     ((s'.die s'.task.core.die.toNat).supv.getLsbD 0 = true → f &&& s'.task.fena.setWidth 5 ≠ 0 →
       s.ends s' (.flags f) = (t.park (f &&& s'.task.fena.setWidth 5) s.task.pc).serveQueues s)) ∧
  (∀ (u : State) f at_ va, va = u.task.ctx + 0xF8 →
    (∀ pa v, Gives (translate1 u.task.tctx { sync := true } va 8) u pa v → v.failed = [] → v.waiters = [] →
      ∀ supv, supv = (v.die u.task.core.die.toNat).supv.toNat → ∀ t, t = u.park f at_ →
      t.task = { v.task with status := .parked, waitOn := .resumeWord } ∧
      t.waiters = [⟨u.task.key, pa, .park ((v.wordAt pa).toNat + 1), va, 0⟩] ∧
      t.mem = v.mem ∧ t.full = v.full ∧ t.pos = v.pos ∧ t.writes = v.writes ∧
      t.sends = v.sends ++ [{
        id := v.nextId, task := u.task.key, net := 0, cls := 1, key := 0, pri := 0, asid := u.task.asid,
            jobkey := u.task.jobkey, left := 0,
        route := BitVec.ofNat 64 (u.task.core.die.toNat * 2 ^ 38 + bitsOf supv 8 6 * 2 ^ 32 + bitsOf supv 4 4 * 2 ^ 24 + bitsOf supv 16 16),
        data := [u.task.launch, BitVec.ofNat 64 (f.toNat * 2 ^ 56 + u.task.core.die.toNat * 2 ^ 48 + u.task.core.clu.toNat * 2 ^ 40 + 
          u.task.core.core.toNat * 2 ^ 32 + u.task.tid.toNat % 2 ^ 24), at_, va].flatMap fun (w : W64) => [w.setWidth 32,
              (w >>> 32).setWidth 32] }]) ∧
    (∀ c w v, translate1 u.task.tctx { sync := true } va 8 u = .error (.trap c w) v → u.park f at_ = v.terminate c va v.task.pc))

/-- The long-float arithmetic (R182, R252, R253): the exact result of the sources' values, rounded once to the length
`PREC` sets and written to successive e-slots, its flags raised; EADD and ESUB unless the cancellation check of R184
fails. The task's e-slots are in the long-slot file from the first source on (R130). -/
def Obligations.LongArithmeticResults : Prop :=
  ∀ s, s.Enabled .any {} → ∀ u : State, u = s.takeSlots → ∀ k : Nat, k = s.task.prec.toNat % 8 →
    (s.task.slotsIn = true → u = s) ∧
    ∀ result : Spec → Exact × Flg → Host.Outcome State Fault Refusal, (result = fun d v =>
      .next (s.ends (u.setTask (·.putSlots d.toNat (vfEncode (rmOf s.task.rmode) k v.1).1))
        (.flags (v.2 ||| (vfEncode (rmOf s.task.rmode) k v.1).2)))) →
    ∀ d a, d.toNat + k ≤ 63 → ∀ x, Gives (readVf a) s x u →
      exec (.esqrt d a) s = result d (x.sqrt rootBits) ∧ exec (.eneg d a) s = result d (x.neg, 0) ∧
      exec (.eabs d a) s = result d (x.abs, 0) ∧ exec (.emov d a) s = result d (x, 0) ∧
      exec (.ernd d a) s = result d (x.integral (rmOf s.task.rmode)) ∧
      (∀ b y, Gives (readVf b) u y u →
        exec (.emul d a b) s = result d (x.mul y) ∧ exec (.ediv d a b) s = result d (x.div y) ∧
        (∀ z, Gives (readVf d) u z u → exec (.efma d a b) s = result d (x.fma (rmOf s.task.rmode) y z)) ∧
        (∀ p ∈ [(Instr.eadd, fun u : Exact => u), (.esub, Exact.neg)], ∀ v, v = x.add (rmOf s.task.rmode) (p.2 y) →
          ∀ most : Int, most = 14 + 32 * (k : Int) - (s.task.prec.toNat / 256 % 64 : Nat) →
          ((∀ c, cancellation x (p.2 y) v.1 = some c → c ≤ most) → exec (p.1 d a b) s = result d v) ∧
          (∀ c, cancellation x (p.2 y) v.1 = some c → most < c →
            exec (p.1 d a b) s = .next ((u.restoreQueues s).takeTrap 0x50 (BitVec.ofInt 64 c) s.task.pc))))

/-- The long-float comparisons, classes and conversions (R17, R255, R257, R258). -/
def Obligations.LongOtherResults : Prop :=
  (∀ c p a b x y s s1 s2, s.Enabled .any {} → Gives (readVf a) s x s1 → Gives (readVf b) s1 y s2 → c.toNat < 4 →
    exec (.ecmp c p a b) s = .next (s.ends (s2.withPred p
      (if c = 0 then x.eq y else if c = 1 then !x.eq y else if c = 2 then x.lt y else y.lt x || y.eq x)) .seq)) ∧
  (∀ d a k ws s s1 s2, s.Enabled .any {} → Gives (readSlots a) s (k, ws) s1 →
    Writes s d (BitVec.ofNat 64 (k * 65536 + (vf k).classify ⟨vfValue ws, false⟩)) s1 s2 →
    exec (.eclass d a) s = .next (s.ends s2 .seq)) ∧
  (∀ a x s s1, s.Enabled .any {} → Reads a s x s1 → x &&& 0x3F07 = x →
    exec (.precset a) s = .next (s.ends (s1.setTask fun t => { t with prec := x }) .seq)) ∧
  (∀ d a c x s, s.Enabled .any {} → ∀ k : Nat, k = s.task.prec.toNat % 8 → d.toNat + k ≤ 63 →
    (∀ s1, Reads a s x s1 → c.toNat < 4 → ∀ r, r = vfEncode (rmOf s.task.rmode) k ((fmtOf c.toNat).decode x.toNat).val →
      exec (.ecvte d a c) s = .next (s.ends (s1.takeSlots.setTask (·.putSlots d.toNat r.1))
        (.flags ((if ((fmtOf c.toNat).decode x.toNat).snan then nvFlag else 0) ||| r.2)))) ∧
    (∀ s1, Reads a s x s1 → c.toNat < 2 →
      ∀ r, r = vfEncode (rmOf s.task.rmode) k (.ofInt (if c = 0 then x.toInt else (x.toNat : Int))) →
      exec (.ecvtl d a c) s = .next (s.ends (s1.takeSlots.setTask (·.putSlots d.toNat r.1)) (.flags r.2)))) ∧
  (∀ d a c x s s1 s2, s.Enabled .any {} → Gives (readVf a) s x s1 →
    (c.toNat < 4 → ∀ r, r = (fmtOf c.toNat).encode (rmOf s.task.rmode) x → Writes s d (BitVec.ofNat 64 r.1) s1 s2 →
      exec (.ecvtf d a c) s = .next (s.ends s2 (.flags r.2))) ∧
    (c.toNat < 2 → ∀ r, r = x.toIntIn (rmOf s.task.rmode) (if c = 0 then -2 ^ 63 else 0)
        (if c = 0 then 2 ^ 63 - 1 else 2 ^ 64 - 1) → Writes s d (BitVec.ofInt 64 r.1) s1 s2 →
      exec (.ecvti d a c) s = .next (s.ends s2 (.flags r.2))))

/-- The element loads and stores (R259-R261): ELD and EST at base plus immediate; ELDS and ESTS at the base, which is then
stepped by the stride. An element load reads its words at one position and puts them into successive e-slots; an element store holds each word
privately at the place it translates to. -/
def Obligations.LongMemoryResults : Prop :=
  (∀ d a i x s s1 s2, s.Enabled .any { imm := true } → Reads a s x s1 →
    (Gives (loadElement d (x + immediateOf s.task.hints i)) s1 () s2 → exec (.eld d a i) s = .next (s.ends s2 .seq)) ∧
    (Gives (storeElement (x + immediateOf s.task.hints i) d) s1 () s2 → exec (.est d a i) s = .next (s.ends s2 .seq))) ∧
  (∀ d a b x y s s1 s2 s3, s.Enabled .any {} → 1 ≤ a.toNat → a.toNat < 32 → Reads2 a b s x y s1 →
    writeScalar a (x + y) s2 = .ok () s3 →
    (Gives (loadElement d x) s1 () s2 → exec (.elds d a b) s = .next (s.ends s3 .seq)) ∧
    (Gives (storeElement x d) s1 () s2 → exec (.ests d a b) s = .next (s.ends s3 .seq))) ∧
  (∀ d va pa h bs ps s s1 s2 s3 s4, Gives (translate1 s.task.tctx {} va 4) s pa s1 → s1.readHeld 4 pa 4 = (h, s2) →
    ∀ k, k = leNat h / 2 ^ 28 % 8 → d.toNat + k ≤ 63 →
    Gives (translate s.task.tctx {} va (4 * (k + 1)) 4) s2 ps s3 →
    Gives ((cutPieces 4 ps).mapM fun p => runS (·.readHeld 4 p.1 p.2)) s3 bs s4 →
    Gives (loadElement d va) s () (({ s4 with pos := s4.pos + 1 } : State).takeSlots.setTask (·.putSlots d.toNat
      ((chunks 4 8 (h ++ bs.flatten)).map fun w => BitVec.ofNat 32 (leNat w))))) ∧
  (∀ d va k ws ps s s1 s2, Gives (readSlots d) s (k, ws) s1 →
    Gives (translate s1.task.tctx { write := true } va (4 * ws.length) 4) s1 ps s2 →
    ∀ held, held = (splitData ((ps.map fun p => tabulate (p.2 / 4) fun j => (p.1 + 4 * j, 4)).flatten)
      ((ws.map fun (w : W32) => leBytes 4 w.toNat).flatten)).foldl holdOne s2.task.held →
    (heldLines held).length ≤ 64 + s2.task.spillLines →
    Gives (storeElement va d) s () (s2.setTask fun t => { t with held := held }))


/-- The elementwise vector instructions (R262, R265, R266, R269): i32 elements wrap, floating elements are the exact
result rounded once, comparisons give all ones or all zeros, VSEL selects by the top bit of d's element, VSACC accumulates
a scaled i32 partial sum into binary32. -/
def Obligations.VectorElementResults : Prop :=
  (∀ t : BitVec 2,
    VectorResult (fun d a b => .vadd d a b t) t (fun rm x y _ =>
      if t = 0 then onWords (· + ·) x y else (vfmt t).op2 rm (Exact.add rm) x y) ∧
    VectorResult (fun d a b => .vsub d a b t) t (fun rm x y _ =>
      if t = 0 then onWords (· - ·) x y else (vfmt t).op2 rm (fun u v => u.add rm v.neg) x y) ∧
    VectorResult (fun d a b => .vmul d a b t) t (fun rm x y _ =>
      if t = 0 then onWords (· * ·) x y else (vfmt t).op2 rm Exact.mul x y) ∧
    VectorResult (fun d a b => .vfma d a b t) t (fun rm x y z =>
      if t = 0 then onWords (· + ·) (x * y) z else (vfmt t).op3 rm (Exact.fma rm) x y z) ∧
    VectorResult (fun d a b => .vmin d a b t) t (fun rm x y _ =>
      if t = 0 then onWords (fun u v => if v.slt u then v else u) x y
      else (vfmt t).op2 rm (fun u v => (u.minimum v, 0)) x y) ∧
    VectorResult (fun d a b => .vmax d a b t) t (fun rm x y _ =>
      if t = 0 then onWords (fun u v => if u.slt v then v else u) x y
      else (vfmt t).op2 rm (fun u v => (u.maximum v, 0)) x y) ∧
    (∀ ones, ones = 2 ^ elemBits t - 1 →
      VectorResult (fun d a b => .veq d a b t) t (fun _ x y _ =>
        if t = 0 then (if BitVec.ofNat 32 x = BitVec.ofNat 32 y then ones else 0, 0)
        else ((if ((vfmt t).quietCmp Exact.eq x y).1 then ones else 0), ((vfmt t).quietCmp Exact.eq x y).2)) ∧
      VectorResult (fun d a b => .vlt d a b t) t (fun _ x y _ =>
        if t = 0 then (if (BitVec.ofNat 32 x).toInt < (BitVec.ofNat 32 y).toInt then ones else 0, 0)
        else ((if ((vfmt t).signalCmp Exact.lt x y).1 then ones else 0), ((vfmt t).signalCmp Exact.lt x y).2)) ∧
      VectorResult (fun d a b => .vle d a b t) t (fun _ x y _ =>
        if t = 0 then (if (BitVec.ofNat 32 x).toInt ≤ (BitVec.ofNat 32 y).toInt then ones else 0, 0)
        else ((if ((vfmt t).signalCmp Exact.le x y).1 then ones else 0), ((vfmt t).signalCmp Exact.le x y).2))) ∧
    VectorResult (fun d a b => .vsel d a b t) t (fun _ x y z => (if bitAt z (elemBits t - 1) then x else y, 0))) ∧
  VectorResult .vand 0 (fun _ x y _ => onWords (· &&& ·) x y) ∧
  VectorResult .vor 0 (fun _ x y _ => onWords (· ||| ·) x y) ∧
  VectorResult .vxor 0 (fun _ x y _ => onWords (· ^^^ ·) x y) ∧
  VectorResult .vshl 0 (fun _ x y _ => onWords (fun u v => u <<< (v.toNat % 32)) x y) ∧
  VectorResult .vshr 0 (fun _ x y _ => onWords (fun u v => u >>> (v.toNat % 32)) x y) ∧
  VectorResult .vsar 0 (fun _ x y _ => onWords (fun u v => u.sshiftRight (v.toNat % 32)) x y) ∧
  VectorResult .vsacc 1 (fun rm x y z =>
    ((accumulate rm z (.ofInt 1) (f32.decode y).val (.ofInt (signedNat 32 x))).1,
     (accumulate rm z (.ofInt 1) (f32.decode y).val (.ofInt (signedNat 32 x))).2 |||
      (f32.decode y).nv ||| (f32.decode z).nv))

/-- Vector conversion, quantisation, dequantisation, the five functions and the statistics (R275-R278): lane by lane under
the selected conversion, under RNE for the functions; quantisation works in place with the shift its scalar gives. What a
conversion, a quantisation or a dequantisation makes of a lane is what the tables of R275, R176 and R276 say by selector. -/
def Obligations.VectorConversionResults : Prop :=
  (∀ c : Spec, c.toNat < 10 → LaneResult (fun d a => .vcvt d a c) (fun rm x => laneConvert c.toNat rm x)) ∧
  (∀ c x, (∀ rm, VcvtTable rm c x (laneConvert c rm x)) ∧
    ∀ k, VqntTable c k x (quantise c k x) ∧ VdqTable c k x (dequantise c k x)) ∧
  (∀ d a c x s s1, s.EnabledV → d.toNat < 32 → Reads a s x s1 → -128 ≤ x.toInt → x.toInt ≤ 127 → c.toNat < 4 →
    (∀ r, r = mapLanes (quantise c.toNat x.toInt) (s1.task.vreg d.toNat) →
      exec (.vqnt d a c) s = .next (s.ends (s1.withVector d r.1) (.flags r.2))) ∧
    (∀ r, r = mapLanes (dequantise c.toNat x.toInt) (s1.task.vreg d.toNat) →
      exec (.vdq d a c) s = .next (s.ends (s1.withVector d r.1) (.flags r.2)))) ∧
  LaneResult .vexp2 (fun _ x => f32.op1 .rne Exact.exp2 x) ∧ LaneResult .vlog2 (fun _ x => f32.op1 .rne Exact.log2 x) ∧
  LaneResult .vrcp (fun _ x => f32.op1 .rne Exact.recip x) ∧ LaneResult .vrsq (fun _ x => f32.op1 .rne Exact.rsqrt x) ∧
  LaneResult .vtanh (fun _ x => f32.op1 .rne Exact.tanh x) ∧
  (∀ d a b v base va ps block s s1 s2 s3 s4 s5, s.EnabledV → scalarSrcOk s.task.core b = true →
    scalarSrcOk s.task.core d = true → ReadsV a s v s1 → readScalar b s1 = .ok base s2 → readScalar d s2 = .ok va s3 →
    Gives (translate s3.task.tctx { write := true } va 528 8) s3 ps s4 →
    ∀ words, words = (ps.map fun p => tabulate (p.2 / 8) fun j => p.1 + 8 * j).flatten →
    Gives (words.mapM fun pa => do pure (leNat (← readTask 8 pa 8))) s4 block s5 →
    ∀ held, held = ((words.zip (statUpdate base.toInt block v)).map fun p => (⟨p.1, leBytes 8 p.2⟩ : HeldStore)).foldl
      holdOne s5.task.held →
    (heldLines held).length ≤ 64 + s5.task.spillLines →
    exec (.vstat d a b) s = .next (s.ends (s5.setTask fun t => { t with held := held }) .seq))

/-- Vector reductions, permutations, broadcast, extraction and the lane claims (R264, R267, R268): the reduction is the
fixed tree over the elements; an index beyond the elements gives zero; LCLAIM grants what the cluster has in eights,
keeping held lanes and zeroing new ones; LRELEASE returns all. -/
def Obligations.VectorShapeResults : Prop :=
  (∀ d a o t x s s1 s2, s.EnabledV → ReadsV a s x s1 → (o.toNat < 3 ∨ (o.toNat < 6 ∧ t = 0)) →
    ∀ r, r = reduceTree (reduceOp t o.toNat (rmOf s.task.rmode)) (elements t x).length (elements t x) →
    Writes s d (if t = 0 then (BitVec.ofNat 32 (lget r.1 0)).signExtend 64 else BitVec.ofNat 64 (lget r.1 0)) s1 s2 →
    exec (.vred d a o t) s = .next (s.ends s2 (.flags r.2))) ∧
  (∀ d a b t x y s s1 s2, s.EnabledV → d.toNat < 32 → ReadsV a s x s1 → ReadsV b s1 y s2 →
    exec (.vshuf d a b t) s = .next (s.ends (s2.withVector d (fromElements t ((elements t y).map fun j =>
      if j < (elements t x).length then lget (elements t x) j else 0))) .seq)) ∧
  (∀ d a t x s s1, s.EnabledV → d.toNat < 32 → Reads a s x s1 →
    exec (.vbcast d a t) s = .next (s.ends (s1.withVector d (List.replicate s1.task.lanes.length
      (if 2 ≤ t.toNat then x.toNat % 65536 + 65536 * (x.toNat % 65536) else x.toNat % 2 ^ 32))) .seq)) ∧
  (∀ d a b t x j s s1 s2 s3, s.EnabledV → ReadsV a s x s1 → scalarSrcOk s.task.core b = true →
    readScalar b s1 = .ok j s2 → j.toNat < (elements t x).length →
    Writes s d (if t = 0 then (BitVec.ofNat 32 (lget (elements t x) j.toNat)).signExtend 64
      else BitVec.ofNat 64 (lget (elements t x) j.toNat)) s2 s3 →
    exec (.vext d a b t) s = .next (s.ends s3 .seq)) ∧
  (∀ d a x s s1 s2, s.Enabled .lane {} → Reads a s x s1 → x.toNat % 8 = 0 → 8 ≤ x.toNat → x.toNat ≤ 128 →
    ∀ g, g = min x.toNat (s1.task.lanes.length + s1.freeLanes s1.task.core) / 8 * 8 →
    Writes s d (BitVec.ofNat 64 g) (s1.setTask fun t =>
      { t with
        lanes := padTo g (Vector.replicate 32 0) t.lanes,
        outstanding := t.outstanding.filter fun x => decide (x.toNat < 32) }) s2 →
    exec (.lclaim d a) s = .next (s.ends s2 .seq)) ∧
  (∀ s, s.Enabled .lane {} → exec .lrelease s = .next (s.ends (s.setTask fun t =>
    { t with lanes := [], outstanding := t.outstanding.filter fun x => decide (x.toNat < 32) }) .seq))

/-- The vector memory instructions (R270-R274): every element is translated before any is written or held, contiguous,
strided or at signed offsets; a load leaves its destination pending as a whole (R263); stores are held like any store, in
ascending order; VAMO performs its elements from `VDONE` on and ends with `VDONE` zero. DEDUCED (log entry 34): each step
performs one element and leaves the pc where it is until the last, so that a pre-emption may stop it in between, and operands
that came from a channel are kept meanwhile. -/
def Obligations.VectorMemoryResults : Prop :=
  (∀ d a z base vas pas bs p s s1 s2 s3 s4, s.EnabledV → d.toNat < 32 → z.toNat < 3 → Reads a s base s1 →
    Gives (Places.addresses p base (2 ^ z.toNat)) s1 vas s2 →
    Gives (vas.mapM fun va => translate1 s2.task.tctx {} va (2 ^ z.toNat)) s2 pas s3 →
    Gives ((joinPieces (2 ^ z.toNat) pas).mapM fun p => runS (·.readHeld (2 ^ z.toNat) p.1 p.2)) s3 bs s4 →
    ∀ t, t = { s4 with pos := s4.pos + 1 }.setTask (fun t =>
      t.setVreg d.toNat ((chunks (2 ^ z.toNat) 128 bs.flatten).map leNat)) →
    ∀ t', t' = t.await (vecPending d) →
    (p = .contiguous → exec (.vld d a z) s = .next (s.ends t' .seq)) ∧
    (∀ b, p = .strided b → scalarSrcOk s.task.core b = true → exec (.vlds d a b z) s = .next (s.ends t' .seq)) ∧
    (∀ b, p = .indexed b → b.toNat < 48 → exec (.vgath d a b z) s = .next (s.ends t' .seq))) ∧
  (∀ d a z base vas data pas p s s1 s2 s3 s4, s.EnabledV → d.toNat < 48 → z.toNat < 3 → Reads a s base s1 →
    Gives (Places.addresses p base (2 ^ z.toNat)) s1 vas s2 → readVector d s2 = .ok data s3 →
    Gives (vas.mapM fun va => translate1 s3.task.tctx { write := true } va (2 ^ z.toNat)) s3 pas s4 →
    ∀ held, held = (pas.zipIdx.map fun q => (⟨q.1, leBytes (2 ^ z.toNat) (lget data q.2)⟩ : HeldStore)).foldl
      holdOne s4.task.held →
    (heldLines held).length ≤ 64 + s4.task.spillLines →
    ∀ t, t = s4.setTask (fun t => { t with held := held }) →
    (p = .contiguous → exec (.vst d a z) s = .next (s.ends t .seq)) ∧
    (∀ b, p = .strided b → scalarSrcOk s.task.core b = true → exec (.vsts d a b z) s = .next (s.ends t .seq)) ∧
    (∀ b, p = .indexed b → b.toNat < 48 → exec (.vscat d a b z) s = .next (s.ends t .seq))) ∧
  (∀ s d a b o base offs x s2 s3, s.EnabledV → d.toNat < 32 → scalarSrcOk s.task.core a = true → b.toNat < 48 →
    (s.task.operands = none ∧ (∃ s1, Reads a s base s1 ∧ ReadsV b s1 offs s2) ∨
      (∃ n, s.task.operands = some (n, offs) ∧ base = BitVec.ofNat 64 (lget n 0) ∧ s2 = s)) →
    Gives (readVector d) s2 x s3 → s3.task.lanes ≠ [] → ∀ done, done = s3.task.vdone.toNat % 256 →
    ∀ trap : State → BitVec 8 → W64 → Prop,
    (trap = fun t c w => exec (.vamo d a b o) s = .next ((t.restoreQueues s).takeTrap c w s.task.pc)) →
    (x.length ≤ done → trap s3 0x01 s3.task.vdone) ∧
    (done < x.length → ∀ va, va = base + (BitVec.ofNat 32 (lget offs done)).signExtend 64 →
      (∀ c w v, translate1 s3.task.tctx { write := true } va 4 s3 = .error (.trap c w) v →
        (done = 0 → trap (v.setTask fun t => { t with vdone := withField t.vdone 0 8 0 }) c va) ∧
        (done ≠ 0 → trap (v.setTask fun t => { t with vdone := withField (withField t.vdone 0 8 done) 16 8 c.toNat }) 0x60 va)) ∧
      (∀ pa v u z, Gives (translate1 s3.task.tctx { write := true } va 4) s3 pa v →
        u = (if v.task.holdsAny pa 4 = true then v.boundary .system else v) → z = u.meetFailures pa 4 →
        Memory.wf z.mem = true → z.failed = [] → takesBytes pa = true →
        ∀ old y, old = leNat (z.bytesAt pa 4) → y = (vget (lget u.task.lanes done) d.toNat).toNat →
        ∀ new, [(old + y) % 2 ^ 32, if signedNat 32 y < signedNat 32 old then y else old,
          if signedNat 32 y < signedNat 32 old then old else y, if y < old then y else old, if y < old then old else y,
          old &&& y, old ||| y, old ^^^ y, y, (f32.op2 .rne (Exact.add .rne) old y).1][BitVec.toNat o]? = some new →
        ∃ w, z.Put w (.task u.task.key) [.system] pa (leBytes 4 new) ∧
          ∀ t, t = (w.setTask (·.setLane d.toNat done old)).serve →
          (x.length = done + 1 →
            exec (.vamo d a b o) s = .next (s.ends (t.setTask fun t => { t with vdone := 0, operands := none }) .seq)) ∧
          (done + 1 < x.length → exec (.vamo d a b o) s = .next (s.ends (t.setTask fun t => { t with
            vdone := BitVec.ofNat 64 (done + 1),
            operands := if a.toNat < 32 ∧ b.toNat < 32 then none else some ([base.toNat], offs) }) .gone)))))

/-- What reset leaves (R164, R376, R417; the values the spec gives, but that memory holds no stored byte, log entry 1, and `USC` is
0, log entry 12, which are the model's choice): no task and no launch instance, no stored byte, no full word, no page metadata,
    stage 0; a new task's registers, and each die's and link's registers, at their reset values: p0
reads true, `RMODE`, `FSTAT`, `FENA`, `PREC`, `TAGS`, `USC` and the trap registers are 0, `WCWAIT` 256 (R68), `EGDEPTH` 8
and 8 (R330), `EBUDGET.WIN` 1000 (R158), `UBUDGET` 15 (R400), no TLB holds a translation, no key is a member (R405). -/
def Obligations.ResetState : Prop :=
  ∃ s, s = State.reset ∧ s.tasks = [] ∧ s.task.status = .ended ∧ s.insts = [] ∧ s.mem = [] ∧ s.full = [] ∧ s.metas = [] ∧
    s.boot.stage = 0 ∧ s.l1 = [] ∧ s.rtlb = [] ∧ s.dtlb = [] ∧ s.waiters = [] ∧ s.bindings = [] ∧ s.ports = [] ∧
    s.task.p = 1 ∧ s.task.rmode = 0 ∧ s.task.fstat = 0 ∧ s.task.fena = 0 ∧ s.task.prec = 0 ∧ s.task.tags = 0 ∧
    s.task.usc = 0 ∧ s.task.tstat = 0 ∧ s.task.tvec = 0 ∧ s.task.wcwait = 256 ∧ s.task.egdepth = 0x88 ∧
    (∀ d < 4, (s.die d).supv = 0 ∧ (s.die d).ebudget = 1000 ∧ (s.die d).errinj = 0 ∧ (s.die d).wsShift = 0 ∧
      (s.die d).offline = 0 ∧ (s.die d).terms = 0 ∧ (s.die d).keyDrops = 0) ∧
    (∀ n < 14, (s.link n).up = false ∧ (s.link n).enc = false ∧ (s.link n).ubudget = 15 ∧ (s.link n).lframes = 0 ∧
      (s.link n).ltagf = 0 ∧ (s.link n).lreplay = 0 ∧ ∀ k, (s.link n).member k = false)

/-- Ten words of the encoding tables, written out bit by bit, decode to the instructions they stand for (R191, R201-R203). -/
def Obligations.DecodeWords : Prop :=
  decode 0b00001000000100000111111111000000 = .ok (.addi 1 1 0x3FC0#14) ∧
  decode 0b00000101000001000101001000001101 = .ok (.mulhz 16 17 18) ∧
  decode 0b00011001000001000101000000000101 = .ok (.shri 16 17 5) ∧
  decode 0b00101101101000100011111111111111 = .ok (.cmpi 3 2 8 0x3FFF#14) ∧
  decode 0b00110001000000000000000000000100 = .ok (.psave 16) ∧
  decode 0b01000100000000000000000000010000 = .ok (.call 0x10) ∧
  decode 0b01001000000000000000000000000111 = .ok .eret ∧
  decode 0b01001000010010001100000000000110 = .ok (.trap 0x123#12) ∧
  decode 0b01010000010000000000000001000110 = .ok (.cwr 4 0x046#12) ∧
  decode 0b01100101000001000101001000010101 = .ok (.fma 16 17 18 1)

/-- The matrix members on the issuer (R286-R298), which wait for the end of a run in progress: each gives the unit the
operand it names and sets the bit of `MXSTATE` that says so; a run replaces the latches and goes on by itself. The end of a run
leaves the partial sums (R173, R291-R293), or the states its microprogram computes from `INIT` on (R297, R298), and the half
empty; an accumulator takes its terms span by span, each sum rounded once (R294); a drained row holds a tile's words, the exact
sums, or the states (R295); the flags of a recurrence are recorded, and enabled ones park the issuer (R166). DEDUCED (log
entries 6, 27): a run in progress ends inside the step of the member that waits for it, and where that end parks the issuer
(R166) the member is executed when the task goes on. -/
def Obligations.MatrixResults : Prop :=
  (∀ s : State, s.Enabled .issuer {} → ∀ done : Instr → State → Prop, (done = fun i t => exec i s = .next (s.ends t .seq)) →
     ∀ r : State, r = s.runEnd s.task.key (s.task.mx.bit 26) → ∀ ok : Spec →
         Prop, (ok = fun a => scalarSrcOk s.task.core a = true) →
     (s.task.mx.bit 24 = false → r = s) ∧
     (r.task.status ≠ .running → exec (.mxrun 0 0) s = .next (s.ends r .gone) ∧ ∀ a, ok a →
       ∀ i ∈ [Instr.mxmode a, .mxzp a, .mxwld 0 a, .mxuprog a, .mxsave a, .mxrest a], exec i s = .next (s.ends r .gone)) ∧
     (r.task.status = .running → ∀ a x t, ok a → readScalar a r = .ok x t →
       (modeOk x = true → done (.mxmode a) (t.setMx fun m =>
         (((({ m with mode := x, bcells := [], desc := [], latch := [], scales := [], half0 := [], half1 := [] }.put 0 16
           x.toNat).put 16 3 0).put 20 2 0).put 27 1 0))) ∧
       (∀ b t1, Gives (acqBytes x (512 * t.task.mx.shape.n * t.task.mx.shape.ng) 4 (descFault t.task.mx.shape.int4)) t b t1 →
         done (.mxzp a) (t1.setMx fun m => (m.withDescs (wordsOfBytes b)).put 18 1 1)) ∧
       (∀ sp b t1, ¬(sp = 1 ∧ t.task.mx.shape.int4 = true) →
         Gives (acqBytes x (32 * if sp = 1 then 24576 else 16384) 64 fun b =>
           if sp = 1 then (sparseFault b).map (BitVec.ofNat 64) else none) t b t1 →
         done (.mxwld sp a) (t1.setMx fun m => ({ m with bcells := b }.put 16 1 1).put 17 1 sp.toNat)) ∧
       (∀ b t1, Gives (loadBytes x 32 8) t b t1 → progFault true (wordsOfBytes b) = none →
         done (.mxuprog a) (t1.setMx fun m => { m with uprog := wordsOfBytes b }.put 19 1 1)) ∧
       (∀ ws t1 t2, x.toNat % 4096 = 0 →
         Gives (t.task.mx.areas.mapM fun p => do
           let ps ← translate t.task.tctx { write := true } (x + BitVec.ofNat 64 p.1) p.2.length 8
           pure (pieceWrites ps p.2)) t ws t1 →
         Gives (directWrites ws.flatten) t1 () t2 → done (.mxsave a) t2) ∧
       (∀ b t1, x.toNat % 4096 = 0 →
         Gives (acqBytes x 0x599000 4096 fun b => if imageOk b then none else some t.task.mx.mxstate) t b t1 →
         done (.mxrest a) (t1.setMx fun m => Mx.ofImage (cutOf b) m.runPc []).resumeRun)) ∧
     (∀ h r', r' = (if fieldOf s.task.mx.mxstate 25 1 = BitVec.toNat h then r else s) → r'.task.status = .running →
       ∀ a b x y s1 t n ps t1 bs t2, ok a → ok b → readScalar a r' = .ok x s1 → readScalar b s1 = .ok y t →
       n = t.task.mx.shape.codeBytes + t.task.mx.shape.scaleBytes → x.toNat % 4 = 0 → y.toNat % 4 = 0 → n ≤ y.toNat →
       Gives ((List.range 32).mapM fun r => translate t.task.tctx {} (x + BitVec.ofNat 64 r * y) n 4) t ps t1 →
       Gives (acqPieces ps.flatten 4 fun _ => none) t1 bs t2 →
       done (.mxfeed h a b) (t2.setMx fun m => (m.setHalf h.toNat (chunks n 32 bs)).put (20 + h.toNat) 1 1)) ∧
     (r.task.status = .running → ∀ h, r.task.mx.bit 16 = true → r.task.mx.bit (20 + BitVec.toNat h) = true →
       ∀ start : BitVec 1 → State, (start = fun rec => r.setMx fun m =>
         ((((({ m with runPc := r.task.pc, latch := [], latched := (0, 0) }.put 27 1 0).put 24 1 1).put 26 1 rec.toNat).put 25 1
           h.toNat).put 32 6 0).put 44 13 0) →
       (∀ sp, (sp = 1 ↔ r.task.mx.bit 17 = true) → done (.mxrun sp h) (start 0)) ∧
       (r.task.mx.bit 19 = true → r.task.mx.bit 17 = false → done (.mxrec h) (start 1))) ∧
     (r.task.status = .running → ∀ t' a b x y s1 t cells, ok a → ok b → readScalar a r = .ok x s1 → readScalar b s1 = .ok y t →
       t.task.mx.bit 27 = true → t.task.mx.bit 26 = false →
       x.toNat < t.task.mx.shape.n → (t.task.mx.shape.asc = 0 → b = 0) → scaleFault t.task.mx y = none →
       cells = tabulate 4096 (fun i => saccCell t.task.mx (rmOf t.task.rmode) y x.toNat (i / 128) (i % 128)
         (t.task.mx.tiles.getD (4096 * BitVec.toNat t' + i) 0).toNat) →
       exec (.mxsacc t' a b) s = .next (s.ends (t.setMx fun m =>
         { m with
           tiles := (padTo 32768 0 t.task.mx.tiles).take (4096 * t'.toNat) ++ cells.map (fun c => BitVec.ofNat 32 c.1) ++
             (padTo 32768 0 t.task.mx.tiles).drop (4096 * t'.toNat + 4096) }) (.flags (cells.foldl (fun f c => f ||| c.2) 0)))) ∧
     (r.task.status = .running → ∀ d a b x y s1 t ps t1 t2, ok a → ok b → readScalar a r = .ok x s1 → readScalar b s1 = .ok y t →
       (BitVec.toNat d < 16 ∨ 32 ≤ BitVec.toNat d) → (32 ≤ BitVec.toNat d → t.task.mx.bit 27 = true ∧
           d.toNat % 32 < t.task.mx.shape.n) →
       x.toNat % 4 = 0 → y.toNat % 4 = 0 → 512 ≤ y.toNat →
       Gives ((List.range 32).mapM fun r => translate t.task.tctx { write := true } (x + BitVec.ofNat 64 r * y) 512 4) t ps t1 →
       Gives (directWrites ((ps.zipIdx.map fun p =>
         pieceWrites p.1 (bytesOfWords (drainRow t.task.mx d.toNat p.2))).flatten)) t1 () t2 →
       done (.mxdrain d a b) (if d.toNat < 32 ∧ d.toNat / 8 % 2 = 1 then t2.setMx fun m =>
         { m with
           tiles := (padTo 32768 0 t.task.mx.tiles).take (4096 * (d.toNat % 8)) ++ List.replicate 4096 0 ++
             (padTo 32768 0 t.task.mx.tiles).drop (4096 * (d.toNat % 8) + 4096) } else t2)) ∧
     (r.task.status = .running → ∀ d s1, Writes s d r.task.mx.mxstate r s1 → done (.mxstat d) s1)) ∧
  (∀ (m : Mx) h p, h = m.shape → p = fieldOf m.mxstate 25 1 → ∀ half, half = m.half p →
    (∀ i < 64, m.finish.bit i = if i = 24 ∨ i = 20 + p then false else if i = 27 ∨ i = 37 then true
      else if 32 ≤ i ∧ i < 38 ∨ 44 ≤ i ∧ i < 57 then false else m.bit i) ∧
    m.finish.scales = half.map (fun row => (row.drop h.codeBytes).take h.scaleBytes) ∧
    (m.bit 26 = false → m.latched.1 = 0 → m.finish.runFlags = m.runFlags ∧ ∀ col r sp, col < 128 * h.n → sp < h.ns → r < 32 →
      m.finish.latch.getD ((col * h.nsPitch + sp) * 32 + r) 0 = BitVec.ofInt 32 (((List.range h.span).map fun i =>
        aCode h (half.getD r []).toArray (sp * h.span + i) *
          bValue h (m.bit 17) m.bcells.toArray m.desc.toArray col (sp * h.span + i)).sum)) ∧
    (m.bit 26 = true → m.latched = (0, 0) → 0 < h.ns → ∃ f : Nat → Nat → Nat → ProgState,
      (∀ r col, f r col 0 = ⟨m.uprog.getD 2 0, 0, 0⟩ ∧ ∀ k, f r col (k + 1) =
        (let conv := fun (x : Int) => if (m.uprog.getD 0 0).getLsbD 4 then BitVec.ofNat 32 (f32.encode .rne (.ofInt x)).1 else BitVec.ofInt 32 x
         runProg m.uprog (conv (aCode h (half.getD r []).toArray k))
          (conv (bValue h false m.bcells.toArray m.desc.toArray col k)) (f r col k))) ∧
      (∀ col r, col < 128 * h.n → r < 32 → m.finish.latch.getD (col * h.nsPitch * 32 + r) 0 = (f r col h.k).s) ∧
      (∀ j, m.finish.runFlags.getLsbD j = true ↔
        m.runFlags.getLsbD j = true ∨ ∃ r < 32, ∃ col < 128 * h.n, (f r col h.k).flags.getLsbD j = true))) ∧
  (∀ h row k, aCode h row k =
    if h.int4 then (BitVec.ofNat 4 ((row.getD (k / 2) 0).toNat / 2 ^ (4 * (k % 2)))).toInt else (row.getD k 0).toInt) ∧
  (∀ (mode : W64) sp h b d j x i col k, h = shapeOf mode sp → x < 128 → col = 128 * j + x →
    ∀ zp : Nat, zp = bitsOf (d.getD (col * h.ngPitch + k / h.gsz) (0 : W32)).toNat 24 8 →
    ∀ at_ : Nat → Nat, (at_ = fun off => (b.getD ((j * h.c + i) * (if sp then 24576 else 16384) + off) (0 : Byte)).toNat) →
    (∀ r < 128, sp = false → h.int4 = false → k = 128 * i + r → bValue h sp b d col k = (at_ (128 * r + x) : Int) - zp) ∧
    (∀ r < 128, ∀ e < 2, sp = false → h.int4 = true → k = 256 * i + 2 * r + e →
      bValue h sp b d col k = ((at_ (128 * r + x) / 16 ^ e % 16 : Nat) : Int) - zp) ∧
    (∀ u < 64, ∀ e < 4, sp = true → k = 256 * i + 4 * u + e → ∀ q, q = at_ (16384 + 128 * u + x) →
      bValue h sp b d col k = if e = q % 4 then (at_ (128 * (2 * u) + x) : Int) - zp
        else if e = q / 4 % 4 then (at_ (128 * (2 * u + 1) + x) : Int) - zp else 0)) ∧
  (∀ (m : Mx) h rm base j r x acc col, h = m.shape → col = 128 * j + x → ∃ f : Nat → Nat × Flg, f 0 = (acc, 0) ∧
    (∀ sp, ∀ row : List Byte, row = m.scales.getD r [] → ∀ sa : Exact,
      sa = (if h.asc = 0 then .fin false 1 1 else if h.asc = 1 then (f32.decode (leNat ((row.drop (4 * sp)).take 4))).val
        else .ofScaled false 1 (base.toInt - ((row.getD (sp / 2) 0).toNat / 16 ^ (sp % 2) % 16 : Nat))) →
      ∀ sc, sc = f16.decode ((m.desc.getD (col * h.ngPitch + sp * h.span / h.gsz) 0).toNat % 2 ^ 16) →
      ∀ k t p v e, k = f32.decode (f sp).1 → t = sa.mul sc.val →
        p = t.1.mul (.ofInt (m.latch.getD ((col * h.nsPitch + sp) * 32 + r) 0).toInt) → v = p.1.add rm k.val →
        e = f32.encode rm v.1 →
      f (sp + 1) = (e.1, (f sp).2 ||| (e.2 ||| v.2 ||| p.2 ||| t.2) ||| sc.nv ||| k.nv)) ∧
    saccCell m rm base j r x acc = f h.ns) ∧
  (∀ (m : Mx) d r x, x < 128 → ∀ h, h = m.shape → ∀ l : Nat → W32,
    (l = fun sp => m.latch.getD (((128 * (d % 32) + x) * h.nsPitch + sp) * 32 + r) 0) →
    (d < 32 → (drainRow m d r).getD x 0 = m.tiles.getD (4096 * (d % 8) + 128 * r + x) 0) ∧
    (32 ≤ d → m.bit 26 = false → (drainRow m d r).getD x 0 = BitVec.ofInt 32 (((List.range h.ns).map fun sp => (l sp).toInt).sum)) ∧
    (32 ≤ d → m.bit 26 = true → (drainRow m d r).getD x 0 = l 0)) ∧
  (∀ p a w v,
    (∃ f : Nat → ProgState, f 0 = v ∧ (∀ i, f (i + 1) = progOp p a w (f i) (p.getD (3 + i) 0).toNat) ∧
      runProg p a w v = f ((p.getD 0 0).toNat % 4 + 1)) ∧
    ∀ op : Nat, ∀ arg : Nat → W32, (arg = fun c => [v.s, a, w, v.t].getD c (p.getD 1 0)) →
      ∀ x y z, x = arg (op / 2 ^ 8 % 8) → y = arg (op / 2 ^ 12 % 8) → z = arg (op / 2 ^ 16 % 8) →
      ∀ dst r : W32, ∀ f : Flg, dst = (if op / 16 % 8 = 1 then v.t else v.s) →
      (progFp p = false → f = 0 ∧ [x + y, x - y, x * y, if x.slt y then x else y, if x.slt y then y else x, x &&& y, x ||| y,
        x ^^^ y, if y.slt x then z else dst, x.sshiftRight (y.toNat % 32)][op % 16]? = some r) →
      (progFp p = true → ∀ fp : (Exact → Exact → Exact × Flg) → W32 × Flg,
        (fp = fun g => (BitVec.ofNat 32 (f32.op2 .rne g x.toNat y.toNat).1, (f32.op2 .rne g x.toNat y.toNat).2)) →
        op % 16 ∈ [0, 1, 2, 3, 4, 8] ∧
        [fp (Exact.add .rne), fp (fun a b => a.add .rne b.neg), fp Exact.mul, fp (fun a b => (a.minimum b, 0)),
          fp (fun a b => (a.maximum b, 0)), (0, 0), (0, 0), (0, 0),
          (if (f32.decode y.toNat).val.lt (f32.decode x.toNat).val then z else dst,
            if (f32.decode x.toNat).val.isNan || (f32.decode y.toNat).val.isNan then nvFlag else 0)][op % 16]? = some (r, f)) →
      progOp p a w v op = if op / 16 % 8 = 1 then { v with t := r, flags := v.flags ||| f } else { v with s := r, flags := v.flags ||| f }) ∧
  (∀ u : State, u.task.status = .running → u.task.resident = true → u.task.mx.bit 24 = true →
    ∀ m f g, m = u.task.mx.finish → f = m.runFlags → g = f &&& u.task.fena.setWidth 5 →
    ∀ t, t = (let v := u.setTask fun t => { t with mx := { m with runFlags := 0 }, fstat := t.fstat ||| f.setWidth 64 }
      if f = 0 then v else v.setCluster (clusterId u.task.core) fun c => { c with cflags := c.cflags ||| f }) →
    ∀ live : Bool, live = (!u.task.waitOn.again && (u.die u.task.core.die.toNat).supv.getLsbD 0) →
    (g = 0 ∨ live = false → u.runEnd u.task.key (u.task.mx.bit 26) = t.serve) ∧
    (g ≠ 0 → live = true → u.runEnd u.task.key (u.task.mx.bit 26) = ((t.park g m.runPc).swapTo u.task.key).serve))

/-- PHASE, counters, troughs and tags (R303-R306, R326). A home operation is preceded by the boundary its ordering and
scope ask for and followed, with an acquire half, by a move of the snapshot point; a wait that is not satisfied leaves
the task WAITING at the instruction, its access in the retry list of the word's home (R78, R98, R103). A push is preceded by its
boundary, a pop by those it needs, and each is then one attempt at the descriptor's home (R102, R305). DEDUCED (log entry 35):
`PUT` - `GOT` is taken modulo 2^64. A boundary empties the task's held stores: their bytes are in memory, their events, all at
one position that is the snapshot point from there on, and the task's earlier events are settled for the domain of the scope,
`USC` is 0 or counts the lines (R87, R90, R91); a write to the control space takes effect after it (log entry 2). A counter
that would pass 2^64 - 1 holds that, with its full bit set (R97). -/
def Obligations.SynchronizationResults : Prop :=
  ∀ s : State, s.Enabled .any {} → ∀ done : Instr → State → Prop, (done = fun i t => exec i s = .next (s.ends t .seq)) →
    ∀ acq : BitVec 2 → State → State, (acq =
        fun o t => if o.getLsbD 1 then t.setTask fun u => { u with snapshot := t.pos - 1 } else t) →
    (∀ sc, done (.phase sc) (s.boundary (scopeOf sc))) ∧
    (∀ a b sc o va n pa s1 s2 s3, Reads2 a b s va n s1 →
      Gives (translate1 s1.task.tctx { write := true, sync := true } va 8) s1 pa s2 →
      Gives (orderBefore (scopeOf sc) (o.getLsbD 0) pa 8) s2 () s3 →
      done (.ctradd a b sc o) (acq o (s3.counterPut (.task s3.task.key) pa n)).serve) ∧
    (∀ a b sc o va n pa v s1 s2 s3 s4, Reads2 a b s va n s1 →
      Gives (translate1 s1.task.tctx { sync := true } va 8) s1 pa s2 →
      Gives (orderBefore (scopeOf sc) (o.getLsbD 0) pa 8) s2 () s3 → Gives (homeRead pa) s3 v s4 →
      (n ≤ v → done (.ctrwait a b sc o) (acq o { s4 with pos := s4.pos + 1 })) ∧
      (v < n → exec (.ctrwait a b sc o) s = .next (s.ends
        ((s4.addWaiter ⟨s4.task.key, pa, .counter n (o.getLsbD 1), va, 0⟩).waits .home) .wait))) ∧
    (∀ d a p sc o va pa v s1 s2 s3 s4 s5, Reads a s va s1 → Gives (translate1 s1.task.tctx { sync := true } va 8) s1 pa s2 →
      Gives (orderBefore (scopeOf sc) (o.getLsbD 0) pa 8) s2 () s3 → Gives (homeRead pa) s3 v s4 →
      Loads s d v (acq o { s4 with pos := s4.pos + 1 }) s5 →
      done (.ctrrd d a p sc o) (s5.withPred p (s4.isFull pa))) ∧
    (∀ d a b sc o va e pa x nx s1 s2 s3, Reads2 a b s va e s1 → scalarDstOk s.task.core d = true →
      (Gives (troughOperands va e false) s1 (pa, x) s2 → Gives (pushAt d va e pa x sc o) s2 nx s3 →
        exec (.trpush d a b sc o) s = .next (s.ends s3 nx)) ∧
      (Gives (troughOperands va e true) s1 (pa, x) s2 → Gives (popAt d va e pa x sc o) s2 nx s3 →
        exec (.trpop d a b sc o) s = .next (s.ends s3 nx)) ∧
      (Gives (troughOperands va e false) s1 (pa, x) s2 → pushAt d va e pa x sc o s2 = .error .stall s3 →
        exec (.trpush d a b sc o) s = .next (s.stays s3)) ∧
      (Gives (troughOperands va e true) s1 (pa, x) s2 → popAt d va e pa x sc o s2 = .error .stall s3 →
        exec (.trpop d a b sc o) s = .next (s.stays s3))) ∧
    (∀ d va e pa sc o (u v : State), v = u.boundary (scopeOf sc) →
      (∀ x, writeLoaded d (BitVec.ofNat 64 stMALFORMED) (acq o { v with pos := v.pos + 1 }) = .ok () x →
        Gives (pushAt d va e pa none sc o) u .seq x.serve) ∧
      (∀ z epa w, (∀ st, Gives (pushAttempt v.task.key v.task.tctx v.task.reader pa epa z) v (some st) w →
          ∀ x, writeLoaded d (BitVec.ofNat 64 st) (acq o w) = .ok () x →
          Gives (pushAt d va e pa (some (z, epa)) sc o) u .seq x.serve) ∧
        (Gives (pushAttempt v.task.key v.task.tctx v.task.reader pa epa z) v none w →
          (w.destReady w.task.key d = true → Gives (pushAt d va e pa (some (z, epa)) sc o) u .wait
            ((w.addWaiter ⟨w.task.key, pa, .push d epa (BitVec.ofNat 2 z) (o.getLsbD 1), va, e⟩).waits .home)) ∧
          (w.destReady w.task.key d = false → pushAt d va e pa (some (z, epa)) sc o u = .error .stall w.stuck)))) ∧
    (∀ d va e pa sc o (u v : State), Gives (orderBefore (scopeOf sc) (o.getLsbD 0) pa 64) u () v →
      (∀ x, writeLoaded d (BitVec.ofNat 64 stMALFORMED) (acq 2 { v with pos := v.pos + 1 }) = .ok () x →
        Gives (popAt d va e pa none sc o) u .seq x.serve) ∧
      (∀ z epa v' w, Gives (implicitBoundary (scopeOf sc) epa (entryBytes z)) v () v' →
        (∀ st, Gives (popAttempt v'.task.key v'.task.tctx pa epa z) v' (some st) w →
          ∀ x, writeLoaded d (BitVec.ofNat 64 st) (acq 2 w) = .ok () x →
          Gives (popAt d va e pa (some (z, epa)) sc o) u .seq x.serve) ∧
        (Gives (popAttempt v'.task.key v'.task.tctx pa epa z) v' none w →
          (w.destReady w.task.key d = true → Gives (popAt d va e pa (some (z, epa)) sc o) u .wait
            ((w.addWaiter ⟨w.task.key, pa, .pop d epa (BitVec.ofNat 2 z), va, e⟩).waits .home)) ∧
          (w.destReady w.task.key d = false → popAt d va e pa (some (z, epa)) sc o u = .error .stall w.stuck)))) ∧
    (∀ d a b sc va pa s1 s2 s3 s4 w t, Reads a s va s1 → b.toNat < 4 →
      Gives (translate1 s1.task.tctx { sync := true } va 64) s1 pa s2 →
      Gives (orderBefore (scopeOf sc) false pa 64) s2 () s3 → w = s3.meetFailures pa 64 → t = w.trough pa →
      Loads s d (if b = 0 then t.put else if b = 1 then t.got else if b = 2 then BitVec.ofNat 64
          ((if w.isFull pa then 1 else 0) + (if w.isFull (pa + 8) then 2 else 0) + (if t.bad then 4 else 0))
        else t.put - t.got) { w with pos := w.pos + 1 } s4 → done (.trstat d a b sc) s4) ∧
    (∀ a m s1, Reads a s m s1 →
      (m ≠ 0 → s1.task.tags &&& m ≠ 0 → done (.tagwaitany a) s1.acquired) ∧
      (m ≠ 0 → s1.task.tags &&& m = 0 → exec (.tagwaitany a) s = .next (s.ends (s1.waits (.tagAny m)) .wait)) ∧
      (m ≠ 0 → s1.task.tags &&& m = m → done (.tagwaitall a) s1.acquired) ∧
      (m = 0 → done (.tagwaitall a) s1) ∧
      (s1.task.tags &&& m ≠ m → exec (.tagwaitall a) s = .next (s.ends (s1.waits (.tagAll m)) .wait)) ∧
      done (.tagclr a) (s1.setTask fun t => { t with tags := t.tags &&& ~~~m }) ∧
      (∀ d s2, s1.task.tags &&& m = 0 → Writes s d 64 s1 s2 → done (.tagff d a) s2) ∧
      (∀ d n s2, n < 64 → (s1.task.tags &&& m).getLsbD n = true → (∀ k < n, (s1.task.tags &&& m).getLsbD k = false) →
        Writes s d (BitVec.ofNat 64 n)
          (s1.setTask fun t => { t with tags := t.tags &&& ~~~(1#64 <<< n) }).acquired s2 → done (.tagff d a) s2)) ∧
    (∀ (u v : State) pa t k c r e z, Gives (troughHere pa) u t v → ∀ n, n = entryBytes t.esz →
      (t.bad = true ∨ t.esz ≠ z →
        Gives (pushAttempt k c r pa e z) u (some stMALFORMED) { v with pos := v.pos + 1 } ∧
        Gives (popAttempt k c pa e z) u (some stMALFORMED) { v with pos := v.pos + 1 }) ∧
      (t.bad = false → t.esz = z →
        (t.cap ≤ (t.put - t.got).toNat → Gives (pushAttempt k c r pa e z) u none v) ∧
        (t.got = t.put → Gives (popAttempt k c pa e z) u none v) ∧
        ((t.put - t.got).toNat < t.cap → t.put = BitVec.allOnes 64 →
          ∀ w, w = v.setFull pa true → Gives (pushAttempt k c r pa e z) u (some stSATURATED) { w with pos := w.pos + 1 }) ∧
        ((t.put - t.got).toNat < t.cap → t.put ≠ BitVec.allOnes 64 →
          ∀ slot v1 x w, Gives (translate1 c { write := true } (t.slot t.put) n) v slot v1 →
          (x, w) = (v1.meetFailures e n).readParts r 8 e n →
          ∀ w', w' = w.updTask k (fun t => { t with seen := noteSeen t.seen e x }) →
          Gives (pushAttempt k c r pa e z) u (some stOK) (({ w' with pos := w'.pos + 1 }.putAt false w'.pos (.task k) slot
            (x.map fun c => Candidate.value c)).putAt false w'.pos (.task k) pa (leBytes 8 (t.put.toNat + 1)))) ∧
        (t.got ≠ t.put → ∀ slot v1 w, Gives (translate1 c {} (t.slot t.got) n) v slot v1 → w = v1.meetFailures slot n →
          Gives (popAttempt k c pa e z) u (some stOK) (({ w with pos := w.pos + 1 }.putAt false w.pos (.task k) (pa + 8)
            (leBytes 8 (t.got.toNat + 1))).putAt false w.pos (.task k) e (w.bytesAt slot n))))) ∧
    (∀ (u : State) sc, ∃ v : State, u.boundary sc = v.serve ∧ v.pos = u.pos + 1 ∧
      v.task = { u.task with held := [], snapshot := u.pos, usc := if sc = .die ∨ sc = .system then 0
        else u.task.usc + BitVec.ofNat 64 (heldLines u.task.held).length } ∧
      (u.failed = [] → Memory.wf u.mem = true → ∀ dom, dom = sc.domain u.task.core →
        (∃ evs : List WriteEvent, (evs.map fun e => (e.pos, e.agent, e.pa, e.data, e.domains)) =
            (u.task.held.filter (!·.toControl)).map (fun h => (u.pos, .task u.task.key, h.pa, h.data, [dom])) ∧
          v = { u with
            task := v.task, pos := v.pos, mem := v.mem, sectors := v.sectors, wcs := v.wcs,
            writes := (u.writes.map fun e => if e.agent = .task u.task.key ∧ dom ∉ e.domains
              then { e with domains := e.domains ++ [dom] } else e) ++ evs,
            agenda := u.agenda ++ (u.task.held.filter (·.toControl)).flatMap fun h =>
              controlEvents (Agent.task u.task.key).writer h.pa h.data }) ∧
        ∀ x, (∀ d off, regionOf x ≠ .control d off) →
          (∀ h ∈ u.task.held, h.pa ≤ x → x < h.pa + h.data.length → takesBytes h.pa = true) →
          v.byteAt x = (heldByte u.task.held x).getD (u.byteAt x))) ∧
    (∀ u : State, u.waiters.find? u.waiterReady = none → u.serve = u) ∧
    (∀ (u z : State) a pa n v, z = u.meetFailures pa 8 → Memory.wf z.mem = true → z.failed = [] → takesBytes pa = true →
      v = (z.wordAt pa).toNat + BitVec.toNat n → ∃ w, z.Put w a [.system] pa (leBytes 8 (min v (2 ^ 64 - 1))) ∧
        (v < 2 ^ 64 → u.counterPut a pa n = w) ∧
        (2 ^ 64 ≤ v → u.counterPut a pa n = w.setFull pa true ∧
          (hasFullBits pa = true → (u.counterPut a pa n).isFull pa = true)))

/-- The atomics (R307-R310): the old word at its home is replaced by the function of it and the operands, at one position,
after the boundary its ordering asks for; d receives the old value, sign-extended, or zero-extended for AMINZ, AMAXZ and
AFADD. UFLOAD, after its boundary, reads a function and puts it into the units of its scope; UPD applies the function its
word's unit holds for the task's ASID, and raises the flags of an FP32 one (R162, R166, R297). An update gives the old word,
writes its bytes as one event at one position, and leaves every other byte as it was. -/
def Obligations.AtomicResults : Prop :=
  ∀ s : State, s.Enabled .any { ord := true } → ∀ acq : BitVec 2 → State → State,
    (acq = fun o t => if o.getLsbD 1 then t.setTask fun u => { u with snapshot := t.pos - 1 } else t) →
  ∀ o : BitVec 2, o = (s.task.hints.hord.map (·.1)).getD 0 →
  ∀ goes : (Nat → Nat) → Spec → BitVec 2 → Nat → Bool → State → W64 → Instr → Prop,
    (goes = fun f d sc n zext s1 va i => ∀ pa old s2 s3 s4 s5, scalarDstOk s.task.core d = true →
      Gives (translate1 s1.task.tctx { write := true } va n) s1 pa s2 →
      Gives (orderBefore (scopeOf sc) (o.getLsbD 0) pa n) s2 () s3 → Gives (homeUpdate pa n f) s3 old s4 →
      Loads s d (if zext then BitVec.ofNat 64 old else sext64 (8 * n) old) (acq o s4) s5 →
      exec i s = .next (s.ends s5.serve .seq)) →
  (∀ d a b sc va x s1, Reads2 a b s va x s1 →
    (∀ z : BitVec 1, ∀ w n : Nat, n = (if z = 0 then 4 else 8) → w = 8 * n → ∀ y, y = x.toNat % 2 ^ w →
      goes (fun old => (old + y) % 2 ^ w) d sc n false s1 va (.aadd d a b sc z) ∧
      goes (fun old => if signedNat w y < signedNat w old then y else old) d sc n false s1 va (.amin d a b sc z) ∧
      goes (fun old => if signedNat w y < signedNat w old then old else y) d sc n false s1 va (.amax d a b sc z) ∧
      goes (fun old => if y < old then y else old) d sc n true s1 va (.aminz d a b sc z) ∧
      goes (fun old => if y < old then old else y) d sc n true s1 va (.amaxz d a b sc z) ∧
      goes (fun old => old &&& y) d sc n false s1 va (.aand d a b sc z) ∧
      goes (fun old => old ||| y) d sc n false s1 va (.aor d a b sc z) ∧
      goes (fun old => old ^^^ y) d sc n false s1 va (.axor d a b sc z) ∧
      goes (fun _ => y) d sc n false s1 va (.aswap d a b sc z) ∧
      (∀ c s2, scalarSrcOk s.task.core d = true → readScalar d s1 = .ok c s2 →
        goes (fun old => if old = c.toNat % 2 ^ w then y else old) d sc n false s2 va (.acas d a b sc z))) ∧
    goes (fun old => (f32.op2 .rne (Exact.add .rne) old (x.toNat % 2 ^ 32)).1) d sc 4 true s1 va (.afadd d a b sc) ∧
    (∀ ps bytes s2 s3 prog, d = 0 → sc ≠ 0 → x.toNat < 8 → Gives (translate s1.task.tctx {} va 32 8) s1 ps s2 →
      ∀ t, t = (if o.getLsbD 0 = true ∨ ps.any (fun p => s2.task.holdsAny p.1 p.2) = true then s2.boundary (scopeOf sc) else s2) →
      Gives (ps.mapM fun p => runS (·.readHeld 8 p.1 p.2)) t bytes s3 →
      prog = (chunks 4 8 bytes.flatten).map (fun w => BitVec.ofNat 32 (leNat w)) → progFault false prog = none →
      exec (.ufload d a b sc 0) s = .next (s.ends
        (acq o ({ s3 with pos := s3.pos + 1 }.loadFunction (scopeOf sc) ⟨x.setWidth 3, s3.task.asid, prog⟩)) .seq)) ∧
    (∀ y pa u s2 s3, scalarSrcOk s.task.core d = true → scalarDstOk s.task.core d = true → readScalar d s1 = .ok y s2 →
      x.toNat < 2 ^ 35 → Gives (translate1 s2.task.tctx { write := true } va 4) s2 pa s3 →
      (s3.unitSlots pa).find? (fun u => u.slot.toNat == x.toNat / 2 ^ 32 % 8 && u.asid == s3.task.asid) = some u →
      ∀ old s4 s5 s6, Gives (orderBefore (scopeOf sc) (o.getLsbD 0) pa 4) s3 () s4 →
      Gives (homeUpdate pa 4 fun old =>
        (runProg u.prog (x.setWidth 32) (y.setWidth 32) { s := BitVec.ofNat 32 old, t := 0 }).s.toNat) s4 old s5 →
      Loads s d (sext64 32 old) (acq o s5) s6 → exec (.upd d a b sc 0) s = .next (s.ends s6.serve
        (.flags (runProg u.prog (x.setWidth 32) (y.setWidth 32) { s := BitVec.ofNat 32 old, t := 0 }).flags)))) ∧
  (∀ (u z : State) pa n f, z = u.meetFailures pa n → Memory.wf z.mem = true → z.failed = [] → takesBytes pa = true →
    ∃ t, Gives (homeUpdate pa n f) u (leNat (z.bytesAt pa n)) t ∧
      z.Put t (.task u.task.key) [.system] pa (leBytes n (f (leNat (z.bytesAt pa n)))))

/-- The engine and port commands (R311-R315, R344): once no command of the tag is outstanding, the block is read, a boundary is
made at a scope that spans the command's addresses, and a message with the block, the tag and the issuer's identity goes into
the inbox of the command's unit: the operation runs on its own and the instruction is complete. That a tag
still outstanding leaves the instruction to be issued again with nothing done, the partner core's turn following, and that a
full inbox leaves the task at the instruction, its boundary made, until the message finds room, are the model's (DEDUCED, log
entry 6: R311 says only that issue waits); what its operands popped stays until then (log entry 17). A `GATH` and every port
command have system scope, which R105 allows (log entries 28, 29). -/
def Obligations.EngineCommandsAreQueued : Prop :=
  ∀ s : State, s.Enabled .any {} → ∀ again : State → Host.Outcome State Fault Refusal,
    (again = fun s1 => .next (s.stays s1)) →
  ∀ issued : Nat → Spec → List W64 → State → State → Scope → Instr → Prop,
    (issued = fun cmd tag blk s1 s2 sc i => ∀ r s3,
      Gives (replyAddress (engineDie cmd blk s1.task.core) blk tag) (s2.boundary sc) r s3 →
      (s3.inboxFull (unitFor cmd s1.task.core false blk) = false →
        exec i s = .next (s.ends ((s3.withOp s1.task cmd tag blk r).pushEvent (.engineOperationStart s3.nextId)) .seq)) ∧
      (s3.inboxFull (unitFor cmd s1.task.core false blk) = true →
        exec i s = .next (s.ends ({ s3 with nextId := s3.nextId + 1 }.awaitInbox s s1 (s3.opFor s1.task cmd tag blk r)) .gone))) →
  (∀ (u s0 s1 : State) o, s1.queues = s0.queues → u.awaitInbox s0 s1 o = u.setTask fun t => { t with
    pkt := s0.task.pkt,
    waitOn := .inbox o t.pkt (tabulate 8 fun q => (lget s0.queues q).length - (lget s1.queues q).length) }) ∧
  (∀ d a b c src n dst s0 s1, Reads2 a b s src n s0 → scalarSrcOk s.task.core d = true → readScalar d s0 = .ok dst s1 →
    (s1.ops.any fun o => o.task == s1.task.key && o.tag == some c) = false →
    ∀ blk, blk = [dst, src, n, 0, 0, 0, 0, 0] → ∀ sc s2, Gives (copyScope 0 none blk s1.task.core) s1 sc s2 →
    issued 0 c blk s1 s2 sc (.cpy d a b c)) ∧
  (∀ a c va s1, Reads a s va s1 → (s1.ops.any fun o => o.task == s1.task.key && o.tag == some c) = false →
    ∀ p ∈ [(1, Instr.cpy2d a c), (2, .cpym a c), (3, .cpyx a c), (4, .gath a c), (5, .iord a c), (6, .iowr a c),
      (7, .wsload a c), (8, .fpbind a c), (9, .fpsend a c), (10, .fptake a c), (11, .fpstat a c)],
    ∀ bs s2 blk sc s3, Gives (loadUnits va 64 64 8) s1 bs s2 →
      blk = (chunks 8 8 bs).map (fun d => BitVec.ofNat 64 (leNat d)) →
      Gives (if 8 ≤ p.1 then pure Scope.system else copyScope p.1 (some va) blk s1.task.core) s2 sc s3 →
      issued p.1 c blk s1 s3 sc p.2) ∧
  (∀ a c va s1, Reads a s va s1 → (s1.ops.any fun o => o.task == s1.task.key && o.tag == some c) = true →
    ∀ i ∈ [Instr.cpy2d a c, .cpym a c, .cpyx a c, .gath a c, .iord a c, .iowr a c, .wsload a c, .fpbind a c, .fpsend a c,
      .fptake a c, .fpstat a c], exec i s = again s1) ∧
  (∀ d a b c src n dst s0 s1, Reads2 a b s src n s0 → scalarSrcOk s.task.core d = true → readScalar d s0 = .ok dst s1 →
    (s1.ops.any fun o => o.task == s1.task.key && o.tag == some c) = true → exec (.cpy d a b c) s = again s1)

/-- Messages, channels and migration (R113, R327-R333) and the launch instructions (R334-R337): a send makes its release
boundary, then puts its packet on the way, then takes its acquire; a binding holds what its activations copy; CHLEN and
CHSKIP act on the packet the task reads; MIGRATE puts the task READY at its new core; a launch instruction of a task that
may not act on the record gets DENIED, and of one that may, the status of the operation at the record's die. Arming, cancelling,
patching and the status word do what R149, R152 and R153 say to `GEN`, `LIVE`, `CRED` and the instances, the statuses in their
order. DESIGN CHOICE (log entry 20): a send to this device counts as outstanding for the 16 instructions that its sender issues next. -/
def Obligations.MessageAndLaunchResults : Prop :=
  (∀ s s0 s1 a b d va route n c o key pri, s.Enabled .any sendHints → Reads a s va s0 → scalarSrcOk s.task.core d = true →
    (o, key) = s.task.hints.hord.getD (0, 0) → pri = s.task.hints.hpri.getD 0 →
    reservedZero route.toNat [(47, 17), (32, 8), (24, 4), (0, 16)] = true → route.toNat / 2 ^ 24 % 16 ≤ 9 →
    ∀ sent : State → List W32 → State, (sent =
        fun t ws => (if o.getLsbD 1 then State.acquired else id) (t.dispatchSend n c route ws key pri)) →
    (∀ cnt s2 ps t bs t1, scalarSrcOk s.task.core b = true → readScalar b s0 = .ok cnt s1 → readScalar d s1 = .ok route s2 →
      1 ≤ cnt.toNat → cnt.toNat ≤ (if c = 1 then 116 else 1916) →
      s2.outstandingSends s2.task.key n < s2.task.egdepth.toNat / 2 ^ (4 * n.toNat) % 16 →
      Gives (translate s2.task.tctx {} va (8 * cnt.toNat) 8) s2 ps t1 →
      t = (if o.getLsbD 0 then t1.boundary (sendScope t1.task.core route) else t1) →
      ∀ t2, Gives (ps.mapM fun p => readTask 8 p.1 p.2) t bs t2 → exec (.send d a b n c) s = .next (s.ends
        (sent t2 ((chunks 4 (2 * cnt.toNat) bs.flatten).map fun w => BitVec.ofNat 32 (leNat w))) .seq))) ∧
  (∀ s s1 s2 a d v route n c o key pri, s.Enabled .any sendHints → s.task.lanes ≠ [] → ReadsV a s v s1 →
    scalarSrcOk s.task.core d = true → readScalar d s1 = .ok route s2 →
    (o, key) = s.task.hints.hord.getD (0, 0) → pri = s.task.hints.hpri.getD 0 →
    reservedZero route.toNat [(47, 17), (32, 8), (24, 4), (0, 16)] = true → route.toNat / 2 ^ 24 % 16 ≤ 9 →
    s2.outstandingSends s2.task.key n < s2.task.egdepth.toNat / 2 ^ (4 * n.toNat) % 16 →
    exec (.sendv d a n c) s = .next (s.ends ((if o.getLsbD 1 then State.acquired else id)
      ((if o.getLsbD 0 then s2.boundary (sendScope s2.task.core route) else s2).dispatchSend n c route
        (v.map (BitVec.ofNat 32)) key pri)) .seq)) ∧
  (∀ (s : State) n c route ws key pri, routeRemote route = false → s.dispatchSend n c route ws key pri = { s with
    sends := s.sends ++ [⟨s.nextId, s.task.key, n, c, route, ws, key, pri, s.task.asid, s.task.jobkey, 16⟩],
    nextId := s.nextId + 1 }) ∧
  (∀ s : State, s.Enabled .any {} → ∀ done : Instr → State → Prop, (done = fun i t => exec i s = .next (s.ends t .seq)) →
    (∀ n : Spec, 32 ≤ n.toNat → n.toNat < 48 →
      (∀ a b p x entry s1, Reads2 a b s x entry s1 →
        (∀ q ∈ s1.bindings, q.core = s1.task.core → q.chan ≠ n.setWidth 4 ∧ q.tag ≠ x.setWidth 16) → entryOk entry = true →
        done (.bind n a b p) { s1 with bindings := s1.bindings ++ [⟨s1.task.core, n.setWidth 4, x.setWidth 16, entry, p == 1,
          s1.task.launch, s1.task.tid, s1.task.lvl⟩] }) ∧
      (∀ q, s.bindingOf s.task.core (n.setWidth 4) = some q →
        done (.unbind n) (if q.launch = s.task.launch then s.unbind s.task.core (n.setWidth 4) else s)) ∧
      (s.bindingOf s.task.core (n.setWidth 4) = none → done (.unbind n) s) ∧
      (∀ d s1, Writes s d (if s.task.pktChan = some (n.setWidth 4) then BitVec.ofNat 64 (4 * s.task.pkt.length) else 0) s s1 →
        done (.chlen d n) s1) ∧
      (∀ b x s1, Reads b s x s1 → x.toNat % 4 = 0 →
        x.toNat ≤ (if s1.task.pktChan = some (n.setWidth 4) then 4 * s1.task.pkt.length else 0) →
        done (.chskip n b) (s1.setTask fun t => { t with pkt := t.pkt.drop (x.toNat / 4) }))) ∧
    (∀ a route s1 c, Reads a s route s1 → routeRemote route = false → c = routeCore route →
      reservedZero route.toNat [(47, 17), (32, 8), (24, 4), (0, 16)] = true → route.toNat / 2 ^ 24 % 16 ≤ 9 →
      c.core.toNat < 8 → s.task.core.core.toNat < 8 → s1.task.core = s.task.core → s1.clusterUp c = true →
      (clusterId c ≠ clusterId s.task.core → s1.occupiedByOther (clusterId c) s1.task.launchId = false) →
      ∀ t, t = s1.boundary (spanScope s.task.core c) → t.task.core = s.task.core →
      done (.migrate a) (if c = s.task.core then t.yieldTask else t.migrateTo c)) ∧
    (∀ d a x mgmt s1 s2 s3 r, Reads a s x s1 → Gives isManagement s1 mgmt s2 → x.toNat < 2 ^ 14 → r = x.toNat →
      (mgmt = false → s2.xasid r ≠ s2.task.asid → Loads s d 11 s2 s3 → done (.lcancel d a) s3 ∧ done (.lstat d a) s3) ∧
      (mgmt = true ∨ s2.xasid r = s2.task.asid →
        (∀ v, v = s2.cancel r → Loads s d (BitVec.ofNat 64 v.1) v.2 s3 → done (.lcancel d a) s3.serve) ∧
        (Loads s d (s2.recStat r) s2 s3 → done (.lstat d a) s3.serve))) ∧
    (∀ d a b x v mgmt s1 s2 s3 r i, Reads2 a b s x v s1 → Gives isManagement s1 mgmt s2 →
      reservedZero x.toNat [(0, 14), (16, 6)] = true → r = x.toNat % 2 ^ 14 → i = x.toNat / 2 ^ 16 % 64 →
      (mgmt = false → s2.xasid r ≠ s2.task.asid → Loads s d 11 s2 s3 → done (.lpatch d a b) s3) ∧
      (mgmt = true ∨ s2.xasid r = s2.task.asid → ∀ w, w = s2.patch r i v mgmt → Loads s d (BitVec.ofNat 64 w.1) w.2 s3 →
        done (.lpatch d a b) s3.serve))) ∧
  (∀ s d a x mgmt s1 s2 s3, s.Enabled .any { pri := true } → Reads a s x s1 → x.toNat < 2 ^ 14 →
    Gives isManagement (s1.boundary .system) mgmt s2 →
    (mgmt = false → s2.xasid x.toNat ≠ s2.task.asid → Loads s d 11 s2 s3 → exec (.larm d a) s = .next (s.ends s3 .seq)) ∧
    (mgmt = true ∨ s2.xasid x.toNat = s2.task.asid → ∀ w, w = s2.arm x.toNat s.task.hints.hpri →
      Loads s d (BitVec.ofNat 64 w.1) w.2 s3 → exec (.larm d a) s = .next (s.ends s3.serve .seq))) ∧
  (∀ u : State, ∀ r pri st t, r < 2 ^ 14 → u.arm r pri = (st, t) →
      st = (if u.recField r 0 24 8 ≤ u.live r then 2 else if 2 ^ 24 ≤ u.work r then 3 else if u.recMalformed r then 4
        else if u.recRegionsBad r then 5 else if u.recLevelsBad r then 6
        else if u.recField r 0 20 1 = 1 ∧ (u.die (r / 4096)).wsLoading = true then 1 else 0) ∧
      (st ≠ 0 → t = u) ∧
      (st = 0 → ∀ gen, gen = (u.gen r + 1) % 2 ^ 16 →
        (u.work r = 0 → ∃ v : State, t = v.signal r 0 ∧ v = { u with recs := v.recs } ∧ v.gen r = gen ∧ v.live r = u.live r ∧
          v.cred r = u.cred r) ∧
        (u.work r ≠ 0 → ∀ take, take = min (u.cred r) (u.recField r 0 8 6) →
          t = { u with recs := t.recs, insts := t.insts } ∧ t.gen r = gen ∧ t.live r = u.live r + 1 ∧ t.cred r = u.cred r - take ∧
          ∀ i : Instance, i = {
              recNo := BitVec.ofNat 14 r, gen := BitVec.ofNat 16 gen, st := .waiting, pending := u.recField r 0 8 6 - take,
              event := u.recField r 3 60 4 != 0, cls := pri.getD (BitVec.ofNat 2 (u.recField r 0 22 2)) } →
            (i.pending ≠ 0 ∨ i.event = true ∨ u.boot.stage ≠ 3 → u.inst i.recNo i.gen = none → t.insts = u.insts ++ [i]) ∧
            (i.pending = 0 → i.event = false → u.boot.stage = 3 → u.inst i.recNo i.gen = none →
              ∃ x ∈ t.insts, x.recNo = i.recNo ∧ x.gen = i.gen ∧ x.st = .ready)))) ∧
  (∀ u : State, ∀ r st t, u.cancel r = (st, t) → ∀ keep : Instance → Bool,
      (keep = fun i => decide (i.recNo.toNat ≠ r ∨ i.st = .dispatched)) → ∀ gone, gone = (u.insts.filter (!keep ·)).length →
      (gone = 0 → t = u ∧ st = if u.insts.any (fun i => i.recNo.toNat == r) = true then 7 else 8) ∧
      (gone ≠ 0 → st = gone * 256 ∧ t = { u with recs := t.recs, insts := t.insts } ∧
        t.live r = (u.live r - gone) % 2 ^ 8 ∧ t.gen r = u.gen r ∧ t.cred r = u.cred r ∧
        t.insts.map (fun i => (i.recNo, i.gen, i.st)) = (u.insts.filter keep).map fun i => (i.recNo, i.gen, i.st))) ∧
  (∀ u : State, ∀ r x last, x = (u.recStat r).toNat → last = ((lookupKey u.recLast r).getD 0).toNat →
    ∀ n, n = (u.insts.filter fun i => i.recNo.toNat == r && decide (i.st = .waiting)).length →
    bitsOf x 48 16 = u.gen r ∧ bitsOf x 40 8 = u.live r ∧ bitsOf x 32 8 = u.cred r ∧ bitsOf x 24 8 = min n 255 ∧
    bitsOf x 9 15 = 0 ∧ bitsOf x 8 1 = bitsOf last 8 1 ∧ bitsOf x 0 8 = bitsOf last 0 8) ∧
  (∀ u : State, ∀ r i v mgmt st t, i < 64 → u.patch r i v mgmt = (st, t) → ∀ m : W64,
      m = (if i = 0 then 0xFFFFFF00 else if i = 3 then 0xF000000001FFFFFF else if i = 4 then 0x0000FFFFFFFFFFFF
        else if i = 14 ∨ i = 15 ∨ 56 ≤ i then 0 else if 40 ≤ i then 0x00000003FFFFFFF5 else BitVec.allOnes 64) →
      (m = 0 → st = 4 ∧ t = u) ∧ (m ≠ 0 → u.live r ≠ 0 → st = 1 ∧ t = u) ∧
      (m ≠ 0 → u.live r = 0 → st = 0 ∧ t = { u with recs := t.recs, recLast := t.recLast } ∧
        t.recDw r i = (if i = 4 ∧ mgmt = false then u.recDw r i else (u.recDw r i &&& ~~~m) ||| (v &&& m)) ∧
        (∀ q j, q ≠ r ∨ j ≠ i → j < 64 → t.recDw q j = u.recDw q j) ∧
        t.recLast = if i = 0 then setKey u.recLast r ((lookupKey u.recLast r).getD 0 &&& 0xFF) else u.recLast))

/-- The Gaussian node instructions on a lane core (R364-R372): the blocks they name are read from the local window, the
result is computed in the task's rounding mode at the length `PREC` sets, rounded once per element, and its block is held as
a store; GRES writes a register; GSEND sends a record,
    read after its boundary; GPOP appends a message to a node's ring or takes the oldest. -/
def Obligations.GaussianNodeResults : Prop :=
  ∀ s : State, s.Enabled .lane {} → ∀ (rm : State → Rm) (k : State → Nat), (rm = fun t => rmOf t.task.rmode) →
    (k = fun t => t.task.prec.toNat % 8) →
    ∀ puts : Instr → State → W64 → List Byte × Flg → Flg → Prop,
    (puts = fun i s1 vd r f => ∀ s2, Gives (gStore vd r.1) s1 () s2 → exec i s = .next (s.ends s2 (.flags (f ||| r.2)))) →
    (∀ d a b va vb vd x y s0 s1 s2 s3, Reads2 a b s va vb s0 → scalarSrcOk s.task.core d = true → readScalar d s0 = .ok vd s1 →
      Gives (readGBlock va false) s1 x s2 → Gives (readGBlock vb true) s2 y s3 → y.ofs + y.n ≤ x.n →
      ∀ inB : Nat → Bool, (inB = fun i => decide (y.ofs ≤ i ∧ i < y.ofs + y.n)) → ∀ eta, eta = tabulate x.n (fun i =>
        if inB i then (lget x.eta i).add (rm s3) (lget y.eta (i - y.ofs)) else (lget x.eta i, 0)) →
      ∀ lam, lam = tabulate x.n (fun i => tabulate x.n fun j =>
        if inB i && inB j then (entry x.lam i j).add (rm s3) (entry y.lam (i - y.ofs) (j - y.ofs)) else (entry x.lam i j, 0)) →
      puts (.gadd d a b) s3 vd (emitBlock (rm s3) (k s3) x.n x.ofs x.thr false
        (flatten (eta.map (·.1)) (lam.map fun r => r.map (·.1)) (List.range x.n))) (allFlags eta ||| allFlags lam.flatten)) ∧
    (∀ d a b va c vd x s0 s1 s2 keep drop, Reads2 a b s va c s0 → scalarSrcOk s.task.core d = true →
      readScalar d s0 = .ok vd s1 → Gives (readGBlock va false) s1 x s2 → c.toNat < 2 ^ 11 →
      keep = (List.range x.n).filter (fun i => bitAt (c.toNat % 256) i) →
      drop = (List.range x.n).filter (fun i => !bitAt (c.toNat % 256) i) → c.toNat % 256 ≠ 0 → c.toNat % 256 < 2 ^ x.n →
      drop ≠ [] → c.toNat / 256 % 8 + keep.length ≤ 8 →
      ∀ r s3, Gives (eliminate (rm s2) (k s2) x.thr (elimScale x.lam drop) drop 0 (List.range x.n) { m := x.lam, h := x.eta }) s2 r s3 →
      puts (.gschur d a b) s3 vd
        (emitBlock (rm s3) (k s3) keep.length (c.toNat / 256 % 8) x.thr false (flatten r.h r.m keep)) r.flags) ∧
    (∀ d a va vd e x s0 s1 s2 s3 al y s4, Reads2 a d s va vd s0 → Gives (gLoad va 8) s0 e s1 →
      Gives (readGBlock (va + 8) false) s1 x s2 → recordHeaderOk (leNat e) x.n x.k = true →
      alphaOf (leNat e / 2 ^ 32 % 2 ^ 16) = some al → Gives (readGBlock vd true) s2 y s3 → s4 = s3 →
      (y.n = 0 → puts (.gdamp d a) s4 vd (emitBlock (rm s4) (k s4) x.n x.ofs x.thr false (flatten x.eta x.lam (List.range x.n))) 0) ∧
      (y.n = x.n → y.ofs = x.ofs → y.n ≠ 0 → ∀ es, es = ((flatten x.eta x.lam (List.range x.n)).zip
          (flatten y.eta y.lam (List.range y.n))).map (fun z =>
            let p := ((Exact.fin false 1 1).add (rm s4) al.neg).1.mul z.1
            let q := al.mul z.2
            ((p.1.add (rm s4) q.1).1, p.2 ||| q.2 ||| (p.1.add (rm s4) q.1).2)) →
        puts (.gdamp d a) s4 vd (emitBlock (rm s4) (k s4) x.n x.ofs x.thr false (es.map (·.1))) (allFlags es))) ∧
    (∀ d a b va vb x y s0 s1 s2 s3, Reads2 a b s va vb s0 → Gives (readGBlock va true) s0 x s1 →
      Gives (readGBlock vb true) s1 y s2 → (x.n = 0 ∨ y.n = 0 ∨ x.n = y.n) →
      Writes s d (BitVec.ofNat 64 (f64.encode .rup (if x.n = 0 ∨ y.n = 0 then .inf false else residualOf
        ((flatten x.eta x.lam (List.range x.n)).zip (flatten y.eta y.lam (List.range y.n))))).1) s2 s3 →
      exec (.gres d a b) s = .next (s.ends s3 .seq)) ∧
    (∀ d a va vd x r mu s0 s1 s2, Reads2 a d s va vd s0 → Gives (readGBlock va false) s0 x s1 →
      Gives (eliminate (rm s1) (k s1) x.thr (elimScale x.lam (List.range x.n)) (List.range x.n) 0 (List.range x.n)
        { m := x.lam, h := x.eta }) s1 r s2 → mu = backSub (rm s2) (k s2) r (List.range x.n).reverse [] r.flags →
      puts (.gmean d a) s2 vd
        (emitBlock (rm s2) (k s2) x.n x.ofs 0 true (tabulate x.n fun v => (lookupKey mu.1 v).getD .nan)) mu.2) ∧
    (∀ d a b va w route x s0 s1 s2 raw s3 bytes, Reads2 a b s va w s0 → scalarSrcOk s.task.core d = true →
      readScalar d s0 = .ok route s1 → w.toNat < 2 ^ 32 → (alphaOf (w.toNat / 2 ^ 16)).isSome = true →
      reservedZero route.toNat [(47, 17), (32, 8), (24, 4), (0, 16)] = true → route.toNat / 2 ^ 24 % 16 ≤ 9 →
      s1.outstandingSends s1.task.key 0 < s1.task.egdepth.toNat % 16 → Gives (readGBlock va false) s1 x s2 →
      Gives (gLoad va x.raw.length) (s2.boundary (sendScope s2.task.core route)) raw s3 →
      bytes = leBytes 8 (w.toNat / 2 ^ 16 * 2 ^ 32 + w.toNat % 2 ^ 16 * 2 ^ 16 + leNat (raw.take 8) % 2 ^ 7) ++ raw →
      exec (.gsend d a b) s = .next (s.ends (s3.dispatchSend 0 0 route
        ((chunks 4 (8 + raw.length) bytes).map fun c => BitVec.ofNat 32 (leNat c)) (w.setWidth 16)
        (s2.task.hints.hpri.getD 0)) .seq)) ∧
    (∀ d a b va bs dw n v s0 s1 s2 s3, Reads a s va s0 → scalarDstOk s.task.core d = true → Gives (gLoad va 64) s0 bs s1 →
      (dw = fun i => BitVec.ofNat 64 (leNat ((bs.drop (8 * i)).take 8))) → n = Node.mk (dw 0) (dw 1) (dw 2) (dw 3) →
      n.ok va s1.task.core = true → writeScalar d v s2 = .ok () s3 →
      (b = 0 → Gives (nodeTake va n) s1 v s2 → exec (.gpop d a b) s = .next (s.ends s3 .seq)) ∧
      (32 ≤ b.toNat → b.toNat < 48 → Gives (nodeAppend va n (b.setWidth 4)) s1 v s2 →
        exec (.gpop d a b) s = .next (s.ends s3 .seq)))

/-- Writes of registers as events (R48, R61, R142, R157, R158, R165, R168, R317, R330, R389, R405, R409, R410, R417, R436). A
register of a die takes a write of a management task only; `WIN` 0 is written as 1; `CFLAGS` bits written 1 are cleared; a
record is written only while `LIVE` is 0, in its RW bits; a slot that sends keeps its key; a writer's buffer keeps its
doublewords until doubleword 3, which puts the command in its offset's queue of 256, or waits for it; a write that is not an
aligned doubleword does nothing, and nothing but `BOOTST` and the recovery window takes a write while an image is refused.
DEDUCED: that a full queue has its oldest command performed first and the write queued again, and that a unit of the device has
no buffer (log entry 32); that a write of a key of the idle slot marks it loaded (log entry 23). -/
def Obligations.RegisterEvents : Prop :=
  ∀ (s : State) (v : W64), ∀ done : Instr → State → Prop, (done = fun i t => exec i s = .next t) →
    (∀ m s1, Gives isManagement s m s1 →
      ∀ set : (Die → Die) → State, (set = fun f => if m then s1.setDie s1.task.core.die.toNat f else s1) →
      ((v.toNat / 2 ^ 32 % 2 ^ 17 ≤ 81599 → s1.claimHeld s1.task.core.die.toNat = false → ∀ x, x = v.toNat / 2 ^ 32 % 2 ^ 17 →
        done (.wsrefset v) (set fun d =>
          { d with wsShift := x, wsPause := d.wsPause + (x + 81600 - d.wsShift) % 81600 })) ∧
      done (.ebudgetWrite v) (set fun d =>
        { d with ebudget := if v.toNat % 2 ^ 32 = 0 then v ||| 1 else v, winEnergy := d.energy }) ∧
      (v &&& 0xFFFF3FF1 = v → v.toNat / 16 % 16 < 8 → done (.supvWrite v) (set fun d => { d with supv := v })) ∧
      done (.errinjWrite v) (set fun d => { d with errinj := v &&& 0x8000FFF7FFFFFFFF, errSeen := 0 }))) ∧
    (v.toNat < 5 → done (.rmodeWrite v) (s.setTask fun t => { t with rmode := v })) ∧
    (1 ≤ v.toNat % 16 → v.toNat % 16 ≤ 8 → 1 ≤ v.toNat / 16 % 16 → v.toNat / 16 % 16 ≤ 8 →
      done (.egdepthWrite v) (s.setTask fun t => { t with egdepth := v &&& 0xFF })) ∧
    done (.cflagsClear v) (s.setCluster (clusterId s.task.core) fun c => { c with cflags := c.cflags &&& ~~~v.setWidth 5 }) ∧
    done (.registerWrite (.creg 0x013) v) (s.setTask fun t => { t with fena := v &&& 0x1F }) ∧
    (∀ w d off, off.toNat % 8 ≠ 0 → done (.registerWrite (.control w d off) v) s) ∧
    (∀ w d, s.boot.stage ≠ 15 → done (.registerWrite (.control w d 0x8F00) v) (s.setDie d.toNat fun x => { x with rid := v.setWidth 16 })) ∧
    (s.boot.stage = 15 → (∀ d, done (.rilahIdWrite d v) s) ∧ (∀ n, done (.lctlWrite n v) s) ∧ (∀ n, done (.swreq n) s) ∧
        (∀ n k, done (.keySlotWrite n k v) s) ∧
      (∀ n k z, done (.membershipKeyWrite n k z v) s) ∧ (∀ w d slot dw, done (.commandStagingWrite w d slot dw v) s) ∧
      (∀ r dw, done (.launchRecordHostWrite r dw v) s) ∧ (∀ w d, done (.registerWrite (.control w d 0x8F00) v) s)) ∧
    (∀ d, s.boot.stage ≠ 15 → done (.rilahIdWrite d v) (s.setDie d.toNat fun x => { x with rid := v.setWidth 16 })) ∧
    (∀ n : BitVec 4, n.toNat < 14 → s.boot.stage ≠ 15 →
        done (.swreq n) ((s.setLink n.toNat fun l => { l with swreq := true }).pushEvent (.flitSlot n))) ∧
    (∀ n : BitVec 4, n.toNat < 14 → s.boot.stage ≠ 15 → ∀ set : (Link → Link) → State, (set = s.setLink n.toNat) →
      (∀ k, done (.membershipKeyWrite n k 0 v) (set fun l => { l with keys := setKey l.keys k.toNat (v.setWidth 32) })) ∧
      (v.getLsbD 3 = false → done (.lctlWrite n v) (set fun l =>
        { l with
          ubudget := if v.toNat / 256 % 64 = 0 then l.ubudget else BitVec.ofNat 6 (v.toNat / 256 % 64),
          enc := if l.up then l.enc else v.getLsbD 4 })) ∧
      ((s.link n.toNat).ksend = 1 → ∀ k < 4, done (.keySlotWrite n (BitVec.ofNat 8 (0x20 + 8 * k)) v) (set fun l =>
        { l with ka := lset l.ka k v, loaded := true })) ∧
      ((s.link n.toNat).ksend = 0 → ∀ k < 4, done (.keySlotWrite n (BitVec.ofNat 8 (0x20 + 8 * k)) v) s)) ∧
    (∀ w d slot, s.boot.stage ≠ 15 → w ≠ .unit → (slot = .launch → w = .host) → (slot = .attest → d = 0) →
      ∀ b, b = s.stagingOf w (BitVec.toNat d) slot →
      ∀ c, c = (s.setDie d.toNat fun x => { x with staging := x.staging.filter fun b => !(b.writer == w && b.slot == slot) }) →
      done (.commandStagingWrite w d slot 0 v) (c.setDie d.toNat fun x => { x with staging := { b with dw0 := v } :: x.staging }) ∧
      done (.commandStagingWrite w d slot 1 v) (c.setDie d.toNat fun x => { x with staging := { b with dw1 := v } :: x.staging }) ∧
      done (.commandStagingWrite w d slot 2 v) (c.setDie d.toNat fun x => { x with staging := { b with dw2 := v } :: x.staging }) ∧
      ∀ q, q = s.agenda.filter (Turn.ofSlot d.toNat slot) →
        (q = [] ∨ (slot ≠ .attest ∧ q.length < 256) → done (.commandStagingWrite w d slot 3 v)
          { c with agenda := c.agenda ++ [.command d.toNat slot b.dw0 b.dw1 b.dw2 v] }) ∧
        (q ≠ [] → slot = .attest → done (.commandStagingWrite w d slot 3 v) c) ∧
        (∀ first rest, q = first :: rest → slot ≠ .attest → 256 ≤ q.length → done (.commandStagingWrite w d slot 3 v)
          { s with agenda := first :: .event (.registerWrite (.control w d (BitVec.ofNat 30 (slotOffset slot + 24))) v) ::
            s.agenda.erase first })) ∧
    (∀ w d slot dw, s.boot.stage ≠ 15 → w = .unit ∨ (slot = .launch ∧ w ≠ .host) ∨ (slot = .attest ∧ d ≠ 0) →
      done (.commandStagingWrite w d slot dw v) s) ∧
    (∀ r dw, s.boot.stage ≠ 15 → (s.live (BitVec.toNat r) = 0 → done (.launchRecordHostWrite r dw v)
        (s.setRecDw r.toNat dw.toNat (s.recDw r.toNat dw.toNat &&& ~~~recordMask dw.toNat ||| v &&& recordMask dw.toNat))) ∧
      (s.live r.toNat ≠ 0 → done (.launchRecordHostWrite r dw v) s))

/-- Commands and accesses of the host (R47-R49, R71, R72, R118, R381-R383, R387, R413, R417-R419, R435, R436): an
invalidation with a well aligned counter drops exactly the translations of its kind and then adds to the counter; a page
command gives each page its metadata and zeroes a page whose metadata changes; a command that is not accepted does nothing; a
launch command writes its status; a pre-emption saves the instance and lets nothing of it run until it resumes; an attestation
report is signed twice over its bytes below 0x850; an image runs when the five checks of R417 pass, and is refused with the
number of the first that fails; while an image is refused no command takes effect; a queued command,
    and another look at a packet that a port holds, comes when
its turn comes; the host reads and writes memory by CXL.mem and a die's control space through BAR0, whose holes read as zero. The
model's own (log entry 32): when `RETRY` clears, that the record of any die takes a launch command, that attestation needs
`STAGE` 2 or 3 and a nonce in memory, that the far tier answers the host from `STAGE` 3, that a completion counter lies where
counters can be, and what a read of BAR0 of another width gives. That memory is empty after a reset is log entry 1. -/
def Obligations.CommandEvents : Prop :=
  ∀ (s : State) (ctr : W64), ∀ done : Instr → State → Prop, (done = fun i t => exec i s = .next t) →
    ∀ bar : Instr → State → Prop, (bar = fun i t => exec i s = .next (if s.boot.stage = 15 then s else t)) →
    ∀ drop : (TlbEntry → Bool) → (TlbEntry → Bool) → State, (drop = fun p r => if ctr.toNat % 8 = 0 then
      { s with l1 := s.l1.filter (!p ·.2), dtlb := s.dtlb.filter (!p ·.2), rtlb := s.rtlb.filter (!r ·.2) }.signalCounter ctr else s) →
    (∀ asid va len, (canonical va = true → va.toNat % 4096 = 0 → len ≠ 0 → len.toNat % 4096 = 0 →
        bar (.invalidatePages asid va len ctr) (drop (fun e => e.asid == asid && e.meets va.toNat len.toNat) fun _ => false)) ∧
      (canonical va = false ∨ va.toNat % 4096 ≠ 0 ∨ len = 0 ∨ len.toNat % 4096 ≠ 0 → bar (.invalidatePages asid va len ctr) s)) ∧
    (∀ asid, bar (.invalidateAsidPages asid ctr) (drop (fun e => e.asid == asid) fun _ => false)) ∧
    (∀ asid, bar (.invalidateAsidRanges asid ctr) (drop (fun _ => false) fun e => e.asid == asid)) ∧
    (∀ asid, bar (.invalidateAsidAll asid ctr) (drop (fun e => e.asid == asid) fun e => e.asid == asid)) ∧
    bar (.invalidateAll ctr) (drop (fun _ => true) fun _ => true) ∧
    (∀ pa len, pageSpanOk pa len ctr = true →
      (∀ lay owner cmp, BitVec.toNat cmp < 2 → (inHbm pa.toNat len.toNat = true ∨ (cmp = 0 ∧ lay = 0)) →
        ∃ t, bar (.setFormatAndOwner lay cmp owner pa len ctr) (t.pushEvent (.pageCommandCompletion ctr)) ∧
          (s.waiters = [] → ∀ x, pa.toNat ≤ x → x < pa.toNat + len.toNat → t.pageMeta x = ⟨cmp, lay, owner⟩) ∧
          (len = 4096 → s.pageMeta pa.toNat = ⟨cmp, lay, owner⟩ → t = s) ∧
          (len = 4096 → s.pageMeta pa.toNat ≠ ⟨cmp, lay, owner⟩ → ∀ z, z = s.zeroPages pa.toNat 4096 → t = ({ z with
            metas := if (⟨cmp, lay, owner⟩ : PageMeta) = {} then z.metas.filter (·.1 != pa.toNat / 4096)
              else setKey z.metas (pa.toNat / 4096) ⟨cmp, lay, owner⟩ } : State).serve)) ∧
      bar (.zeroOnly pa len ctr) ((s.zeroPages pa.toNat len.toNat).serve.pushEvent (.pageCommandCompletion ctr))) ∧
    (∀ pa n x, (s.zeroPages pa n).mem = s.mem.filter (fun b => !decide (pa ≤ b.1 ∧ b.1 < pa + n)) ∧
      (x % 8 = 0 → (s.zeroPages pa n).isFull x = (s.isFull x && !decide (pa ≤ x ∧ x < pa + n)))) ∧
    (∀ pa len, pageSpanOk pa len ctr = false →
      bar (.zeroOnly pa len ctr) s ∧ ∀ lay owner cmp, bar (.setFormatAndOwner lay cmp owner pa len ctr) s) ∧
    (∀ pa len lay owner cmp, 2 ≤ BitVec.toNat cmp ∨ (inHbm (BitVec.toNat pa) (BitVec.toNat len) = false ∧ (cmp ≠ 0 ∨ lay ≠ 0)) →
      bar (.setFormatAndOwner lay cmp owner pa len ctr) s) ∧
    done (.pageCommandCompletion ctr) (if hasFullBits ctr.toNat = true then s.counterAdd .other ctr.toNat 1 else s) ∧
    (∀ r gen, (ctr.toNat % 8 ≠ 0 → bar (.preEmpt r gen ctr) s ∧ bar (.resume r gen ctr) s) ∧ (ctr.toNat % 8 = 0 →
      (s.inst r gen = none → bar (.preEmpt r gen ctr) (s.signalCounter ctr) ∧ bar (.resume r gen ctr) (s.signalCounter ctr) ∧
        done (.preemptSaveDone r gen ctr) (s.signalCounter ctr)) ∧
      (∀ i, s.inst r gen = some i → i.st ≠ .dispatched →
        bar (.preEmpt r gen ctr) (s.signalCounter ctr) ∧ bar (.resume r gen ctr) (s.signalCounter ctr)) ∧
      (∀ i, s.inst r gen = some i → i.st = .dispatched →
        (i.pre = false → bar (.preEmpt r gen ctr) (((s.updInst r gen fun x => { x with pre := true }).saveInstance r gen).pushEvent
            (.preemptSaveDone r gen ctr)) ∧ bar (.resume r gen ctr) (s.signalCounter ctr) ∧
          done (.preemptSaveDone r gen ctr) (s.signalCounter ctr)) ∧
        (i.pre = true → bar (.preEmpt r gen ctr) (s.signalCounter ctr) ∧
          done (.preemptSaveDone r gen ctr) ((s.saveInstance r gen).signalCounter ctr) ∧
          bar (.resume r gen ctr) ((s.updInst r gen fun x => { x with resuming := x.resuming ++ [ctr] }).tryResume r gen))))) ∧
    (∀ r st, (counterPa st = true → counterPa ctr = true → s.dieUp (BitVec.toNat r / 4096) = true →
      (∀ pv pcls x, x = s.arm r.toNat (if pv = 1 then some pcls else none) → bar (.launchCmdArm pv pcls r st ctr)
        ((x.2.agentWrite false .other st.toNat (leBytes 8 (BitVec.ofNat 64 x.1).toNat)).signalCounter ctr)) ∧
      (∀ x, x = s.cancel r.toNat → bar (.launchCmdCancel r st ctr)
        ((x.2.agentWrite false .other st.toNat (leBytes 8 (BitVec.ofNat 64 x.1).toNat)).signalCounter ctr)) ∧
      bar (.launchCmdState r st ctr) ((s.agentWrite false .other st.toNat (leBytes 8 (s.recStat r.toNat).toNat)).signalCounter ctr)) ∧
      (counterPa st = false ∨ counterPa ctr = false ∨ s.dieUp (BitVec.toNat r / 4096) = false →
        (∀ pv pcls, bar (.launchCmdArm pv pcls r st ctr) s) ∧ bar (.launchCmdCancel r st ctr) s ∧
            bar (.launchCmdState r st ctr) s)) ∧
    (∀ non rep, ∀ ok : Bool, ok = (nonceOk (BitVec.toNat non) && decide (BitVec.toNat rep % 4096 = 0) && inHbm rep.toNat 8192 &&
        decide (ctr.toNat % 8 = 0) && (s.boot.stage == 2 || s.boot.stage == 3)) →
      (ok = false → bar (.attestationCommand non rep ctr) s) ∧
      (ok = true → ∀ x m b, x = s.readAs s.systemReader non.toNat 32 → m = sha384 x.2.boot.image →
        ∀ k1 k2, k1 = padTo 32 0 (Config.edSeed m) → k2 = padTo 32 0 (Config.dsaSeed m) →
        b = x.1 ++ m ++ leBytes 8 x.2.boot.svn.toNat ++ leBytes 8 x.2.capcl.toNat ++ padTo 48 0 Config.fusedKeyHash ++
          ed25519Key k1 ++ mldsaKey k2 →
        bar (.attestationCommand non rep ctr) (({ x.2 with tick := x.2.tick + 1 }.agentWrite false .other rep.toNat
          (b ++ ed25519Sign k1 b ++ padTo 3309 0 (mldsaSign k2 (padTo 32 0 (Config.signRandom x.2.tick)) b))).signalCounter ctr))) ∧
    (∀ pa n, (s.hostMem (BitVec.toNat pa) (BitVec.toNat n) = true → ∀ x, x = s.agentRead (s.hostReader pa.toNat) pa.toNat n.toNat →
        done (.hostMemRead pa n) { x.2.2 with hostData := x.1, hostSeen := x.2.1 }) ∧
      (s.hostMem pa.toNat n.toNat = false →
        (∀ d off, regionOf pa.toNat = .control d off →
          done (.hostMemRead pa n) { s with hostData := s.barRead (d * 2 ^ 32 + off) n.toNat }) ∧
        ((∀ d off, regionOf pa.toNat ≠ .control d off) → done (.hostMemRead pa n) s))) ∧
    (∀ b n, s.barRead b n = tabulate n fun i => if b + i < 2 ^ 34 ∧ (b + i) % 2 ^ 32 < 2 ^ 30
      then s.controlByte .host (0xF000000000 + (b + i) / 2 ^ 32 * 2 ^ 30 + (b + i) % 2 ^ 32) else 0) ∧
    (∀ pa data, (s.hostMem (BitVec.toNat pa) (List.length data) = true →
        done (.hostMemWrite pa data) ((s.agentPut false .other pa.toNat data).serve)) ∧
      (s.hostMem pa.toNat data.length = false →
        (∀ d off, regionOf pa.toNat = .control d off →
          done (.hostMemWrite pa data) { s with agenda := s.agenda ++ controlEvents .host pa.toNat data }) ∧
        ((∀ d off, regionOf pa.toNat ≠ .control d off) → done (.hostMemWrite pa data) s))) ∧
    (s.boot.stage = 2 → ∃ t, done .stageReady t ∧ t.boot.stage = 3 ∧
      (∀ d < 4, (t.die d).asidTbl = Config.asidTable.toNat) ∧
      (s.waiters = [] → ∀ d < 4, t.dieMask.getLsbD d = !Config.badDie d)) ∧
    (s.boot.stage ≠ 2 → done .stageReady s) ∧
    done .deviceReset { State.reset with boot := { flash := s.boot.flash, stage := 1 }, tick := s.tick, agenda := [.verify false] } ∧
    (s.boot.stage ≠ 15 → done .retry s) ∧
    (s.boot.stage = 15 → done .retry { s with
      boot := { s.boot with stage := 1, retry := true }, agenda := s.agenda ++ [.verify true] }) ∧
    (∀ rest r, s.agenda = .verify r :: rest → ∃ t, step s = .next t ∧ t.boot.retry = false ∧
      (t.boot.stage = 2 ∧ t.boot.fail = 0 ∨ t.boot.stage = 15 ∧ t.boot.fail ≠ 0) ∧ t = { s with agenda := rest, boot := t.boot }) ∧
    (∀ rd : Nat → Byte, ∀ part : Nat → Nat → List Byte, (part = fun off n => tabulate n fun i => rd (off + i)) →
      ∀ num : Nat → Nat → Nat, (num = fun off n => leNat (part off n)) →
      ∀ m, m = part 0 0x7E0 ++ part 0x2000 (num 0x10 8) → ∀ ok : Nat → Bool, (ok = fun k => match k with
        | 1 => decide (part 0 4 = [0x42, 0x46, 0x57, 0x31] ∧ num 4 4 = 1 ∧ num 0xC 4 = 0 ∧ 1 ≤ num 0x10 8 ∧
            num 0x10 8 ≤ 0x3000000) &&
            (part 0x150D 0xAF3).all (· == 0)
        | 2 => sha384 (part 0x20 0x7C0) == padTo 48 0 Config.fusedKeyHash
        | 3 => ed25519Ok (part 0x20 32) m (part 0x7E0 64)
        | 4 => mldsaOk (part 0x40 1952) m (part 0x820 3309)
        | _ => decide (Config.fusedMinSvn.toNat ≤ num 8 4)) →
      s.verify rd = { s with boot := match [1, 2, 3, 4, 5].find? (!ok ·) with
        | none => { s.boot with stage := 2, fail := 0, svn := BitVec.ofNat 16 (num 8 4), image := m }
        | some k => { s.boot with stage := 15, fail := BitVec.ofNat 8 k } }) ∧
    (∀ rest d slot d0 d1 d2 d3, s.agenda = .command d slot d0 d1 d2 d3 :: rest →
      step s = .next ({ s with agenda := rest }.command slot d0 d1 d2 d3)) ∧
    (∀ rest src pid, s.agenda = .held src pid :: rest → ∀ u, u = { s with agenda := rest } →
      (∀ h, u.heldPkts.find? (fun h => h.pkt.sdev == src && h.pkt.pid == pid) = some h → step s = .next (u.perform h)) ∧
      (u.heldPkts.find? (fun h => h.pkt.sdev == src && h.pkt.pid == pid) = none → step s = .next u))

/-- What happens to tasks, instances, engines, translations and sensors by itself (R59, R60, R68, R78, R91, R114, R133-R138,
R155-R160, R166, R216, R293, R298, R322, R351, R386, R388, R421, R422). When these things happen, and which of the events that
may come next does, is the model's (log entries 2, 6, 30, 31), and so is what an overlapping copy may read (log entry 17), which
die's controller a WSLOAD takes and that `ERRVA` of a malformed block is its first misaligned address (log entry 35), which code a
closed sector gets (log entry 13), and the words in which the acknowledgement of a task that is not resident is kept (log entry
18). So is that the end of an IORD or IOWR with a peer has status PEER and changes nothing of the state, and that the bytes of an
IORD land at its completion (DEDUCED and DESIGN CHOICE, log entry 19). A dispatched task has the registers of R147, and a chosen
one is RUNNING on its core, or SUSPENDED below one of high priority; a pre-empted instance goes on on the clusters found for it
(R383). -/
def Obligations.TaskAndEngineEvents : Prop :=
  (∀ s : State, ∀ done : Instr → State → Prop, (done = fun i t => exec i s = .next t) →
     (∀ k x u, u = s.updTask k (·.arrive x) → ∀ t, t = { u with forwards := u.forwards.filter u.forwardLive } →
       done (.loadReply k x) t ∧ done (.forwardedReply k x) t) ∧
     (∀ k, (s.taskOf k = none → done (.homeAcknowledgement k) s.serve) ∧ (∀ t, s.taskOf k = some t →
       ∀ less : Task → Task, (less = fun t => { t with usc := if t.usc = 0 then 0 else t.usc - 1 }) →
       (t.resident = true → done (.homeAcknowledgement k) (s.updTask k less).serve) ∧
       (t.resident = false → ∀ v w, s.loadImages t false = (v, w) → ∀ u, u = less v →
         ∀ new, new = (u.images.zip v.images).filterMap (fun p => if p.1 = p.2 then none else some p.1) →
         done (.homeAcknowledgement k)
           ((w.putImages u new).updTask k fun _ => { u with resident := false, live := t.live }).serve))) ∧
     (∀ k, s.refusedWaits.all (·.task != k) = true → done (.retryRepeat k) s) ∧
     (∀ k w others, s.refusedWaits.partition (·.task == k) = ([w], others) → ∀ u, u = { s with refusedWaits := others } →
       ∀ v, v = (u.meet w.pa w.kind.size).closeAt w.pa →
       (w.kind.remote = false ∨ u.failedIn w.pa 8 = [] →
         (v.waiterReady w = true → done (.retryRepeat k) (v.performNow w).serve) ∧
         (v.waiterReady w = false → ∀ n, n = (v.waiters.filter fun x => homeDie x.pa == homeDie w.pa).length →
           (n < 1052672 → done (.retryRepeat k) ({ v with waiters := v.waiters ++ [w] } : State).serve) ∧
           (1052672 ≤ n → done (.retryRepeat k) ({ v with refusedWaits := v.refusedWaits ++ [w] } : State).serve))) ∧
       (u.failedIn w.pa 8 ≠ [] → ∀ src pid jkey,
         (w.kind = .remoteRead src pid jkey → done (.retryRepeat k)
           (({ v with pos := v.pos + 1 } : State).answer src pid jkey stZEROED (some (List.replicate 8 0))).serve) ∧
         (∀ data, w.kind = .remoteWrite src pid jkey data → done (.retryRepeat k) (u.performNow w).serve))) ∧
     (∀ k t, s.taskOf k = some t → (t.status = .waiting ∨ t.status = .parked) →
         (t.waitOn = .nothing ∨ ∃ c v, t.waitOn = .trapped c v) →
       ∀ u, u = { s.updTask k (fun t => { t with status := .ready }) with ready := s.ready ++ [k] } →
       ∀ r : Task, r = { t with status := .ready } → ∀ v, v = (if t.high then u.suspendNormals (u.aimOf r) else u) →
       (∀ c, v.coreFor r = some c → done (.taskWake k) (v.pushEvent (.taskChosen c))) ∧
       (v.coreFor r = none → done (.taskWake k) v)) ∧
     (∀ k, s.taskOf k = none → done (.taskWake k) s ∧ done (.mxRunEnd k) s ∧ done (.mxRecEnd k) s) ∧
     (∀ k t, s.taskOf k = some t → t.mx.bit 24 = false → done (.mxRunEnd k) s ∧ done (.mxRecEnd k) s) ∧
     (∀ t, t = s.task → t.mx.bit 24 = true → t.resident = true → t.status = .running → t.waitOn.again = false →
       ∀ e, e = (if t.mx.bit 26 then .mxRecEnd t.key else Instr.mxRunEnd t.key) → ∀ u, u = s.finishRun →
       ∀ f, f = t.mx.finish.runFlags &&& t.fena.setWidth 5 → ∀ v : Bool, v = (s.die t.core.die.toNat).supv.getLsbD 0 →
       (f = 0 ∨ v = false → done e u.serve) ∧
       (f ≠ 0 → v = true → done e ((u.park f u.task.mx.runPc).swapTo t.key).serve)) ∧
     (∀ t, t = s.task → t.mx.bit 24 = true → t.mx.bit 26 = true → t.resident = true → t.status = .running → t.waitOn.again = true →
       ∀ u, u = s.reissue.swapTo t.key → (∀ v, u.taskOf t.key = some v → v.status = .running → v.waitOn.again = true →
         done (.mxRecEnd t.key) u) ∧
       ((∀ v, u.taskOf t.key = some v → v.status = .running → v.waitOn.again = false) →
           done (.mxRecEnd t.key) (u.runEnd t.key true))) ∧
     (∀ t, t = s.task → t.mx.bit 24 = true → t.resident = true → t.status = .ready ∨ t.status = .suspended →
       done (if t.mx.bit 26 then .mxRecEnd t.key else Instr.mxRunEnd t.key) s.finishRun.serve) ∧
     (∀ c, s.readyTasks = [] → done (.taskChosen c) s) ∧
     (∀ c t, s.readyTasks.find? (fun t => s.coreFor t == some c) = some t → done (.taskChosen c) (s.take t c)) ∧
     (∀ d : BitVec 2, ∀ u, u = s.insts.foldl (fun s i => s.tryResume i.recNo i.gen)
         (s.setDie d.toNat fun x => { x with slotNo := x.slotNo + 1 }) →
       (u.boot.stage ≠ 3 ∨ (u.die d.toNat).hot = true ∨ u.dieUp d.toNat = false → done (.dispatchSlot d) u) ∧
       (u.choose d.toNat (s.die d.toNat).slotNo = none → done (.dispatchSlot d) u) ∧
       (∀ i tids core, u.boot.stage = 3 → (u.die d.toNat).hot = false → u.dieUp d.toNat = true →
         u.choose d.toNat (s.die d.toNat).slotNo = some (i, tids, core) →
             done (.dispatchSlot d) (u.dispatch d.toNat i tids core))) ∧
     (∀ r gen v, (s.inst r gen = none → done (.eventSample r gen v) s) ∧
       (∀ i, s.inst r gen = some i → (i.st ≠ .waiting ∨ i.event = false → done (.eventSample r gen v) s) ∧
         (i.st = .waiting → i.event = true →
         ∀ x u, s.eventValue r.toNat v = (x, u) →
         ((u.recDw r.toNat 10).toNat ≤ x →
           done (.eventSample r gen v) ((u.updInst r gen fun x => { x with event := false }).wakeInst r gen)) ∧
         (x < (u.recDw r.toNat 10).toNat → done (.eventSample r gen v) u)))) ∧
     (∀ d : BitVec 2, ∀ set : (Die → Die) → State, set = s.setDie d.toNat →
       done (.energyWindow d) (set fun x => { x with winEnergy := x.energy }) ∧
       (∀ e temp, ∀ u, u = (set fun x =>
           { x with energy := Nat.min (x.energy + BitVec.toNat e) (2 ^ 64 - 1), temp := temp }) →
         ∀ w, w = (s.insts.filter fun i => decide (i.recNo.toNat / 4096 = d.toNat) && s.recField i.recNo.toNat 3 60 4 == 2).foldl
           (fun u i => u.sample i.recNo i.gen 0) u →
         done (.sensorUpdate d e temp) (w.setDie d.toNat fun x =>
           { x with hot := if 920 ≤ x.temp.toNat then true else if x.temp.toNat < 840 then false else x.hot })) ∧
       (920 ≤ (s.die d.toNat).temp.toNat → done (.thermalTrip d) (set fun x => { x with hot := true })) ∧
       ((s.die d.toNat).temp.toNat < 920 → done (.thermalTrip d) (set fun x => x)) ∧
       ((s.die d.toNat).temp.toNat < 840 → done (.thermalRecover d) (set fun x => { x with hot := false })) ∧
       (840 ≤ (s.die d.toNat).temp.toNat → done (.thermalRecover d) (set fun x => x)) ∧
       (∀ n, (s.die d.toNat).wsPause = 0 →
         done (.wsRefresh d n) (set fun x => { x with wsPos := (x.wsPos + BitVec.toNat n) % 81600 })) ∧
       (∀ n : BitVec 32, (s.die d.toNat).wsPause ≠ 0 → ∀ p, p = (s.die d.toNat).wsPos % 5100 →
         ∀ rest, rest = (if p < 2040 then 2040 - p else 0) →
         (n.toNat ≤ rest → done (.wsRefresh d n) (set fun x => { x with wsPos := x.wsPos + n.toNat })) ∧
         (rest < n.toNat → ∀ held, held = Nat.min (n.toNat - rest) (s.die d.toNat).wsPause → done (.wsRefresh d n)
           (set fun x => { x with wsPos := (x.wsPos + rest + (n.toNat - rest - held)) % 81600, wsPause := x.wsPause - held })))) ∧
     (∀ id, s.ops.all (·.id != id) = true →
       done (.engineOperationStart id) s.serve.letEnter ∧ done (.graftHeldResume id) s.serve ∧
           ∀ peer, done (.engineCompletion id peer) s) ∧
     (∀ o, s.ops.find? (fun x => x.id == o.id && decide (x.st = .queued)) = some o → o.tag.isSome = true → o.stopped = false →
       ∀ starts : State → Prop, (starts = fun t => done (.engineOperationStart o.id) t.serve.letEnter) →
       (o.cmd < 8 → blockOk s o = false → starts (s.endOp
         { o.meet stMALFORMED with errva := some (firstMisaligned (blkAddresses o.cmd o.blk)) })) ∧
       (8 ≤ o.cmd → starts (if portBlockOk o = false then s.endOp o.badBlock
         else if o.cmd = 8 then (if blkField o.blk 2 0 1 = 1 then unbindPort o s else bindPort o s)
         else if o.cmd = 9 then sendPort o s else if o.cmd = 10 then takePort o s else statPort o s)) ∧
       (blockOk s o = true → o.cmd = 7 → ∀ w u, weightDie o s = (w, u) →
         (∀ d, w = some d →
           (u.claimHeld d = true → starts (u.endOp { o with status := stBUSY })) ∧
           (u.claimHeld d = false → ∀ q, q = moveAll { write := true, load := true } (segments o [])
               ({ o with wsDie := some d }, u.setDie d fun x => { x with wsLoading := true }) → starts (q.2.endOp q.1))) ∧
         (w = none → ∀ q, q = moveAll { write := true, load := true } (segments o []) (o, u) → starts (q.2.endOp q.1))) ∧
       (blockOk s o = true → (o.cmd = 5 ∨ o.cmd = 6) → starts (s.startIo o)) ∧
       (blockOk s o = true → o.cmd ≤ 4 → ∀ flip w, s.inject o.core.die.toNat o.count = (flip, w) →
         ∀ i u, (if o.cmd = 4 then gatherIndices o w else ({ seen := o.seen }, w)) = (i, u) →
         (∀ f, i.fault = some f → starts (u.endOp (o.stop f))) ∧
         (i.fault = none → ∀ p : EngineOp × State, p = ({ o with seen := i.seen, flip := flip }.zeroed i.failed, u) →
           ∀ l, l = segments p.1 ((chunks 4 i.data.length i.data).map leNat) →
           (o.cmd = 2 → ∀ q, q = multicast p.1 p.2 → starts (q.2.endOp q.1)) ∧
           (o.cmd ≠ 2 → blkRem o.blk = false → ∀ q, q = moveAll { write := true } l p → starts (q.2.endOp q.1)) ∧
           (o.cmd ≠ 2 → blkRem o.blk = true → u.inPlane (BitVec.ofNat 16 (blkField o.blk 5 32 16)) = false →
             starts (u.endOp (p.1.meet stREMOTE))) ∧
           (o.cmd ≠ 2 → blkRem o.blk = true → u.inPlane (BitVec.ofNat 16 (blkField o.blk 5 32 16)) = true →
             ∀ q, q = l.foldl (remoteSeg (blkField o.blk 5 4 1 == 1)) (p.1, 0, p.2) →
             ∀ e : EngineOp, e = { q.1 with st := .remote, bytes := q.2.1 } →
             starts (if e.parts = 0 then q.2.2.endOp e else q.2.2.setOp e)))) ∧
       (∀ keep flip k (g : Seg) data, g.overlaps = false → selfCopy keep flip k g data = (data, flipAt flip k data)) ∧
       (∀ (acc : Access) (u v x : State) g r w, o.misaligned g = false → readRange o.ctx' o.reader g.src g.n u = (r, v) →
         ∀ y, y = selfCopy (fun k => Config.freeKeep (v.tick + k)) o.flip o.bytes g r.data →
         ∀ v', v' = { v with tick := v.tick + if g.overlaps then r.data.length else 0 } →
         writeRange o.ctx' acc (.task o.task) g.dst y.2 v' = (w, x) → r.fault = none → w.fault = none →
         r.failed = none → w.failed = none → moveSeg acc (o, u) g = ({ o with
           got := o.got ++ [(o.bytes, y.1)], seen := r.seen, bytes := o.bytes + w.data.length }, x))) ∧
     (∀ o, s.ops.find? (·.id == o.id) = some o → o.st = .finished → o.tag.isSome = true →
       ∀ t, t = ((s.writeRecord o 0).setTag o).completionAdd o → ∀ u, u = (match o.wsDie with
         | none => t
         | some d => t.setDie d fun x => { x with wsLoading := t.ops.any fun y => y.id != o.id && y.wsDie == some d }) →
       ∀ peer, done (.engineCompletion o.id peer) (({ u with ops := u.ops.filter (·.id != o.id) }.serve).checkComplete o.launch)) ∧
     (∀ o peer, s.ops.find? (·.id == o.id) = some o → o.st = .remote → (o.cmd = 5 ∨ o.cmd = 6) →
       ∀ w o', s.ioEnd o peer = (w, o') → done (.engineCompletion o.id peer) (w.completeOp o' peer)) ∧
     (∀ o peer, peer ≠ 0 → s.ioEnd o peer = (s, o.meet stPEER)) ∧
     (∀ o p, s.ops.find? (fun x => x.id == o.id && decide (x.st = .held)) = some o →
       s.ports.find? (fun x => x.heldSend == some o.id || x.heldTake == some o.id) = some p →
       (p.heldSend = some o.id → p.full = true → done (.graftHeldResume o.id) s.serve) ∧
       (p.heldSend = some o.id → p.full = false → ∀ q, q = portProbe o.ctx' {} (blkDw o.blk 1) (4 * p.nsc) (p.probe (o, s)) →
         (q.1.stopped = false → done (.graftHeldResume o.id) (performSend p q).serve) ∧
         (q.1.stopped = true → done (.graftHeldResume o.id) ((q.2.setPort { p with heldSend := none }).endOp q.1).serve)) ∧
       (p.heldSend ≠ some o.id → p.closed = [] → done (.graftHeldResume o.id) s.serve) ∧
       (p.heldSend ≠ some o.id → p.closed ≠ [] →
         ∀ q, q = p.probe (portProbe o.ctx' { write := true } (blkDw o.blk 1) (takeBytes p (blkField o.blk 2 0 2)) (o, s)) →
         (q.1.stopped = false → done (.graftHeldResume o.id) (performTake p q).serve) ∧
         (q.1.stopped = true → done (.graftHeldResume o.id) ((q.2.setPort { p with heldTake := none }).endOp q.1).serve))) ∧
     (∀ r, s.sends.find? (fun x => x.id == r.id && !routeRemote x.route) = some r →
       (s.bindings.all (fun b => !(b.core == routeCore r.route && b.tag == r.route.setWidth 16)) = true →
         ∀ t, t = s.setDie (routeCore r.route).die.toNat (fun d => { d with unbound := d.unbound + 1 }) →
         done (.channelPacketArrival r.id) { t with sends := t.sends.filter (·.id != r.id) }) ∧
       (∀ b, s.bindings.find? (fun b => b.core == routeCore r.route && b.tag == r.route.setWidth 16) = some b →
         ∀ n, n = (s.chq.filter fun q => q.core == routeCore r.route && q.chan == b.chan).length →
         (4 ≤ n → done (.channelPacketArrival r.id) s) ∧
         (n < 4 → done (.channelPacketArrival r.id) { ({ s with
             chq := s.chq ++ [QPacket.mk (routeCore r.route) b.chan r.data] }.pushEvent (.activationStart (routeCore r.route) b.chan)) with
           sends := s.sends.filter (·.id != r.id) }))) ∧
     (∀ c n, s.canActivate c n = false → done (.activationStart c n) s) ∧
     (∀ c n b q, s.canActivate c n = true → s.bindingOf c n = some b → s.chq.find? (fun q => q.core == c && q.chan == n) = some q →
       ∀ t, t = s.newTask c b.high b.launch b.tid b.lvl (s.handlerCtx (b.launch.toNat % 2 ^ 14) c n) b.entry (fun _ => 0) →
       done (.activationStart c n) (({ s with chq := s.chq.erase q }).enlist
         { t with pktChan := some n, pkt := q.data, activation := some (c, n) } |>.rearrive c)) ∧
     (∀ d c, (s.die (BitVec.toNat d)).offline.getLsbD (BitVec.toNat c) = true → done (.clusterFailure d c) s) ∧
     (∀ d c, (s.die (BitVec.toNat d)).offline.getLsbD (BitVec.toNat c) = false → s.insts = [] →
         ∃ t : State, done (.clusterFailure d c) t.letEnter ∧
       (t.die d.toNat).offline.getLsbD c.toNat = true ∧ ∀ b ∈ t.bindings, clusterId b.core ≠ d.toNat * 64 + c.toNat) ∧
     (∀ sec : BitVec 52, (s.wcs.all (·.sector != sec.toNat) = true → done (.wcEntryTimeout sec) s.serve) ∧
       (s.wcs.any (·.sector == sec.toNat) = true →
         ∀ u, u = (s.failed.filter fun f => s.storedAt (unitOf f).1 / 64 == sec.toNat).foldl State.meetFailure s →
         ∀ m, m = sectorMode (u.storedSector sec.toNat) → done (.wcEntryTimeout sec) ({ u with
           sectors := if m = 0x20 then u.sectors.filter (·.1 != sec.toNat) else setKey u.sectors sec.toNat m,
           wcs := u.wcs.filter (·.sector != sec.toNat) } : State).serve)) ∧
     (∀ i c va, ((∃ d asid, i = .pageWalk d asid va ∧ c = ⟨asid, BitVec.toNat d, none, none, none⟩) ∨
         (∃ k asid, i = Instr.tlbMissRetry k asid va ∧ c = ⟨asid, k.die.toNat, some k, none, none⟩)) →
       (∀ u, (∃ x, Gives (leafOf c va.toNat) s x u) ∨ (∃ e, leafOf c va.toNat s = .error e u) →
         done i (if u.failed = s.failed then u else u.serve)) ∧
       ∃ t, done i t ∧ (s.failed = [] → t.task = s.task ∧ t.mem = s.mem ∧ t.full = s.full))) ∧
  (∀ (u : State) r w core tid n entry, fieldOf w 0 14 = r → ∀ size, size = BitVec.ofNat 64 (4096 * u.recField r 7 40 24) →
      ∀ ctx, ctx = u.recDw r 6 + BitVec.ofNat 64 (n * (4096 * u.recField r 7 40 24)) → ∀ t, t = u.unitTask r w core tid n entry →
      t = { key := u.nextKey, core := core, status := .running, ctx := ctx, pc := entry, g := t.g, tid := BitVec.ofNat 64 tid,
            lvl := u.levels r tid, launch := w, sbase := ctx + BitVec.ofNat 64 (0x5400 + 64 * u.recField r 7 20 20),
            slim := ctx + size - BitVec.ofNat 64 (64 * u.recField r 7 0 20), asid := u.xasid r,
            jobkey := BitVec.ofNat 32 (u.recField r 4 0 32), snapshot := u.pos - 1 } ∧
      ∀ i (h : i < 32), t.g[i] = if i = 1 then ctx + size else if i = 2 then ctx else if i = 3 then u.recDw r 9
        else if 8 ≤ i ∧ i < 16 then (if u.recField r (25 + 2 * (i - 8)) 20 20 =
            0 then 0 else u.recDw r (24 + 2 * (i - 8))) else 0) ∧
  (∀ (u : State) d i tids core r w, r = i.recNo.toNat → w = launchWord i.recNo i.gen → ∀ tid, tid = tids.getD 0 0 → 
      ∀ ends : State → Prop, (ends = fun x => u.dispatch d i tids core =
          (x.updInst i.recNo i.gen fun j => j.dispatchedTo d tids (x.level2 r tid) (quadrantOf core.clu.toNat)).fillPaddock) →
      ∀ v, v = u.takeCluster (clusterId core) (u.launchOf i.recNo) →
      (u.unit r = 0 → ends (tids.foldl (fun x t => x.enlist (x.unitTask r w
        (coreAt core.die.toNat core.clu.toNat (t % Nat.max 1 (x.extent r 0) % 8)) t t (x.recDw r 1))) v)) ∧
      (u.unit r = 1 → ∀ x, x = (v.setCluster (clusterId core) fun c => { c with queues := List.replicate 8 [] }) →
        ∀ y, y = x.enlist (x.unitTask r w { core with core := 8 } tid tid (x.recDw r 1)) →
        ends (y.enlist (y.unitTask r w { core with core := 9 } tid (y.work r + tid) (y.recDw r 2))))) ∧
  (∀ (u x y : State) t, x = (u.zeroRecBase t).makeRoom 2 t 512 → y = (if t.high then x.suspendNormals t.core else x) →
      u.enlist t = ({ y with nextKey := y.nextKey + 1, tasks := y.tasks ++ [{ t with snapshot := y.pos - 1, status := if !t.high && y.highRuns t.core then .suspended else t.status }] } : State).serve) ∧
  (∀ (u : State) t, t.resident = true → t.laneImage = [] → u.taskOf t.key = some t →
      (t.high = false → ∀ x ∈ u.allTasks, x.key = t.key → x.high = false) → t.waitOn ≠ .ownCore → (∀ k v, t.waitOn ≠ .trapped k v) →
      ∃ v : State, u.take t t.core = v.serve ∧ v.ready = u.ready.filter (· != t.key) ∧ v.mem = u.mem ∧
        v.taskOf t.key = some { t with
          waitOn := if t.waitOn.again = true then t.waitOn else .nothing, hintsSaved := false,
          status := if t.high = false ∧ u.highRuns t.core = true then .suspended else .running,
          hints := if t.hintsSaved = true then Hints.restore t.thint t.thintx else t.hints }) ∧
  (∀ (u : State) r gen, (u.inst r gen = none → u.tryResume r gen = u) ∧ (∀ i, u.inst r gen = some i →
      (i.resuming = [] → u.tryResume r gen = u) ∧
      (i.resuming ≠ [] → ∀ w, w = launchWord r gen →
          ∀ cls, cls = ((u.allTasks.filter fun t => t.launch == w && !t.onCore && t.status != .ended).map
          fun t => clusterId t.core).eraseDups →
        (u.hosts i cls [] = none → u.tryResume r gen = u) ∧
        (∀ m, u.hosts i cls [] = some m → ∀ x, x = (m ++ ((u.boundClusters w).filter (!cls.contains ·)).map fun cl => (cl,
            cl)).foldl (fun y z => y.resumeOn i z) u →
          ∀ y, y = (x.updInst r gen fun j => { j with pre := false, resuming := [], regions := [] }) →
          u.tryResume r gen = i.resuming.foldl State.signalCounter
            (((y.bindings.filter (·.launch == w)).map (·.core)).eraseDups.foldl State.startQueued y)))))  ∧
    (∀ (u : State) i m cl rest, (u.hosts i [] m = some m) ∧ (u.hostFor i (m.map (·.2)) cl = none →
        u.hosts i (cl :: rest) m = none) ∧
      (∀ x, u.hostFor i (m.map (·.2)) cl = some x → u.hosts i (cl :: rest) m = u.hosts i rest (m ++ [(cl, x)]))) ∧
    (∀ (u : State) i taken cl, (u.canHost i cl = true → cl ∉ taken → u.hostFor i taken cl = some cl) ∧
      (u.canHost i cl = false ∨ cl ∈ taken → (∃ b ∈ u.bindings, b.launch = launchWord i.recNo i.gen ∧ clusterId b.core = cl) →
          u.hostFor i taken cl = none)) ∧ 
    (∀ (u : State) keep, ∃ at_, ∃ v : State, u.readyAgain keep = v.pushEvent (.taskChosen at_) ∧ v.task.status = .ready ∧
        v.ready = u.ready ++ [u.task.key] ∧ v.mem = u.mem)

/-- The links and the fabric (R390-R412): a link that is not up takes no flit; a flit that is not sound, or not the expected
one, starts a replay; the flits of a frame go on together when its tag matches, and the frame is asked for again when it does
not; XOFF stops a class and network and XON lets it start; ACK frees the retry buffer; a link that goes down discards its
partial packets; a packet whose job key the port does not know is counted and refused, one for another device goes on, a reply
ends its request, a new request for this device is performed and answered, a copy of an answered one is answered again.
DEDUCED (log entry 23): that K flits are not numbered, from where a frame is sent again, that both directions number from 0 at
link up, that ACK follows a packet's last flit, that encrypted flits are held until their tag, that `LFRAMES` counts the frame of
a link that goes down, that the packets it waits with are discarded, that a tainted message is answered TAGFAIL, that mode 3
reads zero from an empty word. How a frame is ciphered is AES-256-GCM as its standards give it, PRESUMED in log entry 15. -/
def Obligations.LinkAndFabricEvents : Prop :=
  ∀ s : State, ∀ done : Instr → State → Prop, (done = fun i t => exec i s = .next t) →
    (∀ n : BitVec 4, n.toNat < 14 → ∀ l, l = s.link n.toNat → ∀ set : (Link → Link) → State, set = s.setLink n.toNat →
      done (.idleFlit n) s ∧
      (l.up = false → (∀ f, done (.flitReceive n f) s) ∧ done (.flitSlot n) s ∧ done (.linkTrainTimeout n) (s.linkDown n.toNat) ∧
        ∃ t, done (.linkUp n) t ∧ (t.link n.toNat).up = true ∧ (t.link n.toNat).txSeq = 0 ∧ (t.link n.toNat).rxSeq = 0) ∧
      (l.up = true → done (.linkTrainTimeout n) s ∧ done (.linkUp n) s ∧
        (∀ f, flitSound f = false → done (.flitReceive n f) (s.linkFail n.toNat l.rxSeq true)) ∧
        (∀ f, flitSound f = true → flitCls f ≠ 0 → flitSeq f ≠ l.rxSeq.toNat →
          done (.flitReceive n f) (s.linkFail n.toNat l.rxSeq false)) ∧
        (∀ f, flitSound f = true → flitCls f ≠ 0 → flitSeq f = l.rxSeq.toNat →
          ∀ u, u = (set fun l => { l with rxSeq := l.rxSeq + 1, nakked := false }) →
          (f.hdr.getLsbD 38 = true →
            done (.flitReceive n f) ((u.setLink n.toNat fun l => { l with rxFrame := l.rxFrame ++ [f] }).flow n.toNat)) ∧
          (f.hdr.getLsbD 38 = false → f.hdr.getLsbD 3 = true → f.hdr.getLsbD 2 = true →
            ∀ cls net, cls = BitVec.ofNat 2 (flitCls f) → net = BitVec.ofNat 2 (flitNet f) →
            (u.link n.toNat).ctxs.all (fun c => !(c.cls == cls && c.net == net)) = true →
                ∀ rest, rest = (u.link n.toNat).ctxs.filter
              (fun c => !(c.cls == cls && c.net == net)) →
            done (.flitReceive n f) ((((u.setLink n.toNat fun l => { l with ctxs := rest }).queueK n.toNat
              (kFlit 4 (0 :: leBytes 2 (flitSeq f)))).enter { u.arrivalAs n cls net (packetOfFlits [f]) with tnt := f.hdr.getLsbD 36 }).flow n.toNat))) ∧
        ((∀ q ∈ l.sendU ++ l.sendB, q.src = none) → l.swreq = false → ∀ f, l.sendK = [f] → done (.flitSlot n) (set fun _ =>
          { l with sendK := [], out := some (l.stamp f) })) ∧
        (l.sendK = [] → l.swreq = false → l.enc = false → l.resend = [] → l.sendU = [] → l.sendB = [] → l.txFrame = [] →
          l.openU = false → l.openB = false → done (.flitSlot n) (set fun _ => { l with out := some (l.stamp (kFlit 0 [])) }))) ∧
      (∀ cls net, (l.xoff.contains (cls, net) = false →
          done (.xoff n cls net) (set fun l => { l with xoff := l.xoff ++ [(cls, net)] })) ∧
        (l.xoff.contains (cls, net) = true → done (.xoff n cls net) (set fun l => l))) ∧
      (∀ cls net, ∃ t, done (.xon n cls net) t ∧ t = { s with links := t.links, agenda := t.agenda } ∧
        (t.link n.toNat).xoff = l.xoff.filter (· != (cls, net))) ∧
      (∀ q, ∃ t, done (.nak n q) t ∧ t = { s with links := t.links, agenda := t.agenda } ∧
        (t.link n.toNat).lreplay = l.lreplay + 1 ∧ (t.link n.toNat).txFrame = []) ∧
      (∀ q, ∃ t, done (.ack n q) t ∧ t = { s with links := t.links, answers := t.answers } ∧
        (t.link n.toNat).replay = l.replay.filter fun f => decide ((BitVec.ofNat 12 (flitSeq f) - (q + 1)).toNat < 2048)) ∧
      (∀ tag c, l.rxFrame = [] → done (.tagFlit n tag c) s) ∧
      (∀ tag c f fs, l.rxFrame = f :: fs → ∀ slot, slot = BitVec.ofNat 1 (fieldOf f.hdr 39 1) →
        ∀ key salt, key = l.keyOf slot → salt = BitVec.ofNat 32 (fieldOf (l.saltOf slot) 32 32) →
        ∀ x, x = gcmTag key salt c (l.rxFrame.map (·.hdr)) (l.rxFrame.map fun f => f.payload.take (fieldOf f.hdr 44 8)) →
        (x ≠ tag → done (.tagFlit n tag c)
          ((set fun l => { l with ltagf := l.ltagf + 1 }).linkFail n.toNat (BitVec.ofNat 12 (flitSeq f)) true)) ∧
        (x = tag → ∀ off : Nat → Nat, (off = fun k => (((l.rxFrame.map Flit.used).take k).map List.length).sum) →
          done (.tagFlit n tag c) (l.rxFrame.zipIdx.foldl (fun u p => u.reassemble n.toNat { p.1 with
            payload := gcmCrypt key salt c (off p.2) (p.1.payload.take (fieldOf p.1.hdr 44 8)) })
            (set fun l => { l with rxFrame := [] })))) ∧
      ((∀ r ∈ s.requests, l.carries r.pkt = false) → ∃ t, done (.linkDown n) t ∧ (t.link n.toNat).up = false ∧
        (t.link n.toNat).down = true ∧ (t.link n.toNat).ctxs = [] ∧ (t.link n.toNat).rxFrame = [] ∧ t.requests = s.requests ∧
        (t.link n.toNat).lframes = (if l.txFrame = [] then l.lframes else l.lframes + 1) ∧
        t.answers = (s.answers.map fun (a : Answer) => if a.link = some n.toNat then { a with link := none } else a) ∧
        t.mem = s.mem ∧ t.heldPkts = s.heldPkts.filter (·.link.toNat != n.toNat))) ∧
    (∀ n p, (∀ i ∈ [Instr.fabricWrite n p, .fabricRead n p, .fabricData n p, .fabricDone n p], done i (s.enter (s.arrival n p))) ∧
      ∀ cls net, done (.fabricMsg ⟨n, cls, net⟩ p) (s.enter (s.arrivalAs n cls net p))) ∧
    (∀ a, ((s.link a.link.toNat).member a.pkt.jkey = false → s.enter a = s.refuse a.link a.pkt) ∧
      ((s.link a.link.toNat).member a.pkt.jkey = true → s.enter a = s.perform a)) ∧
    (∀ a, ∀ goes : State → Prop, (goes = fun t => s.perform a = t) →
      (a.pkt.ddev ≠ s.rid → goes (s.forward a)) ∧
      (a.pkt.ddev = s.rid → a.pkt.reply = true → goes (s.endRequest a.pkt.sdev (a.pkt.h3.setWidth 32)
        (if a.tnt then stTAGFAIL else a.pkt.h1.toNat / 2 ^ 16 % 256) (if a.pkt.op = 0x10 then a.pkt.data else []))) ∧
      (a.pkt.ddev = s.rid → a.pkt.op ∉ [1, 2, 3, 0x10, 0x11] →
        goes (s.setDie (a.link.toNat % 4) fun d => { d with opDrops := d.opDrops + 1 })) ∧
      (a.pkt.ddev = s.rid → a.pkt.op ∈ [1, 2, 3] →
          ∀ x, s.answers.find? (fun x => x.src == a.pkt.sdev && x.pid == a.pkt.pid) = some x →
        goes (s.sendReply x.reply)) ∧
      (a.pkt.ddev = s.rid → a.pkt.op ∈ [1, 2, 3] → (s.waiters ++ s.refusedWaits).all (fun w => !w.kind.remote) = true →
        s.answers.find? (fun x => x.src == a.pkt.sdev && x.pid == a.pkt.pid) = none →
            s.performed.contains (a.pkt.sdev, a.pkt.pid) = false →
        ∀ turn : Bool, turn = (a.pkt.key == 0 || a.pkt.kprv == 0 || s.performed.contains (a.pkt.sdev, a.pkt.kprv) ||
          !recentPid (s.topPid a.pkt.sdev a.pkt.pid) a.pkt.kprv) →
        (turn = false → goes (s.hold a)) ∧
        (turn = true → ∀ r, r = s.release a →
          (a.tnt = true → a.pkt.op ≠ 2 → goes ((if a.pkt.op = 1
            then r.setDie (a.link.toNat % 4) fun d => { d with tntDrops := d.tntDrops + 1 } else r).reply a.pkt stTAGFAIL none)) ∧
          (a.tnt = true → a.pkt.op = 2 → ∀ u, u = (writeRange (r.arrivalCtx a) { write := true } .other a.pkt.h3
            (List.replicate a.pkt.data.length 0) r).2 → goes (u.serve.reply a.pkt stTAGFAIL none)) ∧
          (a.tnt = false → a.pkt.op = 1 → (∀ t, s.accept a.pkt.h3 a.pkt.words = some t →
            goes ((t.release a).reply a.pkt stOK none)) ∧ (s.accept a.pkt.h3 a.pkt.words = none → goes (s.hold a))) ∧
          (a.tnt = false → a.pkt.op = 2 → a.pkt.fem = 0 → a.pkt.h3.toNat % 4096 + a.pkt.data.length ≤ 4096 →
            ∀ w u, writeRange (r.arrivalCtx a) { write := true } .other a.pkt.h3 a.pkt.data r = (w, u) →
            (w.fault = none → goes (u.serve.reply a.pkt (if w.failed.isSome then stZEROED else stOK) none)) ∧
            (∀ f, w.fault = some f → goes (u.reply a.pkt (faultStatus f.1) none))) ∧
          (a.tnt = false → a.pkt.op = 2 → (a.pkt.fem = 2 ∨ a.pkt.fem = 4) → a.pkt.data.length = 8 → a.pkt.h3.toNat % 8 = 0 →
            ∀ pa u, Gives (translate1 (r.arrivalCtx a) { write := true, fe := true } a.pkt.h3 8) r pa u → u.failed = [] →
            (a.pkt.fem = 4 ∨ u.isFull pa = false →
              goes ((((u.homePut (a.pkt.fem == 4) .other pa a.pkt.data).setFull pa true).serve).reply a.pkt stOK none)) ∧
            (a.pkt.fem = 2 → u.isFull pa = true → goes ((u.closeAt pa).addWaiter ⟨0, pa,
              .remoteWrite a.pkt.sdev a.pkt.pid a.pkt.jkey (BitVec.ofNat 64 (leNat a.pkt.data)), a.pkt.h3, 0⟩).serve)) ∧
          (a.tnt = false → a.pkt.op = 3 → a.pkt.data.length = 8 → ∀ m, m = leNat a.pkt.data →
            (a.pkt.fem = 0 → a.pkt.h3.toNat % 4096 + m ≤ 4096 →
                ∀ x v, readRange (r.arrivalCtx a) (r.portReader a.link.toNat a.pos) a.pkt.h3 m r = (x, v) →
              ∀ u, u = { v with portSeen := setKey v.portSeen a.link.toNat x.seen } →
              (x.fault = none → goes (u.reply a.pkt (if x.failed.isSome then stZEROED else stOK) (some x.data))) ∧
              (∀ f, x.fault = some f → goes (u.reply a.pkt (faultStatus f.1) none))) ∧
            ((a.pkt.fem = 1 ∨ a.pkt.fem = 3) → m = 8 → a.pkt.h3.toNat % 8 = 0 →
              ∀ pa u, Gives (translate1 (r.arrivalCtx a) { fe := true } a.pkt.h3 8) r pa u → u.failed = [] → ∀ w, w = u.closeAt pa →
              (a.pkt.fem = 1 → u.isFull pa = false →
                goes (w.addWaiter ⟨0, pa, .remoteRead a.pkt.sdev a.pkt.pid a.pkt.jkey, a.pkt.h3, 0⟩).serve) ∧
              (a.pkt.fem = 1 → u.isFull pa = true → ∀ v, v = w.setFull pa false →
                goes (({ v with pos := v.pos + 1 } : State).serve.reply a.pkt stOK (some (w.bytesAt pa 8)))) ∧
              (a.pkt.fem = 3 → goes (({ w with pos := w.pos + 1 } : State).serve.reply a.pkt stOK
                (some (if u.isFull pa then w.bytesAt pa 8 else List.replicate 8 0))))))))) ∧
    (∀ dev pid, (s.requests.all fun r => !(r.dev == dev && r.pid == pid)) = true → done (.e2eRetryTimeout dev pid) s) ∧
    (∀ dev pid r, s.requests.find? (fun r => r.dev == dev && r.pid == pid) = some r →
      (8 ≤ r.sends → done (.e2eRetryTimeout dev pid) (s.endRequest dev pid stREMOTE [])) ∧
      (r.sends < 8 → ∀ q, q = { r with sends := r.sends + 1 } → done (.e2eRetryTimeout dev pid) (({ s with
        requests := s.requests.map fun x => if x = r then q else x }).resendRequest q)))
end

