-- ==== Sys2Proof/Laws/State.lean ====
section
/-! SUPPORT. What each update of the state leaves as it was: one lemma per field per update. -/

namespace Sys2Proof.Machine

section setTask
variable (s : State) (f : Task → Task)

@[simp] theorem State.setTask_tasks : (s.setTask f).tasks = s.tasks := rfl
@[simp] theorem State.setTask_ready : (s.setTask f).ready = s.ready := rfl
@[simp] theorem State.setTask_nextKey : (s.setTask f).nextKey = s.nextKey := rfl
@[simp] theorem State.setTask_mem : (s.setTask f).mem = s.mem := rfl
@[simp] theorem State.setTask_full : (s.setTask f).full = s.full := rfl
@[simp] theorem State.setTask_metas : (s.setTask f).metas = s.metas := rfl
@[simp] theorem State.setTask_sectors : (s.setTask f).sectors = s.sectors := rfl
@[simp] theorem State.setTask_wcs : (s.setTask f).wcs = s.wcs := rfl
@[simp] theorem State.setTask_failed : (s.setTask f).failed = s.failed := rfl
@[simp] theorem State.setTask_writes : (s.setTask f).writes = s.writes := rfl
@[simp] theorem State.setTask_pos : (s.setTask f).pos = s.pos := rfl
@[simp] theorem State.setTask_l1 : (s.setTask f).l1 = s.l1 := rfl
@[simp] theorem State.setTask_rtlb : (s.setTask f).rtlb = s.rtlb := rfl
@[simp] theorem State.setTask_dtlb : (s.setTask f).dtlb = s.dtlb := rfl
@[simp] theorem State.setTask_waiters : (s.setTask f).waiters = s.waiters := rfl
@[simp] theorem State.setTask_refusedWaits : (s.setTask f).refusedWaits = s.refusedWaits := rfl
@[simp] theorem State.setTask_withdrawn : (s.setTask f).withdrawn = s.withdrawn := rfl
@[simp] theorem State.setTask_dies : (s.setTask f).dies = s.dies := rfl
@[simp] theorem State.setTask_clusters : (s.setTask f).clusters = s.clusters := rfl
@[simp] theorem State.setTask_badBanks : (s.setTask f).badBanks = s.badBanks := rfl
@[simp] theorem State.setTask_forwards : (s.setTask f).forwards = s.forwards := rfl
@[simp] theorem State.setTask_dieMask : (s.setTask f).dieMask = s.dieMask := rfl
@[simp] theorem State.setTask_recs : (s.setTask f).recs = s.recs := rfl
@[simp] theorem State.setTask_recLast : (s.setTask f).recLast = s.recLast := rfl
@[simp] theorem State.setTask_insts : (s.setTask f).insts = s.insts := rfl
@[simp] theorem State.setTask_bindings : (s.setTask f).bindings = s.bindings := rfl
@[simp] theorem State.setTask_chq : (s.setTask f).chq = s.chq := rfl
@[simp] theorem State.setTask_sends : (s.setTask f).sends = s.sends := rfl
@[simp] theorem State.setTask_nextId : (s.setTask f).nextId = s.nextId := rfl
@[simp] theorem State.setTask_ops : (s.setTask f).ops = s.ops := rfl
@[simp] theorem State.setTask_ioTail : (s.setTask f).ioTail = s.ioTail := rfl
@[simp] theorem State.setTask_ports : (s.setTask f).ports = s.ports := rfl
@[simp] theorem State.setTask_links : (s.setTask f).links = s.links := rfl
@[simp] theorem State.setTask_requests : (s.setTask f).requests = s.requests := rfl
@[simp] theorem State.setTask_backlog : (s.setTask f).backlog = s.backlog := rfl
@[simp] theorem State.setTask_nextPid : (s.setTask f).nextPid = s.nextPid := rfl
@[simp] theorem State.setTask_lastKeyed : (s.setTask f).lastKeyed = s.lastKeyed := rfl
@[simp] theorem State.setTask_answers : (s.setTask f).answers = s.answers := rfl
@[simp] theorem State.setTask_heldPkts : (s.setTask f).heldPkts = s.heldPkts := rfl
@[simp] theorem State.setTask_performed : (s.setTask f).performed = s.performed := rfl
@[simp] theorem State.setTask_boot : (s.setTask f).boot = s.boot := rfl
@[simp] theorem State.setTask_hostData : (s.setTask f).hostData = s.hostData := rfl
@[simp] theorem State.setTask_hostSeen : (s.setTask f).hostSeen = s.hostSeen := rfl
@[simp] theorem State.setTask_portSeen : (s.setTask f).portSeen = s.portSeen := rfl
@[simp] theorem State.setTask_agenda : (s.setTask f).agenda = s.agenda := rfl
@[simp] theorem State.setTask_turns : (s.setTask f).turns = s.turns := rfl
@[simp] theorem State.setTask_tick : (s.setTask f).tick = s.tick := rfl

end setTask

section setDie
variable (s : State) (n : Nat) (f : Die → Die)

@[simp] theorem State.setDie_task : (s.setDie n f).task = s.task := rfl
@[simp] theorem State.setDie_tasks : (s.setDie n f).tasks = s.tasks := rfl
@[simp] theorem State.setDie_ready : (s.setDie n f).ready = s.ready := rfl
@[simp] theorem State.setDie_nextKey : (s.setDie n f).nextKey = s.nextKey := rfl
@[simp] theorem State.setDie_mem : (s.setDie n f).mem = s.mem := rfl
@[simp] theorem State.setDie_full : (s.setDie n f).full = s.full := rfl
@[simp] theorem State.setDie_metas : (s.setDie n f).metas = s.metas := rfl
@[simp] theorem State.setDie_sectors : (s.setDie n f).sectors = s.sectors := rfl
@[simp] theorem State.setDie_wcs : (s.setDie n f).wcs = s.wcs := rfl
@[simp] theorem State.setDie_failed : (s.setDie n f).failed = s.failed := rfl
@[simp] theorem State.setDie_writes : (s.setDie n f).writes = s.writes := rfl
@[simp] theorem State.setDie_pos : (s.setDie n f).pos = s.pos := rfl
@[simp] theorem State.setDie_l1 : (s.setDie n f).l1 = s.l1 := rfl
@[simp] theorem State.setDie_rtlb : (s.setDie n f).rtlb = s.rtlb := rfl
@[simp] theorem State.setDie_dtlb : (s.setDie n f).dtlb = s.dtlb := rfl
@[simp] theorem State.setDie_waiters : (s.setDie n f).waiters = s.waiters := rfl
@[simp] theorem State.setDie_refusedWaits : (s.setDie n f).refusedWaits = s.refusedWaits := rfl
@[simp] theorem State.setDie_withdrawn : (s.setDie n f).withdrawn = s.withdrawn := rfl
@[simp] theorem State.setDie_clusters : (s.setDie n f).clusters = s.clusters := rfl
@[simp] theorem State.setDie_badBanks : (s.setDie n f).badBanks = s.badBanks := rfl
@[simp] theorem State.setDie_forwards : (s.setDie n f).forwards = s.forwards := rfl
@[simp] theorem State.setDie_dieMask : (s.setDie n f).dieMask = s.dieMask := rfl
@[simp] theorem State.setDie_recs : (s.setDie n f).recs = s.recs := rfl
@[simp] theorem State.setDie_recLast : (s.setDie n f).recLast = s.recLast := rfl
@[simp] theorem State.setDie_insts : (s.setDie n f).insts = s.insts := rfl
@[simp] theorem State.setDie_bindings : (s.setDie n f).bindings = s.bindings := rfl
@[simp] theorem State.setDie_chq : (s.setDie n f).chq = s.chq := rfl
@[simp] theorem State.setDie_sends : (s.setDie n f).sends = s.sends := rfl
@[simp] theorem State.setDie_nextId : (s.setDie n f).nextId = s.nextId := rfl
@[simp] theorem State.setDie_ops : (s.setDie n f).ops = s.ops := rfl
@[simp] theorem State.setDie_ioTail : (s.setDie n f).ioTail = s.ioTail := rfl
@[simp] theorem State.setDie_ports : (s.setDie n f).ports = s.ports := rfl
@[simp] theorem State.setDie_links : (s.setDie n f).links = s.links := rfl
@[simp] theorem State.setDie_requests : (s.setDie n f).requests = s.requests := rfl
@[simp] theorem State.setDie_backlog : (s.setDie n f).backlog = s.backlog := rfl
@[simp] theorem State.setDie_nextPid : (s.setDie n f).nextPid = s.nextPid := rfl
@[simp] theorem State.setDie_lastKeyed : (s.setDie n f).lastKeyed = s.lastKeyed := rfl
@[simp] theorem State.setDie_answers : (s.setDie n f).answers = s.answers := rfl
@[simp] theorem State.setDie_heldPkts : (s.setDie n f).heldPkts = s.heldPkts := rfl
@[simp] theorem State.setDie_performed : (s.setDie n f).performed = s.performed := rfl
@[simp] theorem State.setDie_boot : (s.setDie n f).boot = s.boot := rfl
@[simp] theorem State.setDie_hostData : (s.setDie n f).hostData = s.hostData := rfl
@[simp] theorem State.setDie_hostSeen : (s.setDie n f).hostSeen = s.hostSeen := rfl
@[simp] theorem State.setDie_portSeen : (s.setDie n f).portSeen = s.portSeen := rfl
@[simp] theorem State.setDie_agenda : (s.setDie n f).agenda = s.agenda := rfl
@[simp] theorem State.setDie_turns : (s.setDie n f).turns = s.turns := rfl
@[simp] theorem State.setDie_tick : (s.setDie n f).tick = s.tick := rfl

end setDie

section setLink
variable (s : State) (n : Nat) (f : Link → Link)

@[simp] theorem State.setLink_task : (s.setLink n f).task = s.task := rfl
@[simp] theorem State.setLink_tasks : (s.setLink n f).tasks = s.tasks := rfl
@[simp] theorem State.setLink_ready : (s.setLink n f).ready = s.ready := rfl
@[simp] theorem State.setLink_nextKey : (s.setLink n f).nextKey = s.nextKey := rfl
@[simp] theorem State.setLink_mem : (s.setLink n f).mem = s.mem := rfl
@[simp] theorem State.setLink_full : (s.setLink n f).full = s.full := rfl
@[simp] theorem State.setLink_metas : (s.setLink n f).metas = s.metas := rfl
@[simp] theorem State.setLink_sectors : (s.setLink n f).sectors = s.sectors := rfl
@[simp] theorem State.setLink_wcs : (s.setLink n f).wcs = s.wcs := rfl
@[simp] theorem State.setLink_failed : (s.setLink n f).failed = s.failed := rfl
@[simp] theorem State.setLink_writes : (s.setLink n f).writes = s.writes := rfl
@[simp] theorem State.setLink_pos : (s.setLink n f).pos = s.pos := rfl
@[simp] theorem State.setLink_l1 : (s.setLink n f).l1 = s.l1 := rfl
@[simp] theorem State.setLink_rtlb : (s.setLink n f).rtlb = s.rtlb := rfl
@[simp] theorem State.setLink_dtlb : (s.setLink n f).dtlb = s.dtlb := rfl
@[simp] theorem State.setLink_waiters : (s.setLink n f).waiters = s.waiters := rfl
@[simp] theorem State.setLink_refusedWaits : (s.setLink n f).refusedWaits = s.refusedWaits := rfl
@[simp] theorem State.setLink_withdrawn : (s.setLink n f).withdrawn = s.withdrawn := rfl
@[simp] theorem State.setLink_dies : (s.setLink n f).dies = s.dies := rfl
@[simp] theorem State.setLink_clusters : (s.setLink n f).clusters = s.clusters := rfl
@[simp] theorem State.setLink_badBanks : (s.setLink n f).badBanks = s.badBanks := rfl
@[simp] theorem State.setLink_forwards : (s.setLink n f).forwards = s.forwards := rfl
@[simp] theorem State.setLink_dieMask : (s.setLink n f).dieMask = s.dieMask := rfl
@[simp] theorem State.setLink_recs : (s.setLink n f).recs = s.recs := rfl
@[simp] theorem State.setLink_recLast : (s.setLink n f).recLast = s.recLast := rfl
@[simp] theorem State.setLink_insts : (s.setLink n f).insts = s.insts := rfl
@[simp] theorem State.setLink_bindings : (s.setLink n f).bindings = s.bindings := rfl
@[simp] theorem State.setLink_chq : (s.setLink n f).chq = s.chq := rfl
@[simp] theorem State.setLink_sends : (s.setLink n f).sends = s.sends := rfl
@[simp] theorem State.setLink_nextId : (s.setLink n f).nextId = s.nextId := rfl
@[simp] theorem State.setLink_ops : (s.setLink n f).ops = s.ops := rfl
@[simp] theorem State.setLink_ioTail : (s.setLink n f).ioTail = s.ioTail := rfl
@[simp] theorem State.setLink_ports : (s.setLink n f).ports = s.ports := rfl
@[simp] theorem State.setLink_requests : (s.setLink n f).requests = s.requests := rfl
@[simp] theorem State.setLink_backlog : (s.setLink n f).backlog = s.backlog := rfl
@[simp] theorem State.setLink_nextPid : (s.setLink n f).nextPid = s.nextPid := rfl
@[simp] theorem State.setLink_lastKeyed : (s.setLink n f).lastKeyed = s.lastKeyed := rfl
@[simp] theorem State.setLink_answers : (s.setLink n f).answers = s.answers := rfl
@[simp] theorem State.setLink_heldPkts : (s.setLink n f).heldPkts = s.heldPkts := rfl
@[simp] theorem State.setLink_performed : (s.setLink n f).performed = s.performed := rfl
@[simp] theorem State.setLink_boot : (s.setLink n f).boot = s.boot := rfl
@[simp] theorem State.setLink_hostData : (s.setLink n f).hostData = s.hostData := rfl
@[simp] theorem State.setLink_hostSeen : (s.setLink n f).hostSeen = s.hostSeen := rfl
@[simp] theorem State.setLink_portSeen : (s.setLink n f).portSeen = s.portSeen := rfl
@[simp] theorem State.setLink_agenda : (s.setLink n f).agenda = s.agenda := rfl
@[simp] theorem State.setLink_turns : (s.setLink n f).turns = s.turns := rfl
@[simp] theorem State.setLink_tick : (s.setLink n f).tick = s.tick := rfl

end setLink

section setCluster
variable (s : State) (n : Nat) (f : Cluster → Cluster)

@[simp] theorem State.setCluster_task : (s.setCluster n f).task = s.task := rfl
@[simp] theorem State.setCluster_tasks : (s.setCluster n f).tasks = s.tasks := rfl
@[simp] theorem State.setCluster_ready : (s.setCluster n f).ready = s.ready := rfl
@[simp] theorem State.setCluster_nextKey : (s.setCluster n f).nextKey = s.nextKey := rfl
@[simp] theorem State.setCluster_mem : (s.setCluster n f).mem = s.mem := rfl
@[simp] theorem State.setCluster_full : (s.setCluster n f).full = s.full := rfl
@[simp] theorem State.setCluster_metas : (s.setCluster n f).metas = s.metas := rfl
@[simp] theorem State.setCluster_sectors : (s.setCluster n f).sectors = s.sectors := rfl
@[simp] theorem State.setCluster_wcs : (s.setCluster n f).wcs = s.wcs := rfl
@[simp] theorem State.setCluster_failed : (s.setCluster n f).failed = s.failed := rfl
@[simp] theorem State.setCluster_writes : (s.setCluster n f).writes = s.writes := rfl
@[simp] theorem State.setCluster_pos : (s.setCluster n f).pos = s.pos := rfl
@[simp] theorem State.setCluster_l1 : (s.setCluster n f).l1 = s.l1 := rfl
@[simp] theorem State.setCluster_rtlb : (s.setCluster n f).rtlb = s.rtlb := rfl
@[simp] theorem State.setCluster_dtlb : (s.setCluster n f).dtlb = s.dtlb := rfl
@[simp] theorem State.setCluster_waiters : (s.setCluster n f).waiters = s.waiters := rfl
@[simp] theorem State.setCluster_refusedWaits : (s.setCluster n f).refusedWaits = s.refusedWaits := rfl
@[simp] theorem State.setCluster_withdrawn : (s.setCluster n f).withdrawn = s.withdrawn := rfl
@[simp] theorem State.setCluster_dies : (s.setCluster n f).dies = s.dies := rfl
@[simp] theorem State.setCluster_badBanks : (s.setCluster n f).badBanks = s.badBanks := rfl
@[simp] theorem State.setCluster_forwards : (s.setCluster n f).forwards = s.forwards := rfl
@[simp] theorem State.setCluster_dieMask : (s.setCluster n f).dieMask = s.dieMask := rfl
@[simp] theorem State.setCluster_recs : (s.setCluster n f).recs = s.recs := rfl
@[simp] theorem State.setCluster_recLast : (s.setCluster n f).recLast = s.recLast := rfl
@[simp] theorem State.setCluster_insts : (s.setCluster n f).insts = s.insts := rfl
@[simp] theorem State.setCluster_bindings : (s.setCluster n f).bindings = s.bindings := rfl
@[simp] theorem State.setCluster_chq : (s.setCluster n f).chq = s.chq := rfl
@[simp] theorem State.setCluster_sends : (s.setCluster n f).sends = s.sends := rfl
@[simp] theorem State.setCluster_nextId : (s.setCluster n f).nextId = s.nextId := rfl
@[simp] theorem State.setCluster_ops : (s.setCluster n f).ops = s.ops := rfl
@[simp] theorem State.setCluster_ioTail : (s.setCluster n f).ioTail = s.ioTail := rfl
@[simp] theorem State.setCluster_ports : (s.setCluster n f).ports = s.ports := rfl
@[simp] theorem State.setCluster_links : (s.setCluster n f).links = s.links := rfl
@[simp] theorem State.setCluster_requests : (s.setCluster n f).requests = s.requests := rfl
@[simp] theorem State.setCluster_backlog : (s.setCluster n f).backlog = s.backlog := rfl
@[simp] theorem State.setCluster_nextPid : (s.setCluster n f).nextPid = s.nextPid := rfl
@[simp] theorem State.setCluster_lastKeyed : (s.setCluster n f).lastKeyed = s.lastKeyed := rfl
@[simp] theorem State.setCluster_answers : (s.setCluster n f).answers = s.answers := rfl
@[simp] theorem State.setCluster_heldPkts : (s.setCluster n f).heldPkts = s.heldPkts := rfl
@[simp] theorem State.setCluster_performed : (s.setCluster n f).performed = s.performed := rfl
@[simp] theorem State.setCluster_boot : (s.setCluster n f).boot = s.boot := rfl
@[simp] theorem State.setCluster_hostData : (s.setCluster n f).hostData = s.hostData := rfl
@[simp] theorem State.setCluster_hostSeen : (s.setCluster n f).hostSeen = s.hostSeen := rfl
@[simp] theorem State.setCluster_portSeen : (s.setCluster n f).portSeen = s.portSeen := rfl
@[simp] theorem State.setCluster_agenda : (s.setCluster n f).agenda = s.agenda := rfl
@[simp] theorem State.setCluster_turns : (s.setCluster n f).turns = s.turns := rfl
@[simp] theorem State.setCluster_tick : (s.setCluster n f).tick = s.tick := rfl

end setCluster

section push
variable (s : State) (l : List Turn)

@[simp] theorem State.push_task : (s.push l).task = s.task := rfl
@[simp] theorem State.push_tasks : (s.push l).tasks = s.tasks := rfl
@[simp] theorem State.push_ready : (s.push l).ready = s.ready := rfl
@[simp] theorem State.push_nextKey : (s.push l).nextKey = s.nextKey := rfl
@[simp] theorem State.push_mem : (s.push l).mem = s.mem := rfl
@[simp] theorem State.push_full : (s.push l).full = s.full := rfl
@[simp] theorem State.push_metas : (s.push l).metas = s.metas := rfl
@[simp] theorem State.push_sectors : (s.push l).sectors = s.sectors := rfl
@[simp] theorem State.push_wcs : (s.push l).wcs = s.wcs := rfl
@[simp] theorem State.push_failed : (s.push l).failed = s.failed := rfl
@[simp] theorem State.push_writes : (s.push l).writes = s.writes := rfl
@[simp] theorem State.push_pos : (s.push l).pos = s.pos := rfl
@[simp] theorem State.push_l1 : (s.push l).l1 = s.l1 := rfl
@[simp] theorem State.push_rtlb : (s.push l).rtlb = s.rtlb := rfl
@[simp] theorem State.push_dtlb : (s.push l).dtlb = s.dtlb := rfl
@[simp] theorem State.push_waiters : (s.push l).waiters = s.waiters := rfl
@[simp] theorem State.push_refusedWaits : (s.push l).refusedWaits = s.refusedWaits := rfl
@[simp] theorem State.push_withdrawn : (s.push l).withdrawn = s.withdrawn := rfl
@[simp] theorem State.push_dies : (s.push l).dies = s.dies := rfl
@[simp] theorem State.push_clusters : (s.push l).clusters = s.clusters := rfl
@[simp] theorem State.push_badBanks : (s.push l).badBanks = s.badBanks := rfl
@[simp] theorem State.push_forwards : (s.push l).forwards = s.forwards := rfl
@[simp] theorem State.push_dieMask : (s.push l).dieMask = s.dieMask := rfl
@[simp] theorem State.push_recs : (s.push l).recs = s.recs := rfl
@[simp] theorem State.push_recLast : (s.push l).recLast = s.recLast := rfl
@[simp] theorem State.push_insts : (s.push l).insts = s.insts := rfl
@[simp] theorem State.push_bindings : (s.push l).bindings = s.bindings := rfl
@[simp] theorem State.push_chq : (s.push l).chq = s.chq := rfl
@[simp] theorem State.push_sends : (s.push l).sends = s.sends := rfl
@[simp] theorem State.push_nextId : (s.push l).nextId = s.nextId := rfl
@[simp] theorem State.push_ops : (s.push l).ops = s.ops := rfl
@[simp] theorem State.push_ioTail : (s.push l).ioTail = s.ioTail := rfl
@[simp] theorem State.push_ports : (s.push l).ports = s.ports := rfl
@[simp] theorem State.push_links : (s.push l).links = s.links := rfl
@[simp] theorem State.push_requests : (s.push l).requests = s.requests := rfl
@[simp] theorem State.push_backlog : (s.push l).backlog = s.backlog := rfl
@[simp] theorem State.push_nextPid : (s.push l).nextPid = s.nextPid := rfl
@[simp] theorem State.push_lastKeyed : (s.push l).lastKeyed = s.lastKeyed := rfl
@[simp] theorem State.push_answers : (s.push l).answers = s.answers := rfl
@[simp] theorem State.push_heldPkts : (s.push l).heldPkts = s.heldPkts := rfl
@[simp] theorem State.push_performed : (s.push l).performed = s.performed := rfl
@[simp] theorem State.push_boot : (s.push l).boot = s.boot := rfl
@[simp] theorem State.push_hostData : (s.push l).hostData = s.hostData := rfl
@[simp] theorem State.push_hostSeen : (s.push l).hostSeen = s.hostSeen := rfl
@[simp] theorem State.push_portSeen : (s.push l).portSeen = s.portSeen := rfl
@[simp] theorem State.push_turns : (s.push l).turns = s.turns := rfl
@[simp] theorem State.push_tick : (s.push l).tick = s.tick := rfl

end push

section pushEvent
variable (s : State) (i : Instr)

@[simp] theorem State.pushEvent_task : (s.pushEvent i).task = s.task := rfl
@[simp] theorem State.pushEvent_tasks : (s.pushEvent i).tasks = s.tasks := rfl
@[simp] theorem State.pushEvent_ready : (s.pushEvent i).ready = s.ready := rfl
@[simp] theorem State.pushEvent_nextKey : (s.pushEvent i).nextKey = s.nextKey := rfl
@[simp] theorem State.pushEvent_mem : (s.pushEvent i).mem = s.mem := rfl
@[simp] theorem State.pushEvent_full : (s.pushEvent i).full = s.full := rfl
@[simp] theorem State.pushEvent_metas : (s.pushEvent i).metas = s.metas := rfl
@[simp] theorem State.pushEvent_sectors : (s.pushEvent i).sectors = s.sectors := rfl
@[simp] theorem State.pushEvent_wcs : (s.pushEvent i).wcs = s.wcs := rfl
@[simp] theorem State.pushEvent_failed : (s.pushEvent i).failed = s.failed := rfl
@[simp] theorem State.pushEvent_writes : (s.pushEvent i).writes = s.writes := rfl
@[simp] theorem State.pushEvent_pos : (s.pushEvent i).pos = s.pos := rfl
@[simp] theorem State.pushEvent_l1 : (s.pushEvent i).l1 = s.l1 := rfl
@[simp] theorem State.pushEvent_rtlb : (s.pushEvent i).rtlb = s.rtlb := rfl
@[simp] theorem State.pushEvent_dtlb : (s.pushEvent i).dtlb = s.dtlb := rfl
@[simp] theorem State.pushEvent_waiters : (s.pushEvent i).waiters = s.waiters := rfl
@[simp] theorem State.pushEvent_refusedWaits : (s.pushEvent i).refusedWaits = s.refusedWaits := rfl
@[simp] theorem State.pushEvent_withdrawn : (s.pushEvent i).withdrawn = s.withdrawn := rfl
@[simp] theorem State.pushEvent_dies : (s.pushEvent i).dies = s.dies := rfl
@[simp] theorem State.pushEvent_clusters : (s.pushEvent i).clusters = s.clusters := rfl
@[simp] theorem State.pushEvent_badBanks : (s.pushEvent i).badBanks = s.badBanks := rfl
@[simp] theorem State.pushEvent_forwards : (s.pushEvent i).forwards = s.forwards := rfl
@[simp] theorem State.pushEvent_dieMask : (s.pushEvent i).dieMask = s.dieMask := rfl
@[simp] theorem State.pushEvent_recs : (s.pushEvent i).recs = s.recs := rfl
@[simp] theorem State.pushEvent_recLast : (s.pushEvent i).recLast = s.recLast := rfl
@[simp] theorem State.pushEvent_insts : (s.pushEvent i).insts = s.insts := rfl
@[simp] theorem State.pushEvent_bindings : (s.pushEvent i).bindings = s.bindings := rfl
@[simp] theorem State.pushEvent_chq : (s.pushEvent i).chq = s.chq := rfl
@[simp] theorem State.pushEvent_sends : (s.pushEvent i).sends = s.sends := rfl
@[simp] theorem State.pushEvent_nextId : (s.pushEvent i).nextId = s.nextId := rfl
@[simp] theorem State.pushEvent_ops : (s.pushEvent i).ops = s.ops := rfl
@[simp] theorem State.pushEvent_ioTail : (s.pushEvent i).ioTail = s.ioTail := rfl
@[simp] theorem State.pushEvent_ports : (s.pushEvent i).ports = s.ports := rfl
@[simp] theorem State.pushEvent_links : (s.pushEvent i).links = s.links := rfl
@[simp] theorem State.pushEvent_requests : (s.pushEvent i).requests = s.requests := rfl
@[simp] theorem State.pushEvent_backlog : (s.pushEvent i).backlog = s.backlog := rfl
@[simp] theorem State.pushEvent_nextPid : (s.pushEvent i).nextPid = s.nextPid := rfl
@[simp] theorem State.pushEvent_lastKeyed : (s.pushEvent i).lastKeyed = s.lastKeyed := rfl
@[simp] theorem State.pushEvent_answers : (s.pushEvent i).answers = s.answers := rfl
@[simp] theorem State.pushEvent_heldPkts : (s.pushEvent i).heldPkts = s.heldPkts := rfl
@[simp] theorem State.pushEvent_performed : (s.pushEvent i).performed = s.performed := rfl
@[simp] theorem State.pushEvent_boot : (s.pushEvent i).boot = s.boot := rfl
@[simp] theorem State.pushEvent_hostData : (s.pushEvent i).hostData = s.hostData := rfl
@[simp] theorem State.pushEvent_hostSeen : (s.pushEvent i).hostSeen = s.hostSeen := rfl
@[simp] theorem State.pushEvent_portSeen : (s.pushEvent i).portSeen = s.portSeen := rfl
@[simp] theorem State.pushEvent_turns : (s.pushEvent i).turns = s.turns := rfl
@[simp] theorem State.pushEvent_tick : (s.pushEvent i).tick = s.tick := rfl

end pushEvent

section setRecDw
variable (s : State) (r d : Nat) (v : W64)

@[simp] theorem State.setRecDw_task : (s.setRecDw r d v).task = s.task := rfl
@[simp] theorem State.setRecDw_tasks : (s.setRecDw r d v).tasks = s.tasks := rfl
@[simp] theorem State.setRecDw_ready : (s.setRecDw r d v).ready = s.ready := rfl
@[simp] theorem State.setRecDw_nextKey : (s.setRecDw r d v).nextKey = s.nextKey := rfl
@[simp] theorem State.setRecDw_mem : (s.setRecDw r d v).mem = s.mem := rfl
@[simp] theorem State.setRecDw_full : (s.setRecDw r d v).full = s.full := rfl
@[simp] theorem State.setRecDw_metas : (s.setRecDw r d v).metas = s.metas := rfl
@[simp] theorem State.setRecDw_sectors : (s.setRecDw r d v).sectors = s.sectors := rfl
@[simp] theorem State.setRecDw_wcs : (s.setRecDw r d v).wcs = s.wcs := rfl
@[simp] theorem State.setRecDw_failed : (s.setRecDw r d v).failed = s.failed := rfl
@[simp] theorem State.setRecDw_writes : (s.setRecDw r d v).writes = s.writes := rfl
@[simp] theorem State.setRecDw_pos : (s.setRecDw r d v).pos = s.pos := rfl
@[simp] theorem State.setRecDw_l1 : (s.setRecDw r d v).l1 = s.l1 := rfl
@[simp] theorem State.setRecDw_rtlb : (s.setRecDw r d v).rtlb = s.rtlb := rfl
@[simp] theorem State.setRecDw_dtlb : (s.setRecDw r d v).dtlb = s.dtlb := rfl
@[simp] theorem State.setRecDw_waiters : (s.setRecDw r d v).waiters = s.waiters := rfl
@[simp] theorem State.setRecDw_refusedWaits : (s.setRecDw r d v).refusedWaits = s.refusedWaits := rfl
@[simp] theorem State.setRecDw_withdrawn : (s.setRecDw r d v).withdrawn = s.withdrawn := rfl
@[simp] theorem State.setRecDw_dies : (s.setRecDw r d v).dies = s.dies := rfl
@[simp] theorem State.setRecDw_clusters : (s.setRecDw r d v).clusters = s.clusters := rfl
@[simp] theorem State.setRecDw_badBanks : (s.setRecDw r d v).badBanks = s.badBanks := rfl
@[simp] theorem State.setRecDw_forwards : (s.setRecDw r d v).forwards = s.forwards := rfl
@[simp] theorem State.setRecDw_dieMask : (s.setRecDw r d v).dieMask = s.dieMask := rfl
@[simp] theorem State.setRecDw_recLast : (s.setRecDw r d v).recLast = s.recLast := rfl
@[simp] theorem State.setRecDw_insts : (s.setRecDw r d v).insts = s.insts := rfl
@[simp] theorem State.setRecDw_bindings : (s.setRecDw r d v).bindings = s.bindings := rfl
@[simp] theorem State.setRecDw_chq : (s.setRecDw r d v).chq = s.chq := rfl
@[simp] theorem State.setRecDw_sends : (s.setRecDw r d v).sends = s.sends := rfl
@[simp] theorem State.setRecDw_nextId : (s.setRecDw r d v).nextId = s.nextId := rfl
@[simp] theorem State.setRecDw_ops : (s.setRecDw r d v).ops = s.ops := rfl
@[simp] theorem State.setRecDw_ioTail : (s.setRecDw r d v).ioTail = s.ioTail := rfl
@[simp] theorem State.setRecDw_ports : (s.setRecDw r d v).ports = s.ports := rfl
@[simp] theorem State.setRecDw_links : (s.setRecDw r d v).links = s.links := rfl
@[simp] theorem State.setRecDw_requests : (s.setRecDw r d v).requests = s.requests := rfl
@[simp] theorem State.setRecDw_backlog : (s.setRecDw r d v).backlog = s.backlog := rfl
@[simp] theorem State.setRecDw_nextPid : (s.setRecDw r d v).nextPid = s.nextPid := rfl
@[simp] theorem State.setRecDw_lastKeyed : (s.setRecDw r d v).lastKeyed = s.lastKeyed := rfl
@[simp] theorem State.setRecDw_answers : (s.setRecDw r d v).answers = s.answers := rfl
@[simp] theorem State.setRecDw_heldPkts : (s.setRecDw r d v).heldPkts = s.heldPkts := rfl
@[simp] theorem State.setRecDw_performed : (s.setRecDw r d v).performed = s.performed := rfl
@[simp] theorem State.setRecDw_boot : (s.setRecDw r d v).boot = s.boot := rfl
@[simp] theorem State.setRecDw_hostData : (s.setRecDw r d v).hostData = s.hostData := rfl
@[simp] theorem State.setRecDw_hostSeen : (s.setRecDw r d v).hostSeen = s.hostSeen := rfl
@[simp] theorem State.setRecDw_portSeen : (s.setRecDw r d v).portSeen = s.portSeen := rfl
@[simp] theorem State.setRecDw_agenda : (s.setRecDw r d v).agenda = s.agenda := rfl
@[simp] theorem State.setRecDw_turns : (s.setRecDw r d v).turns = s.turns := rfl
@[simp] theorem State.setRecDw_tick : (s.setRecDw r d v).tick = s.tick := rfl

end setRecDw

section updInst
variable (s : State) (r : BitVec 14) (g : BitVec 16) (f : Instance → Instance)

@[simp] theorem State.updInst_task : (s.updInst r g f).task = s.task := rfl
@[simp] theorem State.updInst_tasks : (s.updInst r g f).tasks = s.tasks := rfl
@[simp] theorem State.updInst_ready : (s.updInst r g f).ready = s.ready := rfl
@[simp] theorem State.updInst_nextKey : (s.updInst r g f).nextKey = s.nextKey := rfl
@[simp] theorem State.updInst_mem : (s.updInst r g f).mem = s.mem := rfl
@[simp] theorem State.updInst_full : (s.updInst r g f).full = s.full := rfl
@[simp] theorem State.updInst_metas : (s.updInst r g f).metas = s.metas := rfl
@[simp] theorem State.updInst_sectors : (s.updInst r g f).sectors = s.sectors := rfl
@[simp] theorem State.updInst_wcs : (s.updInst r g f).wcs = s.wcs := rfl
@[simp] theorem State.updInst_failed : (s.updInst r g f).failed = s.failed := rfl
@[simp] theorem State.updInst_writes : (s.updInst r g f).writes = s.writes := rfl
@[simp] theorem State.updInst_pos : (s.updInst r g f).pos = s.pos := rfl
@[simp] theorem State.updInst_l1 : (s.updInst r g f).l1 = s.l1 := rfl
@[simp] theorem State.updInst_rtlb : (s.updInst r g f).rtlb = s.rtlb := rfl
@[simp] theorem State.updInst_dtlb : (s.updInst r g f).dtlb = s.dtlb := rfl
@[simp] theorem State.updInst_waiters : (s.updInst r g f).waiters = s.waiters := rfl
@[simp] theorem State.updInst_refusedWaits : (s.updInst r g f).refusedWaits = s.refusedWaits := rfl
@[simp] theorem State.updInst_withdrawn : (s.updInst r g f).withdrawn = s.withdrawn := rfl
@[simp] theorem State.updInst_dies : (s.updInst r g f).dies = s.dies := rfl
@[simp] theorem State.updInst_clusters : (s.updInst r g f).clusters = s.clusters := rfl
@[simp] theorem State.updInst_badBanks : (s.updInst r g f).badBanks = s.badBanks := rfl
@[simp] theorem State.updInst_forwards : (s.updInst r g f).forwards = s.forwards := rfl
@[simp] theorem State.updInst_dieMask : (s.updInst r g f).dieMask = s.dieMask := rfl
@[simp] theorem State.updInst_recs : (s.updInst r g f).recs = s.recs := rfl
@[simp] theorem State.updInst_recLast : (s.updInst r g f).recLast = s.recLast := rfl
@[simp] theorem State.updInst_bindings : (s.updInst r g f).bindings = s.bindings := rfl
@[simp] theorem State.updInst_chq : (s.updInst r g f).chq = s.chq := rfl
@[simp] theorem State.updInst_sends : (s.updInst r g f).sends = s.sends := rfl
@[simp] theorem State.updInst_nextId : (s.updInst r g f).nextId = s.nextId := rfl
@[simp] theorem State.updInst_ops : (s.updInst r g f).ops = s.ops := rfl
@[simp] theorem State.updInst_ioTail : (s.updInst r g f).ioTail = s.ioTail := rfl
@[simp] theorem State.updInst_ports : (s.updInst r g f).ports = s.ports := rfl
@[simp] theorem State.updInst_links : (s.updInst r g f).links = s.links := rfl
@[simp] theorem State.updInst_requests : (s.updInst r g f).requests = s.requests := rfl
@[simp] theorem State.updInst_backlog : (s.updInst r g f).backlog = s.backlog := rfl
@[simp] theorem State.updInst_nextPid : (s.updInst r g f).nextPid = s.nextPid := rfl
@[simp] theorem State.updInst_lastKeyed : (s.updInst r g f).lastKeyed = s.lastKeyed := rfl
@[simp] theorem State.updInst_answers : (s.updInst r g f).answers = s.answers := rfl
@[simp] theorem State.updInst_heldPkts : (s.updInst r g f).heldPkts = s.heldPkts := rfl
@[simp] theorem State.updInst_performed : (s.updInst r g f).performed = s.performed := rfl
@[simp] theorem State.updInst_boot : (s.updInst r g f).boot = s.boot := rfl
@[simp] theorem State.updInst_hostData : (s.updInst r g f).hostData = s.hostData := rfl
@[simp] theorem State.updInst_hostSeen : (s.updInst r g f).hostSeen = s.hostSeen := rfl
@[simp] theorem State.updInst_portSeen : (s.updInst r g f).portSeen = s.portSeen := rfl
@[simp] theorem State.updInst_agenda : (s.updInst r g f).agenda = s.agenda := rfl
@[simp] theorem State.updInst_turns : (s.updInst r g f).turns = s.turns := rfl
@[simp] theorem State.updInst_tick : (s.updInst r g f).tick = s.tick := rfl

end updInst

section updTask
variable (s : State) (k : Nat) (f : Task → Task)

@[simp] theorem State.updTask_ready : (s.updTask k f).ready = s.ready := by unfold State.updTask; split <;> rfl
@[simp] theorem State.updTask_nextKey : (s.updTask k f).nextKey = s.nextKey := by unfold State.updTask; split <;> rfl
@[simp] theorem State.updTask_mem : (s.updTask k f).mem = s.mem := by unfold State.updTask; split <;> rfl
@[simp] theorem State.updTask_full : (s.updTask k f).full = s.full := by unfold State.updTask; split <;> rfl
@[simp] theorem State.updTask_metas : (s.updTask k f).metas = s.metas := by unfold State.updTask; split <;> rfl
@[simp] theorem State.updTask_sectors : (s.updTask k f).sectors = s.sectors := by unfold State.updTask; split <;> rfl
@[simp] theorem State.updTask_wcs : (s.updTask k f).wcs = s.wcs := by unfold State.updTask; split <;> rfl
@[simp] theorem State.updTask_failed : (s.updTask k f).failed = s.failed := by unfold State.updTask; split <;> rfl
@[simp] theorem State.updTask_writes : (s.updTask k f).writes = s.writes := by unfold State.updTask; split <;> rfl
@[simp] theorem State.updTask_pos : (s.updTask k f).pos = s.pos := by unfold State.updTask; split <;> rfl
@[simp] theorem State.updTask_l1 : (s.updTask k f).l1 = s.l1 := by unfold State.updTask; split <;> rfl
@[simp] theorem State.updTask_rtlb : (s.updTask k f).rtlb = s.rtlb := by unfold State.updTask; split <;> rfl
@[simp] theorem State.updTask_dtlb : (s.updTask k f).dtlb = s.dtlb := by unfold State.updTask; split <;> rfl
@[simp] theorem State.updTask_waiters : (s.updTask k f).waiters = s.waiters := by unfold State.updTask; split <;> rfl
@[simp] theorem State.updTask_refusedWaits : (s.updTask k f).refusedWaits = s.refusedWaits := by unfold State.updTask; split <;> rfl
@[simp] theorem State.updTask_withdrawn : (s.updTask k f).withdrawn = s.withdrawn := by unfold State.updTask; split <;> rfl
@[simp] theorem State.updTask_dies : (s.updTask k f).dies = s.dies := by unfold State.updTask; split <;> rfl
@[simp] theorem State.updTask_clusters : (s.updTask k f).clusters = s.clusters := by unfold State.updTask; split <;> rfl
@[simp] theorem State.updTask_badBanks : (s.updTask k f).badBanks = s.badBanks := by unfold State.updTask; split <;> rfl
@[simp] theorem State.updTask_forwards : (s.updTask k f).forwards = s.forwards := by unfold State.updTask; split <;> rfl
@[simp] theorem State.updTask_dieMask : (s.updTask k f).dieMask = s.dieMask := by unfold State.updTask; split <;> rfl
@[simp] theorem State.updTask_recs : (s.updTask k f).recs = s.recs := by unfold State.updTask; split <;> rfl
@[simp] theorem State.updTask_recLast : (s.updTask k f).recLast = s.recLast := by unfold State.updTask; split <;> rfl
@[simp] theorem State.updTask_insts : (s.updTask k f).insts = s.insts := by unfold State.updTask; split <;> rfl
@[simp] theorem State.updTask_bindings : (s.updTask k f).bindings = s.bindings := by unfold State.updTask; split <;> rfl
@[simp] theorem State.updTask_chq : (s.updTask k f).chq = s.chq := by unfold State.updTask; split <;> rfl
@[simp] theorem State.updTask_sends : (s.updTask k f).sends = s.sends := by unfold State.updTask; split <;> rfl
@[simp] theorem State.updTask_nextId : (s.updTask k f).nextId = s.nextId := by unfold State.updTask; split <;> rfl
@[simp] theorem State.updTask_ops : (s.updTask k f).ops = s.ops := by unfold State.updTask; split <;> rfl
@[simp] theorem State.updTask_ioTail : (s.updTask k f).ioTail = s.ioTail := by unfold State.updTask; split <;> rfl
@[simp] theorem State.updTask_ports : (s.updTask k f).ports = s.ports := by unfold State.updTask; split <;> rfl
@[simp] theorem State.updTask_links : (s.updTask k f).links = s.links := by unfold State.updTask; split <;> rfl
@[simp] theorem State.updTask_requests : (s.updTask k f).requests = s.requests := by unfold State.updTask; split <;> rfl
@[simp] theorem State.updTask_backlog : (s.updTask k f).backlog = s.backlog := by unfold State.updTask; split <;> rfl
@[simp] theorem State.updTask_nextPid : (s.updTask k f).nextPid = s.nextPid := by unfold State.updTask; split <;> rfl
@[simp] theorem State.updTask_lastKeyed : (s.updTask k f).lastKeyed = s.lastKeyed := by unfold State.updTask; split <;> rfl
@[simp] theorem State.updTask_answers : (s.updTask k f).answers = s.answers := by unfold State.updTask; split <;> rfl
@[simp] theorem State.updTask_heldPkts : (s.updTask k f).heldPkts = s.heldPkts := by unfold State.updTask; split <;> rfl
@[simp] theorem State.updTask_performed : (s.updTask k f).performed = s.performed := by unfold State.updTask; split <;> rfl
@[simp] theorem State.updTask_boot : (s.updTask k f).boot = s.boot := by unfold State.updTask; split <;> rfl
@[simp] theorem State.updTask_hostData : (s.updTask k f).hostData = s.hostData := by unfold State.updTask; split <;> rfl
@[simp] theorem State.updTask_hostSeen : (s.updTask k f).hostSeen = s.hostSeen := by unfold State.updTask; split <;> rfl
@[simp] theorem State.updTask_portSeen : (s.updTask k f).portSeen = s.portSeen := by unfold State.updTask; split <;> rfl
@[simp] theorem State.updTask_agenda : (s.updTask k f).agenda = s.agenda := by unfold State.updTask; split <;> rfl
@[simp] theorem State.updTask_turns : (s.updTask k f).turns = s.turns := by unfold State.updTask; split <;> rfl
@[simp] theorem State.updTask_tick : (s.updTask k f).tick = s.tick := by unfold State.updTask; split <;> rfl

end updTask

section setFull
variable (s : State) (pa : Nat) (b : Bool)

@[simp] theorem State.setFull_task : (s.setFull pa b).task = s.task := by unfold State.setFull; split <;> rfl
@[simp] theorem State.setFull_tasks : (s.setFull pa b).tasks = s.tasks := by unfold State.setFull; split <;> rfl
@[simp] theorem State.setFull_ready : (s.setFull pa b).ready = s.ready := by unfold State.setFull; split <;> rfl
@[simp] theorem State.setFull_nextKey : (s.setFull pa b).nextKey = s.nextKey := by unfold State.setFull; split <;> rfl
@[simp] theorem State.setFull_mem : (s.setFull pa b).mem = s.mem := by unfold State.setFull; split <;> rfl
@[simp] theorem State.setFull_metas : (s.setFull pa b).metas = s.metas := by unfold State.setFull; split <;> rfl
@[simp] theorem State.setFull_sectors : (s.setFull pa b).sectors = s.sectors := by unfold State.setFull; split <;> rfl
@[simp] theorem State.setFull_wcs : (s.setFull pa b).wcs = s.wcs := by unfold State.setFull; split <;> rfl
@[simp] theorem State.setFull_failed : (s.setFull pa b).failed = s.failed := by unfold State.setFull; split <;> rfl
@[simp] theorem State.setFull_writes : (s.setFull pa b).writes = s.writes := by unfold State.setFull; split <;> rfl
@[simp] theorem State.setFull_pos : (s.setFull pa b).pos = s.pos := by unfold State.setFull; split <;> rfl
@[simp] theorem State.setFull_l1 : (s.setFull pa b).l1 = s.l1 := by unfold State.setFull; split <;> rfl
@[simp] theorem State.setFull_rtlb : (s.setFull pa b).rtlb = s.rtlb := by unfold State.setFull; split <;> rfl
@[simp] theorem State.setFull_dtlb : (s.setFull pa b).dtlb = s.dtlb := by unfold State.setFull; split <;> rfl
@[simp] theorem State.setFull_waiters : (s.setFull pa b).waiters = s.waiters := by unfold State.setFull; split <;> rfl
@[simp] theorem State.setFull_refusedWaits : (s.setFull pa b).refusedWaits = s.refusedWaits := by unfold State.setFull; split <;> rfl
@[simp] theorem State.setFull_withdrawn : (s.setFull pa b).withdrawn = s.withdrawn := by unfold State.setFull; split <;> rfl
@[simp] theorem State.setFull_dies : (s.setFull pa b).dies = s.dies := by unfold State.setFull; split <;> rfl
@[simp] theorem State.setFull_clusters : (s.setFull pa b).clusters = s.clusters := by unfold State.setFull; split <;> rfl
@[simp] theorem State.setFull_badBanks : (s.setFull pa b).badBanks = s.badBanks := by unfold State.setFull; split <;> rfl
@[simp] theorem State.setFull_forwards : (s.setFull pa b).forwards = s.forwards := by unfold State.setFull; split <;> rfl
@[simp] theorem State.setFull_dieMask : (s.setFull pa b).dieMask = s.dieMask := by unfold State.setFull; split <;> rfl
@[simp] theorem State.setFull_recs : (s.setFull pa b).recs = s.recs := by unfold State.setFull; split <;> rfl
@[simp] theorem State.setFull_recLast : (s.setFull pa b).recLast = s.recLast := by unfold State.setFull; split <;> rfl
@[simp] theorem State.setFull_insts : (s.setFull pa b).insts = s.insts := by unfold State.setFull; split <;> rfl
@[simp] theorem State.setFull_bindings : (s.setFull pa b).bindings = s.bindings := by unfold State.setFull; split <;> rfl
@[simp] theorem State.setFull_chq : (s.setFull pa b).chq = s.chq := by unfold State.setFull; split <;> rfl
@[simp] theorem State.setFull_sends : (s.setFull pa b).sends = s.sends := by unfold State.setFull; split <;> rfl
@[simp] theorem State.setFull_nextId : (s.setFull pa b).nextId = s.nextId := by unfold State.setFull; split <;> rfl
@[simp] theorem State.setFull_ops : (s.setFull pa b).ops = s.ops := by unfold State.setFull; split <;> rfl
@[simp] theorem State.setFull_ioTail : (s.setFull pa b).ioTail = s.ioTail := by unfold State.setFull; split <;> rfl
@[simp] theorem State.setFull_ports : (s.setFull pa b).ports = s.ports := by unfold State.setFull; split <;> rfl
@[simp] theorem State.setFull_links : (s.setFull pa b).links = s.links := by unfold State.setFull; split <;> rfl
@[simp] theorem State.setFull_requests : (s.setFull pa b).requests = s.requests := by unfold State.setFull; split <;> rfl
@[simp] theorem State.setFull_backlog : (s.setFull pa b).backlog = s.backlog := by unfold State.setFull; split <;> rfl
@[simp] theorem State.setFull_nextPid : (s.setFull pa b).nextPid = s.nextPid := by unfold State.setFull; split <;> rfl
@[simp] theorem State.setFull_lastKeyed : (s.setFull pa b).lastKeyed = s.lastKeyed := by unfold State.setFull; split <;> rfl
@[simp] theorem State.setFull_answers : (s.setFull pa b).answers = s.answers := by unfold State.setFull; split <;> rfl
@[simp] theorem State.setFull_heldPkts : (s.setFull pa b).heldPkts = s.heldPkts := by unfold State.setFull; split <;> rfl
@[simp] theorem State.setFull_performed : (s.setFull pa b).performed = s.performed := by unfold State.setFull; split <;> rfl
@[simp] theorem State.setFull_boot : (s.setFull pa b).boot = s.boot := by unfold State.setFull; split <;> rfl
@[simp] theorem State.setFull_hostData : (s.setFull pa b).hostData = s.hostData := by unfold State.setFull; split <;> rfl
@[simp] theorem State.setFull_hostSeen : (s.setFull pa b).hostSeen = s.hostSeen := by unfold State.setFull; split <;> rfl
@[simp] theorem State.setFull_portSeen : (s.setFull pa b).portSeen = s.portSeen := by unfold State.setFull; split <;> rfl
@[simp] theorem State.setFull_agenda : (s.setFull pa b).agenda = s.agenda := by unfold State.setFull; split <;> rfl
@[simp] theorem State.setFull_turns : (s.setFull pa b).turns = s.turns := by unfold State.setFull; split <;> rfl
@[simp] theorem State.setFull_tick : (s.setFull pa b).tick = s.tick := by unfold State.setFull; split <;> rfl

end setFull

section enqueueSend
variable (s : State) (r : SendRec)

@[simp] theorem State.enqueueSend_task : (s.enqueueSend r).task = s.task := rfl
@[simp] theorem State.enqueueSend_tasks : (s.enqueueSend r).tasks = s.tasks := rfl
@[simp] theorem State.enqueueSend_ready : (s.enqueueSend r).ready = s.ready := rfl
@[simp] theorem State.enqueueSend_nextKey : (s.enqueueSend r).nextKey = s.nextKey := rfl
@[simp] theorem State.enqueueSend_mem : (s.enqueueSend r).mem = s.mem := rfl
@[simp] theorem State.enqueueSend_full : (s.enqueueSend r).full = s.full := rfl
@[simp] theorem State.enqueueSend_metas : (s.enqueueSend r).metas = s.metas := rfl
@[simp] theorem State.enqueueSend_sectors : (s.enqueueSend r).sectors = s.sectors := rfl
@[simp] theorem State.enqueueSend_wcs : (s.enqueueSend r).wcs = s.wcs := rfl
@[simp] theorem State.enqueueSend_failed : (s.enqueueSend r).failed = s.failed := rfl
@[simp] theorem State.enqueueSend_writes : (s.enqueueSend r).writes = s.writes := rfl
@[simp] theorem State.enqueueSend_pos : (s.enqueueSend r).pos = s.pos := rfl
@[simp] theorem State.enqueueSend_l1 : (s.enqueueSend r).l1 = s.l1 := rfl
@[simp] theorem State.enqueueSend_rtlb : (s.enqueueSend r).rtlb = s.rtlb := rfl
@[simp] theorem State.enqueueSend_dtlb : (s.enqueueSend r).dtlb = s.dtlb := rfl
@[simp] theorem State.enqueueSend_waiters : (s.enqueueSend r).waiters = s.waiters := rfl
@[simp] theorem State.enqueueSend_refusedWaits : (s.enqueueSend r).refusedWaits = s.refusedWaits := rfl
@[simp] theorem State.enqueueSend_withdrawn : (s.enqueueSend r).withdrawn = s.withdrawn := rfl
@[simp] theorem State.enqueueSend_dies : (s.enqueueSend r).dies = s.dies := rfl
@[simp] theorem State.enqueueSend_clusters : (s.enqueueSend r).clusters = s.clusters := rfl
@[simp] theorem State.enqueueSend_badBanks : (s.enqueueSend r).badBanks = s.badBanks := rfl
@[simp] theorem State.enqueueSend_forwards : (s.enqueueSend r).forwards = s.forwards := rfl
@[simp] theorem State.enqueueSend_dieMask : (s.enqueueSend r).dieMask = s.dieMask := rfl
@[simp] theorem State.enqueueSend_recs : (s.enqueueSend r).recs = s.recs := rfl
@[simp] theorem State.enqueueSend_recLast : (s.enqueueSend r).recLast = s.recLast := rfl
@[simp] theorem State.enqueueSend_insts : (s.enqueueSend r).insts = s.insts := rfl
@[simp] theorem State.enqueueSend_bindings : (s.enqueueSend r).bindings = s.bindings := rfl
@[simp] theorem State.enqueueSend_chq : (s.enqueueSend r).chq = s.chq := rfl
@[simp] theorem State.enqueueSend_ops : (s.enqueueSend r).ops = s.ops := rfl
@[simp] theorem State.enqueueSend_ioTail : (s.enqueueSend r).ioTail = s.ioTail := rfl
@[simp] theorem State.enqueueSend_ports : (s.enqueueSend r).ports = s.ports := rfl
@[simp] theorem State.enqueueSend_links : (s.enqueueSend r).links = s.links := rfl
@[simp] theorem State.enqueueSend_requests : (s.enqueueSend r).requests = s.requests := rfl
@[simp] theorem State.enqueueSend_backlog : (s.enqueueSend r).backlog = s.backlog := rfl
@[simp] theorem State.enqueueSend_nextPid : (s.enqueueSend r).nextPid = s.nextPid := rfl
@[simp] theorem State.enqueueSend_lastKeyed : (s.enqueueSend r).lastKeyed = s.lastKeyed := rfl
@[simp] theorem State.enqueueSend_answers : (s.enqueueSend r).answers = s.answers := rfl
@[simp] theorem State.enqueueSend_heldPkts : (s.enqueueSend r).heldPkts = s.heldPkts := rfl
@[simp] theorem State.enqueueSend_performed : (s.enqueueSend r).performed = s.performed := rfl
@[simp] theorem State.enqueueSend_boot : (s.enqueueSend r).boot = s.boot := rfl
@[simp] theorem State.enqueueSend_hostData : (s.enqueueSend r).hostData = s.hostData := rfl
@[simp] theorem State.enqueueSend_hostSeen : (s.enqueueSend r).hostSeen = s.hostSeen := rfl
@[simp] theorem State.enqueueSend_portSeen : (s.enqueueSend r).portSeen = s.portSeen := rfl
@[simp] theorem State.enqueueSend_agenda : (s.enqueueSend r).agenda = s.agenda := rfl
@[simp] theorem State.enqueueSend_turns : (s.enqueueSend r).turns = s.turns := rfl
@[simp] theorem State.enqueueSend_tick : (s.enqueueSend r).tick = s.tick := rfl

end enqueueSend

@[simp] theorem State.setTask_task (s : State) (f : Task → Task) : (s.setTask f).task = f s.task := rfl

@[simp] theorem State.setTask_setTask (s : State) (f g : Task → Task) : (s.setTask f).setTask g = s.setTask (fun t => g (f t)) := rfl

section arrive
variable (t : Task) (x : Spec)

@[simp] theorem Task.arrive_key : (t.arrive x).key = t.key := rfl
@[simp] theorem Task.arrive_core : (t.arrive x).core = t.core := rfl
@[simp] theorem Task.arrive_status : (t.arrive x).status = t.status := rfl
@[simp] theorem Task.arrive_high : (t.arrive x).high = t.high := rfl
@[simp] theorem Task.arrive_ctx : (t.arrive x).ctx = t.ctx := rfl
@[simp] theorem Task.arrive_pc : (t.arrive x).pc = t.pc := rfl
@[simp] theorem Task.arrive_g : (t.arrive x).g = t.g := rfl
@[simp] theorem Task.arrive_saved : (t.arrive x).saved = t.saved := rfl
@[simp] theorem Task.arrive_p : (t.arrive x).p = t.p := rfl
@[simp] theorem Task.arrive_e : (t.arrive x).e = t.e := rfl
@[simp] theorem Task.arrive_lanes : (t.arrive x).lanes = t.lanes := rfl
@[simp] theorem Task.arrive_laneImage : (t.arrive x).laneImage = t.laneImage := rfl
@[simp] theorem Task.arrive_hints : (t.arrive x).hints = t.hints := rfl
@[simp] theorem Task.arrive_tid : (t.arrive x).tid = t.tid := rfl
@[simp] theorem Task.arrive_lvl : (t.arrive x).lvl = t.lvl := rfl
@[simp] theorem Task.arrive_launch : (t.arrive x).launch = t.launch := rfl
@[simp] theorem Task.arrive_prec : (t.arrive x).prec = t.prec := rfl
@[simp] theorem Task.arrive_rmode : (t.arrive x).rmode = t.rmode := rfl
@[simp] theorem Task.arrive_fstat : (t.arrive x).fstat = t.fstat := rfl
@[simp] theorem Task.arrive_fena : (t.arrive x).fena = t.fena := rfl
@[simp] theorem Task.arrive_tags : (t.arrive x).tags = t.tags := rfl
@[simp] theorem Task.arrive_usc : (t.arrive x).usc = t.usc := rfl
@[simp] theorem Task.arrive_slim : (t.arrive x).slim = t.slim := rfl
@[simp] theorem Task.arrive_sbase : (t.arrive x).sbase = t.sbase := rfl
@[simp] theorem Task.arrive_tepc : (t.arrive x).tepc = t.tepc := rfl
@[simp] theorem Task.arrive_tcause : (t.arrive x).tcause = t.tcause := rfl
@[simp] theorem Task.arrive_tval : (t.arrive x).tval = t.tval := rfl
@[simp] theorem Task.arrive_tstat : (t.arrive x).tstat = t.tstat := rfl
@[simp] theorem Task.arrive_thint : (t.arrive x).thint = t.thint := rfl
@[simp] theorem Task.arrive_thintx : (t.arrive x).thintx = t.thintx := rfl
@[simp] theorem Task.arrive_tvec : (t.arrive x).tvec = t.tvec := rfl
@[simp] theorem Task.arrive_wcwait : (t.arrive x).wcwait = t.wcwait := rfl
@[simp] theorem Task.arrive_vdone : (t.arrive x).vdone = t.vdone := rfl
@[simp] theorem Task.arrive_egdepth : (t.arrive x).egdepth = t.egdepth := rfl
@[simp] theorem Task.arrive_asid : (t.arrive x).asid = t.asid := rfl
@[simp] theorem Task.arrive_jobkey : (t.arrive x).jobkey = t.jobkey := rfl
@[simp] theorem Task.arrive_held : (t.arrive x).held = t.held := rfl
@[simp] theorem Task.arrive_snapshot : (t.arrive x).snapshot = t.snapshot := rfl
@[simp] theorem Task.arrive_seen : (t.arrive x).seen = t.seen := rfl
@[simp] theorem Task.arrive_resident : (t.arrive x).resident = t.resident := rfl
@[simp] theorem Task.arrive_outFrames : (t.arrive x).outFrames = t.outFrames := rfl
@[simp] theorem Task.arrive_slotsIn : (t.arrive x).slotsIn = t.slotsIn := rfl
@[simp] theorem Task.arrive_slotsOut : (t.arrive x).slotsOut = t.slotsOut := rfl
@[simp] theorem Task.arrive_stalled : (t.arrive x).stalled = t.stalled := rfl
@[simp] theorem Task.arrive_hintsSaved : (t.arrive x).hintsSaved = t.hintsSaved := rfl
@[simp] theorem Task.arrive_live : (t.arrive x).live = t.live := rfl
@[simp] theorem Task.arrive_pktChan : (t.arrive x).pktChan = t.pktChan := rfl
@[simp] theorem Task.arrive_pkt : (t.arrive x).pkt = t.pkt := rfl
@[simp] theorem Task.arrive_operands : (t.arrive x).operands = t.operands := rfl
@[simp] theorem Task.arrive_waitOn : (t.arrive x).waitOn = t.waitOn := rfl
@[simp] theorem Task.arrive_activation : (t.arrive x).activation = t.activation := rfl
@[simp] theorem Task.arrive_mx : (t.arrive x).mx = t.mx := rfl

end arrive

section setG
variable (t : Task) (n : Nat) (v : W64)

@[simp] theorem Task.setG_key : (t.setG n v).key = t.key := by unfold Task.setG; split <;> rfl
@[simp] theorem Task.setG_core : (t.setG n v).core = t.core := by unfold Task.setG; split <;> rfl
@[simp] theorem Task.setG_status : (t.setG n v).status = t.status := by unfold Task.setG; split <;> rfl
@[simp] theorem Task.setG_high : (t.setG n v).high = t.high := by unfold Task.setG; split <;> rfl
@[simp] theorem Task.setG_ctx : (t.setG n v).ctx = t.ctx := by unfold Task.setG; split <;> rfl
@[simp] theorem Task.setG_pc : (t.setG n v).pc = t.pc := by unfold Task.setG; split <;> rfl
@[simp] theorem Task.setG_saved : (t.setG n v).saved = t.saved := by unfold Task.setG; split <;> rfl
@[simp] theorem Task.setG_p : (t.setG n v).p = t.p := by unfold Task.setG; split <;> rfl
@[simp] theorem Task.setG_e : (t.setG n v).e = t.e := by unfold Task.setG; split <;> rfl
@[simp] theorem Task.setG_lanes : (t.setG n v).lanes = t.lanes := by unfold Task.setG; split <;> rfl
@[simp] theorem Task.setG_laneImage : (t.setG n v).laneImage = t.laneImage := by unfold Task.setG; split <;> rfl
@[simp] theorem Task.setG_hints : (t.setG n v).hints = t.hints := by unfold Task.setG; split <;> rfl
@[simp] theorem Task.setG_tid : (t.setG n v).tid = t.tid := by unfold Task.setG; split <;> rfl
@[simp] theorem Task.setG_lvl : (t.setG n v).lvl = t.lvl := by unfold Task.setG; split <;> rfl
@[simp] theorem Task.setG_launch : (t.setG n v).launch = t.launch := by unfold Task.setG; split <;> rfl
@[simp] theorem Task.setG_prec : (t.setG n v).prec = t.prec := by unfold Task.setG; split <;> rfl
@[simp] theorem Task.setG_rmode : (t.setG n v).rmode = t.rmode := by unfold Task.setG; split <;> rfl
@[simp] theorem Task.setG_fstat : (t.setG n v).fstat = t.fstat := by unfold Task.setG; split <;> rfl
@[simp] theorem Task.setG_fena : (t.setG n v).fena = t.fena := by unfold Task.setG; split <;> rfl
@[simp] theorem Task.setG_tags : (t.setG n v).tags = t.tags := by unfold Task.setG; split <;> rfl
@[simp] theorem Task.setG_usc : (t.setG n v).usc = t.usc := by unfold Task.setG; split <;> rfl
@[simp] theorem Task.setG_slim : (t.setG n v).slim = t.slim := by unfold Task.setG; split <;> rfl
@[simp] theorem Task.setG_sbase : (t.setG n v).sbase = t.sbase := by unfold Task.setG; split <;> rfl
@[simp] theorem Task.setG_tepc : (t.setG n v).tepc = t.tepc := by unfold Task.setG; split <;> rfl
@[simp] theorem Task.setG_tcause : (t.setG n v).tcause = t.tcause := by unfold Task.setG; split <;> rfl
@[simp] theorem Task.setG_tval : (t.setG n v).tval = t.tval := by unfold Task.setG; split <;> rfl
@[simp] theorem Task.setG_tstat : (t.setG n v).tstat = t.tstat := by unfold Task.setG; split <;> rfl
@[simp] theorem Task.setG_thint : (t.setG n v).thint = t.thint := by unfold Task.setG; split <;> rfl
@[simp] theorem Task.setG_thintx : (t.setG n v).thintx = t.thintx := by unfold Task.setG; split <;> rfl
@[simp] theorem Task.setG_tvec : (t.setG n v).tvec = t.tvec := by unfold Task.setG; split <;> rfl
@[simp] theorem Task.setG_wcwait : (t.setG n v).wcwait = t.wcwait := by unfold Task.setG; split <;> rfl
@[simp] theorem Task.setG_vdone : (t.setG n v).vdone = t.vdone := by unfold Task.setG; split <;> rfl
@[simp] theorem Task.setG_egdepth : (t.setG n v).egdepth = t.egdepth := by unfold Task.setG; split <;> rfl
@[simp] theorem Task.setG_asid : (t.setG n v).asid = t.asid := by unfold Task.setG; split <;> rfl
@[simp] theorem Task.setG_jobkey : (t.setG n v).jobkey = t.jobkey := by unfold Task.setG; split <;> rfl
@[simp] theorem Task.setG_held : (t.setG n v).held = t.held := by unfold Task.setG; split <;> rfl
@[simp] theorem Task.setG_snapshot : (t.setG n v).snapshot = t.snapshot := by unfold Task.setG; split <;> rfl
@[simp] theorem Task.setG_seen : (t.setG n v).seen = t.seen := by unfold Task.setG; split <;> rfl
@[simp] theorem Task.setG_outstanding : (t.setG n v).outstanding = t.outstanding := by unfold Task.setG; split <;> rfl
@[simp] theorem Task.setG_resident : (t.setG n v).resident = t.resident := by unfold Task.setG; split <;> rfl
@[simp] theorem Task.setG_outFrames : (t.setG n v).outFrames = t.outFrames := by unfold Task.setG; split <;> rfl
@[simp] theorem Task.setG_slotsIn : (t.setG n v).slotsIn = t.slotsIn := by unfold Task.setG; split <;> rfl
@[simp] theorem Task.setG_slotsOut : (t.setG n v).slotsOut = t.slotsOut := by unfold Task.setG; split <;> rfl
@[simp] theorem Task.setG_stalled : (t.setG n v).stalled = t.stalled := by unfold Task.setG; split <;> rfl
@[simp] theorem Task.setG_hintsSaved : (t.setG n v).hintsSaved = t.hintsSaved := by unfold Task.setG; split <;> rfl
@[simp] theorem Task.setG_live : (t.setG n v).live = t.live := by unfold Task.setG; split <;> rfl
@[simp] theorem Task.setG_pktChan : (t.setG n v).pktChan = t.pktChan := by unfold Task.setG; split <;> rfl
@[simp] theorem Task.setG_pkt : (t.setG n v).pkt = t.pkt := by unfold Task.setG; split <;> rfl
@[simp] theorem Task.setG_operands : (t.setG n v).operands = t.operands := by unfold Task.setG; split <;> rfl
@[simp] theorem Task.setG_waitOn : (t.setG n v).waitOn = t.waitOn := by unfold Task.setG; split <;> rfl
@[simp] theorem Task.setG_activation : (t.setG n v).activation = t.activation := by unfold Task.setG; split <;> rfl
@[simp] theorem Task.setG_mx : (t.setG n v).mx = t.mx := by unfold Task.setG; split <;> rfl

end setG

section setP
variable (t : Task) (n : Nat) (b : Bool)

@[simp] theorem Task.setP_key : (t.setP n b).key = t.key := by unfold Task.setP; split <;> rfl
@[simp] theorem Task.setP_core : (t.setP n b).core = t.core := by unfold Task.setP; split <;> rfl
@[simp] theorem Task.setP_status : (t.setP n b).status = t.status := by unfold Task.setP; split <;> rfl
@[simp] theorem Task.setP_high : (t.setP n b).high = t.high := by unfold Task.setP; split <;> rfl
@[simp] theorem Task.setP_ctx : (t.setP n b).ctx = t.ctx := by unfold Task.setP; split <;> rfl
@[simp] theorem Task.setP_pc : (t.setP n b).pc = t.pc := by unfold Task.setP; split <;> rfl
@[simp] theorem Task.setP_g : (t.setP n b).g = t.g := by unfold Task.setP; split <;> rfl
@[simp] theorem Task.setP_saved : (t.setP n b).saved = t.saved := by unfold Task.setP; split <;> rfl
@[simp] theorem Task.setP_e : (t.setP n b).e = t.e := by unfold Task.setP; split <;> rfl
@[simp] theorem Task.setP_lanes : (t.setP n b).lanes = t.lanes := by unfold Task.setP; split <;> rfl
@[simp] theorem Task.setP_laneImage : (t.setP n b).laneImage = t.laneImage := by unfold Task.setP; split <;> rfl
@[simp] theorem Task.setP_hints : (t.setP n b).hints = t.hints := by unfold Task.setP; split <;> rfl
@[simp] theorem Task.setP_tid : (t.setP n b).tid = t.tid := by unfold Task.setP; split <;> rfl
@[simp] theorem Task.setP_lvl : (t.setP n b).lvl = t.lvl := by unfold Task.setP; split <;> rfl
@[simp] theorem Task.setP_launch : (t.setP n b).launch = t.launch := by unfold Task.setP; split <;> rfl
@[simp] theorem Task.setP_prec : (t.setP n b).prec = t.prec := by unfold Task.setP; split <;> rfl
@[simp] theorem Task.setP_rmode : (t.setP n b).rmode = t.rmode := by unfold Task.setP; split <;> rfl
@[simp] theorem Task.setP_fstat : (t.setP n b).fstat = t.fstat := by unfold Task.setP; split <;> rfl
@[simp] theorem Task.setP_fena : (t.setP n b).fena = t.fena := by unfold Task.setP; split <;> rfl
@[simp] theorem Task.setP_tags : (t.setP n b).tags = t.tags := by unfold Task.setP; split <;> rfl
@[simp] theorem Task.setP_usc : (t.setP n b).usc = t.usc := by unfold Task.setP; split <;> rfl
@[simp] theorem Task.setP_slim : (t.setP n b).slim = t.slim := by unfold Task.setP; split <;> rfl
@[simp] theorem Task.setP_sbase : (t.setP n b).sbase = t.sbase := by unfold Task.setP; split <;> rfl
@[simp] theorem Task.setP_tepc : (t.setP n b).tepc = t.tepc := by unfold Task.setP; split <;> rfl
@[simp] theorem Task.setP_tcause : (t.setP n b).tcause = t.tcause := by unfold Task.setP; split <;> rfl
@[simp] theorem Task.setP_tval : (t.setP n b).tval = t.tval := by unfold Task.setP; split <;> rfl
@[simp] theorem Task.setP_tstat : (t.setP n b).tstat = t.tstat := by unfold Task.setP; split <;> rfl
@[simp] theorem Task.setP_thint : (t.setP n b).thint = t.thint := by unfold Task.setP; split <;> rfl
@[simp] theorem Task.setP_thintx : (t.setP n b).thintx = t.thintx := by unfold Task.setP; split <;> rfl
@[simp] theorem Task.setP_tvec : (t.setP n b).tvec = t.tvec := by unfold Task.setP; split <;> rfl
@[simp] theorem Task.setP_wcwait : (t.setP n b).wcwait = t.wcwait := by unfold Task.setP; split <;> rfl
@[simp] theorem Task.setP_vdone : (t.setP n b).vdone = t.vdone := by unfold Task.setP; split <;> rfl
@[simp] theorem Task.setP_egdepth : (t.setP n b).egdepth = t.egdepth := by unfold Task.setP; split <;> rfl
@[simp] theorem Task.setP_asid : (t.setP n b).asid = t.asid := by unfold Task.setP; split <;> rfl
@[simp] theorem Task.setP_jobkey : (t.setP n b).jobkey = t.jobkey := by unfold Task.setP; split <;> rfl
@[simp] theorem Task.setP_held : (t.setP n b).held = t.held := by unfold Task.setP; split <;> rfl
@[simp] theorem Task.setP_snapshot : (t.setP n b).snapshot = t.snapshot := by unfold Task.setP; split <;> rfl
@[simp] theorem Task.setP_seen : (t.setP n b).seen = t.seen := by unfold Task.setP; split <;> rfl
@[simp] theorem Task.setP_outstanding : (t.setP n b).outstanding = t.outstanding := by unfold Task.setP; split <;> rfl
@[simp] theorem Task.setP_resident : (t.setP n b).resident = t.resident := by unfold Task.setP; split <;> rfl
@[simp] theorem Task.setP_outFrames : (t.setP n b).outFrames = t.outFrames := by unfold Task.setP; split <;> rfl
@[simp] theorem Task.setP_slotsIn : (t.setP n b).slotsIn = t.slotsIn := by unfold Task.setP; split <;> rfl
@[simp] theorem Task.setP_slotsOut : (t.setP n b).slotsOut = t.slotsOut := by unfold Task.setP; split <;> rfl
@[simp] theorem Task.setP_stalled : (t.setP n b).stalled = t.stalled := by unfold Task.setP; split <;> rfl
@[simp] theorem Task.setP_hintsSaved : (t.setP n b).hintsSaved = t.hintsSaved := by unfold Task.setP; split <;> rfl
@[simp] theorem Task.setP_live : (t.setP n b).live = t.live := by unfold Task.setP; split <;> rfl
@[simp] theorem Task.setP_pktChan : (t.setP n b).pktChan = t.pktChan := by unfold Task.setP; split <;> rfl
@[simp] theorem Task.setP_pkt : (t.setP n b).pkt = t.pkt := by unfold Task.setP; split <;> rfl
@[simp] theorem Task.setP_operands : (t.setP n b).operands = t.operands := by unfold Task.setP; split <;> rfl
@[simp] theorem Task.setP_waitOn : (t.setP n b).waitOn = t.waitOn := by unfold Task.setP; split <;> rfl
@[simp] theorem Task.setP_activation : (t.setP n b).activation = t.activation := by unfold Task.setP; split <;> rfl
@[simp] theorem Task.setP_mx : (t.setP n b).mx = t.mx := by unfold Task.setP; split <;> rfl

end setP

section saveTrap
variable (t : Task) (c : BitVec 8) (v e : W64)

@[simp] theorem Task.saveTrap_key : (t.saveTrap c v e).key = t.key := rfl
@[simp] theorem Task.saveTrap_core : (t.saveTrap c v e).core = t.core := rfl
@[simp] theorem Task.saveTrap_status : (t.saveTrap c v e).status = t.status := rfl
@[simp] theorem Task.saveTrap_high : (t.saveTrap c v e).high = t.high := rfl
@[simp] theorem Task.saveTrap_ctx : (t.saveTrap c v e).ctx = t.ctx := rfl
@[simp] theorem Task.saveTrap_pc : (t.saveTrap c v e).pc = t.pc := rfl
@[simp] theorem Task.saveTrap_g : (t.saveTrap c v e).g = t.g := rfl
@[simp] theorem Task.saveTrap_saved : (t.saveTrap c v e).saved = t.saved := rfl
@[simp] theorem Task.saveTrap_p : (t.saveTrap c v e).p = t.p := rfl
@[simp] theorem Task.saveTrap_e : (t.saveTrap c v e).e = t.e := rfl
@[simp] theorem Task.saveTrap_lanes : (t.saveTrap c v e).lanes = t.lanes := rfl
@[simp] theorem Task.saveTrap_laneImage : (t.saveTrap c v e).laneImage = t.laneImage := rfl
@[simp] theorem Task.saveTrap_tid : (t.saveTrap c v e).tid = t.tid := rfl
@[simp] theorem Task.saveTrap_lvl : (t.saveTrap c v e).lvl = t.lvl := rfl
@[simp] theorem Task.saveTrap_launch : (t.saveTrap c v e).launch = t.launch := rfl
@[simp] theorem Task.saveTrap_prec : (t.saveTrap c v e).prec = t.prec := rfl
@[simp] theorem Task.saveTrap_rmode : (t.saveTrap c v e).rmode = t.rmode := rfl
@[simp] theorem Task.saveTrap_fstat : (t.saveTrap c v e).fstat = t.fstat := rfl
@[simp] theorem Task.saveTrap_fena : (t.saveTrap c v e).fena = t.fena := rfl
@[simp] theorem Task.saveTrap_tags : (t.saveTrap c v e).tags = t.tags := rfl
@[simp] theorem Task.saveTrap_usc : (t.saveTrap c v e).usc = t.usc := rfl
@[simp] theorem Task.saveTrap_slim : (t.saveTrap c v e).slim = t.slim := rfl
@[simp] theorem Task.saveTrap_sbase : (t.saveTrap c v e).sbase = t.sbase := rfl
@[simp] theorem Task.saveTrap_tvec : (t.saveTrap c v e).tvec = t.tvec := rfl
@[simp] theorem Task.saveTrap_wcwait : (t.saveTrap c v e).wcwait = t.wcwait := rfl
@[simp] theorem Task.saveTrap_vdone : (t.saveTrap c v e).vdone = t.vdone := rfl
@[simp] theorem Task.saveTrap_egdepth : (t.saveTrap c v e).egdepth = t.egdepth := rfl
@[simp] theorem Task.saveTrap_asid : (t.saveTrap c v e).asid = t.asid := rfl
@[simp] theorem Task.saveTrap_jobkey : (t.saveTrap c v e).jobkey = t.jobkey := rfl
@[simp] theorem Task.saveTrap_held : (t.saveTrap c v e).held = t.held := rfl
@[simp] theorem Task.saveTrap_snapshot : (t.saveTrap c v e).snapshot = t.snapshot := rfl
@[simp] theorem Task.saveTrap_seen : (t.saveTrap c v e).seen = t.seen := rfl
@[simp] theorem Task.saveTrap_outstanding : (t.saveTrap c v e).outstanding = t.outstanding := rfl
@[simp] theorem Task.saveTrap_resident : (t.saveTrap c v e).resident = t.resident := rfl
@[simp] theorem Task.saveTrap_outFrames : (t.saveTrap c v e).outFrames = t.outFrames := rfl
@[simp] theorem Task.saveTrap_slotsIn : (t.saveTrap c v e).slotsIn = t.slotsIn := rfl
@[simp] theorem Task.saveTrap_slotsOut : (t.saveTrap c v e).slotsOut = t.slotsOut := rfl
@[simp] theorem Task.saveTrap_hintsSaved : (t.saveTrap c v e).hintsSaved = t.hintsSaved := rfl
@[simp] theorem Task.saveTrap_live : (t.saveTrap c v e).live = t.live := rfl
@[simp] theorem Task.saveTrap_pktChan : (t.saveTrap c v e).pktChan = t.pktChan := rfl
@[simp] theorem Task.saveTrap_pkt : (t.saveTrap c v e).pkt = t.pkt := rfl
@[simp] theorem Task.saveTrap_waitOn : (t.saveTrap c v e).waitOn = t.waitOn := rfl
@[simp] theorem Task.saveTrap_activation : (t.saveTrap c v e).activation = t.activation := rfl
@[simp] theorem Task.saveTrap_mx : (t.saveTrap c v e).mx = t.mx := rfl

end saveTrap

section kill
variable (t : Task) (m : BitVec 22) (k : Nat → Bool)

@[simp] theorem Task.kill_key : (t.kill m k).key = t.key := rfl
@[simp] theorem Task.kill_core : (t.kill m k).core = t.core := rfl
@[simp] theorem Task.kill_status : (t.kill m k).status = t.status := rfl
@[simp] theorem Task.kill_high : (t.kill m k).high = t.high := rfl
@[simp] theorem Task.kill_ctx : (t.kill m k).ctx = t.ctx := rfl
@[simp] theorem Task.kill_pc : (t.kill m k).pc = t.pc := rfl
@[simp] theorem Task.kill_saved : (t.kill m k).saved = t.saved := rfl
@[simp] theorem Task.kill_p : (t.kill m k).p = t.p := rfl
@[simp] theorem Task.kill_laneImage : (t.kill m k).laneImage = t.laneImage := rfl
@[simp] theorem Task.kill_hints : (t.kill m k).hints = t.hints := rfl
@[simp] theorem Task.kill_tid : (t.kill m k).tid = t.tid := rfl
@[simp] theorem Task.kill_lvl : (t.kill m k).lvl = t.lvl := rfl
@[simp] theorem Task.kill_launch : (t.kill m k).launch = t.launch := rfl
@[simp] theorem Task.kill_prec : (t.kill m k).prec = t.prec := rfl
@[simp] theorem Task.kill_rmode : (t.kill m k).rmode = t.rmode := rfl
@[simp] theorem Task.kill_fstat : (t.kill m k).fstat = t.fstat := rfl
@[simp] theorem Task.kill_fena : (t.kill m k).fena = t.fena := rfl
@[simp] theorem Task.kill_tags : (t.kill m k).tags = t.tags := rfl
@[simp] theorem Task.kill_usc : (t.kill m k).usc = t.usc := rfl
@[simp] theorem Task.kill_slim : (t.kill m k).slim = t.slim := rfl
@[simp] theorem Task.kill_sbase : (t.kill m k).sbase = t.sbase := rfl
@[simp] theorem Task.kill_tepc : (t.kill m k).tepc = t.tepc := rfl
@[simp] theorem Task.kill_tcause : (t.kill m k).tcause = t.tcause := rfl
@[simp] theorem Task.kill_tval : (t.kill m k).tval = t.tval := rfl
@[simp] theorem Task.kill_tstat : (t.kill m k).tstat = t.tstat := rfl
@[simp] theorem Task.kill_thint : (t.kill m k).thint = t.thint := rfl
@[simp] theorem Task.kill_thintx : (t.kill m k).thintx = t.thintx := rfl
@[simp] theorem Task.kill_tvec : (t.kill m k).tvec = t.tvec := rfl
@[simp] theorem Task.kill_wcwait : (t.kill m k).wcwait = t.wcwait := rfl
@[simp] theorem Task.kill_vdone : (t.kill m k).vdone = t.vdone := rfl
@[simp] theorem Task.kill_egdepth : (t.kill m k).egdepth = t.egdepth := rfl
@[simp] theorem Task.kill_asid : (t.kill m k).asid = t.asid := rfl
@[simp] theorem Task.kill_jobkey : (t.kill m k).jobkey = t.jobkey := rfl
@[simp] theorem Task.kill_held : (t.kill m k).held = t.held := rfl
@[simp] theorem Task.kill_snapshot : (t.kill m k).snapshot = t.snapshot := rfl
@[simp] theorem Task.kill_seen : (t.kill m k).seen = t.seen := rfl
@[simp] theorem Task.kill_outstanding : (t.kill m k).outstanding = t.outstanding := rfl
@[simp] theorem Task.kill_resident : (t.kill m k).resident = t.resident := rfl
@[simp] theorem Task.kill_outFrames : (t.kill m k).outFrames = t.outFrames := rfl
@[simp] theorem Task.kill_slotsIn : (t.kill m k).slotsIn = t.slotsIn := rfl
@[simp] theorem Task.kill_slotsOut : (t.kill m k).slotsOut = t.slotsOut := rfl
@[simp] theorem Task.kill_stalled : (t.kill m k).stalled = t.stalled := rfl
@[simp] theorem Task.kill_hintsSaved : (t.kill m k).hintsSaved = t.hintsSaved := rfl
@[simp] theorem Task.kill_live : (t.kill m k).live = t.live := rfl
@[simp] theorem Task.kill_pktChan : (t.kill m k).pktChan = t.pktChan := rfl
@[simp] theorem Task.kill_pkt : (t.kill m k).pkt = t.pkt := rfl
@[simp] theorem Task.kill_operands : (t.kill m k).operands = t.operands := rfl
@[simp] theorem Task.kill_waitOn : (t.kill m k).waitOn = t.waitOn := rfl
@[simp] theorem Task.kill_activation : (t.kill m k).activation = t.activation := rfl
@[simp] theorem Task.kill_mx : (t.kill m k).mx = t.mx := rfl

end kill

end Sys2Proof.Machine
end

