-- ==== Sys2Proof/Laws/Memory.lean ====
section
/-! SUPPORT. Memory as a list in canonical form: every operation keeps the form, a read after a write gives the
byte written, and a write leaves every other byte alone. -/

namespace Sys2Proof.Machine

/-- Every address of a memory is at least `a`. -/
def Memory.above (a : Nat) (m : List Host.Cell) : Prop := ∀ c ∈ m, a ≤ c.1

@[simp] theorem Memory.above_cons (a : Nat) (c : Host.Cell) (m : List Host.Cell) :
    Memory.above a (c :: m) ↔ a ≤ c.1 ∧ Memory.above a m := by simp [Memory.above]

theorem Memory.wf_cons (x : Nat) (y : Byte) (m : List Host.Cell) :
    Memory.wf ((x, y) :: m) = true ↔ y ≠ 0 ∧ Memory.above (x + 1) m ∧ Memory.wf m = true := by
  induction m generalizing x y with
  | nil => simp [Memory.wf, Memory.above]
  | cons c m ih =>
    obtain ⟨x', y'⟩ := c
    simp only [Memory.wf, Bool.and_eq_true, bne_iff_ne, decide_eq_true_eq, ih, Memory.above_cons]
    constructor
    · rintro ⟨⟨h1, h2⟩, h3, h4, h5⟩
      exact ⟨h1, ⟨by omega, fun c hc => by have := h4 c hc; omega⟩, h3, h4, h5⟩
    · rintro ⟨h1, ⟨h2, -⟩, h3, h4, h5⟩
      exact ⟨⟨h1, by omega⟩, h3, h4, h5⟩

theorem Memory.above_memSet {k : Nat} (m : List Host.Cell) (a : Nat) (b : Byte) (h : Memory.above k m) (ha : k ≤ a) :
    Memory.above k (memSet m a b) := by
  induction m with
  | nil => unfold memSet; split <;> simp [Memory.above, ha]
  | cons c m ih =>
    obtain ⟨x, y⟩ := c
    have h' := (Memory.above_cons k _ m).1 h
    unfold memSet
    split
    · split
      · exact h
      · simp [ha, h']
    · split
      · split
        · exact h'.2
        · simp [ha, h'.2]
      · exact (Memory.above_cons k _ _).2 ⟨h'.1, ih h'.2⟩

theorem memSet_wf (m : List Host.Cell) (a : Nat) (b : Byte) (h : Memory.wf m = true) : Memory.wf (memSet m a b) = true := by
  induction m with
  | nil => unfold memSet; split <;> simp_all [Memory.wf]
  | cons c m ih =>
    obtain ⟨x, y⟩ := c
    have h' := (Memory.wf_cons x y m).1 h
    unfold memSet
    split
    · split
      · exact h
      · refine (Memory.wf_cons a b _).2 ⟨by assumption, ?_, h⟩
        refine (Memory.above_cons _ _ _).2 ⟨by simpa using by omega, fun c hc => by have := h'.2.1 c hc; omega⟩
    · split
      · subst a
        split
        · exact h'.2.2
        · exact (Memory.wf_cons x b m).2 ⟨by assumption, h'.2⟩
      · exact (Memory.wf_cons x y _).2 ⟨h'.1, Memory.above_memSet m a b h'.2.1 (by omega), ih h'.2.2⟩

theorem memSetBytes_wf (m : List Host.Cell) (a : Nat) (bs : List Byte) (h : Memory.wf m = true) :
    Memory.wf (memSetBytes m a bs) = true := by
  induction bs generalizing m a with
  | nil => exact h
  | cons b bs ih => exact ih _ _ (memSet_wf m a b h)

theorem memory_filter_wf (m : List Host.Cell) (p : Host.Cell → Bool) (h : Memory.wf m = true) :
    Memory.wf (m.filter p) = true := by
  induction m with
  | nil => exact h
  | cons c m ih =>
    obtain ⟨x, y⟩ := c
    have h' := (Memory.wf_cons x y m).1 h
    rw [List.filter_cons]
    split
    · exact (Memory.wf_cons x y _).2 ⟨h'.1, fun c hc => h'.2.1 c (List.mem_filter.1 hc).1, ih h'.2.2⟩
    · exact ih h'.2.2

/-- The byte a memory gives at an address. -/
abbrev memAt (m : List Host.Cell) (a : Nat) : Byte := (lookupKey m a).getD 0

theorem memAt_cons (x : Nat) (y : Byte) (m : List Host.Cell) (a : Nat) :
    memAt ((x, y) :: m) a = if x = a then y else memAt m a := by
  unfold memAt lookupKey
  rw [List.find?_cons]
  by_cases hx : x = a
  · simp [hx]
  · have hb : (x == a) = false := by simpa using hx
    simp [hx, hb]

theorem memAt_of_above {m : List Host.Cell} {k a : Nat} (h : Memory.above k m) (ha : a < k) : memAt m a = 0 := by
  induction m with
  | nil => rfl
  | cons c m ih =>
    obtain ⟨x, y⟩ := c
    have h' := (Memory.above_cons k _ m).1 h
    rw [memAt_cons, if_neg (by have := h'.1; omega), ih h'.2]

/-- A read of one byte after a write of one byte. -/
theorem memAt_memSet (m : List Host.Cell) (a x : Nat) (b : Byte) (h : Memory.wf m = true) :
    memAt (memSet m a b) x = if x = a then b else memAt m x := by
  induction m with
  | nil =>
    unfold memSet
    split
    · subst b; split <;> rfl
    · rw [memAt_cons]; simp only [eq_comm (a := a)]
  | cons c m ih =>
    obtain ⟨k, y⟩ := c
    have h' := (Memory.wf_cons k y m).1 h
    have hf : ∀ z, z ≤ k → memAt m z = 0 := fun z hz => memAt_of_above h'.2.1 (by omega)
    unfold memSet
    split
    · split
      · subst b
        split
        · subst x; rw [memAt_cons, if_neg (by omega), hf a (by omega)]
        · rfl
      · rw [memAt_cons]; simp only [eq_comm (a := a)]
    · split
      · subst a
        split
        · subst b
          by_cases hx : x = k
          · subst x; simp [hf k (Nat.le_refl k)]
          · rw [if_neg hx, memAt_cons, if_neg (Ne.symm hx)]
        · rw [memAt_cons, memAt_cons]; simp only [eq_comm (a := k)]; by_cases hx : x = k <;> simp [hx]
      · rw [memAt_cons, memAt_cons, ih h'.2.2]
        by_cases hx : x = a
        · subst x; rw [if_neg (by omega)]; simp
        · simp [hx]

/-- A write of consecutive bytes gives each its value and leaves every other byte alone. -/
theorem memAt_memSetBytes (m : List Host.Cell) (a x : Nat) (bs : List Byte) (h : Memory.wf m = true) :
    memAt (memSetBytes m a bs) x = if a ≤ x ∧ x < a + bs.length then bs.getD (x - a) 0 else memAt m x := by
  induction bs generalizing m a with
  | nil => simp [memSetBytes] <;> intros <;> omega
  | cons b bs ih =>
    rw [memSetBytes, ih _ _ (memSet_wf m a b h), memAt_memSet m a x b h]
    by_cases hx : x = a
    · subst x; simp <;> omega
    · by_cases hb : a + 1 ≤ x ∧ x < a + 1 + bs.length
      · have hd : x - a = x - (a + 1) + 1 := by omega
        rw [if_pos hb, if_pos (by simp; omega), hd, List.getD_cons_succ]
      · rw [if_neg hb, if_neg hx, if_neg (by simp; omega)]

end Sys2Proof.Machine
end

