-- ==== Sys2Proof/Laws/Stored.lean ====
section
/-! SUPPORT. The storage invariant: every operation over memory, full/empty bits and the publication order keeps
it. -/

namespace Sys2Proof.Machine

theorem insertNat_mem (x y : Nat) (l : List Nat) : y ∈ insertNat x l ↔ y = x ∨ y ∈ l := by
  induction l with
  | nil => simp [insertNat]
  | cons z l ih =>
    unfold insertNat
    split
    · simp
    · split
      · subst x; simp
      · simp only [List.mem_cons, ih]; exact or_left_comm

theorem insertNat_sorted (x : Nat) (l : List Nat) (h : l.Pairwise (· < ·)) : (insertNat x l).Pairwise (· < ·) := by
  induction l with
  | nil => simp [insertNat]
  | cons y l ih =>
    have h' := List.pairwise_cons.1 h
    unfold insertNat
    split
    · refine List.pairwise_cons.2 ⟨?_, h⟩
      intro z hz
      rcases List.mem_cons.1 hz with rfl | hz
      · assumption
      · have := h'.1 z hz; omega
    · split
      · exact h
      · refine List.pairwise_cons.2 ⟨?_, ih h'.2⟩
        intro z hz
        rcases (insertNat_mem x z l).1 hz with rfl | hz
        · omega
        · exact h'.1 z hz

theorem hasFullBits_iff (pa : Nat) : hasFullBits pa = true ↔
    pa < 0x8000000000 ∨ (0x8100000000 ≤ pa ∧ pa < 0x8140000000) ∨ (0x100000000000 ≤ pa ∧ pa < 0x1C0000000000) := by
  unfold hasFullBits regionOf
  by_cases h1 : pa < 0x8000000000
  · simp [h1]
  by_cases h2 : pa < 0x8080000000
  · simp [h1, h2]; omega
  by_cases h3 : 0x8100000000 ≤ pa ∧ pa < 0x8140000000
  · simp [h1, h2, h3]
  by_cases h4 : 0xF000000000 ≤ pa ∧ pa < 0xF100000000
  · simp only [h1, h2, h3, h4, if_false, if_true, and_self, false_or]; simp; omega
  by_cases h5 : 0x100000000000 ≤ pa ∧ pa < 0x1C0000000000
  · simp only [h1, h2, h3, h4, h5, if_false, if_true, and_self, false_or]
  · simp only [h1, h2, h3, h4, h5, if_false, false_or]; simp

theorem hasFullBits_word (pa : Nat) (h : hasFullBits pa = true) : hasFullBits (pa / 8 * 8) = true := by
  rw [hasFullBits_iff] at *; omega

section primitives
variable {s : State}

theorem State.setFull_inv (pa : Nat) (b : Bool) (h : s.Inv) : (s.setFull pa b).Inv := by
  unfold State.setFull
  split
  · refine ⟨h.mem_wf, ?_, ?_, h.write_pos⟩
    · cases b
      · exact h.full_sorted.filter _
      · exact insertNat_sorted _ _ h.full_sorted
    · intro x hx
      cases b
      · exact h.full_bits x (List.mem_filter.1 hx).1
      · rcases (insertNat_mem _ x _).1 hx with rfl | hx
        · exact ⟨by omega, hasFullBits_word pa ‹_›⟩
        · exact h.full_bits x hx
  · exact h

/-- Bytes put into memory keep the invariant. -/
theorem State.putMem_inv (m : List Host.Cell) (hm : Memory.wf m = true) (h : s.Inv) :
    State.Inv { s with mem := m } := ⟨hm, h.full_sorted, h.full_bits, h.write_pos⟩

/-- A fold keeps a property that each of its moves keeps. -/
theorem foldl_keeps {β : Type} {P : α → Prop} (f : α → β → α) (l : List β) (hf : ∀ a b, P a → P (f a b)) {a : α} (h : P a) :
    P (l.foldl f a) := by
  induction l generalizing a with
  | nil => exact h
  | cons b l ih => exact ih (hf a b h)

/-- Hardware zeroing keeps the invariant. -/
theorem State.scrub_inv (pa n : Nat) (h : s.Inv) : (s.scrub pa n).Inv := by
  refine ⟨memSetBytes_wf _ _ _ h.mem_wf, h.full_sorted, h.full_bits, ?_⟩
  intro e he
  obtain ⟨e', he', rfl⟩ := List.mem_map.1 he
  exact h.write_pos e' (List.mem_filter.1 he').1

theorem State.meetFailure_inv (f : Nat × BitVec 2) (h : s.Inv) : (s.meetFailure f).Inv := by
  have h1 : (s.scrub (unitOf f).1 (unitOf f).2).Inv := State.scrub_inv _ _ h
  unfold State.meetFailure
  exact foldl_keeps (P := State.Inv) _ _ (fun _ _ h => State.setFull_inv _ _ h)
    ⟨h1.mem_wf, h1.full_sorted, h1.full_bits, h1.write_pos⟩

end primitives

end Sys2Proof.Machine
end

