-- ==== Sys2Proof/Laws/Put.lean ====
section
/-! SUPPORT. What a write at a home does where no failure is met: the sector code and its open entries aside (R68), one write
event at its position, the bytes put into memory, and nothing else. -/

namespace Sys2Proof.Machine

/-- The first state, but for the sector code and its open entries (R64, R68). -/
def State.Coded (s t : State) : Prop := ∃ a b, t = { s with sectors := a, wcs := b }

section coded
variable {s t u : State}

theorem State.Coded.rfl : s.Coded s := ⟨s.sectors, s.wcs, Eq.refl _⟩

theorem State.Coded.trans (h : s.Coded t) (h' : t.Coded u) : s.Coded u := by
  obtain ⟨a, b, h⟩ := h
  obtain ⟨c, d, h'⟩ := h'
  subst h; subst h'
  exact ⟨c, d, Eq.refl _⟩

theorem State.Coded.failed (h : s.Coded t) : t.failed = s.failed := by
  obtain ⟨a, b, h⟩ := h
  subst h; exact Eq.refl _

theorem State.Coded.foldl {β : Type} (f : State → β → State) (l : List β) (hs : s.failed = [])
    (hf : ∀ (u : State) b, u.failed = [] → u.Coded (f u b)) : s.Coded (l.foldl f s) := by
  induction l generalizing s with
  | nil => exact .rfl
  | cons b l ih =>
    have h := hf s b hs
    exact h.trans (ih (h.failed.trans hs))

end coded

variable (s : State)

theorem State.meetFailures_none (pa n : Nat) (h : s.failed = []) : s.meetFailures pa n = s := by
  simp [State.meetFailures, State.failedIn, h]

theorem State.encodeSector_coded (sec : Nat) : s.Coded (s.encodeSector sec) := ⟨_, _, rfl⟩

theorem State.mergeSector_coded (sec : Nat) (h : s.failed = []) : s.Coded (s.mergeSector sec) := by
  simp only [State.mergeSector, h, List.filter_nil, List.foldl_nil]
  exact s.encodeSector_coded sec

theorem State.closeAt_coded (pa : Nat) (h : s.failed = []) : s.Coded (s.closeAt pa) := by
  unfold State.closeAt State.closeSector
  split
  · exact s.mergeSector_coded _ h
  · exact .rfl

theorem State.closeWhole_coded (pa n : Nat) (h : s.failed = []) : s.Coded (s.closeWhole pa n) := by
  unfold State.closeWhole
  split
  · exact .rfl
  · exact .foldl _ _ h fun u _ hu => u.closeAt_coded _ hu

theorem State.dropReplaced_none (whole : Bool) (pa n : Nat) (h : s.failed = []) : s.dropReplaced whole pa n = s := by
  simp [State.dropReplaced, h]

theorem State.sectorTouch_coded (wait : BitVec 16) (sec : Nat) (m : BitVec 64) (h : s.failed = []) :
    s.Coded (s.sectorTouch wait sec m) := by
  unfold State.sectorTouch
  split
  · split
    · exact s.encodeSector_coded sec
    · split
      · exact s.mergeSector_coded sec h
      · split
        · dsimp only
          split
          · exact s.encodeSector_coded sec
          · exact ⟨_, _, rfl⟩
        · dsimp only
          refine State.Coded.trans (t := match s.wcs.filter (fun x => stackOf x.sector == stackOf sec) with
            | e :: _ => if 4096 ≤ (s.wcs.filter (fun x => stackOf x.sector == stackOf sec)).length then s.mergeSector e.sector else s
            | [] => s) ?_ ⟨_, _, rfl⟩
          split
          · split
            · exact s.mergeSector_coded _ h
            · exact .rfl
          · exact .rfl
  · exact .rfl

theorem State.touchMask_coded (wait : BitVec 16) (sec : Nat) (m : BitVec 64) (h : s.failed = []) :
    s.Coded (s.touchMask wait sec m) := s.sectorTouch_coded _ _ _ h

theorem State.touchSectors_coded (wait : BitVec 16) (pa n : Nat) (h : s.failed = []) :
    s.Coded (s.touchSectors wait pa n) := .foldl _ _ h fun u _ hu => u.touchMask_coded _ _ _ hu

theorem State.replaceLine_coded (line : Nat) (m : BitVec 64) (h : s.failed = []) : s.Coded (s.replaceLine line m) := by
  unfold State.replaceLine
  split
  · have hc := s.closeWhole_coded (line * 64) 64 h
    rwa [State.dropReplaced_none _ _ _ _ (hc.failed.trans h)]
  · exact .rfl

theorem State.beforePut_coded (whole : Bool) (pa n : Nat) (h : s.failed = []) : s.Coded (s.beforePut whole pa n) := by
  have hc := s.closeWhole_coded pa n h
  have hf := hc.failed.trans h
  unfold State.beforePut
  rwa [State.dropReplaced_none _ _ _ _ hf, State.meetFailures_none _ _ _ hf]

theorem State.byteAt_of_mem (x : Nat) (h : ∀ d off, regionOf x ≠ .control d off) : s.byteAt x = memAt s.mem x := by
  unfold State.byteAt
  split
  · exact absurd ‹_› (h _ _)
  · rfl

/-- The sector code and its open entries are read by no byte of memory. -/
theorem State.Coded.bytesAt {s t : State} (h : s.Coded t) (pa n : Nat) : t.bytesAt pa n = s.bytesAt pa n := by
  obtain ⟨a, b, h⟩ := h
  subst h; exact Eq.refl _

theorem State.putBytes_coded (whole : Bool) (pa : Nat) (data : List Byte) (h : s.failed = []) :
    State.Coded { s with mem := if takesBytes pa then memSetBytes s.mem pa data else s.mem } (s.putBytes whole pa data) := by
  obtain ⟨a, b, hb⟩ := s.beforePut_coded whole pa data.length h
  unfold State.putBytes takesBytes
  rw [hb]
  cases regionOf pa <;> exact ⟨_, _, Eq.refl _⟩

/-- A write event where no failure is met. -/
theorem State.writeEvent_coded (whole : Bool) (pos : Nat) (ag : Agent) (doms : List Domain) (pa : Nat) (data : List Byte)
    (h : s.failed = []) :
    State.Coded { s with mem := if takesBytes pa then memSetBytes s.mem pa data else s.mem,
                         writes := s.writes ++ [⟨pos, ag, pa, data, s.bytesAt pa data.length, doms⟩] }
      (s.writeEvent whole pos ag doms pa data) := by
  obtain ⟨a, b, hb⟩ := s.beforePut_coded whole pa data.length h
  obtain ⟨c, d, hd⟩ := (s.beforePut whole pa data.length).putBytes_coded whole pa data (by rw [hb]; exact h)
  unfold State.writeEvent
  dsimp only
  rw [hd, hb]
  exact ⟨c, d, Eq.refl _⟩

theorem State.Put.of_coded {s u t : State} {ag : Agent} {doms : List Domain} {pa : Nat} {data : List Byte} (hc : s.Coded u)
    (h : u.Put t ag doms pa data) : s.Put t ag doms pa data := by
  obtain ⟨a, b, hc⟩ := hc
  subst hc
  exact h

theorem State.Put.coded {s u t : State} {ag : Agent} {doms : List Domain} {pa : Nat} {data : List Byte} (hc : u.Coded t)
    (h : s.Put u ag doms pa data) : s.Put t ag doms pa data := by
  obtain ⟨a, b, hc⟩ := hc
  subst hc
  exact ⟨h.1, by rw [h.2]⟩

/-- A write event at the next position, where no failure is met, and the sector code after it. -/
theorem State.putAt_put (whole : Bool) (ag : Agent) (pa : Nat) (data : List Byte) (hw : Memory.wf s.mem = true)
    (h : s.failed = []) (hp : takesBytes pa = true) :
    s.Put (State.putAt { s with pos := s.pos + 1 } whole s.pos ag pa data) ag [.system] pa data := by
  have he := State.writeEvent_coded { s with pos := s.pos + 1 } whole s.pos ag [.system] pa data h
  have ht := State.touchSectors_coded _ (State.wcWait { s with pos := s.pos + 1 } ag) pa data.length (he.failed.trans h)
  refine .coded (he.trans ht) ⟨fun x hx => ?_, rfl⟩
  rw [State.byteAt_of_mem _ _ hx, State.byteAt_of_mem _ _ hx, if_pos hp]
  exact memAt_memSetBytes s.mem pa x data hw

/-- A write of an operation performed at a word's home, where no failure is met (R69, R89). -/
theorem State.homePut_put (whole : Bool) (ag : Agent) (pa : Nat) (data : List Byte) (hw : Memory.wf s.mem = true)
    (h : s.failed = []) (hp : takesBytes pa = true) : s.Put (s.homePut whole ag pa data) ag [.system] pa data := by
  have hc := s.closeAt_coded pa h
  refine .of_coded hc ((s.closeAt pa).putAt_put whole ag pa data ?_ (hc.failed.trans h) hp)
  obtain ⟨a, b, hc⟩ := hc
  rw [hc]; exact hw

end Sys2Proof.Machine
end

