-- ==== Sys2Proof/Laws/Boundary.lean ====
section
/-! SUPPORT. What a phase boundary does where no failure is met (R86-R90): the held stores published in order at one position,
the task's record of them emptied, and nothing else; what keeps the task and the position. -/

namespace Sys2Proof.Machine


/-- The byte a list of held stores gives: the latest store of it. -/
theorem heldByte_cons (h : HeldStore) (l : List HeldStore) (x : Nat) :
    heldByte (h :: l) x = match heldByte l x with
      | some b => some b
      | none => if h.pa ≤ x ∧ x < h.pa + h.data.length then some (h.data.getD (x - h.pa) 0) else none := by
  unfold heldByte
  rw [List.filter_cons]
  by_cases hx : h.pa ≤ x ∧ x < h.pa + h.data.length
  · rw [if_pos (by simpa using hx), if_pos hx]
    cases hl : l.filter fun h => decide (h.pa ≤ x ∧ x < h.pa + h.data.length) with
    | nil => rfl
    | cons k r => rw [List.getLast?_cons_cons]; cases hk : (k :: r).getLast? with
      | none => simp at hk
      | some z => rfl
  · rw [if_neg (by simpa using hx), if_neg hx]
    cases (l.filter fun h => decide (h.pa ≤ x ∧ x < h.pa + h.data.length)).getLast? <;> rfl

/-- What publishing held stores one after another leaves: their events, their bytes, the writes of the control space put on the
agenda. -/
structure Published (s t : State) (l : List HeldStore) (pos : Nat) (a : Agent) (doms : List Domain) : Prop where
  wf : Memory.wf t.mem = true
  failed : t.failed = s.failed
  eq : ∃ evs : List WriteEvent, (evs.map fun e => (e.pos, e.agent, e.pa, e.data, e.domains)) =
        (l.filter (!·.toControl)).map (fun h => (pos, a, h.pa, h.data, doms)) ∧
      t = { s with mem := t.mem, sectors := t.sectors, wcs := t.wcs, writes := s.writes ++ evs,
                   agenda := s.agenda ++ (l.filter (·.toControl)).flatMap fun h => controlEvents a.writer h.pa h.data }
  bytes : ∀ x, (∀ h ∈ l, h.pa ≤ x → x < h.pa + h.data.length → takesBytes h.pa = true) →
      memAt t.mem x = (heldByte l x).getD (memAt s.mem x)

/-- Publishing held stores in order (R88, R90). -/
theorem publish_all (s : State) (l : List HeldStore) (pos : Nat) (a : Agent) (doms : List Domain) (hw : Memory.wf s.mem = true)
    (hf : s.failed = []) : Published s (l.foldl (fun s h => s.publishOne pos a doms h) s) l pos a doms := by
  induction l generalizing s with
  | nil => exact ⟨hw, rfl, ⟨[], rfl, by simp⟩, fun x _ => rfl⟩
  | cons h l ih =>
    rw [List.foldl_cons]
    by_cases hc : h.toControl = true
    · have e1 : s.publishOne pos a doms h = s.push (controlEvents a.writer h.pa h.data) := by
        unfold State.publishOne; unfold HeldStore.toControl at hc; split
        · rfl
        · split at hc
          · simp_all
          · simp at hc
      have nt : takesBytes h.pa = false := by
        unfold takesBytes; unfold HeldStore.toControl at hc; cases hr : regionOf h.pa <;> simp_all
      rw [e1]
      obtain ⟨w, f, ⟨evs, he, ht⟩, hb⟩ := ih (s.push (controlEvents a.writer h.pa h.data)) hw hf
      refine ⟨w, f, ⟨evs, by simpa [List.filter_cons, hc] using he, ?_⟩, fun x hx => ?_⟩
      · rw [ht]; simp [hc, State.push]
      · rw [hb x fun k hk => hx k (List.mem_cons_of_mem _ hk), heldByte_cons]
        have : ¬ (h.pa ≤ x ∧ x < h.pa + h.data.length) := fun q => by
          have := hx h List.mem_cons_self q.1 q.2; rw [nt] at this; cases this
        rw [if_neg this]; cases heldByte l x <;> rfl
    · have e1 : s.publishOne pos a doms h = s.writeEvent false pos a doms h.pa h.data := by
        unfold State.publishOne; unfold HeldStore.toControl at hc; split
        · simp_all
        · rfl
      obtain ⟨b, c, hwe⟩ := s.writeEvent_coded false pos a doms h.pa h.data hf
      rw [e1, hwe]
      obtain ⟨m, hm⟩ : ∃ m, m = (if takesBytes h.pa = true then memSetBytes s.mem h.pa h.data else s.mem) := ⟨_, rfl⟩
      rw [← hm]
      have hmw : Memory.wf m = true := by rw [hm]; split; exact memSetBytes_wf _ _ _ hw; exact hw
      obtain ⟨w, f, ⟨evs, he, ht⟩, hb⟩ := ih { s with mem := m, writes := s.writes ++ [⟨pos, a, h.pa, h.data, s.bytesAt h.pa h.data.length, doms⟩], sectors := b, wcs := c } hmw hf
      refine ⟨w, f, ⟨⟨pos, a, h.pa, h.data, s.bytesAt h.pa h.data.length, doms⟩ :: evs, by simpa [List.filter_cons,
          hc] using he, ?_⟩, fun x hx => ?_⟩
      · rw [ht]; simp [hc]
      · rw [hb x fun k hk => hx k (List.mem_cons_of_mem _ hk), heldByte_cons]
        by_cases q : h.pa ≤ x ∧ x < h.pa + h.data.length
        · rw [if_pos q]; dsimp only; rw [hm, if_pos (hx h List.mem_cons_self q.1 q.2), memAt_memSetBytes _ _ _ _ hw, if_pos q]
          cases heldByte l x <;> rfl
        · rw [if_neg q]; dsimp only; rw [hm]
          have : memAt (if takesBytes h.pa = true then memSetBytes s.mem h.pa h.data else s.mem) x = memAt s.mem x := by
            split
            · rw [memAt_memSetBytes _ _ _ _ hw, if_neg q]
            · rfl
          rw [this]; cases heldByte l x <;> rfl

/-- Events that are settled for a domain already. -/
theorem settleFor_new (evs : List WriteEvent) (l : List HeldStore) (pos a dom) (h : (evs.map fun e => (e.pos, e.agent, e.pa,
    e.data, e.domains)) =
        l.map (fun h => (pos, a, h.pa, h.data, [dom]))) : evs.map (settleFor a dom) = evs := by
  induction evs generalizing l with
  | nil => rfl
  | cons e es ih =>
    cases l with
    | nil => simp at h
    | cons k l =>
      simp only [List.map_cons, List.cons.injEq, Prod.mk.injEq] at h
      rw [List.map_cons, ih l h.2]
      congr 1
      unfold settleFor; rw [if_neg]; rw [h.1.2.2.2.2]; simp

/-- A fold of operations that keep the task and the position. -/
theorem foldl_keep {β : Type} (f : State → β → State) (l : List β) (s : State) (hf : ∀ (u : State) b, (f u b).task = u.task ∧
    (f u b).pos = u.pos) :
    (l.foldl f s).task = s.task ∧ (l.foldl f s).pos = s.pos := by
  induction l generalizing s with
  | nil => exact ⟨rfl, rfl⟩
  | cons b l ih => exact ⟨(ih _).1.trans (hf s b).1, (ih _).2.trans (hf s b).2⟩

theorem State.meetFailure_keep (u : State) (f) : (u.meetFailure f).task = u.task ∧ (u.meetFailure f).pos = u.pos := by
  unfold State.meetFailure
  have h := foldl_keep (fun s k => s.setFull ((unitOf f).1 + 8 * k) false) (List.range ((unitOf f).2 / 8)) { u.scrub (unitOf f).1 (unitOf f).2 with failed := u.failed.filter (· != f) }
    (fun u b => by unfold State.setFull; split <;> exact ⟨rfl, rfl⟩)
  exact ⟨h.1, h.2⟩
theorem State.mergeSector_keep (u : State) (x) : (u.mergeSector x).task = u.task ∧ (u.mergeSector x).pos = u.pos :=
  foldl_keep _ _ _ State.meetFailure_keep
theorem State.closeAt_keep (u : State) (x) : (u.closeAt x).task = u.task ∧ (u.closeAt x).pos = u.pos := by
  unfold State.closeAt State.closeSector; split
  · exact State.mergeSector_keep _ _
  · exact ⟨rfl, rfl⟩
theorem State.beforePut_keep (u : State) (w pa n) : (u.beforePut w pa n).task = u.task ∧ (u.beforePut w pa n).pos = u.pos := by
  unfold State.beforePut State.meetFailures State.dropReplaced State.closeWhole
  have h1 : ∀ v : State, v = (if u.wcs = [] then u else ((sectorsOf pa n).filter fun sec => decide (pa ≤ sec * 64 ∧
      sec * 64 + 64 ≤ pa + n)).foldl (fun s sec => s.closeAt (sec * 64)) u) →
     v.task = u.task ∧ v.pos = u.pos := by
    rintro v rfl; split
    · exact ⟨rfl, rfl⟩
    · exact foldl_keep _ _ _ fun u b => State.closeAt_keep u _
  obtain ⟨v, hv⟩ : ∃ v, v = (if u.wcs = [] then u else ((sectorsOf pa n).filter fun sec => decide (pa ≤ sec * 64 ∧
      sec * 64 + 64 ≤ pa + n)).foldl (fun s sec => s.closeAt (sec * 64)) u) := ⟨_, rfl⟩
  have h2 := h1 v hv
  dsimp only
  rw [← hv]
  have h3 := foldl_keep (fun s f => { s.scrub (unitOf f).1 (unitOf f).2 with failed := s.failed.filter (· != f) }) (v.failed.filter (v.replaces w pa n)) v (fun _ _ => ⟨rfl, rfl⟩)
  obtain ⟨z, hz⟩ : ∃ z, z = List.foldl (fun s f => { s.scrub (unitOf f).1 (unitOf f).2 with failed := s.failed.filter (· != f) }) v (v.failed.filter (v.replaces w pa n)) := ⟨_, rfl⟩
  rw [← hz] at h3 ⊢
  have h4 := foldl_keep State.meetFailure (z.failedIn pa n) z State.meetFailure_keep
  exact ⟨h4.1.trans (h3.1.trans h2.1), h4.2.trans (h3.2.trans h2.2)⟩
theorem State.putBytes_keep (u : State) (w pa d) : (u.putBytes w pa d).task = u.task ∧ (u.putBytes w pa d).pos = u.pos := by
  unfold State.putBytes; split
  · exact ⟨rfl, rfl⟩
  · exact ⟨rfl, rfl⟩
  · exact State.beforePut_keep _ _ _ _
theorem State.writeEvent_keep (u : State) (w p a ds pa d) : (u.writeEvent w p a ds pa d).task = u.task ∧
    (u.writeEvent w p a ds pa d).pos = u.pos := by
  unfold State.writeEvent
  have h1 := State.beforePut_keep u w pa d.length
  have h2 := State.putBytes_keep (u.beforePut w pa d.length) w pa d
  exact ⟨h2.1.trans h1.1, h2.2.trans h1.2⟩
theorem State.sectorTouch_keep (u : State) (w x m) : (u.sectorTouch w x m).task = u.task ∧ (u.sectorTouch w x m).pos = u.pos := by
  unfold State.sectorTouch
  split
  · split
    · exact ⟨rfl, rfl⟩
    · split
      · exact State.mergeSector_keep _ _
      · split
        · dsimp only; split <;> exact ⟨rfl, rfl⟩
        · dsimp only; split
          · split
            · exact State.mergeSector_keep _ _
            · exact ⟨rfl, rfl⟩
          · exact ⟨rfl, rfl⟩
  · exact ⟨rfl, rfl⟩
theorem State.touchMask_keep (u : State) (w x m) : (u.touchMask w x m).task = u.task ∧
    (u.touchMask w x m).pos = u.pos := State.sectorTouch_keep _ _ _ _
theorem State.replaceLine_keep (u : State) (l m) : (u.replaceLine l m).task = u.task ∧ (u.replaceLine l m).pos = u.pos := by
  unfold State.replaceLine
  split
  · have h1 : (u.closeWhole (l * 64) 64).task = u.task ∧ (u.closeWhole (l * 64) 64).pos = u.pos := by
      unfold State.closeWhole; split
      · exact ⟨rfl, rfl⟩
      · exact foldl_keep _ _ _ fun u b => State.closeAt_keep u _
    have h2 : ∀ v : State, (v.dropReplaced false (l * 64) 64).task = v.task ∧ (v.dropReplaced false (l * 64) 64).pos = v.pos := by
      intro v; unfold State.dropReplaced
      exact foldl_keep (fun s f => { s.scrub (unitOf f).1 (unitOf f).2 with failed := s.failed.filter (· != f) }) _ _ (fun _ _ => ⟨rfl, rfl⟩)
    exact ⟨(h2 _).1.trans h1.1, (h2 _).2.trans h1.2⟩
  · exact ⟨rfl, rfl⟩
theorem State.publishOne_keep (u : State) (p a ds h) : (u.publishOne p a ds h).task = u.task ∧
    (u.publishOne p a ds h).pos = u.pos := by
  unfold State.publishOne; split
  · exact ⟨rfl, rfl⟩
  · exact State.writeEvent_keep _ _ _ _ _ _ _

/-- A boundary before the waiters it may satisfy are served. -/
def State.beforeServe (s : State) (sc : Scope) : State :=
  let t := s.task
  let a : Agent := .task t.key
  let dom := sc.domain t.core
  let lines := heldLines t.held
  let (pos, s) := (lines.foldl (fun s l => s.replaceLine l (lineMask t.held l)) s).nextPos
  let s := t.held.foldl (fun s h => s.publishOne pos a [dom] h) s
  let s := lines.foldl (fun s l => s.touchMask (BitVec.ofNat 16 t.wcwait.toNat) l (lineMask t.held l)) s
  let s := { s with writes := s.writes.map (settleFor a dom) }
  let usc := match sc with
    | .die | .system => 0
    | _ => t.usc + BitVec.ofNat 64 lines.length
  (s.setTask fun t => { t with held := [], snapshot := pos, usc := usc })

/-- Everything a boundary does, before the waiters it may satisfy are served (R86-R90). -/
theorem State.boundary_effect (u : State) (sc : Scope) : ∃ v : State, u.boundary sc = v.serve ∧ v.pos = u.pos + 1 ∧
    v.task = { u.task with held := [], snapshot := u.pos, usc := if sc = .die ∨ sc = .system then 0
      else u.task.usc + BitVec.ofNat 64 (heldLines u.task.held).length } ∧
    (u.failed = [] → Memory.wf u.mem = true → ∀ dom, dom = sc.domain u.task.core →
      (∃ evs : List WriteEvent, (evs.map fun e => (e.pos, e.agent, e.pa, e.data, e.domains)) =
          (u.task.held.filter (!·.toControl)).map (fun h => (u.pos, .task u.task.key, h.pa, h.data, [dom])) ∧
        v = { u with
          task := v.task, pos := v.pos, mem := v.mem, sectors := v.sectors, wcs := v.wcs,
          writes := (u.writes.map fun e => if e.agent = .task u.task.key ∧ dom ∉ e.domains
            then { e with domains := e.domains ++ [dom] } else e) ++ evs,
          agenda := u.agenda ++ (u.task.held.filter (·.toControl)).flatMap fun h =>
            controlEvents (Agent.task u.task.key).writer h.pa h.data }) ∧
      ∀ x, (∀ d off, regionOf x ≠ .control d off) →
        (∀ h ∈ u.task.held, h.pa ≤ x → x < h.pa + h.data.length → takesBytes h.pa = true) →
        v.byteAt x = (heldByte u.task.held x).getD (u.byteAt x)) := by
  refine ⟨State.beforeServe u sc, rfl, ?_⟩
  obtain ⟨a0, ha0⟩ : ∃ a0, a0 = (heldLines u.task.held).foldl (fun s l => s.replaceLine l (lineMask u.task.held l)) u := ⟨_, rfl⟩
  obtain ⟨a1, ha1⟩ : ∃ a1, a1 = u.task.held.foldl (fun s h => s.publishOne a0.pos (.task u.task.key) [sc.domain u.task.core] h) { a0 with pos := a0.pos + 1 } := ⟨_, rfl⟩
  obtain ⟨a2, ha2⟩ : ∃ a2, a2 = (heldLines u.task.held).foldl (fun s l => s.touchMask (BitVec.ofNat 16 u.task.wcwait.toNat) l (lineMask u.task.held l)) a1 := ⟨_, rfl⟩
  have k0 : a0.task = u.task ∧ a0.pos = u.pos := by rw [ha0]; exact foldl_keep _ _ _ fun u b => State.replaceLine_keep u _ _
  have k1 : a1.task = u.task ∧ a1.pos = u.pos + 1 := by
    rw [ha1, k0.2]; have := foldl_keep (fun s h => State.publishOne s u.pos (.task u.task.key) [sc.domain u.task.core] h) u.task.held { a0 with pos := u.pos + 1 } (fun v b => State.publishOne_keep v _ _ _ _)
    exact ⟨this.1.trans k0.1, this.2⟩
  have k2 : a2.task = u.task ∧ a2.pos = u.pos + 1 := by
    rw [ha2]; have := foldl_keep (fun s l => State.touchMask s (BitVec.ofNat 16 u.task.wcwait.toNat) l (lineMask u.task.held l)) (heldLines u.task.held) a1 (fun v b => State.touchMask_keep v _ _ _)
    exact ⟨this.1.trans k1.1, this.2.trans k1.2⟩
  have hp : State.beforeServe u sc = ({ a2 with writes := a2.writes.map (settleFor (.task u.task.key) (sc.domain u.task.core)) } : State).setTask fun t =>
     { t with held := [], snapshot := u.pos, usc := if sc = .die ∨ sc = .system then 0 else u.task.usc + BitVec.ofNat 64 (heldLines u.task.held).length } := by
    rw [ha2, ha1, ← k0.2, ha0]; cases sc <;> rfl
  rw [hp]
  refine ⟨k2.2, ?_, ?_⟩
  · show ({ a2.task with held := _, snapshot := _, usc := _ } : Task) = _
    rw [k2.1]
  intro hf hw dom hdom
  subst hdom
  have c0 : u.Coded a0 := by rw [ha0]; exact .foldl _ _ hf fun u _ h => u.replaceLine_coded _ _ h
  have p1 : Published { a0 with pos := a0.pos + 1 } a1 u.task.held u.pos (.task u.task.key) [sc.domain u.task.core] := by
    rw [ha1, k0.2]; refine publish_all _ _ _ _ _ ?_ ?_
    · obtain ⟨x, y, h⟩ := c0; rw [h]; exact hw
    · exact c0.failed.trans hf
  have c2 : a1.Coded a2 := by
    rw [ha2]; exact .foldl _ _ (p1.failed.trans (c0.failed.trans hf)) fun u _ h => u.touchMask_coded _ _ _ h
  obtain ⟨x0, y0, c0⟩ := c0
  obtain ⟨x2, y2, c2⟩ := c2
  obtain ⟨w, f, ⟨evs, he, ht⟩, hb⟩ := p1
  refine ⟨⟨evs, he, ?_⟩, fun x hx hh => ?_⟩
  · have hs : ∀ l : List WriteEvent, (l ++ evs).map (settleFor (.task u.task.key) (sc.domain u.task.core)) =
        (l.map fun e => if e.agent = .task u.task.key ∧ sc.domain u.task.core ∉ e.domains
              then { e with domains := e.domains ++ [sc.domain u.task.core] } else e) ++ evs := by
      intro l; rw [List.map_append, settleFor_new evs _ _ _ _ he]; rfl
    rw [c2, ht, c0]
    simp only [State.setTask]
    rw [hs]
  · have := hb x hh
    rw [State.byteAt_of_mem _ _ hx, State.byteAt_of_mem _ _ hx]
    show memAt a2.mem x = _
    rw [c2]; show memAt a1.mem x = _
    rw [this, c0]

/-- What changing bytes at their home does, where no failure is left after those in them are met (R54, R80, R110). -/
theorem homeUpdate_put (u z : State) (pa n : Nat) (f : Nat → Nat) (hz : z = u.meetFailures pa n) (hw : Memory.wf z.mem = true)
    (hf : z.failed = []) (hp : takesBytes pa = true) :
    ∃ t, Gives (homeUpdate pa n f) u (leNat (z.bytesAt pa n)) t ∧
      z.Put t (.task u.task.key) [.system] pa (leBytes n (f (leNat (z.bytesAt pa n)))) := by
  have hk : z.task = u.task := by rw [hz]; exact (foldl_keep _ _ _ State.meetFailure_keep).1
  refine ⟨z.homePut false (.task u.task.key) pa (leBytes n (f (leNat (z.bytesAt pa n)))), ?_, State.homePut_put _ _ _ _ _ hw hf hp⟩
  rw [← hk, hz]; rfl

/-- What adding to a counter does, where no failure is left after those in it are met (R97). -/
theorem State.counterPut_put (u z : State) (a : Agent) (pa : Nat) (n : W64) (v : Nat) (hz : z = u.meetFailures pa 8)
    (hw : Memory.wf z.mem = true) (hf : z.failed = []) (hp : takesBytes pa = true) (hv : v = (z.wordAt pa).toNat + n.toNat) :
    ∃ w, z.Put w a [.system] pa (leBytes 8 (min v (2 ^ 64 - 1))) ∧
      (v < 2 ^ 64 → u.counterPut a pa n = w) ∧
      (2 ^ 64 ≤ v → u.counterPut a pa n = w.setFull pa true ∧ (hasFullBits pa = true →
          (u.counterPut a pa n).isFull pa = true)) := by
  subst hv
  refine ⟨_, State.homePut_put _ false _ _ _ hw hf hp, fun h => ?_, fun h => ?_⟩
  · unfold State.counterPut; rw [← hz]; dsimp only; rw [if_pos h, Nat.min_eq_left (by omega)]
  · have : u.counterPut a pa n =
        (z.homePut false a pa (leBytes 8 (min ((z.wordAt pa).toNat + n.toNat) (2 ^ 64 - 1)))).setFull pa true := by
      unfold State.counterPut; rw [← hz]; dsimp only; rw [if_neg (by omega), Nat.min_eq_right (by omega)]
    refine ⟨this, fun hb => ?_⟩
    rw [this]; unfold State.setFull State.isFull; rw [if_pos hb]
    simp [insertNat_mem]

/-- A full/empty bit belongs to its word alone (R76, R77). -/
theorem State.setFull_effect (u : State) (pa : Nat) (b : Bool) (h : hasFullBits pa = true) :
    (∀ x, (u.setFull pa b).isFull x = if x / 8 = pa / 8 then b else u.isFull x) ∧
    ({ u.setFull pa b with full := u.full } : State) = u := by
  unfold State.setFull State.isFull
  rw [if_pos h]
  refine ⟨fun x => Bool.eq_iff_iff.mpr ?_, rfl⟩
  cases b <;> by_cases hx : x / 8 = pa / 8
  · simp [hx]
  · simp [hx] <;> omega
  · simp [hx, insertNat_mem]
  · simp [hx, insertNat_mem] <;> omega

/-- With no waiter ready, serving changes nothing (R78). -/
theorem State.serve_none (u : State) (h : u.waiters.find? u.waiterReady = none) : u.serve = u := by
  unfold State.serve
  cases u.waiters.length with
  | zero => rfl
  | succ n => unfold State.serveN; rw [h]

end Sys2Proof.Machine
end

