-- ==== Sys2Proof/Laws/Ops.lean ====
section
/-! SUPPORT. The shape of one instruction: how an operation runs, how `issue` ends, what operand accesses do. -/

namespace Sys2Proof.Machine

section operations
variable {α β : Type} {s s1 : State}

theorem bind_ok {m : M α} {f : α → M β} {x : α} (h : m s = .ok x s1) : (m >>= f) s = f x s1 := by
  show EStateM.bind m f s = _
  unfold EStateM.bind
  rw [h]

theorem bind_error {m : M α} {f : α → M β} {e : Exc} (h : m s = .error e s1) : (m >>= f) s = .error e s1 := by
  show EStateM.bind m f s = _
  unfold EStateM.bind
  rw [h]

@[simp] theorem pure_run (x : α) : (pure x : M α) s = .ok x s := rfl
@[simp] theorem get_run : (get : M State) s = .ok s s := rfl
@[simp] theorem upd_run (f : State → State) : upd f s = .ok () (f s) := rfl
@[simp] theorem runS_run (f : State → α × State) : runS f s = .ok (f s).1 (f s).2 := rfl
@[simp] theorem raise_run (c : BitVec 8) (v : W64) : (raise c v : M α) s = .error (.trap c v) s := rfl
@[simp] theorem need_run (c : BitVec 8) (v : W64) : need true c v s = .ok () s := rfl
@[simp] theorem need_fails (c : BitVec 8) (v : W64) : need false c v s = .error (.trap c v) s := rfl
@[simp] theorem get_bind (f : State → M α) : (get >>= f : M α) s = f s s := rfl
@[simp] theorem pure_bind_run (x : β) (f : β → M α) : (pure x >>= f : M α) s = f x s := rfl
@[simp] theorem upd_bind (f : State → State) (g : Unit → M α) : (upd f >>= g : M α) s = g () (f s) := rfl

theorem need_of {c : Bool} {k : BitVec 8} {v : W64} (h : c = true) : need c k v s = .ok () s := by subst h; rfl

theorem checkSrc_of {x : Spec} (h : scalarSrcOk s.task.core x = true) : checkSrc x s = .ok () s := need_of h
theorem checkDst_of {x : Spec} (h : scalarDstOk s.task.core x = true) : checkDst x s = .ok () s := need_of h

end operations

section issue
variable {k : CoreClass} {a : HintSet} {i : Instr} {body : M Next} {s s' : State}

/-- An instruction whose work succeeds. -/
theorem issue_ok {nx : Next} (he : s.Enabled k a) (hb : Gives body s nx s') : issue k a i body s = .next (s.ends s' nx) := by
  obtain ⟨h1, h2, h3⟩ := he
  unfold issue State.run State.carryOut
  simp only [h1, h2, h3, Bool.and_self, Bool.not_true, Bool.false_eq_true, if_false]
  rw [show body s = _ from hb]
  rfl

/-- An instruction whose work ends in a trap. -/
theorem issue_trap {c : BitVec 8} {v : W64} (he : s.Enabled k a) (hb : body s = .error (.trap c v) s') :
    issue k a i body s = .next ((s'.restoreQueues s).takeTrap c v s.task.pc) := by
  obtain ⟨h1, h2, h3⟩ := he
  unfold issue State.run State.carryOut
  simp only [h1, h2, h3, Bool.and_self, Bool.not_true, Bool.false_eq_true, if_false]
  rw [hb]

/-- An instruction that stops to be issued again. -/
theorem issue_stall (he : s.Enabled k a) (hb : body s = .error .stall s') : issue k a i body s = .next (s.stays s') := by
  obtain ⟨h1, h2, h3⟩ := he
  unfold issue State.run State.carryOut
  simp only [h1, h2, h3, Bool.and_self, Bool.not_true, Bool.false_eq_true, if_false]
  rw [hb]
  rfl

/-- An instruction whose guard is false. -/
theorem issue_guarded (h1 : k.allows s.task.core = true) (h2 : a.allows s.task.hints = true) (h3 : s.task.guard = false) :
    issue k a i body s = .next (s.setTask fun t => { t with hints := {}, pc := t.pc + 4, stalled := false }) := by
  unfold issue State.run State.carryOut
  simp [h1, h2, h3]

/-- An instruction that this core or its hints refuse. -/
theorem issue_illegal (h : (k.allows s.task.core && a.allows s.task.hints) = false) :
    issue k a i body s = .next (s.takeTrap 0x00 (BitVec.ofNat 64 ((encode i).getD 0)) s.task.pc) := by
  unfold issue State.run State.carryOut
  simp only [h, Bool.not_false, if_true]

end issue

section ends
variable (s s' : State)

theorem State.serveQueues_of (h : s'.queues = s.queues) (hf : s'.failed = s.failed) :
    s'.serveQueues s = s' := by
  unfold State.serveQueues
  rw [if_pos ⟨h, hf⟩]

theorem State.restoreQueues_of (h : s'.queues = s.queues) : s'.restoreQueues s = s' := by
  unfold State.restoreQueues
  rw [if_pos h]

@[simp] theorem State.applyLive_none (h : Hints) (hl : h.hlive = none) : s.applyLive h = s := by
  unfold State.applyLive; rw [hl]

/-- The next word: nothing but the hints and the pc changes. -/
theorem State.ends_seq (hl : s.task.hints.hlive = none) (hq : s'.queues = s.queues)
    (hf : s'.failed = s.failed) :
    s.ends s' .seq = s'.setTask fun t => { t with hints := {}, pc := s.task.pc + 4, stalled := false } := by
  show ((s'.setTask _).applyLive _).serveQueues s = _
  rw [State.applyLive_none _ _ hl]
  exact State.serveQueues_of _ _ hq hf

/-- A target: nothing but the hints and the pc changes. -/
theorem State.ends_goto (pc : W64) (hl : s.task.hints.hlive = none) (hq : s'.queues = s.queues)
    (hf : s'.failed = s.failed) :
    s.ends s' (.goto pc) = s'.setTask fun t => { t with hints := {}, pc := pc, stalled := false } := by
  show ((s'.setTask _).applyLive _).serveQueues s = _
  rw [State.applyLive_none _ _ hl]
  exact State.serveQueues_of _ _ hq hf

/-- An operation that has put the state where it belongs. -/
theorem State.ends_gone (hq : s'.queues = s.queues) (hf : s'.failed = s.failed) : s.ends s' .gone = s' :=
  State.serveQueues_of _ _ hq hf

end ends

section operands
variable {s : State} {x : Spec}

theorem readScalar_reg (h : x.toNat < 32) :
    readScalar x s = .ok (s.task.reg x.toNat) (s.setTask (·.arrive x)) := by
  unfold readScalar
  rw [if_pos h]
  rfl

theorem State.destReady_reg (key : Nat) (h : x.toNat < 32) : s.destReady key x = true := by
  unfold State.destReady
  rw [if_pos (by omega)]

theorem writeScalar_reg (v : W64) (h : x.toNat < 32) :
    writeScalar x v s = .ok () (s.setTask fun t => (t.arrive x).setG x.toNat v) := by
  unfold writeScalar
  simp only [h, if_true, upd_bind, get_bind, State.destReady_reg _ h, if_true, upd_run, State.setTask_task]
  unfold State.writeDest
  rw [if_pos h]
  unfold State.updTask
  simp [State.setTask]

theorem scalarSrcOk_reg (c : CoreId) (h : x.toNat < 32) : scalarSrcOk c x = true := by
  unfold scalarSrcOk
  simp only [show x.toNat < 48 by omega, decide_true, Bool.true_or]

theorem scalarDstOk_reg (c : CoreId) (h : x.toNat < 32) : scalarDstOk c x = true := by
  unfold scalarDstOk
  simp only [h, decide_true, Bool.true_or]

end operands

end Sys2Proof.Machine
end

