-- ==== Sys2Proof/Laws/Exec.lean ====
section
/-! SUPPORT. What every instruction and every event has in common: it answers a next state, and an instruction word is
`issue` of its own body under the gate of its group. -/

namespace Sys2Proof.Machine

set_option maxHeartbeats 2000000 in
/-- An instruction word runs behind its gate. -/
theorem exec_gate (i : Instr) {k : CoreClass} {a : HintSet} (h : gateOf i = some (k, a)) :
    ∃ body, ∀ s, exec i s = issue k a i body s := by
  cases i <;> first
    | (have h' : (none : Option (CoreClass × HintSet)) = some (k, a) := h; cases h')
    | (have h' : some (CoreClass.any, ({} : HintSet)) = some (k, a) := h; cases h'; exact ⟨_, fun _ => rfl⟩)
    | (have h' : some (CoreClass.any, ({ imm := true } : HintSet)) = some (k, a) := h; cases h'; exact ⟨_, fun _ => rfl⟩)
    | (have h' : some (CoreClass.any, ({ ord := true } : HintSet)) = some (k, a) := h; cases h'; exact ⟨_, fun _ => rfl⟩)
    | (have h' : some (CoreClass.any, ({ pri := true } : HintSet)) = some (k, a) := h; cases h'; exact ⟨_, fun _ => rfl⟩)
    | (have h' : some (CoreClass.any, ({ ord := true, ordKey := true, pri := true } : HintSet)) = some (k, a) := h
       cases h'; exact ⟨_, fun _ => rfl⟩)
    | (have h' : some (CoreClass.lane, ({} : HintSet)) = some (k, a) := h; cases h'; exact ⟨_, fun _ => rfl⟩)
    | (have h' : some (CoreClass.issuer, ({} : HintSet)) = some (k, a) := h; cases h'; exact ⟨_, fun _ => rfl⟩)

theorem issueHint_next (i : Instr) (p : Hints → Bool) (f : Hints → Hints) (s : State) : ∃ t, issueHint i p f s = .next t := by
  unfold issueHint
  split <;> exact ⟨_, rfl⟩

/-- Every instruction and event answers a next state. -/
theorem exec_next (i : Instr) (s : State) : ∃ t, exec i s = .next t := by
  cases i <;> first
    | exact ⟨_, rfl⟩
    | (simp only [exec, execHimm, execHlive, execHnt, execHpred, execHord, execHpri]; exact issueHint_next _ _ _ _)

/-- The step of a current task that may issue. -/
theorem step_task {s : State} (h1 : s.agenda = []) (h2 : s.task.issues = true) (h3 : s.turns < turnLength) :
    step s = stepTask { s with turns := s.turns + 1 } := by
  unfold step
  rw [h1]
  exact if_pos ⟨h2, h3⟩

end Sys2Proof.Machine
end

