-- ==== Sys2Proof/Laws/Record.lean ====
section
/-! SUPPORT. Key lists, fields of doublewords, and the doublewords of launch records: what a read finds after a write. -/

namespace Sys2Proof.Machine

section keys
variable {κ α : Type} [BEq κ] [LawfulBEq κ] (l : List (κ × α)) (k k' : κ) (v : α)

theorem lookupKey_setKey : lookupKey (setKey l k v) k = some v := by
  simp [lookupKey, setKey]

theorem lookupKey_setKey_ne (h : k' ≠ k) : lookupKey (setKey l k v) k' = lookupKey l k' := by
  have hk : (k == k') = false := by simpa using Ne.symm h
  unfold lookupKey setKey
  rw [List.find?_cons, hk]
  congr 1
  induction l with
  | nil => rfl
  | cons c l ih =>
    by_cases hc : c.1 = k
    · have h1 : (c.1 == k') = false := by simpa [hc] using Ne.symm h
      rw [List.find?_cons, h1, List.filter_cons, if_neg (by simp [hc])]
      exact ih
    · rw [List.filter_cons, if_pos (by simpa using hc), List.find?_cons, List.find?_cons]
      cases c.1 == k' with
      | true => rfl
      | false => exact ih

end keys

section fields
variable (w : W64) (v : Nat)

/-- `LIVE`, `GEN` and `CRED` of doubleword 0 after a write of `GEN`. -/
theorem fields_of_gen : fieldOf (withField w 48 16 v) 48 16 = v % 2 ^ 16 ∧ fieldOf (withField w 48 16 v) 40 8 = fieldOf w 40 8 ∧
    fieldOf (withField w 48 16 v) 32 8 = fieldOf w 32 8 := by
  unfold fieldOf withField bitsOf
  rw [BitVec.toNat_ofNat]
  have := w.isLt
  omega

/-- The same after a write of `LIVE`. -/
theorem fields_of_live : fieldOf (withField w 40 8 v) 48 16 = fieldOf w 48 16 ∧ fieldOf (withField w 40 8 v) 40 8 = v % 2 ^ 8 ∧
    fieldOf (withField w 40 8 v) 32 8 = fieldOf w 32 8 := by
  unfold fieldOf withField bitsOf
  rw [BitVec.toNat_ofNat]
  have := w.isLt
  omega

/-- The same after a write of `CRED`. -/
theorem fields_of_cred : fieldOf (withField w 32 8 v) 48 16 = fieldOf w 48 16 ∧ fieldOf (withField w 32 8 v) 40 8 = fieldOf w 40 8 ∧
    fieldOf (withField w 32 8 v) 32 8 = v % 2 ^ 8 := by
  unfold fieldOf withField bitsOf
  rw [BitVec.toNat_ofNat]
  have := w.isLt
  omega

end fields

section records
variable (s : State) (r i : Nat) (v : W64)

@[simp] theorem State.recDw_setRecDw : (s.setRecDw r i v).recDw r i = v := by
  simp [State.recDw, State.setRecDw, lookupKey_setKey]

theorem State.recDw_setRecDw_ne {r' i' : Nat} (h : recKey r' i' ≠ recKey r i) : (s.setRecDw r i v).recDw r' i' = s.recDw r' i' := by
  simp only [State.recDw, State.setRecDw]
  rw [lookupKey_setKey_ne _ _ _ _ h]

end records

end Sys2Proof.Machine
end

