-- ==== Sys2Proof/Laws/Life.lean ====
section
/-! SUPPORT. The lives of tasks and launch instances (R113, R133, R140-R155, R166, R379, R383): one lemma for each operation that
says what it does. -/

namespace Sys2Proof.Machine

/-- Serving a list of one waiter that is not ready changes nothing (R78). -/
theorem State.serve_one (u : State) (w) (h : u.waiters = [w]) (h' : u.waiterReady w = false) : u.serve = u := by
  unfold State.serve; rw [h]; show (match u.waiters.find? u.waiterReady with | none => u | some w => (u.serveWaiter w).serveN 0) = u; rw [h]; simp [h']

/-- A parked task leaves its core: only the other tasks and the agenda change (R133). -/
theorem State.leaveCore_parked (u : State) (h : u.task.status = .parked) : ∃ ts ag,
    u.leaveCore = { u with tasks := ts, agenda := ag } := by
  have hs : ∀ c, ∃ ts, u.unsuspend c = { u with tasks := ts } := by
    intro c; unfold State.unsuspend; dsimp only; split
    · exact ⟨_, rfl⟩
    · have hx : ∀ ts : List Task, ({ u with task := (if u.task.core = c ∧ u.task.status = .suspended then { u.task with status := .running } else u.task), tasks := ts } : State) = { u with tasks := ts } := by
        intro ts; rw [if_neg (by rw [h]; simp)]
      exact ⟨_, hx _⟩
  unfold State.leaveCore State.startQueued State.push
  split
  · obtain ⟨ts, h1⟩ := hs u.task.core
    rw [h1]; exact ⟨_, _, rfl⟩
  · exact ⟨_, _, rfl⟩

/-- The first waiter. -/
theorem State.addWaiter_first (u : State) (w) (h : u.waiters = []) : u.addWaiter w = { u with waiters := [w] } := by
  unfold State.addWaiter; rw [h]; rfl

/-- Parking (R166, R167): the status, the resume word's wait and the event message. -/
theorem State.park_effect : (∀ (u : State) f at_ va, va = u.task.ctx + 0xF8 →
    (∀ pa v, Gives (translate1 u.task.tctx { sync := true } va 8) u pa v → v.failed = [] → v.waiters = [] →
      ∀ supv, supv = (v.die u.task.core.die.toNat).supv.toNat → ∀ t, t = u.park f at_ →
      t.task = { v.task with status := .parked, waitOn := .resumeWord } ∧
      t.waiters = [⟨u.task.key, pa, .park ((v.wordAt pa).toNat + 1), va, 0⟩] ∧
      t.mem = v.mem ∧ t.full = v.full ∧ t.pos = v.pos ∧ t.writes = v.writes ∧
      t.sends = v.sends ++ [{
        id := v.nextId, task := u.task.key, net := 0, cls := 1, key := 0, pri := 0, asid := u.task.asid,
            jobkey := u.task.jobkey, left := 0,
        route := BitVec.ofNat 64 (u.task.core.die.toNat * 2 ^ 38 + bitsOf supv 8 6 * 2 ^ 32 + bitsOf supv 4 4 * 2 ^ 24 + bitsOf supv 16 16),
        data := [u.task.launch, BitVec.ofNat 64 (f.toNat * 2 ^ 56 + u.task.core.die.toNat * 2 ^ 48 + u.task.core.clu.toNat * 2 ^ 40 + 
          u.task.core.core.toNat * 2 ^ 32 + u.task.tid.toNat % 2 ^ 24), at_, va].flatMap fun (w : W64) => [w.setWidth 32,
              (w >>> 32).setWidth 32] }]) ∧
    (∀ c w v, translate1 u.task.tctx { sync := true } va 8 u = .error (.trap c w) v →
        u.park f at_ = v.terminate c va v.task.pc)) := by
  rintro u f at_ va rfl
  refine ⟨?_, ?_⟩
  · rintro pa v hg hf hw supv rfl t ht
    rw [Gives] at hg
    unfold State.park at ht
    dsimp only at ht
    rw [hg] at ht
    dsimp only at ht
    rw [State.meetFailures_none _ _ _ hf] at ht
    obtain ⟨a, b, hc⟩ := v.closeAt_coded pa hf
    rw [hc] at ht
    rw [State.addWaiter_first] at ht
    rotate_left
    · exact hw
    obtain ⟨ts, ag, hl⟩ := State.leaveCore_parked ({(({ v with sectors := a, wcs := b } : State).enqueueSend
      ⟨0, u.task.key, 0, 1, routeTo ⟨u.task.core.die, BitVec.ofNat 6 (fieldOf (v.die u.task.core.die.toNat).supv 8 6),
          BitVec.ofNat 4 (fieldOf (v.die u.task.core.die.toNat).supv 4 4)⟩ (BitVec.ofNat 16 (fieldOf (v.die u.task.core.die.toNat).supv 16 16)), wordsOf (parkWords u.task f at_), 0, 0, u.task.asid, u.task.jobkey, 0⟩).setTask fun t => { t with status := .parked, waitOn := .resumeWord } with
        waiters := [⟨u.task.key, pa, .park ((v.wordAt pa).toNat + 1), u.task.ctx + 0xF8, 0⟩]}) rfl
    replace ht := ht.trans (congrArg State.serve hl)
    rw [State.serve_one _ _ rfl] at ht
    rotate_left
    · have hx : ∀ x : State, x.wordAt pa = v.wordAt pa →
          x.waiterReady ⟨u.task.key, pa, .park ((v.wordAt pa).toNat + 1), u.task.ctx + 0xF8, 0⟩ = false := by
        intro x hx; unfold State.waiterReady; dsimp only; rw [hx]; simp
      exact hx _ rfl
    subst ht
    refine ⟨rfl, rfl, rfl, rfl, rfl, rfl, ?_⟩
    refine congrArg (v.sends ++ [·]) ?_
    have e1 : ∀ k : BitVec 2, routeTo ⟨k, BitVec.ofNat 6 (fieldOf (v.die u.task.core.die.toNat).supv 8 6),
        BitVec.ofNat 4 (fieldOf (v.die u.task.core.die.toNat).supv 4 4)⟩ (BitVec.ofNat 16 (fieldOf (v.die u.task.core.die.toNat).supv 16 16)) = 
      BitVec.ofNat 64 ((k : BitVec 2).toNat * 2 ^ 38 + bitsOf (v.die u.task.core.die.toNat).supv.toNat 8 6 * 2 ^ 32 + bitsOf (v.die u.task.core.die.toNat).supv.toNat 4 4 * 2 ^ 24 + bitsOf (v.die u.task.core.die.toNat).supv.toNat 16 16) := by
      intro k
      unfold routeTo fieldOf bitsOf
      simp only [BitVec.toNat_ofNat, Nat.mod_mod]
    have e2 : wordsOf (parkWords u.task f at_) = [u.task.launch,
        BitVec.ofNat 64 (f.toNat * 2 ^ 56 + u.task.core.die.toNat * 2 ^ 48 + u.task.core.clu.toNat * 2 ^ 40 + 
          u.task.core.core.toNat * 2 ^ 32 + u.task.tid.toNat % 2 ^ 24), at_,
              u.task.ctx + 0xF8].flatMap fun (w : W64) => [w.setWidth 32, (w >>> 32).setWidth 32] := by
      unfold wordsOf parkWords fieldOf bitsOf
      rw [Nat.pow_zero, Nat.div_one]; rfl
    rw [← e2, ← e1 u.task.core.die]
  · rintro c w v h
    unfold State.park; dsimp only; rw [h]

/-- Filling the paddock changes the instances only (R140). -/
theorem State.fillPaddock_insts (u : State) : ∃ x, u.fillPaddock = { u with insts := x } := by
  unfold State.fillPaddock
  suffices ∀ (l : List Instance) (v : State), (∃ x, v = { u with insts := x }) → ∃ x, l.foldl (fun s i =>
    if i.outside = [] then s
    else
      let x := enterParts s.paddockCount i.outside
      { s with insts := s.insts.map fun y =>
          if y.recNo = i.recNo ∧ y.gen = i.gen then { y with parts := y.parts ++ x.1, outside := x.2 } else y }) v = { u with insts := x } from
    this _ _ ⟨_, rfl⟩
  intro l
  induction l with
  | nil => exact fun v h => h
  | cons i l ih =>
    rintro v ⟨x, rfl⟩
    rw [List.foldl_cons]; apply ih; split
    · exact ⟨_, rfl⟩
    · exact ⟨_, rfl⟩

/-- Filling the paddock keeps every instance with its status (R140). -/
theorem State.fillPaddock_mem (u : State) (r : BitVec 14) (g : BitVec 16) (st : InstState) (h : ∃ x ∈ u.insts, x.recNo = r ∧
    x.gen = g ∧ x.st = st) :
    ∃ x ∈ u.fillPaddock.insts, x.recNo = r ∧ x.gen = g ∧ x.st = st := by
  unfold State.fillPaddock
  suffices ∀ (l : List Instance) (v : State), (∃ x ∈ v.insts, x.recNo = r ∧ x.gen = g ∧ x.st = st) → ∃ x ∈ (l.foldl (fun s i =>
    if i.outside = [] then s
    else
      let x := enterParts s.paddockCount i.outside
      { s with insts := s.insts.map fun y =>
          if y.recNo = i.recNo ∧ y.gen = i.gen then { y with parts := y.parts ++ x.1, outside := x.2 } else y }) v).insts, x.recNo = r ∧ x.gen = g ∧ x.st = st from
    this _ _ h
  intro l
  induction l with
  | nil => exact fun v h => h
  | cons i l ih =>
    rintro v ⟨x, hx, h1, h2, h3⟩
    rw [List.foldl_cons]; apply ih; split
    · exact ⟨x, hx, h1, h2, h3⟩
    · refine ⟨_, List.mem_map.2 ⟨x, hx, rfl⟩, ?_⟩
      split <;> exact ⟨h1, h2, h3⟩

/-- Waking an instance changes the instances only (R149). -/
theorem State.wakeInst_insts (u : State) (r g) : ∃ x, u.wakeInst r g = { u with insts := x } := by
  unfold State.wakeInst
  split
  · split
    · obtain ⟨x, h⟩ := State.fillPaddock_insts ((u.updInst r g fun x => { x with st := .ready, outside := u.partsOf r.toNat }).lastInst r g)
      exact ⟨x, h⟩
    · exact ⟨_, rfl⟩
  · exact ⟨_, rfl⟩

/-- Arming a record (R149): the order of the statuses, and the effect on `GEN`, `LIVE` and `CRED`. -/
theorem State.arm_effect (u : State) : (∀ r pri st t, r < 2 ^ 14 → u.arm r pri = (st, t) →
      st = (if u.recField r 0 24 8 ≤ u.live r then 2 else if 2 ^ 24 ≤ u.work r then 3 else if u.recMalformed r then 4
        else if u.recRegionsBad r then 5 else if u.recLevelsBad r then 6
        else if u.recField r 0 20 1 = 1 ∧ (u.die (r / 4096)).wsLoading = true then 1 else 0) ∧
      (st ≠ 0 → t = u) ∧
      (st = 0 → ∀ gen, gen = (u.gen r + 1) % 2 ^ 16 →
        (u.work r = 0 → ∃ v : State, t = v.signal r 0 ∧ v = { u with recs := v.recs } ∧ v.gen r = gen ∧ v.live r = u.live r ∧
          v.cred r = u.cred r) ∧
        (u.work r ≠ 0 → ∀ take, take = min (u.cred r) (u.recField r 0 8 6) →
          t = { u with recs := t.recs, insts := t.insts } ∧ t.gen r = gen ∧ t.live r = u.live r + 1 ∧ t.cred r = u.cred r - take ∧
          ∀ i : Instance, i = {
              recNo := BitVec.ofNat 14 r, gen := BitVec.ofNat 16 gen, st := .waiting, pending := u.recField r 0 8 6 - take,
              event := u.recField r 3 60 4 != 0, cls := pri.getD (BitVec.ofNat 2 (u.recField r 0 22 2)) } →
            (i.pending ≠ 0 ∨ i.event = true ∨ u.boot.stage ≠ 3 → u.inst i.recNo i.gen = none → t.insts = u.insts ++ [i]) ∧
            (i.pending = 0 → i.event = false → u.boot.stage = 3 → u.inst i.recNo i.gen = none →
              ∃ x ∈ t.insts, x.recNo = i.recNo ∧ x.gen = i.gen ∧ x.st = .ready)))) := by
  intro r pri st t hr h
  unfold State.arm at h
  by_cases c1 : u.recField r 0 24 8 ≤ u.live r
  · rw [if_pos c1] at h; obtain ⟨rfl, rfl⟩ := Prod.mk.inj h.symm
    exact ⟨by rw [if_pos c1]; rfl, fun _ => rfl, fun h => absurd h (by decide)⟩
  rw [if_neg c1] at h; rw [if_neg c1]
  by_cases c2 : 2 ^ 24 ≤ u.work r
  · rw [if_pos c2] at h; obtain ⟨rfl, rfl⟩ := Prod.mk.inj h.symm
    exact ⟨by rw [if_pos c2]; rfl, fun _ => rfl, fun h => absurd h (by decide)⟩
  rw [if_neg c2] at h; rw [if_neg c2]
  by_cases c3 : u.recMalformed r = true
  · rw [if_pos c3] at h; obtain ⟨rfl, rfl⟩ := Prod.mk.inj h.symm
    exact ⟨by rw [if_pos c3]; rfl, fun _ => rfl, fun h => absurd h (by decide)⟩
  rw [if_neg c3] at h; rw [if_neg c3]
  by_cases c4 : u.recRegionsBad r = true
  · rw [if_pos c4] at h; obtain ⟨rfl, rfl⟩ := Prod.mk.inj h.symm
    exact ⟨by rw [if_pos c4]; rfl, fun _ => rfl, fun h => absurd h (by decide)⟩
  rw [if_neg c4] at h; rw [if_neg c4]
  by_cases c5 : u.recLevelsBad r = true
  · rw [if_pos c5] at h; obtain ⟨rfl, rfl⟩ := Prod.mk.inj h.symm
    exact ⟨by rw [if_pos c5]; rfl, fun _ => rfl, fun h => absurd h (by decide)⟩
  rw [if_neg c5] at h; rw [if_neg c5]
  by_cases c6 : u.recField r 0 20 1 = 1 ∧ (u.die (r / 4096)).wsLoading = true
  · rw [if_pos c6] at h; obtain ⟨rfl, rfl⟩ := Prod.mk.inj h.symm
    exact ⟨by rw [if_pos c6]; rfl, fun _ => rfl, fun h => absurd h (by decide)⟩
  rw [if_neg c6] at h; rw [if_neg c6]
  dsimp only at h
  have lt : u.live r < 255 := by
    have : u.recField r 0 24 8 < 256 := Nat.mod_lt _ (by decide)
    omega
  have ct : u.cred r < 256 := Nat.mod_lt _ (by decide)
  obtain ⟨v, hv⟩ : ∃ v, v = u.setRecField r 0 48 16 ((u.gen r + 1) % 2 ^ 16) := ⟨_, rfl⟩
  rw [← hv] at h
  have hd : v.recDw r 0 = withField (u.recDw r 0) 48 16 ((u.gen r + 1) % 2 ^ 16) := by rw [hv]; exact State.recDw_setRecDw _ _ _ _
  have hne : ∀ i, i ≠ 0 → v.recDw r i = u.recDw r i := by
    intro i hi; rw [hv]; exact State.recDw_setRecDw_ne _ _ _ _ (by unfold recKey; omega)
  have fg := fields_of_gen (u.recDw r 0) ((u.gen r + 1) % 2 ^ 16)
  rw [← hd] at fg
  have hw : v.work r = u.work r := by unfold State.work State.recField; rw [hne 3 (by decide)]
  by_cases c7 : u.work r = 0
  · rw [if_pos (hw.trans c7)] at h; obtain ⟨rfl, rfl⟩ := Prod.mk.inj h.symm
    refine ⟨rfl, fun h => absurd rfl h, fun _ gen hg => ⟨fun _ => ⟨v, rfl, ?_, ?_, fg.2.1, fg.2.2⟩, fun h => absurd c7 h⟩⟩
    · rw [hv]; rfl
    · rw [hg]; exact fg.1.trans (Nat.mod_mod _ _)
  · rw [if_neg (fun h => c7 (hw.symm.trans h))] at h; obtain ⟨rfl, rfl⟩ := Prod.mk.inj h.symm
    refine ⟨rfl, fun h => absurd rfl h, fun _ gen hg => ⟨fun h => absurd h c7, fun _ take ht => ?_⟩⟩
    subst hg
    have hp : v.recField r 0 8 6 = u.recField r 0 8 6 ∧ v.recField r 0 22 2 = u.recField r 0 22 2 := by
      unfold State.recField; rw [hd]; unfold fieldOf withField bitsOf; rw [BitVec.toNat_ofNat]; have := (u.recDw r 0).isLt; omega
    have he : v.recField r 3 60 4 = u.recField r 3 60 4 := by unfold State.recField; rw [hne 3 (by decide)]
    have hc : v.cred r = u.cred r := fg.2.2
    rw [hp.1, hc, ← ht]
    obtain ⟨w, hwd⟩ : ∃ w, w = v.setRecField r 0 32 8 (u.cred r - take) := ⟨_, rfl⟩
    rw [← hwd]
    have hwd0 : w.recDw r 0 = withField (v.recDw r 0) 32 8 (u.cred r - take) := by rw [hwd]; exact State.recDw_setRecDw _ _ _ _
    have fc := fields_of_cred (v.recDw r 0) (u.cred r - take)
    rw [← hwd0] at fc
    have hp2 : w.recField r 0 22 2 = u.recField r 0 22 2 := by
      rw [← hp.2]; unfold State.recField; rw [hwd0]; unfold fieldOf withField bitsOf; rw [BitVec.toNat_ofNat]; have :=
          (v.recDw r 0).isLt; omega
    have he2 : w.recField r 3 60 4 = u.recField r 3 60 4 := by
      rw [← he]; unfold State.recField; rw [hwd, State.setRecField, State.recDw_setRecDw_ne _ _ _ _ (by unfold recKey; omega)]
    have hl : w.live r = u.live r := fc.2.1.trans fg.2.1
    rw [hp2, he2, hl]
    obtain ⟨x, hx⟩ : ∃ x, x = w.setRecField r 0 40 8 (u.live r + 1) := ⟨_, rfl⟩
    rw [← hx]
    have hx0 : x.recDw r 0 = withField (w.recDw r 0) 40 8 (u.live r + 1) := by rw [hx]; exact State.recDw_setRecDw _ _ _ _
    have fl := fields_of_live (w.recDw r 0) (u.live r + 1)
    rw [← hx0] at fl
    have hxu : x = { u with recs := x.recs } := by rw [hx, hwd, hv]; rfl
    obtain ⟨i, hi⟩ : ∃ i : Instance, i = {
              recNo := BitVec.ofNat 14 r, gen := BitVec.ofNat 16 ((u.gen r + 1) % 2 ^ 16), st := .waiting,
                  pending := u.recField r 0 8 6 - take,
              event := u.recField r 3 60 4 != 0, cls := pri.getD (BitVec.ofNat 2 (u.recField r 0 22 2)) } := ⟨_, rfl⟩
    have e0 : State.wakeInst { x with insts := x.insts ++ [i] } i.recNo i.gen = State.wakeInst { x with insts := x.insts ++ [{
              recNo := BitVec.ofNat 14 r, gen := BitVec.ofNat 16 ((u.gen r + 1) % 2 ^ 16), st := .waiting,
                  pending := u.recField r 0 8 6 - take,
              event := u.recField r 3 60 4 != 0, cls :=
                  pri.getD (BitVec.ofNat 2 (u.recField r 0 22 2)) }] } (BitVec.ofNat 14 r) (BitVec.ofNat 16 ((u.gen r + 1) % 2 ^ 16)) := by rw [hi]
    rw [← e0]
    obtain ⟨l, hlw⟩ := State.wakeInst_insts { x with insts := x.insts ++ [i] } i.recNo i.gen
    have hxi : x.insts = u.insts := by rw [hxu]
    have hxb : x.boot = u.boot := by rw [hxu]
    have find : ∀ h : u.inst i.recNo i.gen = none, State.inst { x with insts := x.insts ++ [i] } i.recNo i.gen = some i := by
      intro h; unfold State.inst at h ⊢; rw [List.find?_append, hxi, h]; simp
    refine ⟨by rw [hlw, hxu], ?_, ?_, ?_, ?_⟩
    · rw [hlw]; show fieldOf (x.recDw r 0) 48 16 = _; rw [fl.1, fc.1, fg.1, Nat.mod_mod]
    · rw [hlw]; show fieldOf (x.recDw r 0) 40 8 = _; rw [fl.2.1, Nat.mod_eq_of_lt (by omega)]
    · rw [hlw]; show fieldOf (x.recDw r 0) 32 8 = _; rw [fl.2.2, fc.2.2, Nat.mod_eq_of_lt (by omega)]
    · rintro j hj
      obtain rfl : j = i := hj.trans hi.symm
      have hst : j.st = .waiting := by rw [hi]
      refine ⟨fun hc hn => ?_, fun h1 h2 h3 hn => ?_⟩
      · unfold State.wakeInst; rw [find hn]; dsimp only
        rw [if_neg]
        · show x.insts ++ [j] = _; rw [hxi]
        · rintro ⟨-, a, b, c⟩
          rcases hc with hc | hc | hc
          · exact hc a
          · rw [hc] at b; cases b
          · exact hc (hxb ▸ c)
      · unfold State.wakeInst; rw [find hn]; dsimp only
        rw [if_pos ⟨hst, h1, by simp [h2], by rw [hxb]; exact h3⟩]
        apply State.fillPaddock_mem
        refine ⟨{ j with st := .ready, outside := State.partsOf { x with insts := x.insts ++ [j] } j.recNo.toNat }, ?_, rfl,
            rfl, rfl⟩
        unfold State.lastInst State.updInst
        simp

/-- Filling the paddock keeps the instances in order, with their statuses (R140). -/
theorem State.fillPaddock_map (u : State) : u.fillPaddock.insts.map (fun x => (x.recNo, x.gen,
    x.st)) = u.insts.map (fun x => (x.recNo, x.gen, x.st)) := by
  unfold State.fillPaddock
  suffices ∀ (l : List Instance) (v : State), (l.foldl (fun s i =>
    if i.outside = [] then s
    else
      let x := enterParts s.paddockCount i.outside
      { s with insts := s.insts.map fun y =>
          if y.recNo = i.recNo ∧ y.gen = i.gen then { y with parts := y.parts ++ x.1, outside := x.2 } else y }) v).insts.map (fun x => (x.recNo, x.gen, x.st)) = v.insts.map (fun x => (x.recNo, x.gen, x.st)) from
    this _ _
  intro l
  induction l with
  | nil => exact fun v => rfl
  | cons i l ih =>
    intro v
    rw [List.foldl_cons, ih]; split
    · rfl
    · simp only [List.map_map]; apply List.map_congr_left; intro a _; dsimp only [Function.comp]; split <;> rfl

/-- Cancelling (R153). -/
theorem State.cancel_effect (u : State) : (∀ r st t, u.cancel r = (st, t) → ∀ keep : Instance → Bool,
      (keep = fun i => decide (i.recNo.toNat ≠ r ∨ i.st = .dispatched)) → ∀ gone, gone = (u.insts.filter (!keep ·)).length →
      (gone = 0 → t = u ∧ st = if u.insts.any (fun i => i.recNo.toNat == r) = true then 7 else 8) ∧
      (gone ≠ 0 → st = gone * 256 ∧ t = { u with recs := t.recs, insts := t.insts } ∧
        t.live r = (u.live r - gone) % 2 ^ 8 ∧ t.gen r = u.gen r ∧ t.cred r = u.cred r ∧
        t.insts.map (fun i => (i.recNo, i.gen, i.st)) = (u.insts.filter keep).map fun i => (i.recNo, i.gen, i.st))) := by
  rintro r st t h keep rfl gone rfl
  unfold State.cancel at h
  have e1 : (fun (i : Instance) => (i.recNo.toNat == r) &&
      decide (i.st ≠ .dispatched)) = (fun i => !decide (i.recNo.toNat ≠ r ∨ i.st = .dispatched)) := by
    funext i; by_cases a : i.recNo.toNat = r <;> by_cases b : i.st = .dispatched <;> simp [a, b]
  have e2 : (fun (i : Instance) => !((i.recNo.toNat == r) &&
      decide (i.st ≠ .dispatched))) = (fun i => decide (i.recNo.toNat ≠ r ∨ i.st = .dispatched)) := by
    funext i; by_cases a : i.recNo.toNat = r <;> by_cases b : i.st = .dispatched <;> simp [a, b]
  dsimp only at h
  rw [e1, e2] at h
  by_cases hg : (u.insts.filter (fun i => !decide (i.recNo.toNat ≠ r ∨ i.st = .dispatched))).length = 0
  · rw [if_pos hg] at h
    obtain ⟨rfl, rfl⟩ := Prod.mk.inj h.symm
    exact ⟨fun _ => ⟨rfl, rfl⟩, fun h => absurd hg h⟩
  · rw [if_neg hg] at h
    obtain ⟨rfl, rfl⟩ := Prod.mk.inj h.symm
    refine ⟨fun h => absurd h hg, fun _ => ?_⟩
    generalize hn : (u.insts.filter (fun i => !decide (i.recNo.toNat ≠ r ∨ i.st = .dispatched))).length = n at *
    obtain ⟨w, hw⟩ : ∃ w, w = State.setRecField { u with insts := u.insts.filter (fun i => decide (i.recNo.toNat ≠ r ∨ i.st = .dispatched)) } r 0 40 8 (State.live { u with insts := u.insts.filter (fun i => decide (i.recNo.toNat ≠ r ∨ i.st = .dispatched)) } r - n) := ⟨_, rfl⟩
    rw [← hw]
    have h0 : w.recDw r 0 = withField (u.recDw r 0) 40 8 (u.live r - n) := by rw [hw]; exact State.recDw_setRecDw _ _ _ _
    have fl := fields_of_live (u.recDw r 0) (u.live r - n)
    rw [← h0] at fl
    obtain ⟨l, hl⟩ := State.fillPaddock_insts w
    refine ⟨by show 0 + _ = _; omega, by rw [hl, hw]; rfl, ?_, ?_, ?_, ?_⟩
    · rw [hl]; exact fl.2.1
    · rw [hl]; exact fl.1
    · rw [hl]; exact fl.2.2
    · rw [State.fillPaddock_map, hw]; rfl

/-- The status word of a record (R153). -/
theorem State.recStat_fields (u : State) : (∀ r x last, x = (u.recStat r).toNat → last = ((lookupKey u.recLast r).getD 0).toNat →
    ∀ n, n = (u.insts.filter fun i => i.recNo.toNat == r && decide (i.st = .waiting)).length →
    bitsOf x 48 16 = u.gen r ∧ bitsOf x 40 8 = u.live r ∧ bitsOf x 32 8 = u.cred r ∧ bitsOf x 24 8 = min n 255 ∧
    bitsOf x 9 15 = 0 ∧ bitsOf x 8 1 = bitsOf last 8 1 ∧ bitsOf x 0 8 = bitsOf last 0 8) := by
  rintro r x last rfl rfl n rfl
  unfold State.recStat
  dsimp only
  have h1 : u.gen r < 2 ^ 16 := Nat.mod_lt _ (by decide)
  have h2 : u.live r < 2 ^ 8 := Nat.mod_lt _ (by decide)
  have h3 : u.cred r < 2 ^ 8 := Nat.mod_lt _ (by decide)
  generalize (u.insts.filter fun i => i.recNo.toNat == r && decide (i.st = .waiting)).length = n
  generalize ((lookupKey u.recLast r).getD 0).toNat = l
  unfold bitsOf
  rw [BitVec.toNat_ofNat]
  omega

/-- Patching a record (R152). -/
theorem State.patch_effect (u : State) : (∀ r i v mgmt st t, i < 64 → u.patch r i v mgmt = (st, t) → ∀ m : W64,
      m = (if i = 0 then 0xFFFFFF00 else if i = 3 then 0xF000000001FFFFFF else if i = 4 then 0x0000FFFFFFFFFFFF
        else if i = 14 ∨ i = 15 ∨ 56 ≤ i then 0 else if 40 ≤ i then 0x00000003FFFFFFF5 else BitVec.allOnes 64) →
      (m = 0 → st = 4 ∧ t = u) ∧ (m ≠ 0 → u.live r ≠ 0 → st = 1 ∧ t = u) ∧
      (m ≠ 0 → u.live r = 0 → st = 0 ∧ t = { u with recs := t.recs, recLast := t.recLast } ∧
        t.recDw r i = (if i = 4 ∧ mgmt = false then u.recDw r i else (u.recDw r i &&& ~~~m) ||| (v &&& m)) ∧
        (∀ q j, q ≠ r ∨ j ≠ i → j < 64 → t.recDw q j = u.recDw q j) ∧
        t.recLast = if i = 0 then setKey u.recLast r ((lookupKey u.recLast r).getD 0 &&& 0xFF) else u.recLast)) := by
  rintro r i v mgmt st t hi h m hm
  have e : patchMask i = m := by
    rw [hm]; unfold patchMask recordMask regionFields
    by_cases c : 40 ≤ i ∧ i < 56
    · rw [if_pos c, if_neg (by omega), if_neg (by omega), if_neg (by omega), if_neg (by omega), if_pos c.1]
    · rw [if_neg c]
      repeat' split
      all_goals first | rfl | omega
  unfold State.patch at h
  dsimp only at h
  rw [e] at h
  by_cases c1 : m = 0
  · rw [if_pos c1] at h; obtain ⟨rfl, rfl⟩ := Prod.mk.inj h.symm
    exact ⟨fun _ => ⟨rfl, rfl⟩, fun h => absurd c1 h, fun h => absurd c1 h⟩
  rw [if_neg c1] at h
  by_cases c2 : u.live r ≠ 0
  · rw [if_pos c2] at h; obtain ⟨rfl, rfl⟩ := Prod.mk.inj h.symm
    exact ⟨fun h => absurd h c1, fun _ _ => ⟨rfl, rfl⟩, fun _ h => absurd h c2⟩
  rw [if_neg c2] at h; obtain ⟨rfl, rfl⟩ := Prod.mk.inj h.symm
  refine ⟨fun h => absurd h c1, fun _ h => absurd h c2, fun _ _ => ⟨rfl, ?_, ?_, ?_, ?_⟩⟩
  · split <;> rfl
  · have : ∀ k : W64, (u.putRecord r i k v).recDw r i = (u.recDw r i &&& ~~~k) ||| (v &&& k) :=
        fun k => State.recDw_setRecDw _ _ _ _
    have h2 : ∀ k : W64, (if i = 0 then { u.putRecord r i k v with recLast := setKey (u.putRecord r i k v).recLast r ((lookupKey (u.putRecord r i k v).recLast r).getD 0 &&& 0xFF) } else u.putRecord r i k v : State).recDw r i = (u.putRecord r i k v).recDw r i := by intro k; split <;> rfl
    rw [h2, this]
    by_cases c : i = 4 ∧ mgmt = false
    · have e4 : (if i = 4 ∧ (!mgmt) = true then (0 : W64) else m) = 0 := if_pos ⟨c.1, by simp [c.2]⟩
      rw [if_pos c, e4]; simp; exact BitVec.and_allOnes
    · rw [if_neg c, if_neg (by simpa using c)]
  · intro q j hq hj
    have : ∀ k : W64, (u.putRecord r i k v).recDw q j = u.recDw q j :=
        fun k => State.recDw_setRecDw_ne _ _ _ _ (by unfold recKey; omega)
    have h2 : ∀ k : W64, (if i = 0 then { u.putRecord r i k v with recLast := setKey (u.putRecord r i k v).recLast r ((lookupKey (u.putRecord r i k v).recLast r).getD 0 &&& 0xFF) } else u.putRecord r i k v : State).recDw q j = (u.putRecord r i k v).recDw q j := by intro k; split <;> rfl
    rw [h2, this]
  · split <;> rfl

/-- The end of a task (R87, R119, R133, R233). -/
theorem State.endTask_effect : (∀ (u v : State) bad r gen, v = u.boundary .system →
    r = BitVec.ofNat 14 (bitsOf v.task.launch.toNat 0 14) →
      gen = BitVec.ofNat 16 (bitsOf v.task.launch.toNat 14 16) →
      ∃ w : State, u.endTask bad = w.checkComplete v.task.launch ∧
      w.task = { v.task with status := .ended, lanes := [], laneImage := [], pkt := [], pktChan := none, hints := {},
                             outstanding := [], activation := none, waitOn := .nothing } ∧
      (∀ d, w.die d = { v.die d with staging := (v.die d).staging.filter fun b => b.writer != .task v.task.key }) ∧
      w.insts = (if bad = true then v.insts.map fun i => if i.recNo = r ∧
          i.gen = gen then { i with bad := true } else i else v.insts) ∧
      w.ready = v.ready.filter (· != v.task.key) ∧ w.mem = v.mem ∧ w.full = v.full ∧ w.recs = v.recs ∧
          w.bindings = v.bindings ∧ w.ops = v.ops) := by
  intro u v bad r gen hv hr hg
  have U : ∀ (x : State) c, x.task.status = .ended → ∃ ts, x.unsuspend c = { x with tasks := ts } := by
    intro x c h; unfold State.unsuspend; dsimp only; split
    · exact ⟨_, rfl⟩
    · have hx : ∀ ts : List Task, ({ x with task := (if x.task.core = c ∧ x.task.status = .suspended then { x.task with status := .running } else x.task), tasks := ts } : State) = { x with tasks := ts } := by
        intro ts; rw [if_neg (by rw [h]; simp)]
      exact ⟨_, hx _⟩
  obtain ⟨a, ha⟩ : ∃ a, a = if bad then v.markBad v.task.launch else v := ⟨_, rfl⟩
  have ha' : a = { v with insts := (if bad = true then v.insts.map fun i => if i.recNo = r ∧ i.gen = gen then { i with bad := true } else i else v.insts) } := by
    rw [ha, hr, hg]; cases bad <;> rfl
  obtain ⟨b, hb⟩ : ∃ b : State, b = (a.setTask fun t => { t with status := .ended, lanes := [], laneImage := [], pkt := [], pktChan := none, hints := {}, outstanding := [], activation := none, waitOn := .nothing }) := ⟨_, rfl⟩
  obtain ⟨c, hc⟩ : ∃ c : State, c = { b with ready := b.ready.filter (· != v.task.key) } := ⟨_, rfl⟩
  obtain ⟨d, hd⟩ : ∃ d : State, d = (List.range 4).foldl (fun s d => s.dropStaging d (.task v.task.key)) c := ⟨_, rfl⟩
  obtain ⟨e, he⟩ : ∃ e : State, e = (match v.task.activation with
    | some (q, _) => if q = v.task.core then d else d.startQueued q
    | none => d) := ⟨_, rfl⟩
  have hd' : d = { c with dies := d.dies } := by rw [hd]; rfl
  have he' : ∃ ag, e = { d with agenda := ag } := by
    rw [he]; split
    · split
      · exact ⟨_, rfl⟩
      · exact ⟨_, rfl⟩
    · exact ⟨_, rfl⟩
  obtain ⟨ag, he'⟩ := he'
  obtain ⟨ts, hu⟩ := U e v.task.core (by rw [he', hd', hc, hb]; rfl)
  refine ⟨(e.unsuspend v.task.core).startQueued v.task.core, ?_, ?_⟩
  · unfold State.endTask; dsimp only; rw [← hv, ← ha, ← hb, ← hc,
        ← hd]; exact congrArg (fun x : State => ((x.unsuspend v.task.core).startQueued v.task.core).checkComplete v.task.launch) he.symm
  rw [hu]
  refine ⟨?_, ?_, ?_⟩
  · show e.task = _; rw [he', hd', hc, hb, ha']; rfl
  · intro k
    have h1 : ∀ x : State, x.dies = d.dies → x.die k = d.die k := by intro x hx; unfold State.die; rw [hx]
    rw [h1 _ (by rw [he']; rfl), hd, hc, hb, ha']
    have S : ∀ (x : State) j, (x.dropStaging j (.task v.task.key)).die k = if k % 4 =
        j % 4 then { x.die k with staging := (x.die k).staging.filter fun b => b.writer != .task v.task.key } else x.die k := by
      intro x j; unfold State.dropStaging State.setDie State.die
      dsimp only
      by_cases h : k % 4 = j % 4
      · rw [if_pos h]; simp only [h, Vector.getElem_set_self]
      · rw [if_neg h, Vector.getElem_set_ne _ _ (fun q => h q.symm)]
    have Z : ∀ x : State, x.dies = v.dies → x.die k = v.die k := by intro x hx; unfold State.die; rw [hx]
    have : k % 4 = 0 ∨ k % 4 = 1 ∨ k % 4 = 2 ∨ k % 4 = 3 := by omega
    show (((((_ : State).dropStaging 0 _).dropStaging 1 _).dropStaging 2 _).dropStaging 3 _).die k = _
    rw [S, S, S, S]
    rw [Z _ rfl]
    rcases this with h | h | h | h <;> rw [h] <;> rfl
  · refine ⟨?_, ?_, ?_, ?_, ?_, ?_, ?_⟩
    · show e.insts = _; rw [he', hd', hc, hb, ha']; rfl
    · show e.ready = _; rw [he', hd', hc, hb, ha']; rfl
    · show e.mem = _; rw [he', hd', hc, hb, ha']; rfl
    · show e.full = _; rw [he', hd', hc, hb, ha']; rfl
    · show e.recs = _; rw [he', hd', hc, hb, ha']; rfl
    · show e.bindings = _; rw [he', hd', hc, hb, ha']; rfl
    · show e.ops = _; rw [he', hd', hc, hb, ha']; rfl

/-- The completion of an instance (R151). -/
theorem State.checkComplete_effect : (∀ (w : State) l i,
    w.inst (BitVec.ofNat 14 (bitsOf (BitVec.toNat l) 0 14)) (BitVec.ofNat 16 (bitsOf l.toNat 14 16)) = some i →
      ∀ all : Bool, all = (decide (i.st = .dispatched ∧ i.parts = [] ∧ i.outside = [] ∧ i.lost = []) &&
        w.allTasks.all (fun t => t.launch != launchWord i.recNo i.gen || decide (t.status = .ended)) &&
        w.ops.all (fun o => o.launch != launchWord i.recNo i.gen) &&
            w.bindings.all (fun b => b.launch != launchWord i.recNo i.gen)) →
      (all = false → w.checkComplete l = w) ∧
      (all = true → ∀ k n, k = i.recNo.toNat → n = (if i.bad then stERROR else stOK) →
        ∀ x : State, x = w.counterAdd .other (w.recDw k 5).toNat 1 →
        ∀ y : State, y = { x with recLast := setKey x.recLast k (((lookupKey x.recLast k).getD 0 &&& 0x100) ||| BitVec.ofNat 64 n) } →
        ∀ z : State, z = (if n = stOK then (y.successors k).foldl State.decrement y else y) →
            ∀ q : State, q = z.setRecField k 0 40 8 (z.live k - 1) →
        w.checkComplete l = (({ q with insts := q.insts.filter fun j => !(j.recNo == i.recNo && j.gen == i.gen) } : State).dropRegions
          (({ q with insts := q.insts.filter fun j => !(j.recNo == i.recNo && j.gen == i.gen) } : State).launchOf i.recNo)).fillPaddock)) ∧
    (∀ (w : State) l, w.inst (BitVec.ofNat 14 (bitsOf (BitVec.toNat l) 0 14)) (BitVec.ofNat 16 (bitsOf l.toNat 14 16)) = none →
        w.checkComplete l = w) ∧
    (∀ (w : State) k, (∀ i, w.insts.find? (fun i => i.recNo.toNat == k && decide (i.st = .waiting) && i.pending != 0) = some i →
        w.decrement k = (w.updInst i.recNo i.gen fun x => { x with pending := x.pending - 1 }).wakeInst i.recNo i.gen) ∧
      (w.insts.find? (fun i => i.recNo.toNat == k && decide (i.st = .waiting) && i.pending != 0) = none →
        (w.cred k < 255 → w.decrement k = w.setRecField k 0 32 8 (w.cred k + 1)) ∧
        (255 ≤ w.cred k → w.decrement k = { w with recLast := setKey w.recLast k ((lookupKey w.recLast k).getD 0 ||| 0x100) }))) := by
  refine ⟨?_, ?_, ?_⟩
  · rintro w l i hi all rfl
    have e : (decide (i.st = .dispatched ∧ i.parts = [] ∧ i.outside = [] ∧ i.lost = []) &&
        w.allTasks.all (fun t => t.launch != launchWord i.recNo i.gen || decide (t.status = .ended)) &&
        w.ops.all (fun o => o.launch != launchWord i.recNo i.gen) &&
            w.bindings.all (fun b => b.launch != launchWord i.recNo i.gen)) = w.instDone i := by
      unfold State.instDone
      have a1 : ∀ l : List Task, (!l.any fun t => t.launch == launchWord i.recNo i.gen &&
          decide (t.status ≠ .ended)) = l.all (fun t => t.launch != launchWord i.recNo i.gen || decide (t.status = .ended)) := by
        intro l; rw [List.not_any_eq_all_not]; congr 1; funext t; by_cases h : t.status = .ended <;> simp [h, bne]
      have a2 : ∀ l : List EngineOp, (!l.any fun t => t.launch == launchWord i.recNo i.gen) =
          l.all (fun t => t.launch != launchWord i.recNo i.gen) := by
        intro l; rw [List.not_any_eq_all_not]; rfl
      have a3 : ∀ l : List Binding, (!l.any fun t => t.launch == launchWord i.recNo i.gen) =
          l.all (fun t => t.launch != launchWord i.recNo i.gen) := by
        intro l; rw [List.not_any_eq_all_not]; rfl
      dsimp only
      rw [a1, a2, a3]
      congr 3
      cases i.parts <;> cases i.outside <;> cases i.lost <;> simp
    rw [e]
    refine ⟨fun h => ?_, fun h => ?_⟩
    · unfold State.checkComplete; rw [show w.inst (BitVec.ofNat 14 (fieldOf l 0 14)) (BitVec.ofNat 16 (fieldOf l 14 16)) =
          some i from hi]; dsimp only; rw [h]; rfl
    · intro k n hk hn x hx y hy z hz q hq
      have hc : w.checkComplete l = w.complete i := by
        unfold State.checkComplete; rw [show w.inst (BitVec.ofNat 14 (fieldOf l 0 14)) (BitVec.ofNat 16 (fieldOf l 14 16)) =
            some i from hi]; dsimp only; rw [h]; rfl
      rw [hc]
      have e1 : w.signal i.recNo.toNat (if i.bad then stERROR else stOK) = z := by
        rw [hz, hy, hx, hn, hk]; unfold State.signal; rfl
      unfold State.complete; dsimp only; rw [e1, hq, hk]
  · intro w l h; unfold State.checkComplete; rw [show w.inst (BitVec.ofNat 14 (fieldOf l 0 14)) (BitVec.ofNat 16 (fieldOf l 14 16)) = none from h]
  · intro w k
    refine ⟨fun i h => ?_, fun h => ⟨fun c => ?_, fun c => ?_⟩⟩
    · unfold State.decrement; rw [h]
    · unfold State.decrement; rw [h]; dsimp only; rw [if_pos c]
    · unfold State.decrement; rw [h]; dsimp only; rw [if_neg (by omega)]

/-- A fetch that fails (R232). -/
theorem fetch_fails : (∀ (s u : State) c v s', s.agenda = [] → s.task.issues = true → s.task.waitOn.again = false →
    s.turns < turnLength →
      u = ({ s with turns := s.turns + 1 }).age → fetch u = .error (.trap c v) s' → step s = .next (s'.takeTrap c v s'.task.pc)) ∧
    (∀ (u : State) pc, pc = u.task.pc → ∀ fails : BitVec 8 → State → Prop, (fails = fun c t => fetch u = .error (.trap c pc) t) →
      (canonical pc = false ∨ canonical (pc + 3) = false → fails 0x13 u) ∧
      (canonical pc = true → canonical (pc + 3) = true →
        (pc.toNat % 4 ≠ 0 → fails 0x20 u) ∧
        (pc.toNat % 4 = 0 → inWindow pc.toNat = true → fails 0x11 u) ∧
        (pc.toNat % 4 = 0 → inWindow pc.toNat = false →
          (∀ t, leafOf u.task.tctx pc.toNat u = .error (.trap 0x10 pc) t → fails 0x10 t) ∧
          (∀ a e t, Gives (leafOf u.task.tctx pc.toNat) u (a, e) t →
            (regionOf (e.place pc.toNat) = .hole → fails 0x10 t) ∧
            (regionOf (e.place pc.toNat) ≠ .hole → bitAt e.attr 3 = false → fails 0x11 t))))) := by
  refine ⟨?_, ?_⟩
  · intro s u c v s' h1 h2 h3 h4 hu hf
    have hs : stepTask { s with turns := s.turns + 1 } = .next (s'.takeTrap c v s'.task.pc) := by
      unfold stepTask
      rw [if_neg (by show ¬ s.task.waitOn.again = true; rw [h3]; simp), ← hu, hf]
    rw [← hs]; exact step_task h1 h2 h4
  · rintro u pc rfl fails rfl
    have F : ∀ c v t, translate u.task.tctx { fetch := true } u.task.pc 4 4 u = .error (.trap c v) t →
        fetch u = .error (.trap c v) t := by
      intro c v t h; unfold fetch; rw [get_bind]; exact bind_error h
    have P : u.task.pc.toNat % 4 = 0 → pieces (4 / 4096 + 2) u.task.pc.toNat 4 = [(u.task.pc.toNat, 4)] := by
      intro h
      have : min 4 (4096 - u.task.pc.toNat % 4096) = 4 := by omega
      show pieces 2 _ _ = _
      unfold pieces; rw [if_neg (by decide)]; dsimp only; rw [this]; rfl
    have T : canonical u.task.pc = true → canonical (u.task.pc + 3) = true → u.task.pc.toNat % 4 = 0 → ∀ c v t,
        translatePiece u.task.tctx { fetch := true } u.task.pc.toNat 4 u = .error (.trap c v) t →
            fetch u = .error (.trap c v) t := by
      intro h1 h2 h3 c v t h
      apply F
      unfold translate
      have e1 : need (canonical u.task.pc && canonical (u.task.pc + BitVec.ofNat 64 (4 - 1))) 0x13 u.task.pc u = .ok () u :=
          need_of (by rw [h1]; exact h2)
      rw [bind_ok e1]
      have e2 : need (u.task.pc.toNat % 4 == 0) 0x20 u.task.pc u = .ok () u := need_of (by rw [h3]; rfl)
      rw [bind_ok e2, P h3]
      rw [List.mapM_cons]
      exact bind_error (bind_error h)
    have E : BitVec.ofNat 64 u.task.pc.toNat = u.task.pc := by simp
    refine ⟨fun h => ?_, fun h1 h2 => ⟨fun h3 => ?_, fun h3 h4 => ?_, fun h3 h4 => ⟨fun t h5 => ?_,
        fun a e t h5 => ⟨fun h6 => ?_, fun h6 h7 => ?_⟩⟩⟩⟩
    · apply F; unfold translate; apply bind_error
      have : (canonical u.task.pc && canonical (u.task.pc + BitVec.ofNat 64 (4 - 1))) = false := by
        rcases h with h | h
        · rw [h]; rfl
        · rw [Bool.and_eq_false_iff]; exact .inr h
      rw [this]; rfl
    · apply F; unfold translate
      have e1 : need (canonical u.task.pc && canonical (u.task.pc + BitVec.ofNat 64 (4 - 1))) 0x13 u.task.pc u = .ok () u :=
          need_of (by rw [h1]; exact h2)
      rw [bind_ok e1]; apply bind_error
      have : (u.task.pc.toNat % 4 == 0) = false := by simpa using h3
      rw [this]; rfl
    · apply T h1 h2 h3
      unfold translatePiece; rw [if_pos h4]; unfold windowCheck; rw [get_bind]; rw [E]; rfl
    · apply T h1 h2 h3
      unfold translatePiece; rw [if_neg (by rw [h4]; simp)]; exact bind_error h5
    · apply T h1 h2 h3
      unfold translatePiece; rw [if_neg (by rw [h4]; simp)]; dsimp only; rw [bind_ok h5]; dsimp only
      rw [h6, E]; rfl
    · apply T h1 h2 h3
      unfold translatePiece; rw [if_neg (by rw [h4]; simp)]; dsimp only; rw [bind_ok h5]; dsimp only
      have e1 : need (regionOf (e.place u.task.pc.toNat) != .hole) 0x10 (BitVec.ofNat 64 u.task.pc.toNat) t = .ok () t :=
          need_of (by simpa using h6)
      rw [bind_ok e1]; apply bind_error
      have : permitted { fetch := true } e.attr (e.place u.task.pc.toNat) a.mgmt = false := by
        unfold permitted; rw [h7]; simp
      rw [this, E]; rfl

/-- The dispatch state of a task (R147). -/
theorem State.unitTask_fields : (∀ (u : State) r w core tid n entry, fieldOf w 0 14 = r →
    ∀ size, size = BitVec.ofNat 64 (4096 * u.recField r 7 40 24) →
      ∀ ctx, ctx = u.recDw r 6 + BitVec.ofNat 64 (n * (4096 * u.recField r 7 40 24)) → ∀ t, t = u.unitTask r w core tid n entry →
      t = { key := u.nextKey, core := core, status := .running, ctx := ctx, pc := entry, g := t.g, tid := BitVec.ofNat 64 tid,
            lvl := u.levels r tid, launch := w, sbase := ctx + BitVec.ofNat 64 (0x5400 + 64 * u.recField r 7 20 20),
            slim := ctx + size - BitVec.ofNat 64 (64 * u.recField r 7 0 20), asid := u.xasid r,
            jobkey := BitVec.ofNat 32 (u.recField r 4 0 32), snapshot := u.pos - 1 } ∧
      ∀ i (h : i < 32), t.g[i] = if i = 1 then ctx + size else if i = 2 then ctx else if i = 3 then u.recDw r 9
        else if 8 ≤ i ∧ i < 16 then (if u.recField r (25 + 2 * (i - 8)) 20 20 =
            0 then 0 else u.recDw r (24 + 2 * (i - 8))) else 0) := by
  rintro u r w core tid n entry rfl size rfl ctx rfl t rfl
  refine ⟨rfl, fun i h => ?_⟩
  have V : ∀ (f : Nat → W64) i (h : i < 32), (vec32 f)[i] = f i := by
    intro f i h
    have : i = 0 ∨ i = 1 ∨ i = 2 ∨ i = 3 ∨ i = 4 ∨ i = 5 ∨ i = 6 ∨ i = 7 ∨ i = 8 ∨ i = 9 ∨ i = 10 ∨ i = 11 ∨ i = 12 ∨ i = 13 ∨
        i = 14 ∨ i = 15 ∨ i = 16 ∨ i = 17 ∨ i = 18 ∨ i = 19 ∨ i = 20 ∨ i = 21 ∨ i = 22 ∨ i = 23 ∨ i = 24 ∨ i = 25 ∨ i = 26 ∨
        i = 27 ∨ i = 28 ∨ i = 29 ∨ i = 30 ∨ i = 31 := by omega
    rcases this with rfl | rfl | rfl | rfl | rfl | rfl | rfl | rfl | rfl | rfl | rfl | rfl | rfl | rfl | rfl | rfl | rfl | rfl | rfl | rfl | rfl | rfl | rfl | rfl | rfl | rfl | rfl | rfl | rfl | rfl | rfl | rfl <;> rfl
  exact V _ i h

/-- Dispatching a slot's work (R146, R147). -/
theorem State.dispatch_effect : (∀ (u : State) d i tids core r w, r = i.recNo.toNat → w = launchWord i.recNo i.gen →
    ∀ tid, tid = tids.getD 0 0 → 
      ∀ ends : State → Prop, (ends = fun x => u.dispatch d i tids core =
          (x.updInst i.recNo i.gen fun j => j.dispatchedTo d tids (x.level2 r tid) (quadrantOf core.clu.toNat)).fillPaddock) →
      ∀ v, v = u.takeCluster (clusterId core) (u.launchOf i.recNo) →
      (u.unit r = 0 → ends (tids.foldl (fun x t => x.enlist (x.unitTask r w
        (coreAt core.die.toNat core.clu.toNat (t % Nat.max 1 (x.extent r 0) % 8)) t t (x.recDw r 1))) v)) ∧
      (u.unit r = 1 → ∀ x, x = (v.setCluster (clusterId core) fun c => { c with queues := List.replicate 8 [] }) →
        ∀ y, y = x.enlist (x.unitTask r w { core with core := 8 } tid tid (x.recDw r 1)) →
        ends (y.enlist (y.unitTask r w { core with core := 9 } tid (y.work r + tid) (y.recDw r 2))))) := by
  rintro u d i tids core r w rfl rfl tid htid ends rfl v rfl
  have et : lget tids 0 = tid := by rw [htid]; rfl
  have C : u.unit i.recNo.toNat ≤ 1 → (u.unit i.recNo.toNat < 2 ∨ u.unit i.recNo.toNat = 3) := fun h => Or.inl (by omega)
  refine ⟨fun h => ?_, fun h x hx y hy => ?_⟩
  · unfold State.dispatch; dsimp only; rw [et, if_pos (C (by omega)), if_pos h]
    rfl
  · unfold State.dispatch; dsimp only; rw [et, if_pos (C (by omega)), if_neg (by omega), if_pos h]
    rw [hy, hx]; rfl

/-- A task begins on its core (R113, R147). -/
theorem State.enlist_effect : (∀ (u x y : State) t, x = (u.zeroRecBase t).makeRoom 2 t 512 →
    y = (if t.high then x.suspendNormals t.core else x) →
      u.enlist t = ({ y with nextKey := y.nextKey + 1, tasks := y.tasks ++ [{ t with snapshot := y.pos - 1, status := if !t.high && y.highRuns t.core then .suspended else t.status }] } : State).serve) := by
  intro u x y t hx hy
  unfold State.enlist; dsimp only
  rw [← hx, ← hy]
  by_cases h : (!t.high && y.highRuns t.core) = true
  · rw [if_pos h, if_pos h]
  · rw [if_neg h, if_neg h]

/-- A changed task. -/
theorem State.updTask_taskOf (u : State) (k : Nat) (f : Task → Task) (t) (hk : ∀ x, (f x).key = x.key) (h : u.taskOf k = some t) :
    (u.updTask k f).taskOf k = some (f t) := by
  unfold State.taskOf State.allTasks at h ⊢
  unfold State.updTask
  by_cases c : u.task.key = k
  · rw [if_pos c]; rw [List.find?_cons] at h ⊢
    have : (u.task.key == k) = true := by simpa using c
    rw [this] at h
    dsimp only at h ⊢
    rw [hk, this]; cases h; rfl
  · rw [if_neg c]; rw [List.find?_cons] at h ⊢
    have : (u.task.key == k) = false := by simpa using c
    rw [this] at h ⊢
    dsimp only at h ⊢
    generalize u.tasks = l at h
    induction l with
    | nil => cases h
    | cons y l ih =>
      rw [List.find?_cons] at h
      rw [List.map_cons, List.find?_cons]
      by_cases d : y.key = k
      · have e : (y.key == k) = true := by simpa using d
        rw [e] at h; cases h
        rw [if_pos d, hk, e]
      · have e : (y.key == k) = false := by simpa using d
        rw [e] at h
        rw [if_neg d, e]; exact ih h

/-- Changing a task that is not of high priority. -/
theorem State.updTask_highRuns (u : State) (k : Nat) (f : Task →
    Task) (c : CoreId) (hk : ∀ x, (f x).high = x.high) (h : ∀ x ∈ u.allTasks, x.key = k → x.high = false) :
    (u.updTask k f).highRuns c = u.highRuns c := by
  have e : ∀ x ∈ u.allTasks, x.key = k → ((f x).high && (f x).core == c && decide ((f x).status = .running)) = (x.high &&
      x.core == c && decide (x.status = .running)) := by
    intro x hx hq; rw [hk, h x hx hq]; rfl
  unfold State.allTasks at e
  unfold State.highRuns State.allTasks State.updTask
  by_cases q : u.task.key = k
  · rw [if_pos q]; rw [List.any_cons, List.any_cons]; dsimp only; rw [e _ List.mem_cons_self q]
  · rw [if_neg q, List.any_cons, List.any_cons]; dsimp only; congr 1; rw [List.any_map]
    rw [Bool.eq_iff_iff, List.any_eq_true, List.any_eq_true]
    refine ⟨fun ⟨x, hx, hy⟩ => ⟨x, hx, ?_⟩, fun ⟨x, hx, hy⟩ => ⟨x, hx, ?_⟩⟩
    · dsimp only [Function.comp] at hy; split at hy
      · rw [e x (List.mem_cons_of_mem _ hx) ‹_›] at hy; exact hy
      · exact hy
    · dsimp only [Function.comp]; split
      · rw [e x (List.mem_cons_of_mem _ hx) ‹_›]; exact hy
      · exact hy

/-- Changing a task leaves the queue and memory. -/
theorem State.updTask_readyMem (u : State) (k : Nat) (f : Task → Task) : (u.updTask k f).ready = u.ready ∧
    (u.updTask k f).mem = u.mem := by
  unfold State.updTask; split <;> exact ⟨rfl, rfl⟩

/-- Changing every task. -/
theorem State.mapTasks_taskOf (u : State) (k : Nat) (f : Task → Task) (t) (hk : ∀ x, (f x).key = x.key) (h : u.taskOf k = some t) :
    ({ u with task := f u.task, tasks := u.tasks.map f } : State).taskOf k = some (f t) := by
  unfold State.taskOf State.allTasks at h ⊢
  have g : ∀ l : List Task, l.find? (·.key == k) = some t → (l.map f).find? (·.key == k) = some (f t) := by
    intro l; induction l with
    | nil => intro h; cases h
    | cons y l ih =>
      intro h
      rw [List.find?_cons] at h
      rw [List.map_cons, List.find?_cons, hk]
      cases hy : y.key == k with
      | true => rw [hy] at h; cases h; rfl
      | false => rw [hy] at h; exact ih h
  exact g _ h

/-- A running task of high priority is not suspended by its own arrival. -/
theorem State.highOn_taskOf (u : State) (c : CoreId) (k t) (h : u.taskOf k = some t) (h1 : t.high = true) (h2 : t.status =
    .running) :
    (u.highOn c).taskOf k = some t ∧ (u.highOn c).ready = u.ready ∧ (u.highOn c).mem = u.mem := by
  have A : ∀ (x : State) c, x.taskOf k = some t → (x.suspendNormals c).taskOf k = some t ∧
      (x.suspendNormals c).ready = x.ready ∧ (x.suspendNormals c).mem = x.mem := by
    intro x c hx
    refine ⟨?_, rfl, rfl⟩
    have := State.mapTasks_taskOf x k (fun t => if t.core = c ∧ !t.high ∧
        t.issues then { t with status := .suspended } else t) t (fun x => by split <;> rfl) hx
    exact this.trans (congrArg some (if_neg (by simp [h1])))
  have B : ∀ (x : State) c, x.taskOf k = some t → (x.unsuspend c).taskOf k = some t ∧ (x.unsuspend c).ready = x.ready ∧
      (x.unsuspend c).mem = x.mem := by
    intro x c hx
    unfold State.unsuspend; dsimp only; split
    · exact ⟨hx, rfl, rfl⟩
    · refine ⟨?_, rfl, rfl⟩
      have := State.mapTasks_taskOf x k (fun t => if t.core = c ∧
          t.status = .suspended then { t with status := .running } else t) t (fun x => by split <;> rfl) hx
      exact this.trans (congrArg some (if_neg (by simp [h2])))
  unfold State.highOn
  obtain ⟨a1, a2, a3⟩ := A u c h
  rw [← a2, ← a3]
  generalize u.suspendNormals c = y at *
  clear a2 a3
  generalize List.range 8 = l
  induction l generalizing y with
  | nil => exact ⟨a1, rfl, rfl⟩
  | cons j l ih =>
    rw [List.foldl_cons]
    split
    · exact ih y a1
    · obtain ⟨b1, b2, b3⟩ := B y { c with core := BitVec.ofNat 4 j } a1
      rw [← b2, ← b3]; exact ih _ b1

/-- A chosen task is put on its core (R113, R133). -/
theorem State.take_effect : (∀ (u : State) t, t.resident = true → t.laneImage = [] → u.taskOf t.key = some t →
      (t.high = false → ∀ x ∈ u.allTasks, x.key = t.key → x.high = false) → t.waitOn ≠ .ownCore → (∀ k v, t.waitOn ≠ .trapped k v) →
      ∃ v : State, u.take t t.core = v.serve ∧ v.ready = u.ready.filter (· != t.key) ∧ v.mem = u.mem ∧
        v.taskOf t.key = some { t with
          waitOn := if t.waitOn.again = true then t.waitOn else .nothing, hintsSaved := false,
          status := if t.high = false ∧ u.highRuns t.core = true then .suspended else .running,
          hints := if t.hintsSaved = true then Hints.restore t.thint t.thintx else t.hints }) := by
  intro u t hr hl hu hq hw1 hw2
  obtain ⟨a, ha⟩ : ∃ a : State, a = { u with ready := u.ready.filter (· != t.key) } := ⟨_, rfl⟩
  have a1 : a.taskOf t.key = some t := by rw [ha]; exact hu
  have a2 : t.high = false → ∀ x ∈ a.allTasks, x.key = t.key → x.high = false := by rw [ha]; exact hq
  have a3 : a.highRuns t.core = u.highRuns t.core := by rw [ha]; rfl
  obtain ⟨f, hf⟩ : ∃ f : Task → Task, f = fun z => { z with core := t.core, status := .running, waitOn := if z.waitOn.again then z.waitOn else .nothing, usc := if false = true then 0 else z.usc, slotsIn := z.slotsIn && !false, lanes := t.lanes, laneImage := [] } := ⟨_, rfl⟩
  obtain ⟨b, hb⟩ : ∃ b : State, b = a.updTask t.key f := ⟨_, rfl⟩
  have b1 : b.taskOf t.key = some (f t) := by rw [hb]; exact State.updTask_taskOf _ _ _ _ (fun x => by rw [hf]) a1
  have b3 : t.high = false → b.highRuns t.core = u.highRuns t.core := by intro hh; rw [hb,
      State.updTask_highRuns _ _ _ _ (fun x => by rw [hf]) (a2 hh), a3]
  have br : b.reload t.key = b := by unfold State.reload; rw [b1]; dsimp only; rw [hf]; dsimp only; rw [hr]; rfl
  have bq : t.high = false → ∀ x ∈ b.allTasks, x.key = t.key → x.high = false := by
    intro hh; replace a2 := a2 hh
    rw [hb]; unfold State.updTask State.allTasks
    unfold State.allTasks at a2
    split
    · intro x hx hk
      rcases List.mem_cons.1 hx with rfl | hx
      · have : (f a.task).high = a.task.high := by rw [hf]
        dsimp only; rw [this]; exact a2 _ List.mem_cons_self ‹_›
      · exact a2 _ (List.mem_cons_of_mem _ hx) hk
    · intro x hx hk
      rcases List.mem_cons.1 hx with rfl | hx
      · exact a2 _ List.mem_cons_self hk
      · obtain ⟨y, hy, rfl⟩ := List.mem_map.1 hx
        split
        · have : (f y).high = y.high := by rw [hf]
          rw [this]; exact a2 _ (List.mem_cons_of_mem _ hy) ‹_›
        · rw [if_neg ‹_›] at hk; exact a2 _ (List.mem_cons_of_mem _ hy) hk
  obtain ⟨d, hd⟩ : ∃ d : State, d = b.updTask t.key Task.unsaveHints := ⟨_, rfl⟩
  have uk : ∀ x : Task, x.unsaveHints.key = x.key := by intro x; unfold Task.unsaveHints; split <;> rfl
  have uh : ∀ x : Task, x.unsaveHints.high = x.high := by intro x; unfold Task.unsaveHints; split <;> rfl
  have d1 : d.taskOf t.key = some (f t).unsaveHints := by rw [hd]; exact State.updTask_taskOf _ _ _ _ uk b1
  have d3 : t.high = false → d.highRuns t.core = u.highRuns t.core := by intro hh; rw [hd,
      State.updTask_highRuns _ _ _ _ uh (bq hh), b3 hh]
  obtain ⟨v, hv⟩ : ∃ v : State, v = if t.high then d.highOn t.core else if d.highRuns t.core then d.updTask t.key fun t => { t with status := .suspended } else d := ⟨_, rfl⟩
  have key : u.take t t.core = v.serve := by
    unfold State.take; dsimp only
    rw [if_pos hl]; dsimp only
    have m0 : decide (t.core ≠ t.core) = false := by simp
    have n1 : ¬(false = true ∨ t.waitOn = .ownCore) := by simp [hw1]
    rw [m0, if_neg n1, ← ha]
    have : a.updTask t.key (fun z => { z with core := t.core, status := .running, waitOn := if z.waitOn.again then z.waitOn else .nothing, usc := if false = true then 0 else z.usc, slotsIn := z.slotsIn && !false, lanes := t.lanes, laneImage := [] }) = b := by rw [hb, hf]
    rw [this, br, ← hd, ← hv]
    cases hw : t.waitOn <;> first | rfl | exact absurd hw (hw2 _ _)
  have ft : f t = { t with status := .running, waitOn := if t.waitOn.again then t.waitOn else .nothing } := by
    rw [hf]; cases t; simp_all
  have dr : d.ready = u.ready.filter (· != t.key) := by rw [hd, (State.updTask_readyMem _ _ _).1, hb,
      (State.updTask_readyMem _ _ _).1, ha]
  have dm : d.mem = u.mem := by rw [hd, (State.updTask_readyMem _ _ _).2, hb, (State.updTask_readyMem _ _ _).2, ha]
  have q : ∀ x : Task, x.unsaveHints.status = x.status := by intro x; unfold Task.unsaveHints; split <;> rfl
  have fs : (f t).unsaveHints.status = .running := by rw [q, ft]
  have fin : ∀ s : Status, ({ (f t).unsaveHints with status := s } : Task) = { t with
          waitOn := if t.waitOn.again = true then t.waitOn else .nothing, hintsSaved := false, status := s,
          hints := if t.hintsSaved = true then Hints.restore t.thint t.thintx else t.hints } := by
      intro s; rw [ft]; unfold Task.unsaveHints; dsimp only
      cases hs : t.hintsSaved
      · have nf : ¬(false = true) := by simp
        rw [if_neg nf, if_neg nf]
      · rw [if_pos rfl, if_pos rfl]
  by_cases hh : t.high = true
  · have hv' : v = d.highOn t.core := by rw [hv, if_pos hh]
    obtain ⟨k1, k2, k3⟩ := State.highOn_taskOf d t.core t.key _ d1 (by rw [uh, ft]; exact hh) fs
    refine ⟨v, key, by rw [hv', k2, dr], by rw [hv', k3, dm], ?_⟩
    rw [hv', k1, if_neg (by simp [hh]), ← fin, ← fs]
  · have hn : t.high = false := by simpa using hh
    have hv' : v = if d.highRuns t.core then d.updTask t.key fun t => { t with status := .suspended } else d := by rw [hv,
        if_neg hh]
    refine ⟨v, key, ?_, ?_, ?_⟩
    · rw [hv']; split
      · rw [(State.updTask_readyMem _ _ _).1, dr]
      · exact dr
    · rw [hv']; split
      · rw [(State.updTask_readyMem _ _ _).2, dm]
      · exact dm
    · rw [hv', d3 hn]
      by_cases hr : u.highRuns t.core = true
      · rw [if_pos hr, if_pos ⟨hn, hr⟩, State.updTask_taskOf _ _ (fun t => { t with status := .suspended }) _ (fun _ => rfl) d1, fin]
      · rw [if_neg hr, if_neg (fun h => hr h.2), d1, ← fin, ← fs]

/-- The resumption of an instance (R383). -/
theorem State.tryResume_effect : (∀ (u : State) r gen, (u.inst r gen = none → u.tryResume r gen = u) ∧ (∀ i, u.inst r gen = some i →
      (i.resuming = [] → u.tryResume r gen = u) ∧
      (i.resuming ≠ [] → ∀ w, w = launchWord r gen →
          ∀ cls, cls = ((u.allTasks.filter fun t => t.launch == w && !t.onCore && t.status != .ended).map
          fun t => clusterId t.core).eraseDups →
        (u.hosts i cls [] = none → u.tryResume r gen = u) ∧
        (∀ m, u.hosts i cls [] = some m → ∀ x, x = (m ++ ((u.boundClusters w).filter (!cls.contains ·)).map fun cl => (cl,
            cl)).foldl (fun y z => y.resumeOn i z) u →
          ∀ y, y = (x.updInst r gen fun j => { j with pre := false, resuming := [], regions := [] }) →
          u.tryResume r gen = i.resuming.foldl State.signalCounter
            (((y.bindings.filter (·.launch == w)).map (·.core)).eraseDups.foldl State.startQueued y)))))  ∧
    (∀ (u : State) i m cl rest, (u.hosts i [] m = some m) ∧ (u.hostFor i (m.map (·.2)) cl = none →
        u.hosts i (cl :: rest) m = none) ∧
      (∀ x, u.hostFor i (m.map (·.2)) cl = some x → u.hosts i (cl :: rest) m = u.hosts i rest (m ++ [(cl, x)]))) ∧
    (∀ (u : State) i taken cl, (u.canHost i cl = true → cl ∉ taken → u.hostFor i taken cl = some cl) ∧
      (u.canHost i cl = false ∨ cl ∈ taken → (∃ b ∈ u.bindings, b.launch = launchWord i.recNo i.gen ∧ clusterId b.core = cl) →
          u.hostFor i taken cl = none)) ∧ 
    (∀ (u : State) keep, ∃ at_, ∃ v : State, u.readyAgain keep = v.pushEvent (.taskChosen at_) ∧ v.task.status = .ready ∧
        v.ready = u.ready ++ [u.task.key] ∧ v.mem = u.mem) := by
  refine ⟨fun u r gen => ⟨fun h => ?_, fun i h => ⟨fun h1 => ?_, fun h1 w hw cls hc => ⟨fun h2 => ?_,
      fun m h2 x hx y hy => ?_⟩⟩⟩, fun u i m cl rest => ⟨rfl, fun h => ?_, fun x h => ?_⟩,
    fun u i taken cl => ⟨fun h1 h2 => ?_, fun h1 h2 => ?_⟩, fun u keep => ?_⟩
  · unfold State.tryResume; rw [h]
  · unfold State.tryResume; rw [h]; dsimp only; rw [if_pos h1]
  · unfold State.tryResume; rw [h]; dsimp only; rw [if_neg h1]; subst hw; rw [← hc, h2]
  · unfold State.tryResume; rw [h]; dsimp only; rw [if_neg h1]; subst hw; rw [← hc, h2]; dsimp only; rw [← hx, ← hy]
  · unfold State.hosts; rw [h]
  · rw [State.hosts, h]
  · unfold State.hostFor; rw [if_pos (by simp [h1, h2])]
  · unfold State.hostFor; rw [if_neg (by rcases h1 with h1 | h1 <;> simp [h1]), if_pos]
    obtain ⟨b, hb, h3, h4⟩ := h2
    rw [List.any_eq_true]; exact ⟨b, hb, by simp [h3, h4]⟩
  · have S : ∀ (x : State) c, x.task.status = .ready → (x.suspendNormals c).task = x.task := by
      intro x c h
      have : ∀ t : Task, t.status = .ready → t.issues = false := by
        intro t h1; unfold Task.issues; split
        · rfl
        · rw [h1]; rfl
      unfold State.suspendNormals; dsimp only; rw [this _ h, if_neg (by simp)]
    unfold State.readyAgain
    refine ⟨_, _, rfl, ?_⟩
    split
    · exact ⟨by rw [S _ _ rfl]; rfl, rfl, rfl⟩
    · exact ⟨rfl, rfl, rfl⟩

end Sys2Proof.Machine
end

