-- ==== Sys2Proof/Laws/Matrix.lean ====
section
/-! SUPPORT. What a run of the matrix unit leaves (R291-R298): the partial sums, the states of a recurrence, the accumulators,
the rows of a drain, a microprogram's operations. -/

namespace Sys2Proof.Machine

/-- A bit of a doubleword with a field replaced. -/
theorem withField_getLsbD (w : W64) (lo len v i : Nat) (hi : i < 64) :
    (withField w lo len v).getLsbD i = if lo ≤ i ∧ i < lo + len then v.testBit (i - lo) else w.getLsbD i := by
  have hx : w.toNat % 2 ^ lo + v % 2 ^ len * 2 ^ lo + w.toNat / 2 ^ (lo + len) * 2 ^ (lo + len) =
      2 ^ lo * (2 ^ len * (w.toNat / 2 ^ (lo + len)) + v % 2 ^ len) + w.toNat % 2 ^ lo := by
    rw [Nat.mul_add, ← Nat.mul_assoc, ← Nat.pow_add, Nat.mul_comm (v % 2 ^ len), Nat.mul_comm (w.toNat / _)]
    omega
  unfold withField
  rw [BitVec.getLsbD_ofNat, hx, Nat.testBit_two_pow_mul_add _ (Nat.mod_lt _ (Nat.two_pow_pos _)),
    Nat.testBit_two_pow_mul_add _ (Nat.mod_lt _ (Nat.two_pow_pos _)), decide_eq_true hi, Bool.true_and, Nat.testBit_mod_two_pow,
    Nat.testBit_mod_two_pow, Nat.testBit_div_two_pow]
  by_cases h1 : i < lo
  · rw [if_pos h1, if_neg (by omega)]; simp [h1]; rfl
  · rw [if_neg h1]
    by_cases h2 : i - lo < len
    · rw [if_pos h2, if_pos (by omega)]; simp [h2]
    · rw [if_neg h2, if_neg (by omega)]
      rw [show i - lo - len + (lo + len) = i by omega]; rfl

/-- A field apart from the one replaced. -/
theorem fieldOf_withField_ne (w : W64) (lo len v lo' len' : Nat) (h : lo' + len' ≤ lo ∨ lo + len ≤ lo') (h' : lo' + len' ≤ 64) :
    fieldOf (withField w lo len v) lo' len' = fieldOf w lo' len' := by
  have hk : ∀ i, i + lo' = lo' + i := fun i => Nat.add_comm _ _
  unfold fieldOf bitsOf
  apply Nat.eq_of_testBit_eq
  intro i
  rw [Nat.testBit_mod_two_pow, Nat.testBit_mod_two_pow, Nat.testBit_div_two_pow, Nat.testBit_div_two_pow]
  by_cases hi : i < len'
  · have := withField_getLsbD w lo len v (lo' + i) (by omega)
    rw [if_neg (by omega)] at this
    simp only [BitVec.getLsbD] at this
    rw [hk, this]
  · simp [hi]

/-- Element `i` of a tabulated list. -/
theorem getD_tabulate {α : Type} (n : Nat) (f : Nat → α) (i : Nat) (d : α) (h : i < n) : (tabulate n f).getD i d = f i := by
  simp [tabulate, List.getD, h]

/-- An A code (R172, R292). -/
theorem aCode_value : (∀ h row k, aCode h row k =
    if h.int4 then (BitVec.ofNat 4 ((row.getD (k / 2) 0).toNat / 2 ^ (4 * (k % 2)))).toInt else (row.getD k 0).toInt) := by
  intro h row k
  unfold aCode
  split
  · show signedNat 4 _ = signedNat 4 _
    unfold signedNat bitsOf; simp
  · show signedNat 8 _ = _
    rw [show (row.getD k 0).toInt = signedNat 8 (row.getD k 0).toNat from ?_]
    unfold signedNat BitVec.toInt
    have := (row.getD k 0).isLt
    rw [Nat.mod_eq_of_lt this]

/-- A B element less its zero point, dense or sparse (R173, R189, R291). -/
theorem bValue_value : (∀ (mode : W64) sp h b d j x i col k, h = shapeOf mode sp → x < 128 → col = 128 * j + x →
    ∀ zp : Nat, zp = bitsOf (d.getD (col * h.ngPitch + k / h.gsz) (0 : W32)).toNat 24 8 →
    ∀ at_ : Nat → Nat, (at_ = fun off => (b.getD ((j * h.c + i) * (if sp then 24576 else 16384) + off) (0 : Byte)).toNat) →
    (∀ r < 128, sp = false → h.int4 = false → k = 128 * i + r → bValue h sp b d col k = (at_ (128 * r + x) : Int) - zp) ∧
    (∀ r < 128, ∀ e < 2, sp = false → h.int4 = true → k = 256 * i + 2 * r + e →
      bValue h sp b d col k = ((at_ (128 * r + x) / 16 ^ e % 16 : Nat) : Int) - zp) ∧
    (∀ u < 64, ∀ e < 4, sp = true → k = 256 * i + 4 * u + e → ∀ q, q = at_ (16384 + 128 * u + x) →
      bValue h sp b d col k = if e = q % 4 then (at_ (128 * (2 * u) + x) : Int) - zp
        else if e = q / 4 % 4 then (at_ (128 * (2 * u + 1) + x) : Int) - zp else 0)) := by
  rintro mode sp h b d j x i col k rfl hx rfl zp rfl at_ rfl
  have e1 : (128 * j + x) / 128 = j := by omega
  have e2 : (128 * j + x) % 128 = x := by omega
  have m1 : ∀ (a : Nat), (j * a + i) * 16384 = 16384 * (j * a + i) := fun a => Nat.mul_comm _ _
  have m2 : ∀ (a : Nat), (j * a + i) * 24576 = 24576 * (j * a + i) := fun a => Nat.mul_comm _ _
  refine ⟨fun r hr hs h4 hk => ?_, fun r hr e he hs h4 hk => ?_, fun u hu e he hs hk q hq => ?_⟩
  · subst hs
    have hm : (shapeOf mode false).km = 128 := by
      have : (fieldOf mode 4 1 == 1) = false := h4
      unfold shapeOf; simp [this]
    have d1 : k / 128 = i := by omega
    have d2 : k % 128 = r := by omega
    unfold bValue bCode
    simp only [hm, e1, e2, h4, d1, d2, Bool.false_eq_true, if_false, m1, descOf, Nat.add_assoc]
  · subst hs
    have hm : (shapeOf mode false).km = 256 := by
      have : (fieldOf mode 4 1 == 1) = true := h4
      unfold shapeOf; simp [this]
    have d1 : k / 256 = i := by omega
    have d2 : k % 256 / 2 = r := by omega
    have d3 : k % 256 % 2 = e := by omega
    unfold bValue bCode
    simp only [hm, e1, e2, h4, d1, d2, d3, Bool.false_eq_true, if_false, if_true, m1, descOf, Nat.add_assoc, bitsOf, Nat.pow_mul]
    all_goals rfl
  · subst hs; subst hq
    have hm : (shapeOf mode true).km = 256 := by
      unfold shapeOf; simp
    have d1 : k / 256 = i := by omega
    have d2 : k % 256 / 4 = u := by omega
    have d3 : k % 256 % 4 = e := by omega
    unfold bValue bCode
    simp only [hm, e1, e2, d1, d2, d3, if_true, m2, descOf, Nat.add_assoc, bitsOf]
    simp only [Nat.pow_zero, Nat.div_one]
    simp only [show 2 ^ 2 = 4 from rfl]
    generalize BitVec.toNat (b.getD (24576 * (j * (shapeOf mode true).c + i) + (16384 + (128 * u + x))) 0) = q
    by_cases h1 : e = q % 4
    · rw [if_pos h1, if_pos h1]
    · rw [if_neg h1, if_neg h1]
      by_cases h2 : e = q / 4 % 4
      · rw [if_pos h2, if_pos h2]
      · rw [if_neg h2, if_neg h2]

/-- Where the latch of a row, a column and a span stands (R282, R293). -/
theorem latch_index (h : MxShape) (col sp r : Nat) (hs : sp < h.nsPitch) (hr : r < 32) :
    ((col * h.nsPitch + sp) * 32 + r) % 32 = r ∧ ((col * h.nsPitch + sp) * 32 + r) / 32 / h.nsPitch = col ∧
    ((col * h.nsPitch + sp) * 32 + r) / 32 % h.nsPitch = sp := by
  have a : ((col * h.nsPitch + sp) * 32 + r) / 32 = col * h.nsPitch + sp := by omega
  refine ⟨by omega, ?_, ?_⟩
  · rw [a, Nat.mul_comm, Nat.mul_add_div (by omega), Nat.div_eq_of_lt hs, Nat.add_zero]
  · rw [a, Nat.mul_comm, Nat.mul_add_mod, Nat.mod_eq_of_lt hs]

/-- The latches that there are. -/
theorem latch_bound (h : MxShape) (col sp r : Nat) (hc : col < 128 * h.n) (hs : sp < h.nsPitch) (hr : r < 32) :
    (col * h.nsPitch + sp) * 32 + r < 128 * h.n * h.nsPitch * 32 := by
  have : (col + 1) * h.nsPitch ≤ 128 * h.n * h.nsPitch := Nat.mul_le_mul_right _ hc
  rw [Nat.add_mul] at this
  omega

/-- A row of a half as an array. -/
theorem half_getD (l : List (List Byte)) (r : Nat) : ((l.map (·.toArray)).toArray).getD r #[] = (l.getD r []).toArray := by
  simp [List.getD]

/-- A tabulated list mapped. -/
theorem tabulate_map {α β : Type} (n : Nat) (f : Nat → α) (g : α → β) : (tabulate n f).map g = tabulate n fun i => g (f i) := by
  simp [tabulate]

/-- The bits of `MXSTATE` after a run (R293, R296, R298). -/
theorem Mx.finish_bits (m : Mx) (p i : Nat) (hp : p = fieldOf m.mxstate 25 1) (hi : i < 64) :
    m.finish.bit i = if i = 24 ∨ i = 20 + p then false else if i = 27 ∨ i = 37 then true
      else if 32 ≤ i ∧ i < 38 ∨ 44 ≤ i ∧ i < 57 then false else m.bit i := by
  have hp' : fieldOf (withField (withField m.mxstate 32 6 32) 44 13 0) 25 1 = p := by
    rw [fieldOf_withField_ne _ _ _ _ _ _ (by omega) (by omega), fieldOf_withField_ne _ _ _ _ _ _ (by omega) (by omega), hp]
  have p2 : p < 2 := by rw [hp]; exact Nat.mod_lt _ (by decide)
  show (withField (withField (withField (withField (withField m.mxstate 32 6 32) 44 13 0)
    (20 + fieldOf (withField (withField m.mxstate 32 6 32) 44 13 0) 25 1) 1 0) 27 1 1) 24 1 0).getLsbD i = _
  rw [hp', withField_getLsbD _ _ _ _ _ hi, withField_getLsbD _ _ _ _ _ hi, withField_getLsbD _ _ _ _ _ hi,
      withField_getLsbD _ _ _ _ _ hi,
    withField_getLsbD _ _ _ _ _ hi]
  by_cases h1 : i = 24
  · subst h1; rfl
  by_cases h2 : i = 20 + p
  · rw [if_neg (by omega), if_neg (by omega), if_pos (by omega), if_pos (Or.inr h2)]; simp
  rw [if_neg (by omega), if_neg (by omega : ¬ (i = 24 ∨ i = 20 + p))]
  by_cases h3 : i = 27
  · subst h3; rfl
  rw [if_neg (by omega), if_neg (by omega)]
  by_cases h4 : 44 ≤ i ∧ i < 57
  · rw [if_pos (by omega), if_neg (by omega), if_pos (by omega)]; simp
  rw [if_neg (by omega)]
  by_cases h5 : 32 ≤ i ∧ i < 38
  · rw [if_pos (by omega)]
    by_cases h6 : i = 37
    · subst h6; rfl
    · rw [if_neg (by omega), if_pos (by omega)]
      have : i = 32 ∨ i = 33 ∨ i = 34 ∨ i = 35 ∨ i = 36 := by omega
      rcases this with h | h | h | h | h <;> subst h <;> rfl
  · rw [if_neg (by omega), if_neg (by omega), if_neg (by omega)]; rfl

/-- There are no more spans than the pitch of the latches has room for. -/
theorem ns_le_pitch (h : MxShape) (hk : h.km ≤ 256) : h.ns ≤ h.nsPitch := by
  unfold MxShape.ns MxShape.nsPitch MxShape.k
  exact Nat.div_le_div_right (Nat.mul_le_mul_left _ hk)

/-- A macro holds at most 256 elements of a column, and at least one. -/
theorem shape_km (m : Mx) : m.shape.km ≤ 256 ∧ 0 < m.shape.k := by
  unfold Mx.shape shapeOf MxShape.k
  refine ⟨?_, Nat.mul_pos (Nat.two_pow_pos _) ?_⟩ <;> dsimp only <;> split <;> decide

/-- A flag of the OR of a list. -/
theorem foldl_or (l : List Flg) (a : Flg) (j : Nat) : (l.foldl (· ||| ·) a).getLsbD j = true ↔
    a.getLsbD j = true ∨ ∃ x ∈ l, x.getLsbD j = true := by
  induction l generalizing a with
  | nil => simp
  | cons x l ih => rw [List.foldl_cons, ih, BitVec.getLsbD_or, Bool.or_eq_true, or_assoc]; simp

/-- A fold over a range as a recursion. -/
theorem rec_fold (f : Nat → ProgState) (g : ProgState → Nat → ProgState) (hf : ∀ k, f (k + 1) = g (f k) k) (n : Nat) :
    (List.range n).foldl g (f 0) = f n := by
  induction n with
  | zero => rfl
  | succ n ih => rw [List.range_succ, List.foldl_append, ih, hf]; rfl

/-- `STYPE` is bit 4 of a program (R297). -/
theorem progFp_bit (p : List W32) : progFp p = (p.getD 0 0).getLsbD 4 := by
  show (bitsOf (p.getD 0 0).toNat 4 1 == 1) = (p.getD 0 0).toNat.testBit 4
  generalize (p.getD 0 0).toNat = n
  simp only [bitsOf, Nat.testBit, Nat.shiftRight_eq_div_pow]
  simp [Nat.one_and_eq_mod_two]

/-- Everything the end of a run leaves, which began at its first row (R293, R298). -/
theorem Mx.finish_effect : (∀ (m : Mx) h p, h = m.shape → p = fieldOf m.mxstate 25 1 → ∀ half, half = m.half p →
    (∀ i < 64, m.finish.bit i = if i = 24 ∨ i = 20 + p then false else if i = 27 ∨ i = 37 then true
      else if 32 ≤ i ∧ i < 38 ∨ 44 ≤ i ∧ i < 57 then false else m.bit i) ∧
    m.finish.scales = half.map (fun row => (row.drop h.codeBytes).take h.scaleBytes) ∧
    (m.bit 26 = false → m.latched.1 = 0 → m.finish.runFlags = m.runFlags ∧ ∀ col r sp, col < 128 * h.n → sp < h.ns → r < 32 →
      m.finish.latch.getD ((col * h.nsPitch + sp) * 32 + r) 0 = BitVec.ofInt 32 (((List.range h.span).map fun i =>
        aCode h (half.getD r []).toArray (sp * h.span + i) *
          bValue h (m.bit 17) m.bcells.toArray m.desc.toArray col (sp * h.span + i)).sum)) ∧
    (m.bit 26 = true → m.latched = (0, 0) → 0 < h.ns → ∃ f : Nat → Nat → Nat → ProgState,
      (∀ r col, f r col 0 = ⟨m.uprog.getD 2 0, 0, 0⟩ ∧ ∀ k, f r col (k + 1) =
        (let conv := fun (x : Int) => if (m.uprog.getD 0 0).getLsbD 4 then BitVec.ofNat 32 (f32.encode .rne (.ofInt x)).1 else BitVec.ofInt 32 x
         runProg m.uprog (conv (aCode h (half.getD r []).toArray k))
          (conv (bValue h false m.bcells.toArray m.desc.toArray col k)) (f r col k))) ∧
      (∀ col r, col < 128 * h.n → r < 32 → m.finish.latch.getD (col * h.nsPitch * 32 + r) 0 = (f r col h.k).s) ∧
      (∀ j, m.finish.runFlags.getLsbD j = true ↔
        m.runFlags.getLsbD j = true ∨ ∃ r < 32, ∃ col < 128 * h.n, (f r col h.k).flags.getLsbD j = true))) := by
  rintro m h p rfl hp half rfl
  obtain ⟨hkm, hk⟩ := shape_km m
  have hpi := ns_le_pitch _ hkm
  -- the element of a run
  obtain ⟨F, hF⟩ : ∃ F, F = fun i => 
    (let r := i % 32
     let col := i / 32 / m.shape.nsPitch
     let sp := i / 32 % m.shape.nsPitch
     let k0 := if r = m.latched.1 then m.latched.2 else 0
     let k1 := if r < 32 then m.shape.k else 0
     let was : ProgState := ⟨m.latch.toArray.getD i 0, m.carry.toArray.getD col 0, 0⟩
     let rows := ((m.half (fieldOf m.mxstate 25 1)).map (·.toArray)).toArray
     if r < m.latched.1 ∨ 32 < r ∨ m.shape.ns ≤ sp then was
     else if m.bit 26 then (if sp ≠ 0 ∨ k1 ≤ k0 then was else m.recur (rows.getD r #[]) m.bcells.toArray m.desc.toArray i col k0 k1 was.s)
     else if r < 32 then ⟨partialSum m.shape (m.bit 17) (rows.getD r #[]) m.bcells.toArray m.desc.toArray col sp, 0, 0⟩
     else was) := ⟨_, rfl⟩
  have hR : m.results 32 0 = tabulate (128 * m.shape.n * m.shape.nsPitch * 32) F := by rw [hF]; rfl
  have hfl : m.finish.runFlags = ((m.results 32 0).map ProgState.flags).foldl (· ||| ·) m.runFlags := rfl
  have hla : m.finish.latch = (m.results 32 0).map ProgState.s := rfl
  refine ⟨fun i hi => Mx.finish_bits m p i hp hi, ?_, fun h26 hl => ⟨?_, fun col r sp hc hs hr => ?_⟩, fun h26 hl hns => ?_⟩
  · show (m.half (fieldOf m.mxstate 25 1)).map _ = _
    rw [hp]
  · refine BitVec.eq_of_getLsbD_eq fun j _ => ?_
    have hz : ∀ i, (F i).flags = 0 := by
      intro i; rw [hF]; dsimp only; rw [h26]; split
      · rfl
      · rw [if_neg (by simp)]; split <;> rfl
    have : (m.finish.runFlags.getLsbD j = true ↔ m.runFlags.getLsbD j = true) := by
      rw [hfl, foldl_or, hR, tabulate_map]
      refine ⟨?_, Or.inl⟩
      rintro (h | ⟨x, hx, h⟩)
      · exact h
      · simp only [tabulate, List.mem_map] at hx
        obtain ⟨i, _, rfl⟩ := hx
        rw [hz] at h; simp at h
    exact Bool.eq_iff_iff.mpr this
  · obtain ⟨i1, i2, i3⟩ := latch_index m.shape col sp r (by omega) hr
    have hb := latch_bound m.shape col sp r hc (by omega) hr
    rw [hla, hR, tabulate_map, getD_tabulate _ _ _ _ hb, hF]
    dsimp only
    rw [i1, i2, i3, if_neg (by omega), if_neg (by rw [h26]; simp), if_pos hr, half_getD, hp]
    rfl
  · obtain ⟨f, hf⟩ : ∃ f : Nat → Nat → Nat → ProgState, ∀ r col, f r col 0 = ⟨m.uprog.getD 2 0, 0, 0⟩ ∧ ∀ k, f r col (k + 1) =
        (let conv := fun (x : Int) => if (m.uprog.getD 0 0).getLsbD 4 then BitVec.ofNat 32 (f32.encode .rne (.ofInt x)).1
           else BitVec.ofInt 32 x
         runProg m.uprog (conv (aCode m.shape ((m.half p).getD r []).toArray k))
          (conv (bValue m.shape false m.bcells.toArray m.desc.toArray col k)) (f r col k)) :=
      ⟨fun r col n => Nat.rec ⟨m.uprog.getD 2 0, 0, 0⟩ (fun k v =>
        (let conv := fun (x : Int) => if (m.uprog.getD 0 0).getLsbD 4 then BitVec.ofNat 32 (f32.encode .rne (.ofInt x)).1
           else BitVec.ofInt 32 x
         runProg m.uprog (conv (aCode m.shape ((m.half p).getD r []).toArray k))
          (conv (bValue m.shape false m.bcells.toArray m.desc.toArray col k)) v)) n, fun _ _ => ⟨rfl, fun _ => rfl⟩⟩
    refine ⟨f, hf, ?_⟩
    have hre : ∀ r col i old, m.recur ((m.half p).getD r []).toArray m.bcells.toArray m.desc.toArray i col 0 m.shape.k old =
        f r col m.shape.k := by
      intro r col i old
      unfold Mx.recur recurrence
      rw [if_pos rfl, Nat.sub_zero]
      rw [← rec_fold (f r col) (fun v k => runProg m.uprog
          ((fun x => if progFp m.uprog = true then BitVec.ofNat 32 (f32.encode .rne (.ofInt x)).1 else BitVec.ofInt 32 x)
            (aCode m.shape ((m.half p).getD r []).toArray k))
          ((fun x => if progFp m.uprog = true then BitVec.ofNat 32 (f32.encode .rne (.ofInt x)).1 else BitVec.ofInt 32 x)
            (bValue m.shape false m.bcells.toArray m.desc.toArray col k)) v)
        (fun k => by rw [(hf r col).2 k, progFp_bit]), (hf r col).1]
      simp only [Nat.zero_add]
      rfl
    have hel : ∀ i, i % 32 < 32 → i / 32 % m.shape.nsPitch = 0 → F i = f (i % 32) (i / 32 / m.shape.nsPitch) m.shape.k := by
      intro i h1 h2
      rw [hF]; dsimp only
      rw [h2, hl, if_neg (by omega), h26, if_pos rfl, if_neg (by simp; omega), if_pos h1, half_getD, ← hp]
      simp only [ite_self]
      exact hre _ _ _ _
    refine ⟨fun col r hc hr => ?_, fun j => ?_⟩
    · obtain ⟨i1, i2, i3⟩ := latch_index m.shape col 0 r (by omega) hr
      have hb := latch_bound m.shape col 0 r hc (by omega) hr
      rw [Nat.add_zero] at i1 i2 i3 hb
      rw [hla, hR, tabulate_map, getD_tabulate _ _ _ _ hb, hel _ (by omega) i3, i1, i2]
    · rw [hfl, foldl_or, hR, tabulate_map]
      refine or_congr Iff.rfl ⟨?_, ?_⟩
      · rintro ⟨x, hx, h⟩
        simp only [tabulate, List.mem_map, List.mem_range] at hx
        obtain ⟨i, hi, rfl⟩ := hx
        by_cases h0 : i / 32 % m.shape.nsPitch = 0
        · rw [hel i (by omega) h0] at h
          exact ⟨_, by omega, _, Nat.div_lt_of_lt_mul (by rw [Nat.mul_comm]; omega), h⟩
        · exfalso
          have : (F i).flags = 0 := by
            rw [hF]; dsimp only; split
            · rfl
            · rw [if_pos (Or.inl h0)]
          rw [this] at h; simp at h
      · rintro ⟨r, hr, col, hc, h⟩
        obtain ⟨i1, i2, i3⟩ := latch_index m.shape col 0 r (by omega) hr
        have hb := latch_bound m.shape col 0 r hc (by omega) hr
        rw [Nat.add_zero] at i1 i2 i3 hb
        refine ⟨(F (col * m.shape.nsPitch * 32 + r)).flags, ?_, ?_⟩
        · simp only [tabulate, List.mem_map, List.mem_range]; exact ⟨_, hb, rfl⟩
        · rw [hel _ (by omega) i3, i1, i2]; exact h

/-- A fold over a range as the sequence of its values. -/
theorem fold_seq {α : Type} (g : α → Nat → α) (v : α) : ∃ f : Nat → α, f 0 = v ∧ (∀ k, f (k + 1) = g (f k) k) ∧
    ∀ n, (List.range n).foldl g v = f n :=
  ⟨fun n => (List.range n).foldl g v, rfl, fun k => by simp [List.range_succ, List.foldl_append], fun _ => rfl⟩

/-- One accumulator, span by span (R186, R294). -/
theorem saccCell_steps : (∀ (m : Mx) h rm base j r x acc col, h = m.shape → col = 128 * j + x → ∃ f : Nat →
    Nat × Flg, f 0 = (acc, 0) ∧
    (∀ sp, ∀ row : List Byte, row = m.scales.getD r [] → ∀ sa : Exact,
      sa = (if h.asc = 0 then .fin false 1 1 else if h.asc = 1 then (f32.decode (leNat ((row.drop (4 * sp)).take 4))).val
        else .ofScaled false 1 (base.toInt - ((row.getD (sp / 2) 0).toNat / 16 ^ (sp % 2) % 16 : Nat))) →
      ∀ sc, sc = f16.decode ((m.desc.getD (col * h.ngPitch + sp * h.span / h.gsz) 0).toNat % 2 ^ 16) →
      ∀ k t p v e, k = f32.decode (f sp).1 → t = sa.mul sc.val →
        p = t.1.mul (.ofInt (m.latch.getD ((col * h.nsPitch + sp) * 32 + r) 0).toInt) → v = p.1.add rm k.val →
        e = f32.encode rm v.1 →
      f (sp + 1) = (e.1, (f sp).2 ||| (e.2 ||| v.2 ||| p.2 ||| t.2) ||| sc.nv ||| k.nv)) ∧
    saccCell m rm base j r x acc = f h.ns) := by
  rintro m h rm base j r x acc col rfl rfl
  unfold saccCell
  dsimp only
  obtain ⟨f, h0, hs, hn⟩ := fold_seq (fun (v : Nat × Flg) sp =>
    let sa : Exact :=
      if m.shape.asc = 0 then .ofInt 1
      else if m.shape.asc = 1 then (f32.decode (keptScale m.scales r sp)).val
      else .ofScaled false 1 (base.toInt - keptDelta m.scales r sp)
    let sc := f16.decode (bitsOf ((m.desc.getD ((128 * j + x) * m.shape.ngPitch + sp * m.shape.span / m.shape.gsz) 0).toNat) 0 16)
    let p : Exact := .ofInt (m.latch.getD (((128 * j + x) * m.shape.nsPitch + sp) * 32 + r) 0).toInt
    let q := accumulate rm v.1 sa sc.val p
    (q.1, v.2 ||| q.2 ||| sc.nv ||| (f32.decode v.1).nv)) (acc, 0)
  refine ⟨f, h0, ?_, hn _⟩
  rintro sp row rfl sa rfl sc rfl k t p v e rfl rfl rfl rfl rfl
  rw [hs]
  have e1 : keptDelta m.scales r sp = ((m.scales.getD r []).getD (sp / 2) 0).toNat / 16 ^ (sp % 2) % 16 := by
    unfold keptDelta bitsOf lget; rw [Nat.pow_mul]; rfl
  have e2 : ∀ n, bitsOf n 0 16 = n % 2 ^ 16 := by intro n; simp [bitsOf]
  simp only [e1, e2]
  rfl

/-- A sum of words is the exact sum, narrowed. -/
theorem sum_ofInt (l : List W32) : l.sum = BitVec.ofInt 32 ((l.map BitVec.toInt).sum) := by
  induction l with
  | nil => rfl
  | cons x l ih => rw [List.sum_cons, List.map_cons, List.sum_cons, BitVec.ofInt_add, BitVec.ofInt_toInt, ih]

/-- A word of a drained row (R295). -/
theorem drainRow_word : (∀ (m : Mx) d r x, x < 128 → ∀ h, h = m.shape → ∀ l : Nat → W32,
    (l = fun sp => m.latch.getD (((128 * (d % 32) + x) * h.nsPitch + sp) * 32 + r) 0) →
    (d < 32 → (drainRow m d r).getD x 0 = m.tiles.getD (4096 * (d % 8) + 128 * r + x) 0) ∧
    (32 ≤ d → m.bit 26 = false → (drainRow m d r).getD x 0 = BitVec.ofInt 32 (((List.range h.ns).map fun sp => (l sp).toInt).sum)) ∧
    (32 ≤ d → m.bit 26 = true → (drainRow m d r).getD x 0 = l 0)) := by
  rintro m d r x hx h rfl l rfl
  unfold drainRow
  refine ⟨fun hd => ?_, fun hd h26 => ?_, fun hd h26 => ?_⟩
  · dsimp only; rw [if_pos hd, getD_tabulate _ _ _ _ hx]
  · dsimp only; rw [if_neg (by omega), getD_tabulate _ _ _ _ hx, h26, if_neg (by simp), sum_ofInt, List.map_map]; rfl
  · dsimp only; rw [if_neg (by omega), getD_tabulate _ _ _ _ hx, h26, if_pos rfl]; simp [List.range_succ]

/-- A pass of a microprogram and one of its operations (R297). -/
theorem progOp_table : (∀ p a w v,
    (∃ f : Nat → ProgState, f 0 = v ∧ (∀ i, f (i + 1) = progOp p a w (f i) (p.getD (3 + i) 0).toNat) ∧
      runProg p a w v = f ((p.getD 0 0).toNat % 4 + 1)) ∧
    ∀ op : Nat, ∀ arg : Nat → W32, (arg = fun c => [v.s, a, w, v.t].getD c (p.getD 1 0)) →
      ∀ x y z, x = arg (op / 2 ^ 8 % 8) → y = arg (op / 2 ^ 12 % 8) → z = arg (op / 2 ^ 16 % 8) →
      ∀ dst r : W32, ∀ f : Flg, dst = (if op / 16 % 8 = 1 then v.t else v.s) →
      (progFp p = false → f = 0 ∧ [x + y, x - y, x * y, if x.slt y then x else y, if x.slt y then y else x, x &&& y, x ||| y,
        x ^^^ y, if y.slt x then z else dst, x.sshiftRight (y.toNat % 32)][op % 16]? = some r) →
      (progFp p = true → ∀ fp : (Exact → Exact → Exact × Flg) → W32 × Flg,
        (fp = fun g => (BitVec.ofNat 32 (f32.op2 .rne g x.toNat y.toNat).1, (f32.op2 .rne g x.toNat y.toNat).2)) →
        op % 16 ∈ [0, 1, 2, 3, 4, 8] ∧
        [fp (Exact.add .rne), fp (fun a b => a.add .rne b.neg), fp Exact.mul, fp (fun a b => (a.minimum b, 0)),
          fp (fun a b => (a.maximum b, 0)), (0, 0), (0, 0), (0, 0),
          (if (f32.decode y.toNat).val.lt (f32.decode x.toNat).val then z else dst,
            if (f32.decode x.toNat).val.isNan || (f32.decode y.toNat).val.isNan then nvFlag else 0)][op % 16]? = some (r, f)) →
      progOp p a w v op = if op / 16 % 8 = 1 then { v with t := r, flags := v.flags ||| f } else { v with s := r, flags := v.flags ||| f }) := by
  intro p a w v
  refine ⟨?_, ?_⟩
  · obtain ⟨f, h0, hs, hn⟩ := fold_seq (fun v i => progOp p a w v (progWord p (3 + i))) v
    refine ⟨f, h0, hs, ?_⟩
    unfold runProg progOps bitsOf
    rw [hn, Nat.pow_zero, Nat.div_one]; rfl
  · rintro op arg rfl x y z hX hY hZ dst r f rfl hi hf
    have ha : ∀ c, progOperand p a w v c = [v.s, a, w, v.t].getD c (p.getD 1 0) := by
      intro c
      match c with
      | 0 | 1 | 2 | 3 => rfl
      | c + 4 => simp [progOperand, lget]; rfl
    have e3 : (bitsOf op 4 3 == 1) = decide (op / 16 % 8 = 1) := rfl
    have e0 : bitsOf op 0 4 = op % 16 := by simp [bitsOf]
    have eb : ∀ k, bitsOf op k 3 = op / 2 ^ k % 8 := fun _ => rfl
    unfold progOp
    simp only [ha, eb, e0, beq_iff_eq, show 2 ^ 4 = 16 from rfl]
    rw [← show x = [v.s, a, w, v.t].getD (op / 2 ^ 8 % 8) (p.getD 1 0) from hX,
      ← show y = [v.s, a, w, v.t].getD (op / 2 ^ 12 % 8) (p.getD 1 0) from hY,
      ← show z = [v.s, a, w, v.t].getD (op / 2 ^ 16 % 8) (p.getD 1 0) from hZ]
    clear hX hY hZ ha
    generalize hd : (if op / 16 % 8 = 1 then v.t else v.s) = dst at *
    have hr : (if progFp p = true then opFp (op % 16) x y z dst else (opInt (op % 16) x y z dst, 0)) = (r, f) := by
      clear hd
      cases hp : progFp p with
      | false =>
        obtain ⟨rfl, ht⟩ := hi hp
        clear hi hf
        rw [if_neg (by simp)]
        generalize op % 16 = k at ht
        match k, ht with
        | 0, h | 1, h | 2, h | 3, h | 4, h | 5, h | 6, h | 7, h | 8, h | 9, h => simpa [opInt] using h
        | k + 10, h => simp at h
      | true =>
        obtain ⟨hm, ht⟩ := hf hp _ rfl
        clear hi hf
        rw [if_pos rfl]
        generalize op % 16 = k at ht hm
        match k, ht, hm with
        | 0, h, _ | 1, h, _ | 2, h, _ | 3, h, _ | 4, h, _ => simpa [opFp] using h
        | 5, h, hm | 6, h, hm | 7, h, hm => simp at hm
        | 8, h, _ => simpa [opFp, Fmt.signalCmp, flagIf] using h
        | k + 9, h, hm => simp at h
    rw [hr]

/-- The end of the current task's run (R166, R293, R298). -/
theorem State.runEnd_effect : (∀ u : State, u.task.status = .running → u.task.resident = true → u.task.mx.bit 24 = true →
    ∀ m f g, m = u.task.mx.finish → f = m.runFlags → g = f &&& u.task.fena.setWidth 5 →
    ∀ t, t = (let v := u.setTask fun t => { t with mx := { m with runFlags := 0 }, fstat := t.fstat ||| f.setWidth 64 }
      if f = 0 then v else v.setCluster (clusterId u.task.core) fun c => { c with cflags := c.cflags ||| f }) →
    ∀ live : Bool, live = (!u.task.waitOn.again && (u.die u.task.core.die.toNat).supv.getLsbD 0) →
    (g = 0 ∨ live = false → u.runEnd u.task.key (u.task.mx.bit 26) = t.serve) ∧
    (g ≠ 0 → live = true → u.runEnd u.task.key (u.task.mx.bit 26) = ((t.park g m.runPc).swapTo u.task.key).serve)) := by
  rintro u hr hres h24 m f g rfl rfl rfl t ht live rfl
  have hof : u.taskOf u.task.key = some u.task := by
    unfold State.taskOf State.allTasks; simp
  have hrl : u.reload u.task.key = u := by
    unfold State.reload; rw [hof]; dsimp only; rw [if_pos hres]
  have hsw : u.swapTo u.task.key = u := by unfold State.swapTo; rw [if_pos rfl]
  have hfin : u.finishRun = t := by
    unfold State.finishRun State.raiseFlags State.setMx
    rw [show u.task.mx.running = true from h24, if_pos rfl, ht]
    dsimp only [State.setTask]
    by_cases hf : u.task.mx.finish.runFlags = 0
    · rw [if_pos hf, if_pos hf]
    · rw [if_neg hf, if_neg hf]; rfl
  have htk : t.task.key = u.task.key ∧ t.task.status = u.task.status ∧ t.task.waitOn = u.task.waitOn ∧ t.task.core = u.task.core ∧
      t.dies = u.dies ∧ t.task.mx.runPc = u.task.mx.finish.runPc := by
    rw [ht]; dsimp only [State.setTask]; split <;> exact ⟨rfl, rfl, rfl, rfl, rfl, rfl⟩
  have key : u.runEnd u.task.key (u.task.mx.bit 26) = ((if u.task.mx.finish.runFlags &&& u.task.fena.setWidth 5 ≠ 0 ∧
      (!u.task.waitOn.again) = true ∧ (u.die u.task.core.die.toNat).supv.getLsbD 0 = true
      then t.park (u.task.mx.finish.runFlags &&& u.task.fena.setWidth 5) u.task.mx.finish.runPc else t).swapTo u.task.key).serve := by
    unfold State.runEnd
    rw [hof]; dsimp only
    rw [show u.task.mx.running = true from h24, hrl, if_pos (by simp), if_neg (by rw [hr]; simp)]
    unfold State.asTask
    rw [hsw]; dsimp only; rw [hfin, htk.2.1, hr, htk.2.2.1, htk.2.2.2.1]
    rw [show t.die _ = u.die _ from by unfold State.die; rw [htk.2.2.2.2.1], htk.2.2.2.2.2]
    rfl
  have hst : t.swapTo u.task.key = t := by unfold State.swapTo; rw [if_pos htk.1]
  rw [key]
  refine ⟨fun h => ?_, fun h1 h2 => ?_⟩
  · rw [if_neg, hst]
    rintro ⟨a, b, c⟩
    rcases h with h | h
    · exact a h
    · rw [b, c] at h; simp at h
  · rw [if_pos]
    rw [Bool.and_eq_true] at h2
    exact ⟨h1, h2.1, h2.2⟩

end Sys2Proof.Machine
end

