-- ==== Sys2Proof/Laws/Operands.lean ====
section
/-! SUPPORT. What the operand operations and the common bodies do (R15, R192, R196, R215). -/

namespace Sys2Proof.Machine

section reads
variable {s s1 s2 s3 : State} {a b d : Spec} {x y : W64}

/-- Reading an operand leaves the task on its core. -/
theorem readScalar_core (h : readScalar a s = .ok x s1) : s1.task.core = s.task.core := by
  unfold readScalar at h
  by_cases h1 : a.toNat < 32
  · rw [if_pos h1] at h; cases h; rfl
  rw [if_neg h1] at h
  by_cases h2 : a.toNat < 48
  · rw [if_pos h2] at h
    unfold popChannel at h
    simp only [get_bind] at h
    cases hc : s.task.pktChan with
    | none => rw [hc] at h; cases h
    | some c =>
      rcases hp : s.task.pkt with _ | ⟨lo, _ | ⟨hi, rest⟩⟩ <;> rw [hc, hp] at h
      · cases h
      · cases h
      · dsimp only at h
        split at h
        · cases h; rfl
        · cases h
  · rw [if_neg h2] at h
    unfold popQueue at h
    simp only [get_bind] at h
    rcases hq : lget (s.cluster (clusterId s.task.core)).queues (a.toNat - 48) with _ | ⟨v, rest⟩ <;> rw [hq] at h <;> cases h
    rfl

theorem binary_run {f : W64 → W64 → W64} (hr : Reads2 a b s x y s1) (hw : Writes s d (f x y) s1 s2) :
    Gives (binary d a b f) s .seq s2 := by
  obtain ⟨hb, s0, ⟨ha, h1⟩, h2⟩ := hr
  obtain ⟨hd, h3⟩ := hw
  unfold Gives binary
  rw [bind_ok (checkSrc_of ha), bind_ok (checkSrc_of hb), bind_ok (checkDst_of hd), bind_ok h1, bind_ok h2, bind_ok h3]
  rfl

theorem unary_run {f : W64 → W64} (hr : Reads a s x s1) (hw : Writes s d (f x) s1 s2) : Gives (unary d a f) s .seq s2 := by
  obtain ⟨ha, h1⟩ := hr
  obtain ⟨hd, h3⟩ := hw
  unfold Gives unary
  rw [bind_ok (checkSrc_of ha), bind_ok (checkDst_of hd), bind_ok h1, bind_ok h3]
  rfl

/-- An instruction whose meaning is `binary` writes the function of its two sources. -/
theorem binary_result {i : Spec → Spec → Spec → Instr} {f g : W64 → W64 → W64} (hfg : ∀ x y, g x y = f x y)
    (h : ∀ d a b s, exec (i d a b) s = issue .any {} (i d a b) (binary d a b g) s) : BinaryResult i f := by
  obtain rfl : g = f := by funext x y; exact hfg x y
  intro d a b x y s s1 s2 he hr hw
  rw [h, issue_ok he (binary_run hr hw)]

/-- An instruction whose meaning is `unary` writes the function of its source. -/
theorem unary_result {i : Spec → Spec → Instr} {f g : W64 → W64} (hfg : ∀ x, g x = f x)
    (h : ∀ d a s, exec (i d a) s = issue .any {} (i d a) (unary d a g) s) : UnaryResult i f := by
  obtain rfl : g = f := by funext x; exact hfg x
  intro d a x s s1 s2 he hr hw
  rw [h, issue_ok he (unary_run hr hw)]

end reads

theorem sext64_eq {w : Nat} (hw : 0 < w) (hw' : w ≤ 64) (v : Nat) : sext64 w v = (BitVec.ofNat w v).signExtend 64 := by
  have h1 : 2 ^ w = 2 * 2 ^ (w - 1) := by rw [← Nat.pow_succ']; congr 1; omega
  have h2 : (2 : Nat) ^ w ≤ 2 ^ 64 := Nat.pow_le_pow_right (by omega) hw'
  have h3 := Nat.mod_lt v (Nat.two_pow_pos w)
  unfold sext64
  simp only [show ¬ w = 0 by omega, if_false]
  rw [BitVec.signExtend, BitVec.toInt_eq_toNat_cond, BitVec.toNat_ofNat]
  by_cases h : v % 2 ^ w < 2 ^ (w - 1)
  · rw [if_pos h, if_pos (by omega), ← BitVec.ofInt_natCast]
  · rw [if_neg h, if_neg (by omega)]

theorem append_ofNat {w : Nat} (p : BitVec 22) (f : BitVec w) :
    (BitVec.ofNat (w + 22) (p.toNat * 2 ^ w + f.toNat)).signExtend 64 = (p ++ f).signExtend 64 := by
  have h : p.toNat * 2 ^ w + f.toNat = (p ++ f).toNat := by
    rw [BitVec.toNat_append, Nat.shiftLeft_eq, ← Nat.shiftLeft_eq, Nat.shiftLeft_add_eq_or_of_lt f.isLt]
  have e : ∀ n m (h : n = m) (v : Nat), (BitVec.ofNat n v).signExtend 64 = (BitVec.ofNat m v).signExtend 64 := by
    rintro n m rfl v; rfl
  rw [h, e _ (22 + w) (by omega), BitVec.ofNat_toNat, BitVec.setWidth_eq]

/-- The immediate of a field (R196). -/
theorem immediate_run {w : Nat} (f : BitVec w) (s : State) (hw : 0 < w) (hw' : w ≤ 42) :
    immediate w f.toNat s = .ok (immediateOf s.task.hints f) s := by
  unfold immediate immediateOf
  simp only [get_bind]
  cases s.task.hints.himm with
  | none => show EStateM.Result.ok _ _ = _; rw [sext64_eq hw (by omega), BitVec.ofNat_toNat, BitVec.setWidth_eq]
  | some p =>
    show EStateM.Result.ok _ _ = _
    rw [sext64_eq (by omega) (by omega)]
    rw [append_ofNat]

/-- The target of a word offset (R192). -/
theorem branchTarget_run {w : Nat} (f : BitVec w) (s : State) (hw : 0 < w) (hw' : w ≤ 42) :
    branchTarget w f.toNat s = .ok (targetOf s f) s := by
  unfold branchTarget
  simp only [get_bind]
  rw [bind_ok (immediate_run f s hw hw')]
  rfl

end Sys2Proof.Machine
end

