-- ==== Sys2Proof/Tests/Slice0.lean ====
section
/-! SUPPORT. The tests of this sitting: words of the spec's encoding tables, ill-formed terms, single steps on small
states, and for every obligation with hypotheses a state and operands that meet them. -/

open Sys2Proof Sys2Proof.Machine

namespace Sys2Proof.Tests

set_option Elab.async false

/-- The value an operation gives, a default where it stops. -/
def valueOf [Inhabited α] (m : M α) (s : State) : α :=
  match m s with
  | .ok x _ => x
  | .error .. => default

/-- The state an operation leaves. -/
def after (m : M α) (s : State) : State :=
  match m s with
  | .ok _ t => t
  | .error _ t => t

/-- Whether an operation succeeds. -/
def runs (m : M α) (s : State) : Bool :=
  match m s with
  | .ok .. => true
  | .error .. => false

theorem gives [Inhabited α] {m : M α} {s : State} (h : runs m s = true) : Gives m s (valueOf m s) (after m s) := by
  unfold runs at h
  unfold Gives valueOf after
  split at h
  · rename_i e; rw [e]
  · contradiction

theorem reads {a : Spec} {s : State} (h : (scalarSrcOk s.task.core a && runs (readScalar a) s) = true) :
    Reads a s (valueOf (readScalar a) s) (after (readScalar a) s) := by
  rw [Bool.and_eq_true] at h
  exact ⟨h.1, gives h.2⟩

theorem writes {s : State} {d : Spec} {v : W64} {s1 : State}
    (h : (scalarDstOk s.task.core d && runs (writeScalar d v) s1) = true) : Writes s d v s1 (after (writeScalar d v) s1) := by
  rw [Bool.and_eq_true] at h
  exact ⟨h.1, gives h.2⟩

theorem loads {s : State} {d : Spec} {v : W64} {s1 : State}
    (h : (scalarDstOk s.task.core d && runs (writeLoaded d v) s1) = true) : Loads s d v s1 (after (writeLoaded d v) s1) := by
  rw [Bool.and_eq_true] at h
  exact ⟨h.1, gives h.2⟩

theorem readsV {a : Spec} {s : State} (h : (decide (a.toNat < 48) && runs (readVector a) s) = true) :
    ReadsV a s (valueOf (readVector a) s) (after (readVector a) s) := by
  rw [Bool.and_eq_true, decide_eq_true_eq] at h
  exact ⟨h.1, gives h.2⟩

theorem enabled {s : State} {k : CoreClass} {a : HintSet}
    (h : (k.allows s.task.core && a.allows s.task.hints && s.task.guard) = true) : s.Enabled k a := by
  rw [Bool.and_eq_true, Bool.and_eq_true] at h
  exact ⟨h.1.1, h.1.2, h.2⟩

/-- A lane core's task: g1 = 5, g2 = 3, g3 an address in its cluster's local window, g4 a multiple of 4 beside it; eight
lanes; e0 and e1 hold the long float 1. -/
def lane : State :=
  { State.reset with
    nextKey := 2,
    task := {
      key := 1, status := .running, pc := 0x40000000, asid := 1, jobkey := 7, sbase := 0x100000, slim := 0x200000,
      ctx := 0x7F0000001000, lanes := List.replicate 8 (Vector.replicate 32 (1 : W32)),
      g := vec32 fun i => if i = 1 then 5 else if i = 2 then 3 else if i = 3 then 0x7F0000000040 else if i = 4 then 0x7F0000000080
        else if i = 5 then 8 else if i = 6 then 4096 else if i = 7 then 0x7F0000002000 else 0 } }

/-- The same task on an issuer. -/
def issuer : State := lane.setTask fun t => { t with core := ⟨0, 0, 9⟩ }

theorem lane_enabled : lane.Enabled .any {} := enabled (by decide +kernel)
theorem lane_lane : lane.Enabled .lane {} := enabled (by decide +kernel)
theorem lane_imm : lane.Enabled .any { imm := true } := enabled (by decide +kernel)
theorem lane_ord : lane.Enabled .any { ord := true } := enabled (by decide +kernel)
theorem lane_send : lane.Enabled .any sendHints := enabled (by decide +kernel)
theorem issuer_enabled : issuer.Enabled .issuer {} := enabled (by decide +kernel)
theorem lane_vector : lane.EnabledV := ⟨lane_lane, by decide +kernel⟩


/-! ## Witnesses: the hypotheses of each obligation can be met -/

theorem givesValue [DecidableEq α] {m : M α} {s : State} {x : α}
    (h : (match m s with | .ok y _ => decide (y = x) | _ => false) = true) : Gives m s x (after m s) := by
  unfold Gives after
  split at h
  · rename_i e; rw [e, of_decide_eq_true h]
  · contradiction

/-- After reset, with `ADDI g1, g1, -64` where the next step fetches it. -/
def placed : State := State.reset.withFetchWord 32 0x08107FC0

/-- The same with a word no instruction has. -/
def placedBad : State := State.reset.withFetchWord 32 0

theorem reset_inv : State.reset.Inv := ⟨by decide, by decide, by simp [State.reset], by simp [State.reset]⟩

theorem witness_StepKeepsTheStorageForm : ∃ s s' : State, s.Inv ∧ step s = .next s' :=
  ⟨_, _, reset_inv, rfl⟩

theorem witness_DecodeOfEncode : ∃ i w, wellFormed i = true ∧ encode i = some w :=
  ⟨.addi 1 1 0x3FC0#14, 0x08107FC0, rfl, rfl⟩

theorem witness_EncodeOfDecode : ∃ i w, w < 2 ^ 32 ∧ decode w = .ok i := ⟨_, 0x08107FC0, by decide, rfl⟩

theorem witness_StepRunsTheDecodedInstruction : (∃ (s : State) (w : Nat) (s' : State) (i : Instr), s.agenda = [] ∧
      s.task.issues = true ∧ s.task.waitOn.again = false ∧ s.turns < turnLength ∧
      Gives fetch ({ s with turns := s.turns + 1 }).age w s' ∧ decode w = .ok i) ∧
    ∃ s : State, s.agenda = [] ∧ s.task.issues = true ∧ s.task.waitOn.again = true ∧ s.turns < turnLength :=
  ⟨⟨placed, 0x08107FC0, _, .addi 1 1 0x3FC0#14, rfl, rfl, rfl, by decide, givesValue (by decide +kernel), rfl⟩,
   lane.setTask fun t => { t with waitOn := .home }, rfl, rfl, rfl, by decide⟩

theorem witness_StepTrapsOnAnUnassignedWord : ∃ (s : State) (w : Nat) (s' : State) (e : _), s.agenda = [] ∧
    s.task.issues = true ∧ s.task.waitOn.again = false ∧ s.turns < turnLength ∧
    Gives fetch ({ s with turns := s.turns + 1 }).age w s' ∧ decode w = .error e :=
  ⟨placedBad, 0, _, _, rfl, rfl, rfl, by decide, givesValue (by decide +kernel), rfl⟩

/-- A state whose guard is false: HPRED of p1, which is 0, is pending. -/
def guarded : State := lane.setTask fun t => { t with hints := { hpred := some 1 } }

theorem witness_FalseGuardHasNoEffect : ∃ i k a, ∃ s : State, gateOf i = some (k, a) ∧ k.allows s.task.core = true ∧
    a.allows s.task.hints = true ∧ s.task.guard = false :=
  ⟨.add 1 2 3, .any, {}, guarded, rfl, by decide +kernel, by decide +kernel, by decide +kernel⟩

theorem witness_MisplacedWordTraps : (∃ i k a w, ∃ s : State, gateOf i = some (k, a) ∧
      (k.allows s.task.core && a.allows s.task.hints) = false ∧ encode i = some w) ∧
    ∃ i k a w, ∃ s : State, gateOf i = some (k, a) ∧ (k.allows s.task.core && a.allows s.task.hints) = false ∧
      encode i = some w :=
  ⟨⟨.lrelease, .lane, {}, _, issuer, rfl, by decide +kernel, rfl⟩,
   .add 1 2 3, .any, {}, _, lane.setTask fun t => { t with hints := { himm := some 0 } }, rfl, by decide +kernel, rfl⟩

theorem witness_HowAnInstructionEnds : (∃ s s' : State, s.task.hints.hlive = none ∧ s'.queues = s.queues ∧ s'.failed = s.failed) ∧
    ∃ s s' : State, ∃ p, s.task.hints.hlive = some p ∧ s'.queues = s.queues ∧ s'.failed = s.failed :=
  ⟨⟨lane, lane, rfl, rfl, rfl⟩, lane.setTask fun t => { t with hints := { hlive := some 0 } }, lane, 0, rfl, rfl, rfl⟩

/-- The lane task with a vector table in its window, whose word for class 7 names the handler at 4. -/
def vectored : State := { lane.setTask (fun t => { t with tvec := 0x7F0000000001 }) with mem := [(scratchBase 0 0 + 56, 4)] }

theorem witness_TrapEntry : ∃ (s s' : State) (c : BitVec 8) (v epc : W64) (h : Nat), s.task.tstat.getLsbD 0 = false ∧
    s.task.tvec.getLsbD 0 = true ∧ Gives (loadNat (s.task.tvec &&& ~~~63#64 ||| BitVec.ofNat 64 (8 * (c.toNat / 16 % 8))) 8)
      (s.setTask (·.saveTrap c v epc)) h s' ∧ h ≠ 0 :=
  ⟨vectored, _, 0x70, 0, 0x40000004, 4, rfl, rfl, givesValue (by decide +kernel), by decide⟩

/-- The lane task in a handler. -/
def inHandler : State := lane.setTask fun t => { t with tstat := 1, tepc := 0x40000010 }

theorem witness_TrapWithoutHandlerTerminates : (∃ s : State, s.task.tstat.getLsbD 0 = true) ∧
    (∃ s : State, s.task.tstat.getLsbD 0 = false ∧ s.task.tvec.getLsbD 0 = false) ∧
    (∃ (s s' : State) (c : BitVec 8) (v epc : W64), s.task.tstat.getLsbD 0 = false ∧ s.task.tvec.getLsbD 0 = true ∧
      Gives (loadNat (s.task.tvec &&& ~~~63#64 ||| BitVec.ofNat 64 (8 * (c.toNat / 16 % 8))) 8) (s.setTask (·.saveTrap c v epc)) 0 s') ∧
    ∃ (s s' : State) (c : BitVec 8) (v epc : W64), s.task.tstat.getLsbD 0 = false ∧ s.task.tvec.getLsbD 0 = true ∧
      ∃ e, loadNat (s.task.tvec &&& ~~~63#64 ||| BitVec.ofNat 64 (8 * (c.toNat / 16 % 8))) 8 (s.setTask (·.saveTrap c v epc)) = .error e s' :=
  ⟨⟨inHandler, rfl⟩, ⟨lane, rfl, rfl⟩, ⟨vectored, _, 0x60, 0, 0, rfl, rfl, givesValue (by decide +kernel)⟩,
   lane.setTask fun t => { t with tvec := 0x0080000000000001 }, _, 0x70, 0, 0, rfl, rfl, _, rfl⟩

/-- A handler task that reads a packet of two words on channel 0. -/
def reader : State := lane.setTask fun t => { t with pktChan := some 0, pkt := [1, 2] }

/-- The issuer's cluster with an entry in queue 0. -/
def queued : State := issuer.setCluster (clusterId issuer.task.core) fun c => { c with queues := lset c.queues 0 [9] }

theorem witness_OperandForms :
    (∃ x : Spec, x.toNat < 32) ∧
    (∃ (s : State) (x : Spec) (c : BitVec 4) (lo hi : W32) (rest : List W32), 32 ≤ x.toNat ∧ x.toNat < 48 ∧
      s.task.pktChan = some c ∧ c.toNat = x.toNat - 32 ∧ s.task.pkt = lo :: hi :: rest) ∧
    (∃ (s : State) (x : Spec) (v : W64) (rest : List W64), readsQueue s.task.core x = true ∧
      lget s.queues (x.toNat - 48) = v :: rest) ∧
    (∃ (s : State) (d : Spec), writesQueue s.task.core d = true ∧ (lget s.queues (d.toNat - 48)).length < 4) ∧
    ∃ (s : State) (x : Spec), 32 ≤ x.toNat ∧ x.toNat < 48 ∧ ∀ c, s.task.pktChan = some c → c.toNat ≠ x.toNat - 32 :=
  ⟨⟨31, by decide⟩, ⟨reader, 32, 0, 1, 2, [], by decide, by decide, rfl, rfl, rfl⟩,
   ⟨queued, 48, 9, [], by decide +kernel, by decide +kernel⟩, ⟨issuer, 55, by decide, by decide⟩,
   reader, 47, by decide, by decide, fun c h => by cases h; decide⟩

/-- The hypotheses of a statement about two sources and a destination, whatever the function. -/
theorem witness_binary (f : W64 → W64 → W64) : ∃ (d a b : Spec) (x y : W64) (s s1 s2 : State), s.Enabled .any {} ∧
    Reads2 a b s x y s1 ∧ Writes s d (f x y) s1 s2 :=
  ⟨1, 1, 2, 5, 3, lane, _, _, lane_enabled, ⟨by decide, _, ⟨by decide, rfl⟩, rfl⟩, by decide, rfl⟩

theorem witness_unary (f : W64 → W64) : ∃ (d a : Spec) (x : W64) (s s1 s2 : State), s.Enabled .any {} ∧ Reads a s x s1 ∧
    Writes s d (f x) s1 s2 :=
  ⟨0, 1, 5, lane, _, _, lane_enabled, ⟨by decide, rfl⟩, by decide, rfl⟩


theorem witness_DivisionResults : (∃ x y : W64, y ≠ 0 ∧ ¬(x = 0x8000000000000000 ∧ y = -1)) ∧
    ∀ f : W64 → W64 → W64, ∃ (d a b : Spec) (x y : W64) (s s1 s2 : State), s.Enabled .any {} ∧ Reads2 a b s x y s1 ∧ Writes s d (f x y) s1 s2 :=
  ⟨⟨0x8000000000000000, 1, by decide, by decide⟩, witness_binary⟩

theorem witness_BitFieldResults (f : W64 → W64 → W64 → W64) : ∃ (d a b : Spec) (x y z : W64) (s s1 s2 s3 : State),
    s.Enabled .any {} ∧ scalarSrcOk s.task.core d = true ∧ Reads2 a b s x y s1 ∧ readScalar d s1 = .ok z s2 ∧
    Writes s d (f z x y) s2 s3 :=
  ⟨1, 1, 2, 5, 3, 5, lane, _, _, _, lane_enabled, by decide, ⟨by decide, _, ⟨by decide, rfl⟩, rfl⟩, rfl, by decide, rfl⟩

theorem witness_SelectResults : ∃ (d a b : Spec) (p : BitVec 3) (x y : W64) (s s1 s2 : State), s.Enabled .any {} ∧
    Reads2 a b s x y s1 ∧ Writes s d (if p = 0 ∨ s.task.p.getLsbD p.toNat = true then x else y) s1 s2 :=
  ⟨1, 1, 2, 7, 5, 3, lane, _, _, lane_enabled, ⟨by decide, _, ⟨by decide, rfl⟩, rfl⟩, by decide, rfl⟩

/-- The lane task under a pending HIMM. -/
def widened : State := lane.setTask fun t => { t with hints := { himm := some 0x3FFFFFF } }

theorem widened_imm : widened.Enabled .any { imm := true } := enabled (by decide +kernel)

theorem witness_ImmediateResults (f : W64 → W64) : (∃ (d a : Spec) (x : W64) (s s1 s2 : State),
      s.Enabled .any { imm := true } ∧ s.task.hints.himm ≠ none ∧ Reads a s x s1 ∧ Writes s d (f x) s1 s2) ∧
    ∃ (d : Spec) (x : W64) (s s1 : State), s.Enabled .any { imm := true } ∧ Writes s d x s s1 :=
  ⟨⟨1, 1, 5, widened, _, _, widened_imm, by decide, ⟨by decide, rfl⟩, by decide, rfl⟩,
   1, 0xFFFFFFFF, lane, _, lane_imm, by decide, rfl⟩

theorem witness_IntegerFrame : ∃ (d a b : Spec) (s : State), s.Enabled .any {} ∧ s.task.hints.hlive = none ∧
    d.toNat < 32 ∧ a.toNat < 32 ∧ b.toNat < 32 ∧ s.Enabled .any { imm := true } :=
  ⟨31, 0, 31, lane, lane_enabled, rfl, by decide, by decide, by decide, lane_imm⟩

theorem witness_IllegalScalarOperand : ∀ srcs ∈ [[], [63], [31, 48], [47, 2, 56]], ∃ (d : Spec) (s : State) (x : Spec),
    s.Enabled .any {} ∧ s.Enabled .any { imm := true } ∧
    (srcs.filter (fun x => !scalarSrcOk s.task.core x) ++ [d].filter (fun x => !scalarDstOk s.task.core x)).head? = some x := by
  intro srcs h
  simp only [List.mem_cons, List.not_mem_nil, or_false] at h
  rcases h with rfl | rfl | rfl | rfl <;> exact ⟨32, lane, _, lane_enabled, lane_imm, rfl⟩

theorem witness_CompareAndPredicateResults : (∃ (a b : Spec) (c : BitVec 6) (x y : W64) (s s1 : State), c.toNat < 7 ∧
      s.Enabled .any {} ∧ Reads2 a b s x y s1) ∧
    ∃ (a : Spec) (c : BitVec 3) (x : W64) (s s1 : State), c ≠ 7 ∧ s.Enabled .any { imm := true } ∧ Reads a s x s1 :=
  ⟨⟨1, 2, 6, 5, 3, lane, _, by decide, lane_enabled, by decide, _, ⟨by decide, rfl⟩, rfl⟩,
   1, 6, 5, lane, _, by decide, lane_imm, by decide, rfl⟩

theorem witness_PredicateSaveAndLoad : (∃ (d : Spec) (v : W64) (s s1 : State), s.Enabled .any {} ∧
      (∀ i, i < 64 → v.getLsbD i = (decide (i = 0) || decide (i < 8) && s.task.p.getLsbD i)) ∧ Writes s d v s s1) ∧
    ∃ (a : Spec) (x : W64) (s s1 : State), s.Enabled .any {} ∧ Reads a s x s1 :=
  ⟨⟨1, 1, lane, _, lane_enabled, by decide +kernel, by decide, rfl⟩, 1, 5, lane, _, lane_enabled, by decide, rfl⟩

theorem witness_BranchesAndJumps : (∃ s : State, s.Enabled .any { imm := true }) ∧
    (∃ (a : Spec) (x : W64) (s s1 : State), s.Enabled .any { imm := true } ∧ Reads a s x s1) ∧
    (∃ (a : Spec) (x : W64) (s s1 : State), s.Enabled .any {} ∧ Reads a s x s1 ∧ x.toNat % 4 = 0) ∧
    ∃ (a : Spec) (x : W64) (s s1 : State), s.Enabled .any {} ∧ Reads a s x s1 ∧ x.toNat % 4 ≠ 0 ∧ s1.queues = s.queues :=
  ⟨⟨lane, lane_imm⟩, ⟨1, 5, lane, _, lane_imm, by decide, rfl⟩,
   ⟨3, 0x7F0000000040, lane, _, lane_enabled, ⟨by decide, rfl⟩, by decide⟩,
   1, 5, lane, _, lane_enabled, ⟨by decide, rfl⟩, by decide, rfl⟩

/-- The lane task one call below its outermost frame, its return address in g15. -/
def called : State := lane.setTask fun t => { t with saved := [Vector.replicate 16 0], g := vset t.g 15 0x40000008 }

theorem called_enabled : called.Enabled .any {} := enabled (by decide +kernel)

/-- The lane task with a register stack of exactly one frame. -/
def narrow : State := lane.setTask fun t => { t with slim := t.sbase + 128 }

/-- The lane task with 28 deeper frames, which fill the normal tasks' banks. -/
def crowded : State := lane.setTask fun t => { t with saved := List.replicate 28 (Vector.replicate 16 0) }

theorem narrow_imm : narrow.Enabled .any { imm := true } := enabled (by decide +kernel)

theorem witness_CallsSlideTheWindow : (∃ s : State, 0 < s.freeBanks s.task) ∧ (∃ s : State, s.freeBanks s.task = 0) ∧
    (∃ u : State, u.task.saved = [] ∨ u.task.outFrames < u.task.saved.length) ∧
    (∃ u : State, u.task.saved ≠ [] ∧ u.task.saved.length ≤ u.task.outFrames) ∧ (∃ s : State, s.Enabled .any { imm := true } ∧ s.task.hints.himm = none ∧
      s.task.sbase.toNat + 128 * (s.task.saved.length + 2) ≤ s.task.slim.toNat ∧
      ∃ (a : Spec) (x : W64) (s1 : State), s.Enabled .any {} ∧ Reads a s x s1 ∧ x.toNat % 4 = 0 ∧
        s1.task.sbase.toNat + 128 * (s1.task.saved.length + 2) ≤ s1.task.slim.toNat) ∧
    (∃ (s s1 : State) (a : Spec) (x : W64), s.Enabled .any {} ∧ Reads a s x s1 ∧ s1.queues = s.queues ∧ x.toNat % 4 ≠ 0) ∧
    (∃ (s s1 : State) (a : Spec) (x : W64), s.Enabled .any {} ∧ Reads a s x s1 ∧ s1.queues = s.queues ∧ x.toNat % 4 = 0 ∧
      s1.task.slim.toNat < s1.task.sbase.toNat + 128 * (s1.task.saved.length + 2)) ∧
    ∃ s : State, s.Enabled .any { imm := true } ∧ s.task.hints.himm = none ∧
      s.task.slim.toNat < s.task.sbase.toNat + 128 * (s.task.saved.length + 2) :=
  ⟨⟨lane, by decide⟩, ⟨crowded, by decide +kernel⟩, ⟨lane, .inl rfl⟩,
   ⟨called.setTask fun t => { t with outFrames := 1 }, by decide, by decide⟩, ⟨lane, lane_imm, rfl, by decide, 31, 0, _, lane_enabled, ⟨by decide, rfl⟩, by decide, by decide⟩,
   ⟨lane, _, 1, 5, lane_enabled, ⟨by decide, rfl⟩, rfl, by decide⟩,
   ⟨narrow, _, 3, 0x7F0000000040, enabled (by decide +kernel), ⟨by decide, rfl⟩, rfl, by decide, by decide⟩,
   narrow, narrow_imm, rfl, by decide⟩

theorem witness_ReturnsSlideTheWindowBack : (∃ (s : State) (v : Vector W64 16) (rest : List (Vector W64 16)),
      s.Enabled .any {} ∧ s.task.saved = v :: rest ∧ (vget s.task.g 15).toNat % 4 = 0 ∧ s.task.outFrames < max 1 rest.length) ∧
    (∃ (s : State) (v : Vector W64 16) (rest : List (Vector W64 16)), s.Enabled .any {} ∧ s.task.saved = v :: rest ∧
      (vget s.task.g 15).toNat % 4 = 0 ∧ 1 ≤ rest.length ∧ s.task.outFrames = rest.length) ∧
    (∃ (s : State) (v : Vector W64 16) (rest : List (Vector W64 16)), s.Enabled .any {} ∧ s.task.saved = v :: rest ∧
      (vget s.task.g 15).toNat % 4 = 0 ∧ rest.length < s.task.outFrames) ∧
    (∃ s : State, s.Enabled .any {} ∧ s.task.saved ≠ [] ∧ (vget s.task.g 15).toNat % 4 ≠ 0) ∧
    (∃ s : State, s.Enabled .any {} ∧ s.task.saved = []) ∧ ∃ k, k < 31 :=
  ⟨⟨called, _, [], called_enabled, rfl, by decide, by decide⟩,
   ⟨called.setTask fun t => { t with saved := [Vector.replicate 16 0, Vector.replicate 16 0], outFrames := 1 }, _, _,
    enabled (by decide +kernel), rfl, by decide, by decide, rfl⟩,
   ⟨called.setTask fun t => { t with outFrames := 1 }, _, [], enabled (by decide +kernel), rfl, by decide, by decide⟩,
   ⟨called.setTask fun t => { t with g := vset t.g 15 3 }, enabled (by decide +kernel), by decide, by decide⟩, ⟨lane, lane_enabled, rfl⟩, 30, by decide⟩

theorem inHandler_enabled : inHandler.Enabled .any {} := enabled (by decide +kernel)

theorem witness_ControlResults : (∃ s : State, s.Enabled .any {} ∧ s.task.high = false ∧ s.chq = [] ∧
      s.task.hints.hlive = none) ∧
    (∃ s : State, s.Enabled .any {} ∧ s.task.tstat.getLsbD 0 = true) ∧
    ∃ s : State, s.Enabled .any {} ∧ s.task.tstat.getLsbD 0 = false :=
  ⟨⟨lane, lane_enabled, rfl, rfl, rfl⟩, ⟨inHandler, inHandler_enabled, rfl⟩, lane, lane_enabled, rfl⟩

theorem witness_HintsBecomePending : (∃ h : Hints, h.himm = none ∧ h.hlive = none ∧ h.hnt = none ∧ h.hpred = none ∧
      h.hord = none ∧ h.hpri = none) ∧ (∃ p : BitVec 2, p ≠ 3) ∧
    ∃ (s : State) (w1 w2 w3 w4 w5 w6 : Nat), s.task.hints.himm.isSome ∧ s.task.hints.hlive.isSome ∧
      s.task.hints.hpred.isSome ∧ s.task.hints.hnt.isSome ∧ s.task.hints.hord.isSome ∧ s.task.hints.hpri.isSome ∧
      encode (.himm 0) = some w1 ∧ encode (.hlive 0) = some w2 ∧ encode (.hpred 0 0) = some w3 ∧
      encode (.hnt 0) = some w4 ∧ encode (.hord 0 0) = some w5 ∧ encode (.hpri 0) = some w6 :=
  ⟨⟨{}, rfl, rfl, rfl, rfl, rfl, rfl⟩, ⟨2, by decide⟩,
   lane.setTask fun t => { t with
    hints := { himm := some 0, hlive := some 0, hpred := some 0, hnt := some 0, hord := some (0, 0), hpri := some 0 } },
   _, _, _, _, _, _, rfl, rfl, rfl, rfl, rfl, rfl, rfl, rfl, rfl, rfl, rfl, rfl⟩

theorem witness_ControlRegisterReads : (∃ (d : Spec) (s s1 : State), s.Enabled .any {} ∧ Writes s d s.task.tid s s1) ∧
    (∃ (d : Spec) (n : BitVec 12) (s : State), s.Enabled .any {} ∧ scalarDstOk s.task.core d = true ∧
      s.creg n.toNat = none) ∧ ∃ n, 0x071 ≤ n :=
  ⟨⟨1, lane, _, lane_enabled, by decide, rfl⟩, ⟨31, 0x071, lane, lane_enabled, by decide, rfl⟩, 0x071, by decide⟩

theorem witness_ControlRegisterWrites : (∃ (d : Spec) (v : W64) (s s1 : State), s.Enabled .any {} ∧ Reads d s v s1 ∧
      v.toNat < 5) ∧
    (∃ (d : Spec) (v : W64) (s s1 : State), s.Enabled .any {} ∧ Reads d s v s1 ∧ s1.queues = s.queues ∧ 5 ≤ v.toNat) ∧
    (∃ (d : Spec) (v : W64) (s s1 : State), s.Enabled .any {} ∧ Reads d s v s1 ∧ v &&& 0x3F07 = v ∧
      s1.creg 0x071 = none ∧ s1.queues = s.queues) ∧
    (∃ v : W64, 1 ≤ v.toNat % 16 ∧ v.toNat % 16 ≤ 8 ∧ 1 ≤ v.toNat / 16 % 16 ∧ v.toNat / 16 % 16 ≤ 8) ∧
    (∃ (d : Spec) (v : W64) (s s1 s2 : State) (m : Bool), s.Enabled .any {} ∧ Reads d s v s1 ∧ Gives isManagement s1 m s2 ∧ m = true ∧
      v &&& 0xFFFF3FF1 = v ∧ v.toNat / 16 % 16 < 8 ∧ v.toNat / 2 ^ 32 % 2 ^ 17 ≤ 81599 ∧
      s2.claimHeld s2.task.core.die.toNat = false) ∧
    ∃ (d : Spec) (v : W64) (s s1 s2 : State) (m : Bool), s.Enabled .any {} ∧ Reads d s v s1 ∧ Gives isManagement s1 m s2 ∧ m = false :=
  ⟨⟨2, 3, lane, _, lane_enabled, ⟨by decide, rfl⟩, by decide⟩, ⟨1, 5, lane, _, lane_enabled, ⟨by decide, rfl⟩, rfl, by decide⟩,
   ⟨1, 5, lane, _, lane_enabled, ⟨by decide, rfl⟩, by decide, rfl, rfl⟩, ⟨0x88, by decide⟩,
   ⟨0, 0, { lane with mem := [(64, 3)] }, _, _, _, lane_enabled, ⟨by decide, rfl⟩, gives (by decide +kernel), by decide +kernel, by decide,
    by decide, by decide, by decide +kernel⟩,
   0, 0, lane, _, _, _, lane_enabled, ⟨by decide, rfl⟩, gives (by decide +kernel), by decide +kernel⟩


theorem reads2 {a b : Spec} {s : State} (h : (scalarSrcOk s.task.core a && scalarSrcOk s.task.core b &&
    runs (readScalar a) s && runs (readScalar b) (after (readScalar a) s)) = true) :
    Reads2 a b s (valueOf (readScalar a) s) (valueOf (readScalar b) (after (readScalar a) s))
      (after (readScalar b) (after (readScalar a) s)) := by
  simp only [Bool.and_eq_true] at h
  exact ⟨h.1.1.2, _, reads (by rw [h.1.1.1, h.1.2]; rfl), gives h.2⟩

theorem witness_LoadResults : (∃ (d a : Spec) (z : BitVec 2) (o : BitVec 12) (x : W64) (v : Nat) (s s1 s2 s3 : State),
      s.Enabled .any { imm := true } ∧ Reads a s x s1 ∧
      Gives (loadNat (x + immediateOf s.task.hints o) (2 ^ z.toNat)) s1 v s2 ∧
      Loads s d ((BitVec.ofNat (8 * 2 ^ z.toNat) v).signExtend 64) s2 s3) ∧
    (∃ (d a : Spec) (z : BitVec 2) (o : BitVec 12) (x : W64) (v : Nat) (s s1 s2 s3 : State),
      s.Enabled .any { imm := true } ∧ Reads a s x s1 ∧
      Gives (loadNat (x + immediateOf s.task.hints o) (2 ^ z.toNat)) s1 v s2 ∧ Loads s d (BitVec.ofNat 64 v) s2 s3) ∧
    (∃ (d a b : Spec) (z : BitVec 2) (h : BitVec 4) (x y : W64) (v : Nat) (s s1 s2 s3 : State), s.Enabled .any {} ∧
      Reads2 a b s x y s1 ∧ Gives (loadNat (x + (y <<< h.toNat)) (2 ^ z.toNat)) s1 v s2 ∧
      Loads s d ((BitVec.ofNat (8 * 2 ^ z.toNat) v).signExtend 64) s2 s3) :=
  ⟨⟨6, 3, 3, 8, _, _, lane, _, _, _, lane_imm, reads (by decide +kernel), gives (by decide +kernel), loads (by decide +kernel)⟩,
   ⟨6, 3, 0, 0xFFF, _, _, lane, _, _, _, lane_imm, reads (by decide +kernel), gives (by decide +kernel), loads (by decide +kernel)⟩,
   6, 3, 5, 3, 3, _, _, _, lane, _, _, _, lane_enabled, reads2 (by decide +kernel), gives (by decide +kernel),
   loads (by decide +kernel)⟩

/-- The lane task without a spill area, its private store area full. -/
def brimful : State := lane.setTask fun t =>
  { t with sbase := t.ctx + 0x5400, held := (List.range 64).map fun i => ⟨0x4000000 + 64 * i, [1]⟩ }

theorem witness_StoreResults : (∃ (d a : Spec) (z : BitVec 2) (o : BitVec 12) (x v : W64) (pa : Nat) (s s1 s2 : State),
      s.Enabled .any { imm := true } ∧ Reads2 a d s x v s1 ∧
      Gives (translate1 s1.task.tctx { write := true } (x + immediateOf s.task.hints o) (2 ^ z.toNat)) s1 pa s2 ∧
      (heldLines (holdOne s2.task.held ⟨pa, leBytes (2 ^ z.toNat) v.toNat⟩)).length ≤ 64 + s2.task.spillLines) ∧
    (∃ (d a : Spec) (z : BitVec 2) (o : BitVec 12) (x v : W64) (pa : Nat) (s s1 s2 : State),
      s.Enabled .any { imm := true } ∧ Reads2 a d s x v s1 ∧
      Gives (translate1 s1.task.tctx { write := true } (x + immediateOf s.task.hints o) (2 ^ z.toNat)) s1 pa s2 ∧
      64 + s2.task.spillLines < (heldLines (holdOne s2.task.held ⟨pa, leBytes (2 ^ z.toNat) v.toNat⟩)).length) ∧
    ∃ (d a b : Spec) (z : BitVec 2) (h : BitVec 4) (x y v : W64) (pa : Nat) (s s0 s1 s2 : State), s.Enabled .any {} ∧
      Reads2 a b s x y s0 ∧ scalarSrcOk s.task.core d = true ∧ readScalar d s0 = .ok v s1 ∧
      Gives (translate1 s1.task.tctx { write := true } (x + (y <<< h.toNat)) (2 ^ z.toNat)) s1 pa s2 ∧
      (heldLines (holdOne s2.task.held ⟨pa, leBytes (2 ^ z.toNat) v.toNat⟩)).length ≤ 64 + s2.task.spillLines :=
  ⟨⟨1, 3, 3, 0x7F8, _, _, _, lane, _, _, lane_imm, reads2 (by decide +kernel), gives (by decide +kernel), by decide +kernel⟩,
   ⟨1, 3, 3, 0x7F8, _, _, _, brimful, _, _, enabled (by decide +kernel), reads2 (by decide +kernel), gives (by decide +kernel),
    by decide +kernel⟩,
   1, 3, 5, 0, 0, _, _, 5, _, lane, _, _, _, lane_enabled, reads2 (by decide +kernel), by decide, rfl,
   gives (by decide +kernel), by decide +kernel⟩

/-- Tables for ASID 1: a range entry over the page at 0x40000000, and a page of 64 KiB at 0. -/
def tables : State := { lane with mem := ((
  [(64, 0x1000003), (72, 0x20001), (0x20000, 0x40000001), (0x20008, 0x40000000), (0x20010, 0x50000), (0x20018, 0xC),
   (0x1000000, 0x2000001), (0x2000000, 0x2001001), (0x2001000, 0x2002001), (0x2002000, 0x50080F)] : List (Nat × Nat)).flatMap fun x =>
    (leBytes 8 x.2).zipIdx.map fun b => (x.1 + b.2, b.1)).filter (·.2 != 0) }

/-- The same with the range entry twice. -/
def overlapping : State :=
  let m := memSetBytes tables.mem 72 (leBytes 8 0x20002)
  { tables with mem := memSetBytes m 0x20020 ([0x40000001, 0x40000000, 0x60000, 0xC].flatMap (leBytes 8)) }

/-- The context of the lane task, and its ASID's entry. -/
def ctx1 : Ctx := lane.task.tctx
/-- The entry of ASID 1 in `tables`, with so many range entries. -/
def asid1 (n : Nat) : AsidEntry := ⟨0x1000000, true, 0x20000, n⟩
/-- The page of 64 KiB as a held translation. -/
def page64 : TlbEntry := ⟨1, 0, 0x10000, 0x500000, 0x80F⟩

theorem givesAny {m : M α} {s : State} (h : runs m s = true) : ∃ x s', Gives m s x s' := by
  unfold runs at h
  unfold Gives
  split at h
  · exact ⟨_, _, ‹_›⟩
  · contradiction

theorem stops {m : M α} {s : State} (h : runs m s = false) : ∃ e s', m s = .error e s' := by
  unfold runs at h
  split at h
  · contradiction
  · exact ⟨_, _, ‹_›⟩

theorem witness_TranslationAndLoadFrame : (∃ (c : Ctx) (a : Access) (va : W64) (n al : Nat) (ps : List (Nat × Nat))
      (s s' : State), s.failed = [] ∧ Gives (translate c a va n al) s ps s') ∧
    (∃ (va : W64) (n v : Nat) (s s' : State), s.failed = [] ∧ Gives (loadNat va n) s v s') ∧
    (∃ va : W64, canonical va = false) ∧
    (∃ (va : W64) (al : Nat), canonical va = true ∧ canonical (va + 7) = true ∧ va.toNat % al ≠ 0) ∧
    (∃ (c : Ctx) (a : Access) (va : W64) (n : Nat) (s : State), canonical va = true ∧ canonical (va + BitVec.ofNat 64 (n - 1)) = true ∧
      4096 < va.toNat % 4096 + n ∧ ∃ e u, translatePiece c a va.toNat (4096 - va.toNat % 4096) s = .error e u) ∧
    (∃ va : W64, canonical va = true ∧ canonical (va + 63) = true ∧ va.toNat % 4096 + 64 ≤ 4096 ∧ inWindow va.toNat = true) ∧
    (∃ (c : Ctx) (va : Nat) (s : State), inWindow va = false ∧ ∃ e u, leafOf c va s = .error e u) ∧
    ∃ (c : Ctx) (va : Nat) (s : State), inWindow va = false ∧ ∃ x u, Gives (leafOf c va) s x u :=
  ⟨⟨ctx1, {}, 0x7F0000000040, 64, 64, _, lane, _, rfl, gives (by decide +kernel)⟩,
   ⟨0x7F0000000040, 8, _, lane, _, rfl, gives (by decide +kernel)⟩, ⟨0x0080000000000000, by decide⟩,
   ⟨4, 8, by decide, by decide, by decide⟩, ⟨ctx1, {}, 0xFFF, 8, lane, by decide, by decide, by decide, stops (by decide +kernel)⟩,
   ⟨0x7F00003FFFC0, by decide, by decide, by decide, by decide⟩, ⟨ctx1, 0, lane, by decide, stops (by decide +kernel)⟩,
   ctx1, 0x40000000, tables, by decide, givesAny (by decide +kernel)⟩

theorem witness_TranslationStages :
    (∃ (c : Ctx) (s : State), ∃ ds u, Gives ((List.range 8).mapM fun i => walkRead ((s.die c.die).asidTbl + 64 * c.asid.toNat + 8 * i)) s ds u) ∧
    (∃ (c : Ctx) (s u : State), Gives (asidEntry c) s none u) ∧ (∃ (c : Ctx) (s u : State), Gives (asidEntry c) s (some (asid1 1)) u) ∧
    (∃ e w, rangeLookup ctx1 (asid1 2) 0x40000000 overlapping = .error e w) ∧
    (∃ e w, Gives (rangeLookup ctx1 (asid1 1) 0x40000000) tables (some e) w) ∧
    (∃ w, Gives (rangeLookup ctx1 (asid1 1) 0) tables none w) ∧ (∃ x, Gives (pageLookup ctx1 (asid1 1) 0) tables (some page64) x) ∧
    (∃ x, Gives (pageLookup ctx1 (asid1 1) 0x80000000) tables none x) ∧
    (∃ s : State, ∃ p, ctx1.core.bind (fun k => s.rtlb.find? fun p => p.1 == k && p.2.covers 1 0) = some p) ∧
    (∃ es u, Gives ((List.range 1).mapM fun i => rangeEntry 1 (0x20000 + 32 * i)) tables es u) ∧
    (∃ e : TlbEntry, 1 < [e, e].length ∧ e.covers 1 0 = true) ∧
    (∃ s : State, ∃ p, ctx1.core.bind (fun k => s.l1.find? fun p => p.1 == k && p.2.covers 1 0xFFFF) = some p) ∧
    (∃ s : State, ∃ p, ctx1.core.bind (fun k => s.l1.find? fun p => p.1 == k && p.2.covers 1 0) = none ∧
      s.dtlb.find? (fun p => p.1 == 0 && p.2.covers 1 0) = some p) ∧
    (∃ u, Gives (walk 1 0x80000000 3 0x1000000) tables none u) ∧ (∃ u, Gives (walk 1 0 3 0x1000000) tables (some page64) u) ∧
    (∃ e u, Gives (walkRead (0x2002000 + 8 * 0)) tables e u ∧ bitAt e 0 = true ∧ bitAt e 1 = true ∧ bitAt e 11 = true ∧ bitsOf e 12 40 * 4096 % 2 ^ 16 = 0) ∧
    ∃ e u, Gives (walkRead (0x2001000 + 8 * 0)) tables e u ∧ bitAt e 0 = true ∧ bitAt e 1 = false ∧ bitsOf e 2 10 = 0 :=
  ⟨⟨ctx1, tables, givesAny (by decide +kernel)⟩, ⟨ctx1, lane, _, givesValue (by decide +kernel)⟩,
   ⟨ctx1, tables, _, givesValue (by decide +kernel)⟩, stops (by decide +kernel),
   ⟨⟨1, 0x40000000, 0x1000, 0x50000, 0xC⟩, _, givesValue (by decide +kernel)⟩, ⟨_, givesValue (by decide +kernel)⟩,
   ⟨_, givesValue (by decide +kernel)⟩, ⟨_, givesValue (by decide +kernel)⟩,
   ⟨{ lane with rtlb := [(lane.task.core, page64)] }, _, rfl⟩, givesAny (by decide +kernel), ⟨page64, by decide, by decide⟩,
   ⟨{ lane with l1 := [(lane.task.core, page64)] }, _, rfl⟩, ⟨{ lane with dtlb := [(0, page64)] }, (0, page64), rfl, rfl⟩,
   ⟨_, givesValue (by decide +kernel)⟩, ⟨_, givesValue (by decide +kernel)⟩,
   ⟨0x50080F, _, givesValue (by decide +kernel), by decide, by decide, by decide, by decide⟩,
   0x2002001, _, givesValue (by decide +kernel), by decide, by decide, by decide⟩

/-- What the two stages give (R27, R33). -/
theorem test_translation_stages : valueOf (translate1 ctx1 {} 0x40000FF8 8) tables = 0x50FF8 ∧
    valueOf (translate1 ctx1 { write := true } 0xFF8 8) tables = 0x500FF8 := by decide +kernel

theorem witness_StoredBytesReadBack : ∃ (s : State) (pa : Nat) (data : List Byte), Memory.wf s.mem = true ∧ s.failed = [] ∧
    (∀ x, pa ≤ x → x < pa + data.length → (∀ d o, regionOf x ≠ .control d o) ∧ regionOf x ≠ .hole) ∧
    ∃ x, (∀ d o, regionOf x ≠ .control d o) ∧ data ≠ [] := by
  have h : regionOf (scratchBase 0 0) = .scratch 0 0 := by decide +kernel
  have hc (d o : Nat) : regionOf (scratchBase 0 0) ≠ .control d o := by rw [h]; exact nofun
  refine ⟨lane, scratchBase 0 0, [1], by decide, rfl, fun x h1 h2 => ?_, scratchBase 0 0, hc, by decide⟩
  obtain rfl : x = scratchBase 0 0 := by simp at h2; omega
  exact ⟨hc, by rw [h]; exact nofun⟩

/-- The lane task with the word at g3's address full. -/
def filled : State := { lane with full := [scratchBase 0 0 + 64] }

theorem filled_enabled : filled.Enabled .any {} := enabled (by decide +kernel)

/-- The lane task with a failed, full word at g3's address. -/
def failing : State := { filled with failed := [(scratchBase 0 0 + 64, 0)] }

theorem failing_enabled : failing.Enabled .any {} := enabled (by decide +kernel)

/-- The issuer with its empty word at g3's address, and its queue q4 full. -/
def clogged : State := issuer.setCluster (clusterId issuer.task.core) fun c => { c with queues := lset c.queues 4 [1, 2, 3, 4] }

theorem clogged_enabled : clogged.Enabled .any {} := enabled (by decide +kernel)

theorem witness_FullEmptyResults : (∃ (d a : Spec) (va pa : _) (v : W64) (s s1 s2 s3 s4 : State), s.Enabled .any {} ∧
      Reads a s va s1 ∧ Gives (feWord va false) s1 pa s2 ∧ Gives (homeRead pa) s2 v s3 ∧ s3.isFull pa = true ∧
      Writes s d v (s3.setFull pa false).acquired s4) ∧
    (∃ (d a : Spec) (va pa : _) (v : W64) (s s1 s2 s3 : State), s.Enabled .any {} ∧ scalarDstOk s.task.core d = true ∧
      Reads a s va s1 ∧ Gives (feWord va false) s1 pa s2 ∧ Gives (homeRead pa) s2 v s3 ∧ s3.isFull pa = false ∧
      s2.isFull pa = true ∧ s3.destReady s3.task.key d = true) ∧
    (∃ (d a : Spec) (va pa : _) (v : W64) (s s1 s2 s3 : State), s.Enabled .any {} ∧ scalarDstOk s.task.core d = true ∧
      Reads a s va s1 ∧ Gives (feWord va false) s1 pa s2 ∧ Gives (homeRead pa) s2 v s3 ∧ s3.isFull pa = false ∧
      s3.destReady s3.task.key d = false) ∧
    (∃ (d a : Spec) (va pa : _) (v : W64) (s s1 s2 s3 s4 : State), s.Enabled .any {} ∧ Reads a s va s1 ∧
      Gives (feWord va false) s1 pa s2 ∧ Gives (homeRead pa) s2 v s3 ∧ s3.isFull pa = true ∧ Writes s d v s3.acquired s4) ∧
    (∃ (d a : Spec) (va pa : _) (v : W64) (s s1 s2 s3 s4 : State), s.Enabled .any {} ∧ Reads a s va s1 ∧
      Gives (feWord va false) s1 pa s2 ∧ Gives (homeRead pa) s2 v s3 ∧ s3.isFull pa = false ∧
      Writes s d 0 { s3 with pos := s3.pos + 1 } s4) ∧
    (∃ (d a : Spec) (va v : W64) (pa : Nat) (s s1 s2 : State), s.Enabled .any {} ∧ Reads2 a d s va v s1 ∧
      Gives (feWord va true) s1 pa s2 ∧ ((s2.meet pa 8).closeAt pa).isFull pa = false ∧ s2.isFull pa = true) ∧
    (∃ (d a : Spec) (va v : W64) (pa : Nat) (s s1 s2 : State), s.Enabled .any {} ∧ Reads2 a d s va v s1 ∧
      Gives (feWord va true) s1 pa s2 ∧ ((s2.meet pa 8).closeAt pa).isFull pa = true) :=
  ⟨⟨6, 3, _, _, _, filled, _, _, _, _, filled_enabled, reads (by decide +kernel), gives (by decide +kernel),
      gives (by decide +kernel), by decide +kernel, writes (by decide +kernel)⟩,
   ⟨0, 3, _, _, _, failing, _, _, _, failing_enabled, by decide, reads (by decide +kernel), gives (by decide +kernel),
      gives (by decide +kernel), by decide +kernel, by decide +kernel, by decide +kernel⟩,
   ⟨52, 3, _, _, _, clogged, _, _, _, clogged_enabled, by decide, reads (by decide +kernel), gives (by decide +kernel),
      gives (by decide +kernel), by decide +kernel, by decide +kernel⟩,
   ⟨6, 3, _, _, _, filled, _, _, _, _, filled_enabled, reads (by decide +kernel), gives (by decide +kernel),
      gives (by decide +kernel), by decide +kernel, writes (by decide +kernel)⟩,
   ⟨6, 3, _, _, _, lane, _, _, _, _, lane_enabled, reads (by decide +kernel), gives (by decide +kernel),
      gives (by decide +kernel), by decide +kernel, writes (by decide +kernel)⟩,
   ⟨1, 3, _, _, _, failing, _, _, failing_enabled, reads2 (by decide +kernel), gives (by decide +kernel), by decide +kernel,
      by decide +kernel⟩,
   1, 3, _, _, _, filled, _, _, filled_enabled, reads2 (by decide +kernel), gives (by decide +kernel), by decide +kernel⟩

theorem witness_PrefetchHasNoEffect : ∃ (a : Spec) (x : W64) (s s1 : State), s.Enabled .any {} ∧ Reads a s x s1 :=
  ⟨1, 5, lane, _, lane_enabled, by decide, rfl⟩

theorem witness_FloatArithmeticResults (f : W64 → W64 → W64) (g : W64 → W64 → W64 → W64) (h : W64 → W64) :
    (∃ (d a b : Spec) (x y : W64) (s s1 s2 : State), s.Enabled .any {} ∧ Reads2 a b s x y s1 ∧ Writes s d (f x y) s1 s2) ∧
    (∃ (d a b : Spec) (x y z : W64) (s s0 s1 s2 : State), s.Enabled .any {} ∧ Reads2 a b s x y s0 ∧
      scalarSrcOk s.task.core d = true ∧ readScalar d s0 = .ok z s1 ∧ Writes s d (g x y z) s1 s2) ∧
    ∃ (d a : Spec) (x : W64) (s s1 s2 : State), s.Enabled .any {} ∧ Reads a s x s1 ∧ Writes s d (h x) s1 s2 :=
  ⟨witness_binary f,
   ⟨1, 1, 2, 5, 3, 5, lane, _, _, _, lane_enabled, ⟨by decide, _, ⟨by decide, rfl⟩, rfl⟩, by decide, rfl, by decide, rfl⟩,
   witness_unary h⟩

theorem witness_FloatOtherResults (f : W64 → W64 → W64) (h : W64 → W64) :
    (∃ (a b : Spec) (x y : W64) (s s1 : State), s.Enabled .any {} ∧ Reads2 a b s x y s1) ∧
    (∃ (d a b : Spec) (x y : W64) (s s1 s2 : State), s.Enabled .any {} ∧ Reads2 a b s x y s1 ∧ Writes s d (f x y) s1 s2) ∧
    ∃ (d a : Spec) (x : W64) (s s1 s2 : State), s.Enabled .any {} ∧ Reads a s x s1 ∧ Writes s d (h x) s1 s2 :=
  ⟨⟨1, 2, 5, 3, lane, _, lane_enabled, by decide, _, ⟨by decide, rfl⟩, rfl⟩, witness_binary f, witness_unary h⟩

theorem witness_RepresentableValuesAreExact : ∃ (n : Fin 4) (w : Nat), w < 2 ^ (fmtOf n.val).width := ⟨3, 65535, by decide⟩

/-- The lane task with the invalid flag enabled, on a die that parks. -/
def parking : State := (lane.setTask fun t => { t with fena := 1 }).setDie 0 fun d => { d with supv := 1 }

theorem witness_RaisedFlagsAreRecorded : (∃ (s s' : State) (f : BitVec 5), s.task.hints.hlive = none ∧
      s'.queues = s.queues ∧ s'.failed = s.failed ∧
      ((s'.die s'.task.core.die.toNat).supv.getLsbD 0 = false ∨ f &&& s'.task.fena.setWidth 5 = 0)) ∧
    ∃ (s s' : State) (f : BitVec 5), s.task.hints.hlive = none ∧ s'.queues = s.queues ∧ s'.failed = s.failed ∧
      (s'.die s'.task.core.die.toNat).supv.getLsbD 0 = true ∧ f &&& s'.task.fena.setWidth 5 ≠ 0 :=
  ⟨⟨lane, lane, 31, rfl, rfl, rfl, .inl rfl⟩, parking, parking, 1, rfl, rfl, rfl, rfl, by decide⟩

/-- The lane task with the long float 1 in e0 and e1, its slots in the long-slot file. -/
def long : State := lane.setTask fun t => { t.putSlots 0 (vfEncode .rne 1 (.ofInt 1)).1 with slotsIn := true }

theorem long_enabled : long.Enabled .any {} := enabled (by decide +kernel)
theorem long_use : long.takeSlots = long := rfl
theorem long_slots : Gives (readVf 0) long (valueOf (readVf 0) long) long := rfl
theorem long_high : Gives (readVf 63) long (valueOf (readVf 63) long) long := rfl

/-- Long floats whose difference loses twelve bits, under a guard that allows none to be lost. -/
def cancelling : State := lane.setTask fun t =>
  { ((t.putSlots 0 (vfEncode .rne 1 (.ofInt 4096)).1).putSlots 2 (vfEncode .rne 1 (.ofInt (-4095))).1) with
    prec := 0x3F01, slotsIn := true }

theorem cancelling_enabled : cancelling.Enabled .any {} := enabled (by decide +kernel)
theorem cancelling_low : Gives (readVf 0) cancelling (valueOf (readVf 0) cancelling) cancelling := rfl
theorem cancelling_high : Gives (readVf 2) cancelling (valueOf (readVf 2) cancelling) cancelling := rfl

theorem witness_LongArithmeticResults : (∃ s : State, s.task.slotsIn = true) ∧
    (∃ (s u : State) (d a b : Spec) (x y z : Exact), s.Enabled .any {} ∧ u = s.takeSlots ∧
      d.toNat + s.task.prec.toNat % 8 ≤ 63 ∧ Gives (readVf a) s x u ∧ Gives (readVf b) u y u ∧ Gives (readVf d) u z u ∧
      ∀ c, cancellation x y (x.add .rne y).1 = some c → c ≤ 14 + 32 * (0 : Int) - 0) ∧
    ∃ (s u : State) (d a b : Spec) (x y : Exact) (c : Int), s.Enabled .any {} ∧ u = s.takeSlots ∧
      d.toNat + s.task.prec.toNat % 8 ≤ 63 ∧ s.task.prec.toNat % 8 = 1 ∧ s.task.prec.toNat / 256 % 64 = 63 ∧
      Gives (readVf a) s x u ∧ Gives (readVf b) u y u ∧ cancellation x y (x.add .rne y).1 = some c ∧ 14 + 32 * (1 : Int) - 63 < c :=
  ⟨⟨long, rfl⟩, ⟨long, long, 63, 0, 0, _, _, _, long_enabled, rfl, by decide, long_slots, long_slots, long_high, by decide +kernel⟩,
   cancelling, cancelling, 62, 0, 2, _, _, 12, cancelling_enabled, rfl, by decide, by decide, by decide, cancelling_low,
   cancelling_high, by decide +kernel, by decide⟩

theorem long_words : Gives (readSlots 0) long (valueOf (readSlots 0) long) long := rfl

theorem witness_LongOtherResults : (∃ (s s1 s2 : State) (c : BitVec 6) (a b : Spec) (x y : Exact), s.Enabled .any {} ∧
      Gives (readVf a) s x s1 ∧ Gives (readVf b) s1 y s2 ∧ c.toNat < 4) ∧
    (∃ (s s1 s2 : State) (d a : Spec) (k : Nat) (ws : List W32), s.Enabled .any {} ∧ Gives (readSlots a) s (k, ws) s1 ∧
      Writes s d (BitVec.ofNat 64 (k * 65536 + (vf k).classify ⟨vfValue ws, false⟩)) s1 s2) ∧
    (∃ (s s1 : State) (a : Spec) (x : W64), s.Enabled .any {} ∧ Reads a s x s1 ∧ x &&& 0x3F07 = x) ∧
    (∃ (s s1 : State) (d a c : Spec) (x : W64), s.Enabled .any {} ∧ d.toNat + s.task.prec.toNat % 8 ≤ 63 ∧
      Reads a s x s1 ∧ c.toNat < 2) ∧
    ∃ (s s1 : State) (d a c : Spec) (x : Exact), s.Enabled .any {} ∧ Gives (readVf a) s x s ∧ c.toNat < 2 ∧
      Writes s d (BitVec.ofNat 64 ((fmtOf c.toNat).encode (rmOf s.task.rmode) x).1) s s1 :=
  ⟨⟨long, _, _, 3, 0, 0, _, _, long_enabled, long_slots, long_slots, by decide⟩,
   ⟨long, _, _, 1, 0, _, _, long_enabled, long_words, by decide, rfl⟩,
   ⟨lane, _, 1, 5, lane_enabled, ⟨by decide, rfl⟩, by decide⟩,
   ⟨lane, _, 63, 1, 1, 5, lane_enabled, by decide, ⟨by decide, rfl⟩, by decide⟩,
   long, _, 1, 0, 1, _, long_enabled, long_slots, by decide, by decide, rfl⟩

/-- The lane task with an element of two words at g3's address. -/
def element : State := { lane with mem := [(scratchBase 0 0 + 67, 0x10)] }

theorem element_imm : element.Enabled .any { imm := true } := enabled (by decide +kernel)
theorem element_enabled : element.Enabled .any {} := enabled (by decide +kernel)

theorem written {d : Spec} {v : W64} {s : State} (h : runs (writeScalar d v) s = true) :
    writeScalar d v s = .ok () (after (writeScalar d v) s) := gives h

theorem witness_LongMemoryResults : (∃ (d a : Spec) (i : BitVec 14) (x : W64) (s s1 s2 : State),
      s.Enabled .any { imm := true } ∧ Reads a s x s1 ∧ Gives (loadElement d (x + immediateOf s.task.hints i)) s1 () s2) ∧
    (∃ (d a : Spec) (i : BitVec 14) (x : W64) (s s1 s2 : State),
      s.Enabled .any { imm := true } ∧ Reads a s x s1 ∧ Gives (storeElement (x + immediateOf s.task.hints i) d) s1 () s2) ∧
    (∃ (d a b : Spec) (x y : W64) (s s1 s2 s3 : State), s.Enabled .any {} ∧ 1 ≤ a.toNat ∧ a.toNat < 32 ∧
      Reads2 a b s x y s1 ∧ Gives (loadElement d x) s1 () s2 ∧ writeScalar a (x + y) s2 = .ok () s3) ∧
    (∃ (d a b : Spec) (x y : W64) (s s1 s2 s3 : State), s.Enabled .any {} ∧ 1 ≤ a.toNat ∧ a.toNat < 32 ∧
      Reads2 a b s x y s1 ∧ Gives (storeElement x d) s1 () s2 ∧ writeScalar a (x + y) s2 = .ok () s3) ∧
    (∃ (d : Spec) (va : W64) (pa : Nat) (h : List Byte) (ps : List (Nat × Nat)) (bs : List (List Byte)) (s s1 s2 s3 s4 : State)
      (k : Nat), Gives (translate1 s.task.tctx {} va 4) s pa s1 ∧ s1.readHeld 4 pa 4 = (h, s2) ∧ k = leNat h / 2 ^ 28 % 8 ∧
      d.toNat + k ≤ 63 ∧ 0 < k ∧ Gives (translate s.task.tctx {} va (4 * (k + 1)) 4) s2 ps s3 ∧
      Gives ((cutPieces 4 ps).mapM fun p => runS (·.readHeld 4 p.1 p.2)) s3 bs s4) ∧
    ∃ (d : Spec) (va : W64) (k : Nat) (ws : List W32) (ps : List (Nat × Nat)) (held : List HeldStore) (s s1 s2 : State),
      Gives (readSlots d) s (k, ws) s1 ∧ Gives (translate s1.task.tctx { write := true } va (4 * ws.length) 4) s1 ps s2 ∧
      held = (splitData ((ps.map fun p => tabulate (p.2 / 4) fun j => (p.1 + 4 * j, 4)).flatten)
        ((ws.map fun (w : W32) => leBytes 4 w.toNat).flatten)).foldl holdOne s2.task.held ∧
      (heldLines held).length ≤ 64 + s2.task.spillLines :=
  ⟨⟨62, 3, 0, _, element, _, _, element_imm, reads (by decide +kernel), gives (by decide +kernel)⟩,
   ⟨0, 3, 0x3FFC, _, element, _, _, element_imm, reads (by decide +kernel), gives (by decide +kernel)⟩,
   ⟨62, 3, 5, _, _, element, _, _, _, element_enabled, by decide, by decide, reads2 (by decide +kernel),
    gives (by decide +kernel), written (by decide +kernel)⟩,
   ⟨0, 3, 5, _, _, element, _, _, _, element_enabled, by decide, by decide, reads2 (by decide +kernel),
    gives (by decide +kernel), written (by decide +kernel)⟩,
   ⟨62, 0x7F0000000040, _, _, _, _, element, _, _, _, _, 1, gives (by decide +kernel), rfl, by decide +kernel, by decide, by decide,
    gives (by decide +kernel), gives (by decide +kernel)⟩,
   0, 0x7F0000000040, _, _, _, _, long, _, _, long_words, gives (by decide +kernel), rfl, by decide +kernel⟩

theorem witness_VectorElementResults : ∃ (d a b : Spec) (x y : List Nat) (s s1 s2 : State), s.EnabledV ∧ d.toNat < 32 ∧
    ReadsV a s x s1 ∧ ReadsV b s1 y s2 :=
  ⟨31, 31, 0, _, _, lane, _, _, lane_vector, by decide, readsV (by decide +kernel), readsV (by decide +kernel)⟩

theorem witness_VectorConversionResults : (∃ (d a : Spec) (x : List Nat) (s s1 : State), s.EnabledV ∧ d.toNat < 32 ∧
      ReadsV a s x s1) ∧
    (∃ (d a c : Spec) (x : W64) (s s1 : State), s.EnabledV ∧ d.toNat < 32 ∧ Reads a s x s1 ∧ -128 ≤ x.toInt ∧
      x.toInt ≤ 127 ∧ c.toNat < 4) ∧ (∃ c : Spec, c.toNat < 10) ∧
    ∃ (d a b : Spec) (v : List Nat) (base va : W64) (ps : List (Nat × Nat)) (block : List Nat) (s s1 s2 s3 s4 s5 : State),
      s.EnabledV ∧ scalarSrcOk s.task.core b = true ∧ scalarSrcOk s.task.core d = true ∧ ReadsV a s v s1 ∧
      readScalar b s1 = .ok base s2 ∧ readScalar d s2 = .ok va s3 ∧
      Gives (translate s3.task.tctx { write := true } va 528 8) s3 ps s4 ∧
      ∃ words, words = (ps.map fun p => tabulate (p.2 / 8) fun j => p.1 + 8 * j).flatten ∧
      Gives (words.mapM fun pa => do pure (leNat (← readTask 8 pa 8))) s4 block s5 ∧
      ∃ held, held = ((words.zip (statUpdate base.toInt block v)).map fun p => (⟨p.1, leBytes 8 p.2⟩ : HeldStore)).foldl
        holdOne s5.task.held ∧
      (heldLines held).length ≤ 64 + s5.task.spillLines :=
  ⟨⟨0, 1, _, lane, _, lane_vector, by decide, readsV (by decide +kernel)⟩,
   ⟨0, 1, 3, 5, lane, _, lane_vector, by decide, ⟨by decide, rfl⟩, by decide, by decide, by decide⟩, ⟨9, by decide⟩,
   3, 1, 2, _, 3, 0x7F0000000040, _, _, lane, _, _, _, _, _, lane_vector, by decide, by decide, readsV (by decide +kernel),
   rfl, rfl, gives (by decide +kernel), _, rfl, gives (by decide +kernel), _, rfl, by decide +kernel⟩

theorem witness_VectorShapeResults (f : List Nat → W64) : (∃ (d a o : Spec) (t : BitVec 2) (x : List Nat) (s s1 s2 : State),
      s.EnabledV ∧ ReadsV a s x s1 ∧ (o.toNat < 3 ∨ (o.toNat < 6 ∧ t = 0)) ∧ Writes s d (f x) s1 s2) ∧
    (∃ (d a b : Spec) (t : BitVec 2) (x : List Nat) (j : W64) (s s1 s2 s3 : State), s.EnabledV ∧ ReadsV a s x s1 ∧
      scalarSrcOk s.task.core b = true ∧ readScalar b s1 = .ok j s2 ∧ j.toNat < (elements t x).length ∧ Writes s d (f x) s2 s3) ∧
    (∃ (d a : Spec) (x : W64) (s s1 s2 : State), s.Enabled .lane {} ∧ Reads a s x s1 ∧ x.toNat % 8 = 0 ∧ 8 ≤ x.toNat ∧
      x.toNat ≤ 128 ∧ Writes s d (BitVec.ofNat 64 (min x.toNat (s1.task.lanes.length + s1.freeLanes s1.task.core) / 8 * 8))
        (s1.setTask fun t =>
          { t with
            lanes := padTo (min x.toNat (s1.task.lanes.length + s1.freeLanes s1.task.core) / 8 * 8)
              (Vector.replicate 32 0) t.lanes,
            outstanding := t.outstanding.filter fun x => decide (x.toNat < 32) }) s2) ∧ ∃ s : State, s.Enabled .lane {} :=
  ⟨⟨1, 1, 5, 0, _, lane, _, _, lane_vector, readsV (by decide +kernel), .inr ⟨by decide, rfl⟩, by decide, rfl⟩,
   ⟨1, 1, 2, 0, _, 3, lane, _, _, _, lane_vector, readsV (by decide +kernel), by decide, rfl, by decide +kernel, by decide, rfl⟩,
   ⟨1, 5, 8, lane, _, _, lane_lane, ⟨by decide, rfl⟩, by decide, by decide, by decide, by decide, rfl⟩, lane, lane_lane⟩

/-- The lane task with 4-byte offsets 0 in v0. -/
def word : State := lane.setTask fun t =>
  { t with lanes := List.replicate 8 (vec32 fun i => if i = 0 then 0 else 1) }

theorem word_vector : word.EnabledV := ⟨enabled (by decide +kernel), by decide +kernel⟩

/-- `word` with `VDONE` at n. -/
def wordAt (n : Nat) : State := word.setTask fun t => { t with vdone := BitVec.ofNat 64 n }

/-- `word` in the middle of a VAMO whose address came from a channel. -/
def wordKept : State :=
  word.setTask fun t => { t with vdone := 3, operands := some ([0x7F0000000040], List.replicate 8 0), pktChan := some 0 }

/-- The sources of a VAMO are read or kept: v0 gives the offsets, all 0. -/
def VamoReads (s : State) (d a b : Spec) (base : W64) : Prop :=
  s.EnabledV ∧ d.toNat < 32 ∧ scalarSrcOk s.task.core a = true ∧ b.toNat < 48 ∧
    ∃ s2, (s.task.operands = none ∧ (∃ s1, Reads a s base s1 ∧ ReadsV b s1 (List.replicate 8 0) s2) ∨
      (∃ n, s.task.operands = some (n, List.replicate 8 0) ∧ base = BitVec.ofNat 64 (lget n 0) ∧ s2 = s)) ∧
    ∃ s3, Gives (readVector d) s2 (List.replicate 8 1) s3 ∧ s3.task.lanes ≠ []

theorem traps {m : M α} {s : State} (h : (match m s with | .error (.trap ..) _ => true | _ => false) = true) :
    ∃ c w v, m s = .error (.trap c w) v := by
  split at h
  · exact ⟨_, _, _, ‹_›⟩
  · contradiction

theorem witness_VectorMemoryResults : (∃ (d a : Spec) (z : BitVec 6) (base : W64) (vas : List W64) (pas : List Nat)
      (bs : List (List Byte)) (s s1 s2 s3 s4 : State), s.EnabledV ∧ d.toNat < 32 ∧ z.toNat < 3 ∧ Reads a s base s1 ∧
      Gives (Places.addresses .contiguous base (2 ^ z.toNat)) s1 vas s2 ∧
      Gives (vas.mapM fun va => translate1 s2.task.tctx {} va (2 ^ z.toNat)) s2 pas s3 ∧
      Gives ((joinPieces (2 ^ z.toNat) pas).mapM fun p => runS (·.readHeld (2 ^ z.toNat) p.1 p.2)) s3 bs s4) ∧
    (∃ (d a b : Spec) (z : BitVec 2) (base : W64) (vas : List W64) (data pas : List Nat) (s s1 s2 s3 s4 : State),
      s.EnabledV ∧ d.toNat < 48 ∧ z.toNat < 3 ∧ scalarSrcOk s.task.core b = true ∧ Reads a s base s1 ∧
      Gives (Places.addresses (.strided b) base (2 ^ z.toNat)) s1 vas s2 ∧ readVector d s2 = .ok data s3 ∧
      Gives (vas.mapM fun va => translate1 s3.task.tctx { write := true } va (2 ^ z.toNat)) s3 pas s4 ∧
      ∃ held, held = (pas.zipIdx.map fun q => (⟨q.1, leBytes (2 ^ z.toNat) (lget data q.2)⟩ : HeldStore)).foldl
        holdOne s4.task.held ∧
      (heldLines held).length ≤ 64 + s4.task.spillLines) ∧
    (∀ n ∈ [0, 6, 7, 8], VamoReads (wordAt n) 31 3 0 0x7F0000000040) ∧ VamoReads wordKept 31 32 0 0x7F0000000040 ∧
    (∃ c w v, translate1 word.task.tctx { write := true } (0x1000 + (0#32).signExtend 64) 4 word = .error (.trap c w) v) ∧
    (∃ c w v, translate1 word.task.tctx { write := true } (0x1000 + (0#32).signExtend 64) 4 (wordAt 3) = .error (.trap c w) v) ∧
    (∀ s ∈ [word, wordKept], ∃ pa v, Gives (translate1 s.task.tctx { write := true }
        (0x7F0000000040 + (0#32).signExtend 64) 4) s pa v ∧
      ∃ z, z = State.meetFailures (if v.task.holdsAny pa 4 = true then v.boundary .system else v) pa 4 ∧
      Memory.wf z.mem = true ∧ z.failed = [] ∧ takesBytes pa = true) :=
  ⟨⟨31, 3, 2, 0x7F0000000040, _, _, _, lane, _, _, _, _, lane_vector, by decide, by decide, ⟨by decide, rfl⟩,
    gives (by decide +kernel), gives (by decide +kernel), gives (by decide +kernel)⟩,
   ⟨31, 3, 5, 2, 0x7F0000000040, _, _, _, lane, _, _, _, _, lane_vector, by decide, by decide, by decide, ⟨by decide, rfl⟩,
    gives (by decide +kernel), (gives (by decide +kernel) : Gives (readVector 31) _ _ _), gives (by decide +kernel), _, rfl,
    by decide +kernel⟩,
   by
    intro n h
    simp only [List.mem_cons, List.not_mem_nil, or_false] at h
    rcases h with rfl | rfl | rfl | rfl <;>
    exact ⟨⟨enabled (by decide +kernel), by decide +kernel⟩, by decide, by decide, by decide, _,
      .inl ⟨rfl, _, ⟨by decide, rfl⟩, by decide, givesValue (by decide +kernel)⟩, _, givesValue (by decide +kernel),
      by decide +kernel⟩,
   ⟨⟨enabled (by decide +kernel), by decide +kernel⟩, by decide, by decide, by decide, _,
    .inr ⟨_, rfl, by decide, rfl⟩, _, givesValue (by decide +kernel), by decide +kernel⟩,
   traps (by decide +kernel), traps (by decide +kernel), by
    intro s h
    simp only [List.mem_cons, List.not_mem_nil, or_false] at h
    rcases h with rfl | rfl <;>
    exact ⟨_, _, gives (by decide +kernel), _, rfl, by decide +kernel, by decide +kernel, by decide +kernel⟩⟩

/-- A state without failures, write events or held stores: a read takes each byte as it stands. -/
structure Quiet (s : State) : Prop where
  failed : s.failed = []
  writes : s.writes = []
  held : s.task.held = []
  seen : s.task.seen = []

theorem tabulate_congr {f g : Nat → α} (n : Nat) (h : ∀ i, i < n → f i = g i) : tabulate n f = tabulate n g :=
  List.map_congr_left fun i hi => h i (List.mem_range.1 hi)

theorem Quiet.candidates {s : State} (h : Quiet s) (r : Reader) (hr : r.seen = []) (x : Nat) :
    s.candidates r x = [⟨0, 0, s.byteAt x⟩] := by
  have he : s.eventsOf x = [] := by simp [State.eventsOf, h.writes]
  simp [State.candidates, he, State.initialByte, hr, lookupKey]

theorem Quiet.readRule {s : State} (h : Quiet s) (r : Reader) (hr : r.seen = []) (pa n : Nat) :
    s.readRule r pa n = (tabulate n fun i => ⟨0, 0, s.byteAt (pa + i)⟩, s) := by
  unfold State.readRule
  simp only [h.candidates r hr]
  rw [if_pos (by simp [tabulate])]
  simp [tabulate, lget, List.map_map]

/-- The parts of a quiet read, one after the other. -/
theorem Quiet.readParts {s : State} (h : Quiet s) (r : Reader) (hr : r.seen = []) (u pa n : Nat) : s.readParts r u pa n =
    (((atomicParts u pa n).map fun p => tabulate p.2 fun i => (⟨0, 0, s.byteAt (p.1 + i)⟩ : Candidate)).flatten, s) := by
  have hl : ∀ (l : List (Nat × Nat)) (z : List Candidate), l.foldl (fun x p =>
      let (b, s) := x.2.readRule r p.1 p.2
      (x.1 ++ b, s)) (z, s) =
        (z ++ (l.map fun p => tabulate p.2 fun i => (⟨0, 0, s.byteAt (p.1 + i)⟩ : Candidate)).flatten, s) := by
    intro l
    induction l with
    | nil => simp
    | cons a l ih => intro z; rw [List.foldl_cons]; simp only [h.readRule r hr]; rw [ih]; simp
  exact (hl _ []).trans (by simp)

theorem atomicParts_bounds (u pa n : Nat) : ∀ p ∈ atomicParts u pa n, pa ≤ p.1 ∧ ∀ i < p.2, p.1 + i < pa + n := by
  intro p hp
  simp only [atomicParts, tabulate, List.mem_map] at hp
  obtain ⟨i, -, rfl⟩ := hp
  exact ⟨by simp only; omega, fun j hj => by simp only at hj ⊢; omega⟩

theorem Quiet.readHeld {s : State} (h : Quiet s) (u pa n : Nat) (hc : ∀ d o, regionOf pa ≠ .control d o) :
    ∃ b, s.readHeld u pa n = (b, s) ∧ ∀ x ∈ b, ∃ i, pa ≤ i ∧ i < pa + n ∧ x = s.byteAt i := by
  have hm : s.meetFailures pa n = s := by simp [State.meetFailures, State.failedIn, h.failed]
  have hs : ∀ (l : List (Candidate × Nat)) (z : List (Nat × Nat)), (∀ b ∈ l, b.1.pos = 0) →
      l.foldl (fun z b => if b.1.pos = 0 ∨ (heldByte s.task.held (pa + b.2)).isSome then z else setKey z (pa + b.2) b.1.pos) z = z := by
    intro l
    induction l with
    | nil => intros; rfl
    | cons a l ih =>
      intro z hz
      rw [List.foldl_cons, if_pos (.inl (hz a (by simp))), ih _ fun b hb => hz b (by simp [hb])]
  have hv : ∀ c ∈ ((atomicParts u pa n).map fun p => tabulate p.2 fun i => (⟨0, 0, s.byteAt (p.1 + i)⟩ : Candidate)).flatten,
      c.pos = 0 ∧ ∃ i, pa ≤ i ∧ i < pa + n ∧ c.value = s.byteAt i := by
    intro c hb
    simp only [List.mem_flatten, List.mem_map] at hb
    obtain ⟨l, ⟨p, hp, rfl⟩, hb⟩ := hb
    simp only [tabulate, List.mem_map, List.mem_range] at hb
    obtain ⟨i, hi, e⟩ := hb
    rw [← e]
    have := atomicParts_bounds u pa n p hp
    exact ⟨rfl, p.1 + i, by omega, this.2 i hi, rfl⟩
  refine ⟨(((atomicParts u pa n).map fun p => tabulate p.2 fun i => (⟨0, 0, s.byteAt (p.1 + i)⟩ : Candidate)).flatten.zipIdx.map
    fun b => (heldByte s.task.held (pa + b.2)).getD b.1.value), ?_, fun x hx => ?_⟩
  · unfold State.readHeld
    simp only [hm, h.readParts s.task.reader h.seen]
    rw [hs _ _ fun b hb => (hv _ (List.fst_mem_of_mem_zipIdx hb)).1]
    rfl
  · obtain ⟨b, hb, rfl⟩ := List.mem_map.1 hx
    obtain ⟨i, h1, h2, e⟩ := (hv _ (List.fst_mem_of_mem_zipIdx hb)).2
    exact ⟨i, h1, h2, by simp [h.held, heldByte, e]⟩

theorem mapM_runs {f : α → M β} {s : State} (g : α → β) : ∀ l : List α, (∀ x ∈ l, f x s = .ok (g x) s) →
    l.mapM f s = .ok (l.map g) s
  | [], _ => rfl
  | x :: l, h => by
    rw [List.mapM_cons, bind_ok (h x (by simp)), bind_ok (mapM_runs g l fun y hy => h y (by simp [hy]))]
    rfl

/-- A state some positions later (R89). -/
def later (s : State) (k : Nat) : State := { s with pos := s.pos + k }

/-- An operation gives a value and leaves nothing changed but the position. -/
def Passes (m : M α) (s : State) (x : α) : Prop := ∃ k, m s = .ok x (later s k)

theorem Passes.bind {m : M α} {f : α → M β} {s : State} (h : Passes m s x) (hf : ∀ k, Passes (f x) (later s k) y) :
    Passes (m >>= f) s y := by
  obtain ⟨k, h⟩ := h
  obtain ⟨j, hj⟩ := hf k
  refine ⟨k + j, (bind_ok h).trans (hj.trans ?_)⟩
  simp [later, Nat.add_assoc]

theorem passes_pure {s : State} {x : α} {m : M α} (h : m s = .ok x s) : Passes m s x := ⟨0, h⟩

theorem mapM_passes {f : α → M β} {g : α → β} : ∀ (l : List α) (s : State),
    (∀ x ∈ l, ∀ k, Passes (f x) (later s k) (g x)) → Passes (l.mapM f) s (l.map g)
  | [], _, _ => passes_pure rfl
  | x :: l, s, h => by
    rw [List.mapM_cons]
    have h0 : Passes (f x) s (g x) := h x (by simp) 0
    refine h0.bind fun k => (mapM_passes l _ fun y hy j => ?_).bind fun j => passes_pure rfl
    have := h y (by simp [hy]) (k + j)
    rwa [show later s (k + j) = later (later s k) j by simp [later, Nat.add_assoc]] at this

/-- The issuer with a writable gigabyte of HBM from 0x40000000 on, under a held range translation. -/
def mapped : State :=
  { (issuer.setTask fun t => { t with g := vset t.g 7 0x40000000 }) with
    mem := [(64, 1), (72, 1)], rtlb := [(⟨0, 0, 9⟩, ⟨1, 0x40000000, 0x40000000, 0x40000000, 4⟩)] }

theorem mapped_enabled : mapped.Enabled .issuer {} := enabled (by decide +kernel)

/-- What the matrix witnesses keep of that state. -/
structure Maps (s : State) : Prop extends Quiet s where
  mem : s.mem = [(64, 1), (72, 1)]
  rtlb : s.rtlb = [(⟨0, 0, 9⟩, ⟨1, 0x40000000, 0x40000000, 0x40000000, 4⟩)]
  metas : s.metas = []
  core : s.task.core = ⟨0, 0, 9⟩
  asid : s.task.asid = 1
  table : (s.die 0).asidTbl = 0

theorem Maps.later {s : State} (h : Maps s) (k : Nat) : Maps (later s k) :=
  ⟨⟨h.failed, h.writes, h.held, h.seen⟩, h.mem, h.rtlb, h.metas, h.core, h.asid, h.table⟩

theorem Maps.walkRead {s : State} (h : Maps s) (j : Nat) (hc : 8 * j < 0x7FFFFFFFF8) :
    Passes (walkRead (8 * j)) s (leNat (tabulate 8 fun i => s.byteAt (8 * j + i))) := by
  have hm : s.meetFailures (8 * j) 8 = s := by simp [State.meetFailures, State.failedIn, h.failed]
  have hg : regionOf (8 * j) = .hbm (8 * j / 0x2000000000) := by simp [regionOf, show 8 * j < 0x8000000000 by omega]
  have hp : atomicParts 8 (8 * j) 8 = [(8 * j, 8)] := by
    unfold atomicParts
    simp only [hg]
    rw [show (8 * j + 8 - 1) / 8 + 1 - 8 * j / 8 = 1 by omega]
    simp [tabulate]
    omega
  refine ⟨1, ?_⟩
  simp only [Machine.walkRead, runS_run, State.readAs, State.readSeen, hm, hg, h.toQuiet.readParts s.systemReader rfl, hp,
    State.passReads]
  simp [tabulate, Function.comp_def, Tests.later]

theorem Maps.byteAt {s : State} (h : Maps s) (x : Nat) (hx : x < 0x8000000000) : s.byteAt x = if x = 64 ∨ x = 72 then 1 else 0 := by
  have hg : regionOf x = .hbm (x / 0x2000000000) := by simp [regionOf, hx]
  rw [State.byteAt, hg, h.mem]
  by_cases e : x = 64
  · subst e; rfl
  · by_cases f : x = 72
    · subst f; rfl
    · simp [lookupKey, e, f, Ne.symm e, Ne.symm f]

theorem Maps.entryWord {s : State} (h : Maps s) (k : Nat) (hk : k < 8) :
    Passes (Machine.walkRead (64 + 8 * k)) s (if k < 2 then 1 else 0) := by
  have e : (tabulate 8 fun i => s.byteAt (8 * (8 + k) + i)) = tabulate 8 fun i => if 64 + 8 * k + i = 64 ∨ 64 + 8 * k + i = 72 then 1 else 0 :=
    tabulate_congr _ fun i hi => by rw [h.byteAt _ (by omega), show 8 * (8 + k) = 64 + 8 * k by omega]
  have v : ∀ k < 8, leNat (tabulate 8 fun i => if 64 + 8 * k + i = 64 ∨ 64 + 8 * k + i = 72 then 1 else 0) = if k < 2 then 1 else 0 := by decide
  have := h.walkRead (8 + k) (by omega)
  rwa [e, v k hk, show 8 * (8 + k) = 64 + 8 * k by omega] at this

theorem Maps.asidEntry {s : State} (h : Maps s) : Passes (asidEntry s.task.tctx) s (some ⟨0, false, 0, 1⟩) := by
  have hb : (s.die s.task.tctx.die).asidTbl + 64 * s.task.tctx.asid.toNat = 64 := by
    simp [Task.tctx, h.core, h.asid, h.table]
  have hr (s : State) (h : Maps s) : Passes ((List.range 6).mapM fun i => Machine.walkRead (64 + 16 + 8 * i)) s
      ((List.range 6).map fun _ => 0) :=
    mapM_passes _ _ fun i hi k => by
      have := (h.later k).entryWord (i + 2) (by have := List.mem_range.1 hi; omega)
      rwa [show 64 + 8 * (i + 2) = 64 + 16 + 8 * i by omega, if_neg (by omega)] at this
  unfold Passes
  simp only [Machine.asidEntry, get_bind, hb]
  exact (h.entryWord 0 (by decide)).bind fun k => ((h.later k).entryWord 1 (by decide)).bind fun j =>
    (hr _ ((h.later k).later j)).bind fun i => passes_pure rfl

theorem Maps.piece {s : State} (h : Maps s) (a : Access) (ha : a.fetch = false ∧ a.load = false ∧ a.fe = false ∧ a.sync = false)
    (va n : Nat) (h1 : 0x40000000 ≤ va) (h2 : va < 0x80000000) : Passes (translatePiece s.task.tctx a va n) s va := by
  have hw : inWindow va = false := decide_eq_false (by unfold windowBase; omega)
  have hm : va % 2 ^ 56 = va := Nat.mod_eq_of_lt (by omega)
  have hg : regionOf va = .hbm (va / 0x2000000000) := by simp [regionOf, show va < 0x8000000000 by omega]
  have hl (k : Nat) : rangeLookup s.task.tctx ⟨0, false, 0, 1⟩ va (Tests.later s k) =
      .ok (some ⟨1, 0x40000000, 0x40000000, 0x40000000, 4⟩) (Tests.later s k) := by
    have hv : TlbEntry.covers ⟨1, 0x40000000, 0x40000000, 0x40000000, 4⟩ s.task.tctx.asid (va % 2 ^ 56) = true := by
      rw [hm, show s.task.tctx.asid = 1 from h.asid]
      exact Bool.and_eq_true_iff.2 ⟨rfl, decide_eq_true (by constructor <;> simp only <;> omega)⟩
    unfold rangeLookup heldRange
    simp only [get_bind, show (1 : Nat) ≠ 0 by decide, if_false, show s.task.tctx.core = some ⟨0, 0, 9⟩ from congrArg some h.core, (h.later k).rtlb, Option.bind_some, List.find?_cons, hv]
    rfl
  unfold translatePiece
  rw [if_neg (by simp [hw])]
  have hf : Passes (leafOf s.task.tctx va) s (⟨0, false, 0, 1⟩, ⟨1, 0x40000000, 0x40000000, 0x40000000, 4⟩) := by
    unfold leafOf
    refine h.asidEntry.bind fun k => passes_pure ?_
    simp only []
    rw [bind_ok (hl k)]
    rfl
  refine hf.bind fun k => passes_pure ?_
  have hk := h.later k
  have hp : 0x40000000 + (va - 0x40000000) = va := by omega
  have hq : (Tests.later s k).pageMeta va = {} := by simp [State.pageMeta, hk.metas, lookupKey]
  simp only [TlbEntry.place, hm, hp]
  rw [bind_ok (need_of (by simp [hg])), bind_ok (need_of (by simp [permitted, hg, ha, inPool, bitAt, bitsOf])), get_bind,
    bind_ok (need_of (by simp [attributesAgree, hg, hq, bitAt, bitsOf]))]
  rfl

theorem pieces_bounds (f v m : Nat) (h1 : 0x40000000 ≤ v) (h2 : v + m ≤ 0x80000000) :
    ∀ p ∈ pieces f v m, 0x40000000 ≤ p.1 ∧ p.1 + p.2 ≤ 0x80000000 ∧ 0 < p.2 := by
  induction f generalizing v m with
  | zero => intro p hp; cases hp
  | succ f ih =>
    intro p hp
    unfold pieces at hp
    split at hp
    · cases hp
    · rcases List.mem_cons.1 hp with e | e
      · subst e; refine ⟨h1, ?_, ?_⟩ <;> simp <;> omega
      · exact ih _ _ (by omega) (by omega) p e

theorem Maps.translate {s : State} (h : Maps s) (a : Access)
    (ha : a.fetch = false ∧ a.load = false ∧ a.fe = false ∧ a.sync = false) (va : W64) (n al : Nat) (h1 : 0x40000000 ≤ va.toNat)
    (h2 : va.toNat + n < 0x80000000) (h3 : va.toNat % al = 0) :
    Passes (translate s.task.tctx a va n al) s (pieces (n / 4096 + 2) va.toNat n) := by
  have hc (v : W64) (hv : v.toNat < 0x80000000) : canonical v = true := by
    have : fieldOf v 55 9 = 0 := by unfold fieldOf bitsOf; rw [Nat.div_eq_of_lt (by omega), Nat.zero_mod]
    unfold canonical
    rw [this]; rfl
  have hc1 : canonical va = true := hc va (by omega)
  have hc2 : canonical (va + BitVec.ofNat 64 (n - 1)) = true := hc _ (by simp; omega)
  unfold Passes Machine.translate
  rw [bind_ok (need_of (by simp [hc1, hc2])), bind_ok (need_of (by simp [h3]))]
  have := mapM_passes (g := fun p => p) (f := fun p => do
      let pa ← translatePiece s.task.tctx a p.1 p.2
      pure (pa, p.2)) (pieces (n / 4096 + 2) va.toNat n) s fun p hx k => by
    have hb := pieces_bounds _ _ _ h1 (Nat.le_of_lt h2) p hx
    exact ((h.later k).piece a ha p.1 p.2 hb.1 (by omega)).bind fun j => passes_pure rfl
  simpa [Passes] using this

theorem Maps.acqBytes {s : State} (h : Maps s) (va : W64) (n al : Nat) (bad : List Byte → Option W64)
    (h1 : 0x40000000 ≤ va.toNat) (h2 : va.toNat + n < 0x80000000) (h3 : va.toNat % al = 0)
    (hb : ∀ b : List Byte, (∀ x ∈ b, x = 0) → bad b = none) : ∃ b t, Gives (acqBytes va n al bad) s b t := by
  obtain ⟨k, ht⟩ := h.translate {} ⟨rfl, rfl, rfl, rfl⟩ va n al h1 h2 h3
  obtain ⟨t, ha⟩ : ∃ t, acquireHere (Tests.later s k) = .ok () t ∧ Maps t :=
    ⟨_, rfl, ⟨h.failed, h.writes, h.held, h.seen⟩, h.mem, h.rtlb, h.metas, h.core, h.asid, h.table⟩
  have hq := ha.2
  have hr : ∀ p ∈ pieces (n / 4096 + 2) va.toNat n, ∃ b, t.readHeld (min al 8) p.1 p.2 = (b, t) ∧ ∀ x ∈ b, x = 0 := by
    intro p hp
    obtain ⟨h5, h6, h9⟩ := pieces_bounds _ _ _ h1 (Nat.le_of_lt h2) p hp
    obtain ⟨b, e, hz⟩ := hq.toQuiet.readHeld (min al 8) p.1 p.2 fun d o => by
      rw [show regionOf p.1 = .hbm (p.1 / 0x2000000000) by simp [regionOf, show p.1 < 0x8000000000 by omega]]
      exact nofun
    refine ⟨b, e, fun x hx => ?_⟩
    obtain ⟨i, h7, h8, rfl⟩ := hz x hx
    rw [hq.byteAt _ (by omega), if_neg (by omega)]
  have hm := mapM_runs (f := fun p => runS (·.readHeld (min al 8) p.1 p.2)) (s := t) (fun p => (t.readHeld (min al 8) p.1 p.2).1)
    (pieces (n / 4096 + 2) va.toNat n) fun p hp => by
      obtain ⟨b, e, -⟩ := hr p hp
      rw [runS_run, e]
  refine ⟨((pieces (n / 4096 + 2) va.toNat n).map fun p => (t.readHeld (min al 8) p.1 p.2).1).flatten, t, ?_⟩
  unfold Machine.acqBytes acqPieces Gives
  rw [bind_ok (show myCtx s = .ok s.task.tctx s from rfl), bind_ok ht, get_bind, bind_ok ha.1, bind_ok hm, hb _ fun x hx => ?_]
  · rfl
  · simp only [List.mem_flatten, List.mem_map] at hx
    obtain ⟨l, ⟨p, hp, rfl⟩, hx⟩ := hx
    obtain ⟨b, e, hz⟩ := hr p hp
    rw [e] at hx
    exact hz x hx

theorem directWrites_runs (ws : List (Nat × List Byte)) (s : State) : ∃ t, Gives (directWrites ws) s () t := by
  by_cases h : (ws.any fun w => s.task.holdsAny w.1 w.2.length) = true
  · exact ⟨_, by unfold Gives directWrites; simp only [get_bind]; rw [if_pos h]; rfl⟩
  · exact ⟨_, by unfold Gives directWrites; simp only [get_bind]; rw [if_neg h]; rfl⟩

theorem leBytes_length (n v : Nat) : (leBytes n v).length = n := by
  induction n generalizing v with
  | zero => rfl
  | succ n ih => simp [leBytes, ih]

theorem padTo_length (n : Nat) (d : α) (l : List α) : (padTo n d l).length = n := by simp [padTo]; omega

theorem bytesOfWords_length (l : List W32) : (bytesOfWords l).length = 4 * l.length := by
  induction l with
  | nil => rfl
  | cons a l ih => simp only [bytesOfWords, List.map_cons, List.flatten_cons, List.length_append, List.length_cons,
      leBytes_length] at ih ⊢; omega

theorem rowArea_length (pitch : Nat) (rows : List (List Byte)) : (rowArea pitch rows).length = 32 * pitch := by
  have h (l : List (List Byte)) : (l.map fun r => padTo pitch 0 r).flatten.length = l.length * pitch := by
    induction l with
    | nil => simp
    | cons a l ih => simp only [List.map_cons, List.flatten_cons, List.length_append, padTo_length, ih, List.length_cons,
        Nat.succ_mul]; omega
  rw [rowArea, h, padTo_length]

theorem Maps.save {s : State} (h : Maps s) : ∃ ws t, Gives (s.task.mx.areas.mapM fun p => do
    let ps ← Machine.translate s.task.tctx { write := true } (0x40000000 + BitVec.ofNat 64 p.1) p.2.length 8
    pure (pieceWrites ps p.2)) s ws t := by
  have ⟨k, e⟩ := mapM_passes (f := fun (p : Nat × List Byte) => do
      let ps ← Machine.translate s.task.tctx { write := true } (0x40000000 + BitVec.ofNat 64 p.1) p.2.length 8
      pure (pieceWrites ps p.2))
    (g := fun p => pieceWrites (pieces (p.2.length / 4096 + 2) (0x40000000 + p.1) p.2.length) p.2) s.task.mx.areas s fun p hp k => ?_
  · exact ⟨_, _, e⟩
  have hb : p.1 < 0x600000 ∧ p.2.length < 0x600000 ∧ p.1 % 8 = 0 := by
    simp only [Mx.areas, List.mem_cons, List.not_mem_nil, or_false] at hp
    rcases hp with rfl | rfl | rfl | rfl | rfl | rfl | rfl | rfl <;>
      simp only [List.length_append, dwBytes, leBytes_length, bytesOfWords_length, padTo_length, rowArea_length] <;>
      exact ⟨by decide, by decide, trivial⟩
  have hv : (0x40000000 + BitVec.ofNat 64 p.1 : W64).toNat = 0x40000000 + p.1 := by simp; omega
  have := (h.later k).translate { write := true } ⟨rfl, rfl, rfl, rfl⟩ (0x40000000 + BitVec.ofNat 64 p.1) p.2.length 8
    (by omega) (by omega) (by omega)
  rw [hv] at this
  exact this.bind fun j => passes_pure rfl

theorem leNat_zero (l : List Byte) (h : ∀ x ∈ l, x = 0) : leNat l = 0 := by
  induction l with
  | nil => rfl
  | cons a l ih =>
    have ha : a = 0 := h a (by simp)
    subst ha
    have : leNat (0 :: l) = (0 : Byte).toNat + 256 * leNat l := rfl
    rw [this, ih fun x hx => h x (by simp [hx])]; rfl

theorem wordsOfBytes_zero (b : List Byte) (h : ∀ x ∈ b, x = 0) : ∀ w ∈ wordsOfBytes b, w = 0 := by
  have hc : ∀ (f : Nat) (l : List Byte), (∀ x ∈ l, x = 0) → ∀ c ∈ chunks 4 f l, ∀ x ∈ c, x = 0 := by
    intro f
    induction f with
    | zero => intro l _ c hc; cases hc
    | succ f ih =>
      intro l hl c hc
      unfold chunks at hc
      split at hc
      · cases hc
      · rcases List.mem_cons.1 hc with rfl | e
        · exact fun x hx => hl x (List.mem_of_mem_take hx)
        · exact ih _ (fun x hx => hl x (List.mem_of_mem_drop hx)) c e
  intro w hw
  simp only [wordsOfBytes, List.mem_map] at hw
  obtain ⟨c, hm, rfl⟩ := hw
  rw [leNat_zero c (hc _ _ h c hm)]
  rfl


theorem mapped_maps : Maps mapped := ⟨⟨rfl, rfl, rfl, rfl⟩, rfl, rfl, rfl, rfl, rfl, rfl⟩

/-- An issuer whose unit has its weights, half 0, a program and latches. -/
def armed : State := issuer.setTask fun t => { t with mx := { mxstate := 0x8190000 } }

theorem armed_enabled : armed.Enabled .issuer {} := enabled (by decide +kernel)

/-- An issuer whose recurrence ends with an enabled flag, under a supervisor (R166). Its mode has no columns, so that the
kernel evaluates its end. -/
def flagged : State :=
  (issuer.setTask fun t => { t with fena := 31, mx := { mode := 6, mxstate := 0x5190000, runFlags := 1 } }).setDie 0 fun d => { d with supv := 1 }

theorem flagged_enabled : flagged.Enabled .issuer {} := enabled (by decide +kernel)

/-- The end of the current task's run, if one is in progress. -/
def ended (s : State) : State := s.runEnd s.task.key (s.task.mx.bit 26)

theorem witness_MatrixUnit : (∃ (s : State) (a : Spec), s.Enabled .issuer {} ∧ (ended s).task.status ≠ .running ∧
      scalarSrcOk s.task.core a = true) ∧
    (∃ (s r t : State) (a : Spec) (x : W64), s.Enabled .issuer {} ∧ s.task.mx.bit 24 = false ∧ r = ended s ∧
      r.task.status = .running ∧ scalarSrcOk s.task.core a = true ∧ readScalar a r = .ok x t ∧ modeOk x = true) ∧
    (∃ (s r t t1 : State) (a : Spec) (x : W64) (b : List Byte), s.Enabled .issuer {} ∧ r = ended s ∧
      r.task.status = .running ∧ scalarSrcOk s.task.core a = true ∧ readScalar a r = .ok x t ∧
      Gives (acqBytes x (512 * t.task.mx.shape.n * t.task.mx.shape.ng) 4 (descFault t.task.mx.shape.int4)) t b t1) ∧
    (∃ (s r t t1 : State) (a : Spec) (x : W64) (sp : BitVec 1) (b : List Byte), s.Enabled .issuer {} ∧ r = ended s ∧
      r.task.status = .running ∧ scalarSrcOk s.task.core a = true ∧ readScalar a r = .ok x t ∧
      ¬(sp = 1 ∧ t.task.mx.shape.int4 = true) ∧
      Gives (acqBytes x (32 * if sp = 1 then 24576 else 16384) 64 fun b =>
        if sp = 1 then (sparseFault b).map (BitVec.ofNat 64) else none) t b t1) ∧
    (∃ (s r t t1 : State) (a : Spec) (x : W64) (b : List Byte), s.Enabled .issuer {} ∧ r = ended s ∧
      r.task.status = .running ∧ scalarSrcOk s.task.core a = true ∧ readScalar a r = .ok x t ∧
      Gives (loadBytes x 32 8) t b t1 ∧ progFault true (wordsOfBytes b) = none) ∧
    (∃ (s r t t1 t2 : State) (a : Spec) (x : W64) (ws : List (List (Nat × List Byte))), s.Enabled .issuer {} ∧ r = ended s ∧
      r.task.status = .running ∧ scalarSrcOk s.task.core a = true ∧ readScalar a r = .ok x t ∧ x.toNat % 4096 = 0 ∧
      Gives (t.task.mx.areas.mapM fun p => do
        let ps ← translate t.task.tctx { write := true } (x + BitVec.ofNat 64 p.1) p.2.length 8
        pure (pieceWrites ps p.2)) t ws t1 ∧ Gives (directWrites ws.flatten) t1 () t2) ∧
    (∃ (s r t t1 : State) (a : Spec) (x : W64) (b : List Byte), s.Enabled .issuer {} ∧ r = ended s ∧
      r.task.status = .running ∧ scalarSrcOk s.task.core a = true ∧ readScalar a r = .ok x t ∧ x.toNat % 4096 = 0 ∧
      Gives (acqBytes x 0x599000 4096 fun b => if imageOk b then none else some t.task.mx.mxstate) t b t1) := by
  have hs : mapped.task.status = .running := by decide
  have hr : readScalar 7 mapped = .ok 0x40000000 mapped := rfl
  obtain ⟨b1, t1, h1⟩ := mapped_maps.acqBytes 0x40000000 (512 * mapped.task.mx.shape.n * mapped.task.mx.shape.ng) 4
    (descFault mapped.task.mx.shape.int4) (by decide) (by decide) (by decide) fun b hb => by
      have hz : (wordsOfBytes b).zipIdx.find? (fun w => !descOk mapped.task.mx.shape.int4 w.1) = none :=
        List.find?_eq_none.2 fun p hp => by
          rw [wordsOfBytes_zero b hb p.1 (List.fst_mem_of_mem_zipIdx hp)]; decide
      simp only [descFault, hz, Option.map_none]
  obtain ⟨b2, t2, h2⟩ := mapped_maps.acqBytes 0x40000000 524288 64 (fun b =>
    if (0 : BitVec 1) = 1 then (sparseFault b).map (BitVec.ofNat 64) else none) (by decide) (by decide) (by decide) fun _ _ => rfl
  obtain ⟨b3, t3, h3⟩ := mapped_maps.acqBytes 0x40000000 0x599000 4096 (fun b =>
    if imageOk b then none else some mapped.task.mx.mxstate) (by decide) (by decide) (by decide) fun b hb => by
      have hz : ∀ off n, leNat (cutOf b off n) = 0 := fun off n => leNat_zero _ fun x hx => hb x (by
        simp only [cutOf, Array.toList_extract] at hx
        exact List.mem_of_mem_drop (List.mem_of_mem_take (by simpa [List.extract] using hx)))
      simp only [imageOk, hz]
      rfl
  obtain ⟨ws, t4, h4⟩ := mapped_maps.save
  obtain ⟨t5, h5⟩ := directWrites_runs ws.flatten t4
  exact ⟨⟨flagged, 1, flagged_enabled, by decide +kernel, by decide⟩,
    ⟨issuer, issuer, issuer, 1, 5, issuer_enabled, by decide, rfl, by decide, by decide, rfl, by decide⟩,
    ⟨mapped, mapped, mapped, t1, 7, _, b1, mapped_enabled, rfl, hs, by decide, hr, h1⟩,
    ⟨mapped, mapped, mapped, t2, 7, _, 0, b2, mapped_enabled, rfl, hs, by decide, hr, by decide, h2⟩,
    ⟨issuer, issuer, issuer, _, 3, _, _, issuer_enabled, rfl, by decide, by decide, rfl, gives (by decide +kernel),
      by decide +kernel⟩,
    ⟨mapped, mapped, mapped, t4, t5, 7, _, ws, mapped_enabled, rfl, hs, by decide, hr, by decide, h4, h5⟩,
    mapped, mapped, mapped, t3, 7, _, b3, mapped_enabled, rfl, hs, by decide, hr, by decide, h3⟩

theorem witness_MatrixFeedAndRun : (∃ (s r' s1 t t1 t2 : State) (h : BitVec 1) (a b : Spec) (x y : W64) (n : Nat)
      (ps : List (List (Nat × Nat))) (bs : List Byte), s.Enabled .issuer {} ∧
      r' = (if fieldOf s.task.mx.mxstate 25 1 = h.toNat then ended s else s) ∧ r'.task.status = .running ∧
      scalarSrcOk s.task.core a = true ∧ scalarSrcOk s.task.core b = true ∧ readScalar a r' = .ok x s1 ∧
      readScalar b s1 = .ok y t ∧ n = t.task.mx.shape.codeBytes + t.task.mx.shape.scaleBytes ∧ x.toNat % 4 = 0 ∧
      y.toNat % 4 = 0 ∧ n ≤ y.toNat ∧
      Gives ((List.range 32).mapM fun r => translate t.task.tctx {} (x + BitVec.ofNat 64 r * y) n 4) t ps t1 ∧
      Gives (acqPieces ps.flatten 4 fun _ => none) t1 bs t2) ∧
    (∃ (s r : State) (h sp : BitVec 1), s.Enabled .issuer {} ∧ r = ended s ∧ r.task.status = .running ∧
      r.task.mx.bit 16 = true ∧ r.task.mx.bit (20 + h.toNat) = true ∧ (sp = 1 ↔ r.task.mx.bit 17 = true) ∧
      r.task.mx.bit 19 = true ∧ r.task.mx.bit 17 = false) ∧
    (∃ (s r s1 t : State) (a b : Spec) (x y : W64), s.Enabled .issuer {} ∧ r = ended s ∧ r.task.status = .running ∧
      scalarSrcOk s.task.core a = true ∧ scalarSrcOk s.task.core b = true ∧ readScalar a r = .ok x s1 ∧
      readScalar b s1 = .ok y t ∧ t.task.mx.bit 27 = true ∧ t.task.mx.bit 26 = false ∧ x.toNat < t.task.mx.shape.n ∧
      (t.task.mx.shape.asc = 0 → b = 0) ∧ scaleFault t.task.mx y = none) ∧
    (∃ (s r s1 t t1 t2 : State) (d a b : Spec) (x y : W64) (ps : List (List (Nat × Nat))), s.Enabled .issuer {} ∧
      r = ended s ∧ r.task.status = .running ∧ scalarSrcOk s.task.core a = true ∧ scalarSrcOk s.task.core b = true ∧
      readScalar a r = .ok x s1 ∧ readScalar b s1 = .ok y t ∧
      (d.toNat < 16 ∨ 32 ≤ d.toNat) ∧ (32 ≤ d.toNat → t.task.mx.bit 27 = true ∧ d.toNat % 32 < t.task.mx.shape.n) ∧ x.toNat % 4 = 0 ∧ y.toNat % 4 = 0 ∧
      512 ≤ y.toNat ∧ Gives ((List.range 32).mapM fun r =>
        translate t.task.tctx { write := true } (x + BitVec.ofNat 64 r * y) 512 4) t ps t1 ∧
      Gives (directWrites ((ps.zipIdx.map fun p =>
        pieceWrites p.1 (bytesOfWords (drainRow t.task.mx d.toNat p.2))).flatten)) t1 () t2) ∧
    ∃ (s r s1 : State) (d : Spec), s.Enabled .issuer {} ∧ r = ended s ∧ r.task.status = .running ∧
      Writes s d r.task.mx.mxstate r s1 :=
  ⟨⟨issuer, issuer, issuer, issuer, _, _, 1, 3, 6, _, _, _, _, _, issuer_enabled, rfl, by decide, by decide, by decide, rfl, rfl, rfl,
    by decide +kernel, by decide +kernel, by decide +kernel, gives (by decide +kernel), gives (by decide +kernel)⟩,
   ⟨armed, armed, 0, 0, armed_enabled, rfl, by decide, by decide, by decide, by decide, by decide, by decide⟩,
   ⟨armed, armed, armed, armed, 1, 0, _, _, armed_enabled, rfl, by decide, by decide, by decide, rfl, rfl, by decide, by decide,
    by decide, fun _ => rfl, by decide +kernel⟩,
   ⟨armed, armed, armed, armed, _, _, 63, 3, 6, _, _, _, armed_enabled, rfl, by decide, by decide, by decide, rfl, rfl, by decide, by decide,
    by decide +kernel, by decide +kernel, by decide +kernel, gives (by decide +kernel), (directWrites_runs _ _).choose_spec⟩,
   issuer, issuer, _, 31, issuer_enabled, rfl, by decide, writes (by decide +kernel)⟩

theorem goesOn {m : M Next} {s : State} (h : (match m s with | .ok .seq _ => true | _ => false) = true) :
    Gives m s .seq (after m s) := by
  unfold Gives after
  split at h
  · rename_i e; rw [e]
  · contradiction

/-- The lane task with a trough of eight 8-byte entries at g4's address, one entry in it when `put` is 1. -/
def troughed (put : Byte) : State :=
  { lane with
    mem := (if put = 0 then [] else [(scratchBase 0 0 + 128, put)]) ++
      [(scratchBase 0 0 + 145, 1), (scratchBase 0 0 + 149, 0x7F), (scratchBase 0 0 + 153, 8)] }

theorem troughed_enabled (put : Byte) : (troughed put).Enabled .any {} := lane_enabled

/-- The lane task with tags 0 and 63 set. -/
def tagged : State := lane.setTask fun t => { t with tags := 0x8000000000000001, g := vset t.g 8 0x8000000000000000 }

theorem tagged_enabled : tagged.Enabled .any {} := enabled (by decide +kernel)

theorem witness_SynchronizationResults : (∃ (s s1 s2 s3 : State) (a b : Spec) (sc o : BitVec 2) (va n : W64) (pa : Nat),
      s.Enabled .any {} ∧ Reads2 a b s va n s1 ∧
      Gives (translate1 s1.task.tctx { write := true, sync := true } va 8) s1 pa s2 ∧
      Gives (orderBefore (scopeOf sc) (o.getLsbD 0) pa 8) s2 () s3) ∧
    (∀ b ∈ [(0 : Spec), 1], ∃ (s s1 s2 s3 s4 : State) (a : Spec) (sc o : BitVec 2) (va n v : W64) (pa : Nat),
      s.Enabled .any {} ∧ Reads2 a b s va n s1 ∧ Gives (translate1 s1.task.tctx { sync := true } va 8) s1 pa s2 ∧
      Gives (orderBefore (scopeOf sc) (o.getLsbD 0) pa 8) s2 () s3 ∧ Gives (homeRead pa) s3 v s4 ∧
      (if b = 0 then n ≤ v else v < n)) ∧
    (∃ (s s1 s2 s3 s4 s5 : State) (d a : Spec) (sc o : BitVec 2) (va v : W64) (pa : Nat), s.Enabled .any {} ∧
      Reads a s va s1 ∧ Gives (translate1 s1.task.tctx { sync := true } va 8) s1 pa s2 ∧
      Gives (orderBefore (scopeOf sc) (o.getLsbD 0) pa 8) s2 () s3 ∧ Gives (homeRead pa) s3 v s4 ∧
      Loads s d v { s4 with pos := s4.pos + 1 } s5) ∧
    (∀ pop ∈ [false, true], ∃ (s s1 s2 s3 : State) (d a b : Spec) (sc o : BitVec 2) (va e : W64) (pa : Nat)
      (x : Option (Nat × Nat)) (nx : Next), s.Enabled .any {} ∧ Reads2 a b s va e s1 ∧ scalarDstOk s.task.core d = true ∧
      Gives (troughOperands va e pop) s1 (pa, x) s2 ∧ Gives (if pop then popAt d va e pa x sc o else pushAt d va e pa x sc o) s2 nx s3) ∧
    (∃ (s s1 s2 s3 : State) (a b : Spec) (sc : BitVec 2) (va : W64) (pa : Nat), s.Enabled .any {} ∧ Reads a s va s1 ∧
      b.toNat < 4 ∧ Gives (translate1 s1.task.tctx { sync := true } va 64) s1 pa s2 ∧
      Gives (orderBefore (scopeOf sc) false pa 64) s2 () s3) := by
  refine ⟨⟨lane, _, _, _, 3, 1, 3, 3, _, _, _, lane_enabled, reads2 (by decide +kernel), gives (by decide +kernel),
      gives (by decide +kernel)⟩, fun b hb => ?_,
    ⟨lane, _, _, _, _, _, 6, 3, 0, 0, _, _, _, lane_enabled, reads (by decide +kernel), gives (by decide +kernel),
      gives (by decide +kernel), gives (by decide +kernel), loads (by decide +kernel)⟩, fun pop hp => ?_,
    lane, _, _, _, 4, 3, 1, _, _, lane_enabled, reads (by decide +kernel), by decide, gives (by decide +kernel),
    gives (by decide +kernel)⟩
  · simp only [List.mem_cons, List.not_mem_nil, or_false] at hb
    rcases hb with rfl | rfl
    · exact ⟨lane, _, _, _, _, 3, 0, 2, _, _, _, _, lane_enabled, reads2 (by decide +kernel), gives (by decide +kernel),
        gives (by decide +kernel), gives (by decide +kernel), by decide +kernel⟩
    · exact ⟨lane, _, _, _, _, 3, 0, 1, _, _, _, _, lane_enabled, reads2 (by decide +kernel), gives (by decide +kernel),
        gives (by decide +kernel), gives (by decide +kernel), by decide +kernel⟩
  · simp only [List.mem_cons, List.not_mem_nil, or_false] at hp
    rcases hp with rfl | rfl
    · exact ⟨troughed 0, _, _, _, 6, 4, 3, 1, 0, _, _, _, _, .seq, troughed_enabled 0,
        reads2 (by decide +kernel), by decide, gives (by decide +kernel), goesOn (by decide +kernel)⟩
    · exact ⟨troughed 1, _, _, _, 6, 4, 3, 1, 0, _, _, _, _, .seq, troughed_enabled 1,
        reads2 (by decide +kernel), by decide, gives (by decide +kernel), goesOn (by decide +kernel)⟩

/-- A lane task with a trough in its window: its counters and its size word. -/
def troughWith (put got word : W64) : State :=
  { lane with mem := ((leBytes 8 put.toNat ++ leBytes 8 got.toNat ++ leBytes 8 0x7F0000000100 ++ leBytes 8 word.toNat).zipIdx.filter
      fun b => b.1 ≠ 0).map fun b => (scratchBase 0 0 + 128 + b.2, b.1) }

/-- That trough, full or empty, seen by an issuer whose queue q4 is full. -/
def cloggedTrough (put : W64) : State := { clogged with mem := (troughWith put 0 0x800).mem }

/-- The state an operation that stalls leaves. -/
theorem stalled_there {m : M α} {s : State} (h : (match m s with | .error .stall _ => true | _ => false) = true) :
    m s = .error .stall (after m s) := by
  unfold after
  split at h
  · rename_i e; rw [e]
  · contradiction

theorem here (pa : Nat) (s : State) :
    Gives (troughHere pa) s ((after (troughHere pa) s).trough pa) (after (troughHere pa) s) := rfl

/-- Attempts at a trough: a bad word, another entry size, a full and an empty one, the last entry, an entry put or taken. -/
theorem witness_TroughAttempts :
    (∃ (u v : State) (pa z : Nat) (t : Trough), Gives (troughHere pa) u t v ∧ t.bad = true ∧ t.esz = z) ∧
    (∃ (u v : State) (pa z : Nat) (t : Trough), Gives (troughHere pa) u t v ∧ t.bad = false ∧ t.esz ≠ z) ∧
    (∃ (u v : State) (pa z : Nat) (t : Trough), Gives (troughHere pa) u t v ∧ t.bad = false ∧ t.esz = z ∧
      t.cap ≤ (t.put - t.got).toNat) ∧
    (∃ (u v : State) (pa z : Nat) (t : Trough), Gives (troughHere pa) u t v ∧ t.bad = false ∧ t.esz = z ∧ t.got = t.put) ∧
    (∃ (u v : State) (pa z : Nat) (t : Trough), Gives (troughHere pa) u t v ∧ t.bad = false ∧ t.esz = z ∧
      (t.put - t.got).toNat < t.cap ∧ t.put = BitVec.allOnes 64) ∧
    ∃ (u v v1 v2 : State) (pa z slot old : Nat) (c : Ctx) (t : Trough), Gives (troughHere pa) u t v ∧ t.bad = false ∧ t.esz = z ∧
      (t.put - t.got).toNat < t.cap ∧ t.put ≠ BitVec.allOnes 64 ∧ t.got ≠ t.put ∧
      Gives (translate1 c { write := true } (t.slot t.put) (entryBytes t.esz)) v slot v1 ∧
      Gives (translate1 c {} (t.slot t.got) (entryBytes t.esz)) v old v2 :=
  ⟨⟨troughWith 0 0 0, _, _, 0, _, here (scratchBase 0 0 + 128) _, by decide +kernel, by decide +kernel⟩,
   ⟨troughWith 0 0 0x801, _, _, 0, _, here (scratchBase 0 0 + 128) _, by decide +kernel, by decide +kernel⟩,
   ⟨troughWith 8 0 0x800, _, _, 0, _, here (scratchBase 0 0 + 128) _, by decide +kernel, by decide +kernel, by decide +kernel⟩,
   ⟨troughWith 0 0 0x800, _, _, 0, _, here (scratchBase 0 0 + 128) _, by decide +kernel, by decide +kernel, by decide +kernel⟩,
   ⟨troughWith (-1) (-2) 0x800, _, _, 0, _, here (scratchBase 0 0 + 128) _, by decide +kernel, by decide +kernel, by decide +kernel,
    by decide +kernel⟩,
   troughWith 1 0 0x800, _, _, _, _, 0, _, _, lane.task.tctx, _, here (scratchBase 0 0 + 128) _, by decide +kernel,
    by decide +kernel, by decide +kernel, by decide +kernel, by decide +kernel, gives (by decide +kernel), gives (by decide +kernel)⟩

/-- A push and a pop that end and that wait, and one whose descriptor names no entry size (R102, R305). -/
theorem witness_TroughMembers : (∃ (d : Spec) (v x : State), writeLoaded d (BitVec.ofNat 64 stMALFORMED) v = .ok () x) ∧
    (∃ (u : State) (k pa e z st : Nat) (c : Ctx) (r : Reader) (w : State), Gives (pushAttempt k c r pa e z) u (some st) w) ∧
    (∃ (u : State) (k pa e z : Nat) (c : Ctx) (r : Reader) (w : State), Gives (pushAttempt k c r pa e z) u none w) ∧
    (∃ (u v : State) (sc : BitVec 2) (e n : Nat), Gives (implicitBoundary (scopeOf sc) e n) u () v) ∧
    (∃ (u : State) (k pa e z st : Nat) (c : Ctx) (w : State), Gives (popAttempt k c pa e z) u (some st) w) ∧
    (∃ (u : State) (k pa e z : Nat) (c : Ctx) (w : State), Gives (popAttempt k c pa e z) u none w) ∧
    (∀ pop ∈ [false, true], ∃ (s s1 s2 s3 : State) (d a b : Spec) (sc o : BitVec 2) (va e : W64) (pa : Nat)
      (x : Option (Nat × Nat)), s.Enabled .any {} ∧ Reads2 a b s va e s1 ∧ scalarDstOk s.task.core d = true ∧
      Gives (troughOperands va e pop) s1 (pa, x) s2 ∧
      (if pop then popAt d va e pa x sc o else pushAt d va e pa x sc o) s2 = .error .stall s3) :=
  ⟨⟨6, lane, _, rfl⟩,
   ⟨troughWith 0 0 0x800, 1, scratchBase 0 0 + 128, scratchBase 0 0 + 64, 0, 0, lane.task.tctx, lane.task.reader, _,
    givesValue (by decide +kernel)⟩,
   ⟨troughWith 8 0 0x800, 1, scratchBase 0 0 + 128, scratchBase 0 0 + 64, 0, lane.task.tctx, lane.task.reader, _,
    givesValue (by decide +kernel)⟩,
   ⟨lane, _, 3, scratchBase 0 0, 8, givesValue (by decide +kernel)⟩,
   ⟨troughWith 1 0 0x800, 1, scratchBase 0 0 + 128, scratchBase 0 0 + 64, 0, 0, lane.task.tctx, _, givesValue (by decide +kernel)⟩,
   ⟨troughWith 0 0 0x800, 1, scratchBase 0 0 + 128, scratchBase 0 0 + 64, 0, lane.task.tctx, _, givesValue (by decide +kernel)⟩,
   fun pop hp => by
    simp only [List.mem_cons, List.not_mem_nil, or_false] at hp
    rcases hp with rfl | rfl
    · exact ⟨cloggedTrough 8, _, _, _, 52, 4, 3, 1, 0, _, _, _, _, enabled (by decide +kernel), reads2 (by decide +kernel), by decide,
        gives (by decide +kernel), stalled_there (by decide +kernel)⟩
    · exact ⟨cloggedTrough 0, _, _, _, 52, 4, 3, 1, 0, _, _, _, _, enabled (by decide +kernel), reads2 (by decide +kernel), by decide,
        gives (by decide +kernel), stalled_there (by decide +kernel)⟩⟩

theorem witness_SynchronizationTags : (∃ (s s1 : State) (a : Spec) (m : W64), s.Enabled .any {} ∧ Reads a s m s1 ∧ m ≠ 0 ∧
      s1.task.tags &&& m ≠ 0 ∧ s1.task.tags &&& m = m) ∧
    (∃ (s s1 s2 : State) (a d : Spec) (m : W64), s.Enabled .any {} ∧ Reads a s m s1 ∧ m ≠ 0 ∧ s1.task.tags &&& m = 0 ∧
      s1.task.tags &&& m ≠ m ∧ Writes s d 64 s1 s2) ∧
    (∃ (s s1 : State) (a : Spec) (m : W64), s.Enabled .any {} ∧ Reads a s m s1 ∧ m = 0) ∧
    ∃ (s s1 s2 : State) (a d : Spec) (m : W64) (n : Nat), s.Enabled .any {} ∧ Reads a s m s1 ∧ n < 64 ∧
      (s1.task.tags &&& m).getLsbD n = true ∧ (∀ k < n, (s1.task.tags &&& m).getLsbD k = false) ∧
      Writes s d (BitVec.ofNat 64 n)
        (s1.setTask fun t => { t with tags := t.tags &&& ~~~(1#64 <<< n) }).acquired s2 :=
  ⟨⟨tagged, _, 8, _, tagged_enabled, ⟨by decide, rfl⟩, by decide, by decide, by decide⟩,
   ⟨lane, _, _, 1, 6, _, lane_enabled, ⟨by decide, rfl⟩, by decide, by decide, by decide, by decide, rfl⟩,
   ⟨lane, _, 0, _, lane_enabled, ⟨by decide, rfl⟩, rfl⟩,
   tagged, _, _, 8, 6, _, 63, tagged_enabled, ⟨by decide, rfl⟩, by decide, by decide, by decide +kernel, by decide, rfl⟩

theorem witness_AtomicResults : (∃ (s s1 s2 s3 s4 s5 : State) (d a b : Spec) (sc : BitVec 2) (va x : W64) (pa old : Nat),
      s.Enabled .any { ord := true } ∧ Reads2 a b s va x s1 ∧ scalarDstOk s.task.core d = true ∧
      Gives (translate1 s1.task.tctx { write := true } va 4) s1 pa s2 ∧
      Gives (orderBefore (scopeOf sc) false pa 4) s2 () s3 ∧ Gives (homeUpdate pa 4 (fun old => (old + x.toNat % 2 ^ 32) % 2 ^ 32)) s3 old s4 ∧
      Loads s d (sext64 32 old) s4 s5) ∧
    (∃ (s s1 s2 s3 t : State) (a b : Spec) (sc : BitVec 2) (va x : W64) (ps : List (Nat × Nat)) (bytes : List (List Byte)),
      s.Enabled .any { ord := true } ∧ Reads2 a b s va x s1 ∧ sc ≠ 0 ∧ x.toNat < 8 ∧
      Gives (translate s1.task.tctx {} va 32 8) s1 ps s2 ∧ ps.any (fun p => s2.task.holdsAny p.1 p.2) = true ∧
      t = s2.boundary (scopeOf sc) ∧ Gives (ps.mapM fun p => runS (·.readHeld 8 p.1 p.2)) t bytes s3 ∧
      progFault false ((chunks 4 8 bytes.flatten).map (fun w => BitVec.ofNat 32 (leNat w))) = none) ∧
    ∃ (s s1 s2 s3 : State) (d a b : Spec) (va x y : W64) (pa : Nat) (u : UfSlot), s.Enabled .any { ord := true } ∧
      Reads2 a b s va x s1 ∧ scalarSrcOk s.task.core d = true ∧ scalarDstOk s.task.core d = true ∧
      readScalar d s1 = .ok y s2 ∧ x.toNat < 2 ^ 35 ∧
      Gives (translate1 s2.task.tctx { write := true } va 4) s2 pa s3 ∧
      (s3.unitSlots pa).find? (fun u => u.slot.toNat == x.toNat / 2 ^ 32 % 8 && u.asid == s3.task.asid) = some u := by
  refine ⟨⟨lane, _, _, _, _, _, 6, 3, 1, 3, _, _, _, _, lane_ord, reads2 (by decide +kernel), by decide, gives (by decide +kernel),
      gives (by decide +kernel), gives (by decide +kernel), loads (by decide +kernel)⟩,
    ⟨lane.setTask fun t => { t with held := [⟨scratchBase 0 0 + 64, [0]⟩] }, _, _, _, _, 3, 1, 3, _, _, _, _, enabled (by decide +kernel),
      reads2 (by decide +kernel), by decide, by decide +kernel, gives (by decide +kernel), by decide +kernel, rfl,
      gives (by decide +kernel), by decide +kernel⟩, ?_⟩
  exact ⟨lane.setCluster 0 fun c => { c with uf := [⟨0, 1, []⟩] }, _, _, _, 1, 3, 2, _, _, 5, _, ⟨0, 1, []⟩,
    enabled (by decide +kernel), reads2 (by decide +kernel), by decide, by decide, rfl, by decide +kernel,
    gives (by decide +kernel), by decide +kernel⟩

/-- The lane task with no command outstanding, or with every inbox full. -/
def inboxes (full : Bool) : State :=
  if full then { lane with ops := [0, 7, 8].flatMap fun cmd =>
    (lane.withOp lane.task cmd 3 [] none).ops.flatMap fun o => List.replicate 32 { o with tag := some 5 } } else lane

theorem inboxes_enabled (full : Bool) : (inboxes full).Enabled .any {} := by cases full <;> exact lane_enabled

theorem witness_EngineCommandsAreQueued (full : Bool) : (∃ (s s0 s1 s2 : State) (d a b c : Spec) (src n dst : W64)
      (blk : List W64) (sc : Scope), s.Enabled .any {} ∧ Reads2 a b s src n s0 ∧ scalarSrcOk s.task.core d = true ∧
      readScalar d s0 = .ok dst s1 ∧ (s1.ops.any fun o => o.task == s1.task.key && o.tag == some c) = false ∧
      blk = [dst, src, n, 0, 0, 0, 0, 0] ∧ Gives (copyScope 0 none blk s1.task.core) s1 sc s2 ∧
      ∃ (r : Option W64) (s3 : State), Gives (replyAddress (engineDie 0 blk s1.task.core) blk c) (s2.boundary sc) r s3 ∧
        s3.inboxFull (unitFor 0 s1.task.core false blk) = full) ∧
    (∀ cmd ∈ [1, 7, 8, 11], ∃ (s s1 s2 s3 : State) (a c : Spec) (va : W64) (bs : List Byte) (blk : List W64) (sc : Scope),
      s.Enabled .any {} ∧ Reads a s va s1 ∧
      (s1.ops.any fun o => o.task == s1.task.key && o.tag == some c) = false ∧ Gives (loadUnits va 64 64 8) s1 bs s2 ∧
      blk = (chunks 8 8 bs).map (fun d => BitVec.ofNat 64 (leNat d)) ∧
      Gives (if 8 ≤ cmd then pure Scope.system else copyScope cmd (some va) blk s1.task.core) s2 sc s3 ∧
      ∃ (r : Option W64) (s4 : State), Gives (replyAddress (engineDie cmd blk s1.task.core) blk c) (s3.boundary sc) r s4 ∧
        s4.inboxFull (unitFor cmd s1.task.core false blk) = full) ∧
    (∃ (s s1 : State) (a c : Spec) (va : W64), s.Enabled .any {} ∧ Reads a s va s1 ∧
      (s1.ops.any fun o => o.task == s1.task.key && o.tag == some c) = true) ∧
    ∃ (s s0 s1 : State) (d a b c : Spec) (src n dst : W64), s.Enabled .any {} ∧ Reads2 a b s src n s0 ∧
      scalarSrcOk s.task.core d = true ∧ readScalar d s0 = .ok dst s1 ∧
      (s1.ops.any fun o => o.task == s1.task.key && o.tag == some c) = true := by
  have hb : (∃ (s s1 : State) (a c : Spec) (va : W64), s.Enabled .any {} ∧ Reads a s va s1 ∧
      (s1.ops.any fun o => o.task == s1.task.key && o.tag == some c) = true) ∧
    ∃ (s s0 s1 : State) (d a b c : Spec) (src n dst : W64), s.Enabled .any {} ∧ Reads2 a b s src n s0 ∧
      scalarSrcOk s.task.core d = true ∧ readScalar d s0 = .ok dst s1 ∧
      (s1.ops.any fun o => o.task == s1.task.key && o.tag == some c) = true :=
    ⟨⟨lane.withOp lane.task 0 3 [] none, _, 3, 3, _, lane_enabled, ⟨by decide, rfl⟩, by decide +kernel⟩,
     lane.withOp lane.task 0 3 [] none, _, _, 7, 3, 5, 3, _, _, 0x7F0000002000, lane_enabled, reads2 (by decide +kernel), by decide, rfl,
     by decide +kernel⟩
  cases full
  · refine ⟨⟨inboxes false, _, _, _, 7, 3, 5, 63, _, _, 0x7F0000002000, _, _, inboxes_enabled _, reads2 (by decide +kernel), by decide, rfl,
    by decide +kernel, rfl, gives (by decide +kernel), _, _, gives (by decide +kernel), by decide +kernel⟩, fun cmd hc => ?_, hb⟩
    simp only [List.mem_cons, List.not_mem_nil, or_false] at hc
    rcases hc with rfl | rfl | rfl | rfl <;>
      exact ⟨inboxes false, _, _, _, 3, 0, _, _, _, _, inboxes_enabled _, reads (by decide +kernel), by decide +kernel,
        gives (by decide +kernel), rfl, gives (by decide +kernel), _, _, gives (by decide +kernel), by decide +kernel⟩
  · refine ⟨⟨inboxes true, _, _, _, 7, 3, 5, 63, _, _, 0x7F0000002000, _, _, inboxes_enabled _, reads2 (by decide +kernel), by decide, rfl,
    by decide +kernel, rfl, gives (by decide +kernel), _, _, gives (by decide +kernel), by decide +kernel⟩, fun cmd hc => ?_, hb⟩
    simp only [List.mem_cons, List.not_mem_nil, or_false] at hc
    rcases hc with rfl | rfl | rfl | rfl <;>
      exact ⟨inboxes true, _, _, _, 3, 0, _, _, _, _, inboxes_enabled _, reads (by decide +kernel), by decide +kernel,
        gives (by decide +kernel), rfl, gives (by decide +kernel), _, _, gives (by decide +kernel), by decide +kernel⟩

/-- The lane task with a route to core 1 of its cluster in g11. -/
def sender : State := lane.setTask fun t => { t with g := vset t.g 11 0x1000000 }

theorem sender_send : sender.Enabled .any sendHints := enabled (by decide +kernel)
theorem sender_enabled : sender.Enabled .any {} := enabled (by decide +kernel)

/-- The lane task in a management address space. -/
def manager : State := { lane with mem := [(64, 3)] }

theorem manager_enabled : manager.Enabled .any {} := lane_enabled
theorem manager_pri : manager.Enabled .any { pri := true } := enabled (by decide +kernel)
theorem lane_pri : lane.Enabled .any { pri := true } := enabled (by decide +kernel)

theorem witness_MessageResults : (∃ (s s0 s1 s2 t t1 t2 : State) (a b d : Spec) (va route cnt : W64) (n c : BitVec 1)
      (ps : List (Nat × Nat)) (bs : List (List Byte)), s.Enabled .any sendHints ∧ Reads a s va s0 ∧
      scalarSrcOk s.task.core d = true ∧
      reservedZero route.toNat [(47, 17), (32, 8), (24, 4), (0, 16)] = true ∧ route.toNat / 2 ^ 24 % 16 ≤ 9 ∧
      scalarSrcOk s.task.core b = true ∧ readScalar b s0 = .ok cnt s1 ∧ readScalar d s1 = .ok route s2 ∧ 1 ≤ cnt.toNat ∧
      cnt.toNat ≤ (if c = 1 then 116 else 1916) ∧
      s2.outstandingSends s2.task.key n < s2.task.egdepth.toNat / 2 ^ (4 * n.toNat) % 16 ∧
      Gives (translate s2.task.tctx {} va (8 * cnt.toNat) 8) s2 ps t1 ∧ t = t1 ∧ s.task.hints.hord = none ∧
      Gives (ps.mapM fun p => readTask 8 p.1 p.2) t bs t2) ∧
    (∃ (s s1 s2 : State) (a d : Spec) (v : List Nat) (route : W64) (n : BitVec 1), s.Enabled .any sendHints ∧
      s.task.lanes ≠ [] ∧ ReadsV a s v s1 ∧ scalarSrcOk s.task.core d = true ∧ readScalar d s1 = .ok route s2 ∧
      reservedZero route.toNat [(47, 17), (32, 8), (24, 4), (0, 16)] = true ∧ route.toNat / 2 ^ 24 % 16 ≤ 9 ∧
      s2.outstandingSends s2.task.key n < s2.task.egdepth.toNat / 2 ^ (4 * n.toNat) % 16) ∧
    (∃ route : W64, routeRemote route = false) ∧
    (∃ (s s1 : State) (n a b : Spec) (x entry : W64), s.Enabled .any {} ∧ 32 ≤ n.toNat ∧ n.toNat < 48 ∧ Reads2 a b s x entry s1 ∧
      (∀ q ∈ s1.bindings, q.core = s1.task.core → q.chan ≠ n.setWidth 4 ∧ q.tag ≠ x.setWidth 16) ∧ entryOk entry = true) ∧
    (∃ (s : State) (n : Spec) (q : Binding), s.Enabled .any {} ∧ 32 ≤ n.toNat ∧ n.toNat < 48 ∧
      s.bindingOf s.task.core (n.setWidth 4) = some q) ∧
    (∃ (s s1 : State) (n d : Spec), s.Enabled .any {} ∧ 32 ≤ n.toNat ∧ n.toNat < 48 ∧
      s.bindingOf s.task.core (n.setWidth 4) = none ∧ Writes s d 8 s s1 ∧ s.task.pktChan = some (n.setWidth 4) ∧ s.task.pkt.length = 2) ∧
    (∃ (s s1 : State) (n b : Spec) (x : W64), s.Enabled .any {} ∧ 32 ≤ n.toNat ∧ n.toNat < 48 ∧ Reads b s x s1 ∧
      x.toNat % 4 = 0 ∧ x.toNat ≤ (if s1.task.pktChan = some (n.setWidth 4) then 4 * s1.task.pkt.length else 0)) ∧
    (∃ (s s1 t : State) (a : Spec) (route : W64) (c : CoreId), s.Enabled .any {} ∧ Reads a s route s1 ∧
      routeRemote route = false ∧ c = routeCore route ∧
      reservedZero route.toNat [(47, 17), (32, 8), (24, 4), (0, 16)] = true ∧ route.toNat / 2 ^ 24 % 16 ≤ 9 ∧
      c.core.toNat < 8 ∧ s.task.core.core.toNat < 8 ∧ s1.task.core = s.task.core ∧ s1.clusterUp c = true ∧
      (clusterId c ≠ clusterId s.task.core → s1.occupiedByOther (clusterId c) s1.task.launchId = false) ∧
      t = s1.boundary (spanScope s.task.core c) ∧ t.task.core = s.task.core) :=
  ⟨⟨sender, _, _, _, _, _, _, 3, 2, 11, _, 0x1000000, 3, 0, 1, _, _, sender_send, reads (by decide +kernel), by decide, by decide,
    by decide, by decide, rfl, rfl, by decide, by decide, by decide +kernel, gives (by decide +kernel), rfl, rfl,
    gives (by decide +kernel)⟩,
   ⟨sender, _, _, 0, 11, _, 0x1000000, 1, sender_send, by decide +kernel, readsV (by decide +kernel), by decide, rfl, by decide,
    by decide, by decide +kernel⟩, ⟨0x1000000, by decide⟩,
   ⟨lane, _, 47, 1, 3, _, 0x7F0000000040, lane_enabled, by decide, by decide, ⟨by decide, _, ⟨by decide, rfl⟩, rfl⟩,
    fun q hq => (List.not_mem_nil hq).elim, by decide⟩,
   ⟨{ lane with bindings := [⟨⟨0, 0, 0⟩, 0, 7, 0x40, false, 0, 0, lane.task.lvl⟩] }, 32, _, lane_enabled, by decide, by decide, rfl⟩,
   ⟨reader, _, 32, 6, enabled (by decide +kernel), by decide, by decide, rfl, ⟨by decide, rfl⟩, rfl, rfl⟩,
   ⟨reader, _, 32, 5, 8, enabled (by decide +kernel), by decide, by decide, ⟨by decide, rfl⟩, by decide, by decide⟩,
   sender, _, _, 11, 0x1000000, _, sender_enabled, ⟨by decide, rfl⟩, by decide, rfl, by decide, by decide, by decide, by decide, rfl,
   by decide +kernel, by decide +kernel, rfl, by decide +kernel⟩

theorem witness_LaunchInstructionResults : (∃ (s s1 s2 s3 : State) (d a : Spec) (x : W64) (mgmt : Bool), s.Enabled .any {} ∧
      Reads a s x s1 ∧ Gives isManagement s1 mgmt s2 ∧ x.toNat < 2 ^ 14 ∧ mgmt = false ∧ s2.xasid x.toNat ≠ s2.task.asid ∧
      Loads s d 11 s2 s3) ∧
    (∃ (s s1 s2 s3 s4 : State) (d a : Spec) (x : W64) (mgmt : Bool), s.Enabled .any {} ∧
      Reads a s x s1 ∧ Gives isManagement s1 mgmt s2 ∧ x.toNat < 2 ^ 14 ∧ mgmt = true ∧
      Loads s d (BitVec.ofNat 64 (s2.cancel x.toNat).1) (s2.cancel x.toNat).2 s3 ∧ Loads s d (s2.recStat x.toNat) s2 s4) ∧
    (∃ (s s1 s2 s3 : State) (d a b : Spec) (x v : W64) (mgmt : Bool), s.Enabled .any {} ∧
      Reads2 a b s x v s1 ∧ Gives isManagement s1 mgmt s2 ∧ reservedZero x.toNat [(0, 14), (16, 6)] = true ∧ mgmt = true ∧
      Loads s d (BitVec.ofNat 64 (s2.patch (x.toNat % 2 ^ 14) (x.toNat / 2 ^ 16 % 64) v mgmt).1)
        (s2.patch (x.toNat % 2 ^ 14) (x.toNat / 2 ^ 16 % 64) v mgmt).2 s3) ∧
    (∃ (s s1 s2 s3 : State) (d a : Spec) (x : W64) (mgmt : Bool), s.Enabled .any { pri := true } ∧
      Reads a s x s1 ∧ x.toNat < 2 ^ 14 ∧ Gives isManagement (s1.boundary .system) mgmt s2 ∧ mgmt = true ∧
      Loads s d (BitVec.ofNat 64 (s2.arm x.toNat s.task.hints.hpri).1) (s2.arm x.toNat s.task.hints.hpri).2 s3) ∧
    ∃ (s s1 s2 s3 : State) (d a : Spec) (x : W64) (mgmt : Bool), s.Enabled .any { pri := true } ∧
      Reads a s x s1 ∧ x.toNat < 2 ^ 14 ∧ Gives isManagement (s1.boundary .system) mgmt s2 ∧ mgmt = false ∧
      s2.xasid x.toNat ≠ s2.task.asid ∧ Loads s d 11 s2 s3 :=
  ⟨⟨lane, _, _, _, 6, 1, 5, _, lane_enabled, ⟨by decide, rfl⟩, gives (by decide +kernel), by decide, by decide +kernel,
    by decide +kernel, loads (by decide +kernel)⟩,
   ⟨manager, _, _, _, _, 6, 1, 5, _, manager_enabled, ⟨by decide, rfl⟩, gives (by decide +kernel), by decide, by decide +kernel,
    loads (by decide +kernel), loads (by decide +kernel)⟩,
   ⟨manager, _, _, _, 6, 1, 2, 5, 3, _, manager_enabled, ⟨by decide, _, ⟨by decide, rfl⟩, rfl⟩, gives (by decide +kernel), by decide,
    by decide +kernel, loads (by decide +kernel)⟩,
   ⟨manager, _, _, _, 6, 1, 5, _, manager_pri, ⟨by decide, rfl⟩, by decide, gives (by decide +kernel), by decide +kernel,
    loads (by decide +kernel)⟩,
   lane, _, _, _, 6, 1, 5, _, lane_pri, ⟨by decide, rfl⟩, by decide, gives (by decide +kernel), by decide +kernel,
   by decide +kernel, loads (by decide +kernel)⟩


/-- A lane task with blocks of unit information forms in its window, at length code 1 and threshold 8 (R357): two variables
at g3, one at g4; a message record of the first under alpha 0.5 at g8, an empty block at g7, a node with room for one
message at g12 (R360). -/
def noded : State :=
  { (lane.setTask fun t => { t with g := vec32 fun i => if i = 8 then 0x7F0000000100 else if i = 9 then 1 else if i = 10 then 0x38000001
      else if i = 11 then 0x1000000 else if i = 12 then 0x7F0000000200 else vget t.g i }) with
    mem := [(554050781248, 18), (554050781250, 8), (554050781257, 224), (554050781258, 255), (554050781259, 23)] ++
      [(554050781265, 224), (554050781266, 255), (554050781267, 23), (554050781273, 224), (554050781274, 255)] ++
      [(554050781275, 23), (554050781283, 16), (554050781289, 224), (554050781290, 255), (554050781291, 23)] ++
      [(554050781312, 17), (554050781314, 8), (554050781321, 224), (554050781322, 255), (554050781323, 23)] ++
      [(554050781329, 224), (554050781330, 255), (554050781331, 23), (554050781440, 18), (554050781445, 56)] ++
      [(554050781448, 18), (554050781450, 8), (554050781457, 224), (554050781458, 255), (554050781459, 23)] ++
      [(554050781465, 224), (554050781466, 255), (554050781467, 23), (554050781473, 224), (554050781474, 255)] ++
      [(554050781475, 23), (554050781483, 16), (554050781489, 224), (554050781490, 255), (554050781491, 23)] ++
      [(554050781698, 1), (554050781699, 7), (554050781704, 64), (554050781705, 2), (554050781709, 127)] ++
      [(554050781713, 32), (554050781717, 127)] }

theorem noded_lane : noded.Enabled .lane {} := enabled (by decide +kernel)

theorem does {m : M Unit} {s : State} (h : runs m s = true) : Gives m s () (after m s) := gives h

theorem known {x : Option Exact} (h : x.isSome = true) : x = some (x.getD .nan) := by
  cases x
  · cases h
  · rfl

theorem witness_GaussianArithmetic : (∃ (s s0 s1 s2 s3 s4 : State) (d a b : Spec) (va vb vd : W64) (x y : GBlock),
      s.Enabled .lane {} ∧ Reads2 a b s va vb s0 ∧ scalarSrcOk s.task.core d = true ∧ readScalar d s0 = .ok vd s1 ∧
      Gives (readGBlock va false) s1 x s2 ∧ Gives (readGBlock vb true) s2 y s3 ∧ y.ofs + y.n ≤ x.n ∧
      Gives (gStore vd (emitBlock .rne 0 x.n x.ofs x.thr false (flatten x.eta x.lam (List.range x.n))).1) s3 () s4) ∧
    (∃ (s s0 s1 s2 s3 : State) (d a b : Spec) (va c vd : W64) (x : GBlock) (keep drop : List Nat) (r : Elim),
      s.Enabled .lane {} ∧ Reads2 a b s va c s0 ∧ scalarSrcOk s.task.core d = true ∧ readScalar d s0 = .ok vd s1 ∧
      Gives (readGBlock va false) s1 x s2 ∧ c.toNat < 2 ^ 11 ∧
      keep = (List.range x.n).filter (fun i => bitAt (c.toNat % 256) i) ∧
      drop = (List.range x.n).filter (fun i => !bitAt (c.toNat % 256) i) ∧ c.toNat % 256 ≠ 0 ∧ c.toNat % 256 < 2 ^ x.n ∧
      drop ≠ [] ∧ c.toNat / 256 % 8 + keep.length ≤ 8 ∧
      Gives (eliminate .rne 0 x.thr (elimScale x.lam drop) drop 0 (List.range x.n) { m := x.lam, h := x.eta }) s2 r s3) ∧
    (∃ (s s0 s1 s2 s3 : State) (d a : Spec) (va vd : W64) (e : List Byte) (x y : GBlock) (al : Exact),
      s.Enabled .lane {} ∧ Reads2 a d s va vd s0 ∧ Gives (gLoad va 8) s0 e s1 ∧ Gives (readGBlock (va + 8) false) s1 x s2 ∧
      recordHeaderOk (leNat e) x.n x.k = true ∧ alphaOf (leNat e / 2 ^ 32 % 2 ^ 16) = some al ∧
      Gives (readGBlock vd true) s2 y s3 ∧ y.n = x.n ∧ y.ofs = x.ofs ∧ y.n ≠ 0) ∧
    (∃ (s s0 s1 s2 s3 : State) (d a : Spec) (va vd : W64) (e : List Byte) (x y : GBlock) (al : Exact),
      s.Enabled .lane {} ∧ Reads2 a d s va vd s0 ∧ Gives (gLoad va 8) s0 e s1 ∧ Gives (readGBlock (va + 8) false) s1 x s2 ∧
      recordHeaderOk (leNat e) x.n x.k = true ∧ alphaOf (leNat e / 2 ^ 32 % 2 ^ 16) = some al ∧
      Gives (readGBlock vd true) s2 y s3 ∧ y.n = 0) ∧
    (∃ (s s0 s1 s2 : State) (d a b : Spec) (va vb : W64) (x y : GBlock), s.Enabled .lane {} ∧ Reads2 a b s va vb s0 ∧
      Gives (readGBlock va true) s0 x s1 ∧ Gives (readGBlock vb true) s1 y s2 ∧ (x.n = 0 ∨ y.n = 0 ∨ x.n = y.n) ∧
      scalarDstOk s.task.core d = true) ∧
    (∃ (s s0 s1 s2 : State) (d a : Spec) (va vd : W64) (x : GBlock) (r : Elim), s.Enabled .lane {} ∧ Reads2 a d s va vd s0 ∧
      Gives (readGBlock va false) s0 x s1 ∧ Gives (eliminate .rne 0 x.thr (elimScale x.lam (List.range x.n)) (List.range x.n) 0
        (List.range x.n) { m := x.lam, h := x.eta }) s1 r s2) := by
  refine ⟨?_, ?_, ?_, ?_, ?_, ?_⟩
  · exact ⟨noded, _, _, _, _, _, 7, 3, 4, _, _, 0x7F0000002000, _, _, noded_lane, reads2 (by decide +kernel), by decide, rfl,
      gives (by decide +kernel), gives (by decide +kernel), by decide +kernel, does (by decide +kernel)⟩
  · exact ⟨noded, _, _, _, _, 7, 3, 9, _, _, 0x7F0000002000, _, _, _, _, noded_lane, reads2 (by decide +kernel), by decide, rfl,
      gives (by decide +kernel), by decide +kernel, rfl, rfl, by decide +kernel, by decide +kernel, by decide +kernel,
      by decide +kernel, gives (by decide +kernel)⟩
  · refine ⟨noded, _, _, _, _, 3, 8, _, _, _, _, _, _, noded_lane, reads2 ?_, gives ?_, gives ?_, ?_, known ?_, gives ?_, ?_, ?_, ?_⟩ <;>
      decide +kernel
  · exact ⟨noded, _, _, _, _, 7, 8, _, _, _, _, _, _, noded_lane, reads2 (by decide +kernel), gives (by decide +kernel),
      gives (by decide +kernel), by decide +kernel, known (by decide +kernel), gives (by decide +kernel), by decide +kernel⟩
  · exact ⟨noded, _, _, _, 6, 3, 3, _, _, _, _, noded_lane, reads2 (by decide +kernel), gives (by decide +kernel), gives (by decide +kernel),
      by decide +kernel, by decide⟩
  · refine ⟨noded, _, _, _, 7, 3, _, _, _, _, noded_lane, reads2 ?_, gives ?_, gives ?_⟩ <;> decide +kernel

theorem witness_GaussianMessages : (∃ (s s0 s1 s2 s3 : State) (d a b : Spec) (va w route : W64) (x : GBlock) (raw : List Byte), s.Enabled .lane {} ∧
      Reads2 a b s va w s0 ∧ scalarSrcOk s.task.core d = true ∧ readScalar d s0 = .ok route s1 ∧ w.toNat < 2 ^ 32 ∧
      (alphaOf (w.toNat / 2 ^ 16)).isSome = true ∧
      reservedZero route.toNat [(47, 17), (32, 8), (24, 4), (0, 16)] = true ∧ route.toNat / 2 ^ 24 % 16 ≤ 9 ∧
      s1.outstandingSends s1.task.key 0 < s1.task.egdepth.toNat % 16 ∧ Gives (readGBlock va false) s1 x s2 ∧
      Gives (gLoad va x.raw.length) (s2.boundary (sendScope s2.task.core route)) raw s3) ∧
    (∀ b ∈ [(0 : Spec), 32], ∃ (s s0 s1 s2 s3 : State) (d a : Spec) (va : W64) (bs : List Byte) (dw : Nat → W64) (n : Node)
      (v : W64), s.Enabled .lane {} ∧ Reads a s va s0 ∧ scalarDstOk s.task.core d = true ∧ Gives (gLoad va 64) s0 bs s1 ∧
      (dw = fun i => BitVec.ofNat 64 (leNat ((bs.drop (8 * i)).take 8))) ∧ n = Node.mk (dw 0) (dw 1) (dw 2) (dw 3) ∧
      n.ok va s1.task.core = true ∧
      Gives (if b = 0 then nodeTake va n else nodeAppend va n (b.setWidth 4)) s1 v s2 ∧ writeScalar d v s2 = .ok () s3) := by
  refine ⟨⟨noded, _, _, _, _, 11, 3, 10, _, _, 0x1000000, _, _, noded_lane, reads2 (by decide +kernel), by decide, rfl,
    by decide +kernel, by decide +kernel, by decide, by decide, by decide +kernel, gives (by decide +kernel), gives (by decide +kernel)⟩, fun b hb => ?_⟩
  simp only [List.mem_cons, List.not_mem_nil, or_false] at hb
  rcases hb with rfl | rfl <;>
    exact ⟨noded, _, _, _, _, 6, 12, _, _, _, _, _, noded_lane, reads (by decide +kernel), by decide, gives (by decide +kernel), rfl,
      rfl, by decide +kernel, gives (by decide +kernel), written (by decide +kernel)⟩


/-- The lane task's machine in a stage of boot. -/
def staged (n : BitVec 4) : State := { lane with boot := { stage := n } }

/-- The lane task with so many commands waiting in a queue of die 3, or of die 0 for attestations. -/
def commanded (slot : CmdSlot) (n : Nat) : State :=
  { lane with agenda := List.replicate n (.command (if slot = .attest then 0 else 3) slot 0 0 0 0) }

theorem witness_RegisterEvents : (∃ (s s1 : State) (m : Bool) (v : W64), Gives isManagement s m s1 ∧ m = true ∧
      v.toNat / 2 ^ 32 % 2 ^ 17 = 81599 ∧ s1.claimHeld s1.task.core.die.toNat = false) ∧
    (∃ v : W64, v &&& 0xFFFF3FF1 = v ∧ v.toNat / 16 % 16 = 7) ∧ (∃ v : W64, v.toNat = 4) ∧
    (∃ v : W64, 1 ≤ v.toNat % 16 ∧ v.toNat % 16 = 8 ∧ v.toNat / 16 % 16 = 1) ∧
    (∃ off : BitVec 30, off.toNat % 8 ≠ 0) ∧ (∃ s : State, s.boot.stage ≠ 15) ∧
    (∃ (s : State) (n : BitVec 4) (v : W64), n.toNat = 13 ∧ v.getLsbD 3 = false ∧ (s.link n.toNat).ksend = 0) ∧
    (∃ (s : State) (n : BitVec 4) (k : Nat), n.toNat < 14 ∧ (s.link n.toNat).ksend = 1 ∧ k = 3 ∧ k < 4) ∧
    (∃ (w : Writer) (d : BitVec 2) (slot : CmdSlot), (slot = .launch → w = .host) ∧ (slot = .attest → d = 0)) ∧
    (∃ s : State, s.boot.stage = 15) ∧ (∀ n ∈ [0, 1, 255, 256], ∃ (s : State) (w : Writer) (d : BitVec 2) (slot : CmdSlot),
      s.boot.stage ≠ 15 ∧ w ≠ .unit ∧ slot ≠ .attest ∧ slot ≠ .launch ∧ (s.agenda.filter (Turn.ofSlot d.toNat slot)).length = n) ∧
    (∃ s : State, s.boot.stage ≠ 15 ∧ s.agenda.filter (Turn.ofSlot 0 .attest) ≠ []) ∧
    (∃ (w : Writer) (slot : CmdSlot), w ≠ .unit ∧ slot = .launch ∧ w ≠ .host) ∧
    (∃ (w : Writer) (d : BitVec 2) (slot : CmdSlot), w ≠ .unit ∧ slot = .attest ∧ d ≠ 0) ∧
    (∃ (s : State) (r : BitVec 14), s.live r.toNat = 0) ∧ ∃ (s : State) (r : BitVec 14), s.live r.toNat ≠ 0 :=
  ⟨⟨manager, _, _, 0x13EBF00000000, gives (by decide +kernel), by decide +kernel, by decide, by decide +kernel⟩,
   ⟨0x70, by decide, by decide⟩, ⟨4, by decide⟩, ⟨0x18, by decide, by decide, by decide⟩, ⟨4, by decide⟩, ⟨lane, by decide⟩,
   ⟨lane, 13, 0, by decide, by decide, by decide +kernel⟩,
   ⟨lane.setLink 13 fun l => { l with ksend := 1 }, 13, 3, by decide, by decide +kernel, rfl, by decide⟩,
   ⟨.host, 0, .launch, fun _ => rfl, nofun⟩,
   ⟨staged 15, rfl⟩, fun n _ => ⟨commanded .page n, .host, 3, .page, (by decide : lane.boot.stage ≠ 15), nofun, nofun, nofun,
    by simp [commanded, Turn.ofSlot]⟩, ⟨commanded .attest 1, by decide, by decide⟩, ⟨.task 0, .launch, nofun, rfl, nofun⟩,
   ⟨.host, 3, .attest, nofun, rfl, by decide⟩, ⟨lane, 0x3FFF, by decide +kernel⟩, lane.setRecDw 0 0 0x10000000000, 0, by decide +kernel⟩

/-- A dispatched instance of record 0. -/
def running : State :=
  { lane with insts := [{ recNo := 0, gen := 1, st := .dispatched, pending := 1, event := false, cls := 3 }] }

/-- A pre-empted one. -/
def paused : State := running.updInst 0 1 fun x => { x with pre := true }

theorem witness_CommandEvents : (∃ (pa len ctr : W64), pageSpanOk pa len ctr = true ∧ len = 4096 ∧
      lane.pageMeta pa.toNat = ⟨0, 0, 0⟩ ∧ lane.pageMeta pa.toNat ≠ ⟨1, 1, 7⟩ ∧ lane.waiters = []) ∧
    (∃ (pa len : W64) (lay : BitVec 1), inHbm pa.toNat len.toNat = false ∧ lay ≠ 0) ∧
    (∃ (s : State) (r : BitVec 14) (gen : BitVec 16) (i : Instance), s.inst r gen = some i ∧ i.st ≠ .dispatched) ∧
    (∃ (st ctr : W64), counterPa st = false ∧ counterPa ctr = true) ∧
    (∀ g ∈ [2, 3], ∃ (s : State) (non rep ctr : W64), s.boot.stage = g ∧ nonceOk non.toNat = true ∧ rep.toNat % 4096 = 0 ∧
      inHbm rep.toNat 8192 = true ∧ ctr.toNat % 8 = 0) ∧
    (∃ (s : State) (pa : BitVec 52) (n : Nat), s.hostMem pa.toNat n = true) ∧
    (∃ (s : State) (pa : BitVec 52) (d off : Nat), s.hostMem pa.toNat 8 = false ∧ regionOf pa.toNat = .control d off ∧ pa.toNat % 8 = 0) ∧
    (∃ (s : State) (pa : BitVec 52), s.hostMem pa.toNat 3 = false) ∧ (∃ s : State, s.boot.stage = 2 ∧ s.waiters = []) ∧
    (∃ (s : State) (r : Bool) (rest : List Turn), s.agenda = .verify r :: rest) ∧
    (∃ (s : State) (d : Nat) (slot : CmdSlot) (d0 d1 d2 d3 : W64) (rest : List Turn),
      s.agenda = .command d slot d0 d1 d2 d3 :: rest) ∧
    (∃ (s : State) (src : BitVec 16) (pid : BitVec 32) (rest : List Turn) (h : Arrival), s.agenda = .held src pid :: rest ∧
      s.heldPkts.find? (fun h => h.pkt.sdev == src && h.pkt.pid == pid) = some h) ∧
    (∃ (s : State) (src : BitVec 16) (pid : BitVec 32) (rest : List Turn), s.agenda = .held src pid :: rest ∧
      s.heldPkts.find? (fun h => h.pkt.sdev == src && h.pkt.pid == pid) = none) ∧
    (∃ (va len : W64), canonical va = true ∧ va.toNat % 4096 = 0 ∧ len ≠ 0 ∧ len.toNat % 4096 = 0) ∧
    (∃ (pa len ctr : W64) (cmp : BitVec 2), pageSpanOk pa len ctr = true ∧ len = 4096 ∧ cmp.toNat < 2 ∧
      (inHbm pa.toNat len.toNat = true ∨ (cmp = 0)) ) ∧
    (∃ (pa len ctr : W64), pageSpanOk pa len ctr = false) ∧
    (∃ (s : State) (r : BitVec 14) (gen : BitVec 16) (ctr : W64), ctr.toNat % 8 = 0 ∧ s.inst r gen = none) ∧
    (∃ (s : State) (r : BitVec 14) (gen : BitVec 16) (i : Instance), s.inst r gen = some i ∧ i.st = .dispatched ∧ i.pre = false) ∧
    (∃ (s : State) (r : BitVec 14) (gen : BitVec 16) (i : Instance), s.inst r gen = some i ∧ i.st = .dispatched ∧ i.pre = true) ∧
    (∃ (s : State) (r : BitVec 14) (st ctr : W64), counterPa st = true ∧ counterPa ctr = true ∧ s.dieUp (r.toNat / 4096) = true) ∧
    (∃ s : State, s.boot.stage ≠ 2 ∧ s.boot.stage ≠ 3 ∧ s.boot.stage ≠ 15) ∧
    (∃ (s : State) (non rep ctr : W64), s.boot.stage = 3 ∧ nonceOk non.toNat = true ∧ rep.toNat % 4096 = 0 ∧
      inHbm rep.toNat 8192 = true ∧ ctr.toNat % 8 = 0) ∧
    (∃ (pa n : Nat), (inHbm pa n || inFar pa n) = true) ∧ (∃ s : State, s.boot.stage = 2) ∧ ∃ s : State, s.boot.stage = 15 :=
  ⟨⟨0, 4096, 8192, by decide +kernel, rfl, by decide +kernel, by decide +kernel, rfl⟩, ⟨0x8000000000, 4096, 1, by decide +kernel, by decide⟩,
   ⟨{ lane with insts := [{ recNo := 0, gen := 1, st := .ready, pending := 1, event := false, cls := 3 }] }, 0, 1, _, rfl, nofun⟩,
   ⟨1, 8, by decide +kernel, by decide +kernel⟩,
   fun g _ => ⟨staged g, 0x7FFFFFFFE0, 0, 0, rfl, by decide +kernel, by decide, by decide, by decide⟩,
   ⟨staged 3, 0x7FFFFFFFFF, 1, by decide +kernel⟩, ⟨staged 3, 0xF0C0000000, 3, 0, by decide +kernel, by decide +kernel, by decide +kernel⟩,
   ⟨staged 0, 0x8000000000, by decide +kernel⟩, ⟨staged 2, rfl, rfl⟩, ⟨{ lane with agenda := [.verify true] }, true, [], rfl⟩,
   ⟨commanded .page 1, 3, .page, 0, 0, 0, 0, [], rfl⟩,
   ⟨{ lane with agenda := [.held 0 0], heldPkts := [lane.arrival 0 default] }, 0, 0, [], _, rfl, rfl⟩,
   ⟨{ lane with agenda := [.held 0 0] }, 0, 0, [], rfl, rfl⟩,
   ⟨0, 4096, by decide, by decide, by decide, by decide⟩, ⟨0, 4096, 8192, 1, by decide +kernel, rfl, by decide, .inl (by decide)⟩,
   ⟨1, 4096, 0, by decide +kernel⟩, ⟨lane, 0, 0, 8, by decide, rfl⟩, ⟨running, 0, 1, _, rfl, rfl, rfl⟩,
   ⟨paused, 0, 1, _, rfl, rfl, rfl⟩, ⟨lane, 0x3FFF, 8, 16, by decide +kernel, by decide +kernel, by decide +kernel⟩,
   ⟨lane, by decide, by decide, by decide⟩,
   ⟨staged 3, 0x7FFFFFFFE0, 0, 0, rfl, by decide +kernel, by decide, by decide, by decide⟩,
   ⟨0x1BFFFFFFFFFF, 1, by decide⟩, ⟨staged 2, rfl⟩, staged 15, rfl⟩

/-- A machine in stage 3 with one unit of a lane launch to dispatch. -/
def waitingUnit : State :=
  { State.reset with
    boot := { stage := 3 },
    insts := [{ recNo := 0, gen := 0, st := .ready, pending := 1, event := false, cls := 3, parts := [⟨0, 0, 1, true⟩] }] }

/-- What a dispatch slot of die 0 chooses from. -/
def slotted (s : State) : State :=
  s.insts.foldl (fun s i => s.tryResume i.recNo i.gen) (s.setDie 0 fun x => { x with slotNo := x.slotNo + 1 })

theorem witness_TaskEvents :
    (∃ (s : State) (k : Nat), s.refusedWaits.all (·.task != k) = true) ∧
    (∃ (s : State) (k : Nat) (t : Task) (u : State) (c : CoreId), s.taskOf k = some t ∧ t.status = .waiting ∧
      t.waitOn = .nothing ∧ t.high = false ∧ u = { s.updTask k (fun t => { t with status := .ready }) with ready := s.ready ++ [k] } ∧
      (u.taskOf k).bind u.coreFor = some c) ∧
    (∃ (s : State) (k : Nat) (t : Task) (c : BitVec 8) (v : W64), s.taskOf k = some t ∧ t.status = .parked ∧ t.waitOn = .trapped c v) ∧
    (∃ (s : State) (k : Nat), s.taskOf k = none) ∧
    (∃ (s : State) (k : Nat) (t : Task), s.taskOf k = some t ∧ t.mx.bit 24 = false) ∧
    (∃ s : State, s.task.mx.bit 24 = true ∧ s.task.fena = 0 ∧ s.task.mx.bit 26 = false) ∧
    (∃ s : State, s.readyTasks = []) ∧
    (∃ (s : State) (c : CoreId) (t : Task), s.readyTasks.find? (fun t => s.coreFor t == some c) = some t) ∧
    (∃ u : State, u = slotted lane ∧ u.boot.stage ≠ 3) ∧
    (∃ (s u : State) (i : Instance) (tids : List Nat) (core : CoreId), u = slotted s ∧ u.boot.stage = 3 ∧
      (u.die 0).hot = false ∧ u.dieUp 0 = true ∧ u.choose 0 (s.die 0).slotNo = some (i, tids, core)) ∧
    (∃ (s : State) (r : BitVec 14) (gen : BitVec 16) (v : W64) (i : Instance), s.inst r gen = some i ∧ i.st = .waiting ∧
      i.event = true ∧ ((s.eventValue r.toNat v).2.recDw r.toNat 10).toNat ≤ (s.eventValue r.toNat v).1) ∧
    (∃ (s : State) (r : BitVec 14) (gen : BitVec 16) (v : W64) (i : Instance), s.inst r gen = some i ∧ i.st = .waiting ∧
      i.event = true ∧ (s.eventValue r.toNat v).1 < ((s.eventValue r.toNat v).2.recDw r.toNat 10).toNat) ∧
    (∃ s : State, 920 ≤ (s.die 3).temp.toNat) ∧ (∃ s : State, (s.die 3).temp.toNat < 840 ∧ (s.die 3).wsPause = 0) ∧
    (∃ (s : State) (n m : BitVec 32) (rest : Nat), (s.die 3).wsPause ≠ 0 ∧
      rest = (if (s.die 3).wsPos % 5100 < 2040 then 2040 - (s.die 3).wsPos % 5100 else 0) ∧ n.toNat ≤ rest ∧ rest < m.toNat) := by
  refine ⟨⟨lane, 1, rfl⟩, ⟨lane.setTask fun t => { t with status := .waiting }, 1, _, _, ⟨0, 0, 0⟩, rfl, rfl, rfl, rfl, rfl, by decide +kernel⟩,
    ⟨lane.setTask fun t => { t with status := .parked, waitOn := .trapped 0x40 0 }, 1, _, 0x40, 0, rfl, rfl, rfl⟩,
    ⟨lane, 9, by decide +kernel⟩, ⟨lane, 1, _, rfl, by decide +kernel⟩,
    ⟨lane.setTask fun t => { t with mx := { mxstate := 0x1000000 } }, by decide +kernel, rfl, by decide +kernel⟩, ⟨lane, rfl⟩,
    ⟨{ lane with ready := [1] }, ⟨0, 0, 0⟩, _, rfl⟩, ⟨_, rfl, by decide +kernel⟩, ?_,
    ⟨{ lane with insts := [{ recNo := 0, gen := 1, st := .waiting, pending := 1, event := true, cls := 3 }] }, 0, 1, 0, _, rfl, rfl, rfl,
      by decide +kernel⟩,
    ⟨{ lane with insts := [{ recNo := 0, gen := 1, st := .waiting, pending := 1, event := true, cls := 3 }] }.setRecDw 0 10 1, 0, 1, 0, _,
      rfl, rfl, rfl, by decide +kernel⟩,
    ⟨lane.setDie 3 fun d => { d with temp := 920 }, by decide +kernel⟩, ⟨lane, by decide +kernel, by decide +kernel⟩,
    ⟨lane.setDie 3 fun d => { d with wsPause := 5 }, 2040, 2041, _, by decide +kernel, rfl, by decide +kernel, by decide +kernel⟩⟩
  have h : ((slotted waitingUnit).choose 0 (waitingUnit.die 0).slotNo).isSome = true := by decide +kernel
  obtain ⟨⟨i, tids, core⟩, e⟩ := Option.isSome_iff_exists.1 h
  exact ⟨waitingUnit, _, i, tids, core, rfl, by decide +kernel, by decide +kernel, by decide +kernel, e⟩


/-- A task in a status, running a matrix run or not, under a supervisor. -/
def flagging (f : BitVec 5) : State :=
  (lane.setTask fun t => { t with status := .running, fena := 31, mx := { mode := 6, mxstate := 0x1000000, runFlags := f } }).setDie 0
    fun d => { d with supv := 1 }

/-- The lane task with a wait in the window that no list had room for. -/
def refusing (v : W64) : State := { lane with refusedWaits := [⟨1, scratchBase 0 0, .counter v false, 0, 0⟩] }

/-- A retry list as long as one can be (R78). -/
def crowded1 : State := { lane with waiters := List.replicate 1052672 ⟨2, scratchBase 0 0, .counter 1 false, 0, 0⟩ }

/-- A high-priority task that waits with more lanes than its core has. -/
def crampedTask : State :=
  lane.setTask fun t => { t with status := .parked, high := true, laneImage := List.replicate 129 (Vector.replicate 32 0) }

theorem witness_TaskEvents2 :
    (∀ b ∈ [true, false], ∃ (s : State) (k : Nat) (t : Task), s.taskOf k = some t ∧ t.resident = b) ∧
    (∃ (s u v : State) (k : Nat) (w : Waiter) (others : List Waiter), s.refusedWaits.partition (·.task == k) = ([w], others) ∧
      u = { s with refusedWaits := others } ∧ v = (u.meet w.pa w.kind.size).closeAt w.pa ∧ w.kind.remote = false ∧
      v.waiterReady w = true) ∧
    (∃ (s u v : State) (k n : Nat) (w : Waiter) (others : List Waiter), s.refusedWaits.partition (·.task == k) = ([w], others) ∧
      u = { s with refusedWaits := others } ∧ v = (u.meet w.pa w.kind.size).closeAt w.pa ∧ w.kind.remote = false ∧
      v.waiterReady w = false ∧ n = (v.waiters.filter fun x => homeDie x.pa == homeDie w.pa).length ∧ n < 1052672) ∧
    (∀ k ∈ [WaitKind.remoteRead 1 2 3, .remoteWrite 1 2 3 4], ∃ (s u : State) (w : Waiter) (others : List Waiter),
      s.refusedWaits.partition (·.task == 0) = ([w], others) ∧ u = { s with refusedWaits := others } ∧ w.kind = k ∧
      u.failedIn w.pa 8 ≠ []) ∧
    (∃ (w : Waiter) (n : Nat), n = (crowded1.waiters.filter fun x => homeDie x.pa == homeDie w.pa).length ∧ 1052672 ≤ n) ∧
    (∃ (s u v : State) (k : Nat) (t r : Task), s.taskOf k = some t ∧ (t.status = .waiting ∨ t.status = .parked) ∧
      t.waitOn = .nothing ∧ u = { s.updTask k (fun t => { t with status := .ready }) with ready := s.ready ++ [k] } ∧
      r = { t with status := .ready } ∧ v = (if t.high then u.suspendNormals (u.aimOf r) else u) ∧ t.high = true ∧ v.coreFor r = none) ∧
    (∀ f ∈ [(0 : BitVec 5), 1], ∃ (s : State) (t : Task), t = s.task ∧ t.mx.bit 24 = true ∧ t.resident = true ∧
      t.issues = true ∧ t.waitOn.again = false ∧ t.mx.finish.runFlags &&& t.fena.setWidth 5 = f ∧ (s.die t.core.die.toNat).supv.getLsbD 0 = true) ∧
    (∃ (s u : State) (d : Nat), u = slotted s ∧ u.choose d (s.die d).slotNo = none) ∧
    (∃ (s : State) (r : BitVec 14) (gen : BitVec 16), s.inst r gen = none) ∧
    (∃ (s : State) (r : BitVec 14) (gen : BitVec 16) (i : Instance), s.inst r gen = some i ∧ (i.st ≠ .waiting ∨ i.event = false)) := by
  refine ⟨fun b hb => ?_, ⟨refusing 0, _, _, 1, _, [], rfl, rfl, rfl, rfl, by decide +kernel⟩,
    ⟨refusing 1, _, _, 1, 0, _, [], rfl, rfl, rfl, rfl, by decide +kernel, rfl, by decide⟩,
    fun k _ => ⟨{ lane with refusedWaits := [⟨0, 0x200000, k, 0, 0⟩], failed := [(0x200000, 0)] }, _, _, [], rfl, rfl, rfl, nofun⟩,
    ⟨⟨1, scratchBase 0 0, .counter 1 false, 0, 0⟩, 1052672, ?_, Nat.le_refl _⟩,
    ⟨crampedTask, _, _, 1, _, _, rfl, .inr rfl, rfl, rfl, rfl, rfl, rfl, by decide +kernel⟩,
    fun f hf => ?_, ⟨lane, _, 0, rfl, rfl⟩, ⟨lane, 0, 0, rfl⟩, running, 0, 1, _, rfl, .inl nofun⟩
  · simp only [List.mem_cons, List.not_mem_nil, or_false] at hb
    rcases hb with rfl | rfl
    · exact ⟨lane, 1, _, rfl, rfl⟩
    · exact ⟨lane.setTask fun t => { t with resident := false }, 1, _, rfl, rfl⟩
  · simp only [crowded1]
    rw [List.filter_eq_self.2 fun x hx => by rw [(List.mem_replicate.1 hx).2]; decide, List.length_replicate]
  · simp only [List.mem_cons, List.not_mem_nil, or_false] at hf
    rcases hf with rfl | rfl
    · exact ⟨flagging 0, _, rfl, by decide +kernel, rfl, rfl, by decide +kernel, by decide +kernel⟩
    · exact ⟨flagging 1, _, rfl, by decide +kernel, rfl, rfl, by decide +kernel, by decide +kernel⟩

/-- An engine operation of the lane task with a block, its state as given, under a translation of the weight store and an
I/O queue of its address space. -/
def operating (cmd : Nat) (blk : List W64) (st : OpState) : State :=
  let s := (lane.withOp lane.task cmd 3 blk none).setDie 0 fun d => { d with ioq := [(0, 2), (6, 0x100000000)] }
  { s with
    ops := s.ops.map fun o => { o with st := st }, mem := [(64, 1)],
    dtlb := [(0, ⟨1, 0x200000, 0x200000, 0x8000000000, 0x204⟩)] }

/-- Its operation. -/
def opOf (s : State) : EngineOp := lget s.ops 0

/-- A copy within the window. -/
def copying : List W64 := [0x7F0000000100, 0x7F0000000040, 8, 0, 0, 0, 0, 0]

/-- A port that holds that operation, as a send or as a take, with so many closed windows. -/
def ported (take_ : Bool) (n : Nat) : State :=
  let s := operating (if take_ then 10 else 9) [] .held
  let id := some (opOf s).id
  { s with ports := [{ (default : Port) with
      asid := 1, heldSend := if take_ then none else id, heldTake := if take_ then id else none,
      closed := List.replicate n (0, []) }] }

/-- That machine with the port's descriptor in reach, or not. -/
def graft (take_ ok : Bool) : State :=
  let s := ported take_ 1
  { s with
    ports := s.ports.map fun p => { p with desc := if ok then 0x200000 else 0x400000, dws := [0, 0, 0, 0, 0, 0x200100] },
    ops := s.ops.map fun o => { o with blk := [0, 0x200000] }, dtlb := [(0, ⟨1, 0x200000, 0x200000, 0x200000, 0x104⟩)] }

/-- A packet on its way to tag 7 of core 0, bound to channel 0 or not, behind so many. -/
def arriving (bound : Bool) (n : Nat) : State :=
  { lane with
    bindings := if bound then [⟨⟨0, 0, 0⟩, 0, 7, 0x40, false, 0, 0, lane.task.lvl⟩] else [],
    chq := List.replicate n ⟨⟨0, 0, 0⟩, 0, [1, 2]⟩,
    sends := [⟨4, 1, 0, 1, 7, [1, 2], 0, 0, 1, 7, 0⟩] }

/-- Whether an operation waits to begin. -/
def Queued (s : State) (o : EngineOp) : Prop :=
  s.ops.find? (fun x => x.id == o.id && decide (x.st = .queued)) = some o ∧ o.tag.isSome = true ∧ o.stopped = false

theorem queued_op (cmd : Nat) (blk : List W64) : Queued (operating cmd blk .queued) (opOf (operating cmd blk .queued)) :=
  ⟨rfl, rfl, rfl⟩

/-- A `WSLOAD` of a line. -/
def loading : List W64 := [0x200000, 0x7F0000000040, 64, 0, 0, 0, 0, 0]

/-- One to an address that nothing translates. -/
def nowhere : List W64 := [0x400000, 0x7F0000000040, 64, 0, 0, 0, 0, 0]

/-- A pair is its first part, as found, and its second. -/
theorem prod {α β : Type} {x : α × β} {a : α} (h : x.1 = a) : x = (a, x.2) := by
  rw [← h]

/-- What an operation reads before it moves anything. -/
def indicesOf (s : State) (o : EngineOp) : Moved × State :=
  if o.cmd = 4 then gatherIndices o s else ({ seen := o.seen }, s)

/-- The state once the error that is to be injected has been. -/
def injected (s : State) (o : EngineOp) : State := (s.inject o.core.die.toNat o.count).2

theorem witness_EngineOperationStart :
    (∃ (s : State) (o : EngineOp), Queued s o ∧ o.cmd < 8 ∧ blockOk s o = false) ∧
    (∀ cmd ∈ [8, 9, 10, 11], ∃ (s : State) (o : EngineOp), Queued s o ∧ o.cmd = cmd ∧ portBlockOk o = true) ∧
    (∃ (s : State) (o : EngineOp), Queued s o ∧ 8 ≤ o.cmd ∧ portBlockOk o = false) ∧
    (∃ (s : State) (o : EngineOp), Queued s o ∧ o.cmd = 8 ∧ portBlockOk o = true ∧ blkField o.blk 2 0 1 = 1) ∧
    (∀ b ∈ [false, true], ∃ (s u : State) (o : EngineOp) (d : Nat), Queued s o ∧ blockOk s o = true ∧ o.cmd = 7 ∧
      weightDie o s = (some d, u) ∧ u.claimHeld d = b) ∧
    (∃ (s u : State) (o : EngineOp), Queued s o ∧ blockOk s o = true ∧ o.cmd = 7 ∧ weightDie o s = (none, u)) ∧
    (∀ cmd ∈ [5, 6], ∃ (s : State) (o : EngineOp), Queued s o ∧ blockOk s o = true ∧ o.cmd = cmd) ∧
    (∀ cmd ∈ [0, 1, 2, 3, 4], ∃ (s : State) (o : EngineOp), Queued s o ∧ blockOk s o = true ∧
      o.cmd = cmd ∧ blkRem o.blk = false ∧ (indicesOf (injected s o) o).1.fault = none) ∧
    (∃ (s : State) (o : EngineOp), Queued s o ∧ blockOk s o = true ∧ o.cmd = 4 ∧
      (indicesOf (injected s o) o).1.fault.isSome = true) ∧
    (∀ near : Bool, ∃ (s : State) (o : EngineOp), Queued s o ∧ blockOk s o = true ∧ o.cmd < 4 ∧ o.cmd ≠ 2 ∧
      blkRem o.blk = true ∧ (injected s o).inPlane (BitVec.ofNat 16 (blkField o.blk 5 32 16)) = near) ∧
    ∀ dst ∈ [0x7F0000000100, 0x7F0000000044], ∃ (o : EngineOp) (acc : Access) (u v v' x : State) (g : Seg) (r w : Moved)
      (y : List Byte × List Byte), o.misaligned g = false ∧ readRange o.ctx' o.reader g.src g.n u = (r, v) ∧
      y = selfCopy (fun k => Config.freeKeep (v.tick + k)) o.flip o.bytes g r.data ∧
      v' = { v with tick := v.tick + if g.overlaps then r.data.length else 0 } ∧
      writeRange o.ctx' acc (.task o.task) g.dst y.2 v' = (w, x) ∧ r.fault = none ∧ w.fault = none ∧
      r.failed = none ∧ w.failed = none ∧ g.n = 8 ∧ g.dst = dst := by
  refine ⟨⟨_, _, queued_op 0 [0, 0, 8, 0, 0, 0, 1, 0], by decide, by decide +kernel⟩, fun cmd hc => ?_,
    ⟨_, _, queued_op 8 [1], by decide, by decide +kernel⟩, ⟨_, _, queued_op 8 [0, 0, 1], rfl, by decide +kernel, by decide +kernel⟩,
    fun b h => ?_, ⟨_, _, _, queued_op 7 nowhere, by decide +kernel, rfl, prod (by decide +kernel)⟩, fun cmd hc => ?_, fun cmd hc => ?_,
    ⟨_, _, queued_op 4 [0x7F0000000100, 0x7F0000000040, 0x10, 0x3000001], by decide +kernel, rfl, by decide +kernel⟩, fun near => ?_,
    fun dst hd => ?_⟩
  · simp only [List.mem_cons, List.not_mem_nil, or_false] at hc
    rcases hc with rfl | rfl | rfl | rfl <;> exact ⟨_, _, queued_op _ [], rfl, by decide +kernel⟩
  · simp only [List.mem_cons, List.not_mem_nil, or_false] at h
    rcases h with rfl | rfl
    · exact ⟨_, _, _, 0, queued_op 7 loading, by decide +kernel, rfl, prod (by decide +kernel), by decide +kernel⟩
    · exact ⟨{ (operating 7 loading .queued).setRecDw 0 0 0x100000 with insts := running.insts }, _, _, 0, queued_op 7 loading,
        by decide +kernel, rfl, prod (by decide +kernel), by decide +kernel⟩
  · simp only [List.mem_cons, List.not_mem_nil, or_false] at hc
    rcases hc with rfl | rfl <;> exact ⟨_, _, queued_op _ [0, 0, 8], by decide +kernel, rfl⟩
  · simp only [List.mem_cons, List.not_mem_nil, or_false] at hc
    rcases hc with rfl | rfl | rfl | rfl | rfl
    · exact ⟨_, _, queued_op 0 copying, by decide +kernel, rfl, by decide +kernel, rfl⟩
    · exact ⟨_, _, queued_op 1 copying, by decide +kernel, rfl, by decide +kernel, rfl⟩
    · exact ⟨_, _, queued_op 2 [0x100, 0x7F0000000040, 8], by decide +kernel, rfl, by decide +kernel, rfl⟩
    · exact ⟨_, _, queued_op 3 copying, by decide +kernel, rfl, by decide +kernel, rfl⟩
    · exact ⟨_, _, queued_op 4 [0x7F0000000100, 0x7F0000000040, 0x7F0000000080, 0x3000001], by decide +kernel, rfl,
        by decide +kernel, by decide +kernel⟩
  · cases near
    · exact ⟨_, _, queued_op 0 [0x7F0000000100, 0x7F0000000040, 8, 0, 0, 0x4000000020], by decide +kernel, by decide, by decide,
        by decide +kernel, by decide +kernel⟩
    · exact ⟨_, _, queued_op 0 [0x7F0000000100, 0x7F0000000040, 8, 0, 0, 0x0100000020], by decide +kernel, by decide, by decide,
        by decide +kernel, by decide +kernel⟩
  · simp only [List.mem_cons, List.not_mem_nil, or_false] at hd
    rcases hd with rfl | rfl
    · exact ⟨opOf (operating 0 copying .queued), { write := true }, operating 0 copying .queued, _, _, _,
        ⟨0x7F0000000100, 0x7F0000000040, 8⟩, _, _, _, by decide, rfl, rfl, rfl, rfl, by decide +kernel, by decide +kernel,
        by decide +kernel, by decide +kernel, rfl, rfl⟩
    · exact ⟨opOf (operating 0 copying .queued), { write := true }, operating 0 copying .queued, _, _, _,
        ⟨0x7F0000000044, 0x7F0000000040, 8⟩, _, _, _, by decide, rfl, rfl, rfl, rfl, by decide +kernel, by decide +kernel,
        by decide +kernel, by decide +kernel, rfl, rfl⟩

theorem witness_EngineEvents :
    (∀ w ∈ [none, some 0], ∃ (s : State) (o : EngineOp), s.ops.find? (·.id == o.id) = some o ∧ o.st = .finished ∧ o.wsDie = w ∧
      o.tag.isSome = true) ∧
    (∀ cmd ∈ [5, 6], ∀ peer ∈ [(0 : BitVec 16), 1], ∃ (s w : State) (o o' : EngineOp), s.ops.find? (·.id == o.id) = some o ∧
      o.st = .remote ∧ o.cmd = cmd ∧ s.ioEnd o peer = (w, o')) ∧
    (∀ take_ st : Bool, ∃ (s : State) (o : EngineOp) (p : Port) (q : EngineOp × State),
      s.ops.find? (fun x => x.id == o.id && decide (x.st = .held)) = some o ∧
      s.ports.find? (fun x => x.heldSend == some o.id || x.heldTake == some o.id) = some p ∧
      q = (if take_ then p.probe (portProbe o.ctx' { write := true } (blkDw o.blk 1) (takeBytes p (blkField o.blk 2 0 2)) (o, s))
        else portProbe o.ctx' {} (blkDw o.blk 1) (4 * p.nsc) (p.probe (o, s))) ∧
      (take_ = true → p.heldSend ≠ some o.id ∧ p.closed ≠ []) ∧ (take_ = false → p.heldSend = some o.id ∧ p.full = false) ∧
      q.1.stopped = st) ∧
    (∀ n ∈ [0, 1], ∃ (s : State) (o : EngineOp) (p : Port), s.ops.find? (fun x => x.id == o.id && decide (x.st = .held)) = some o ∧
      s.ports.find? (fun x => x.heldSend == some o.id || x.heldTake == some o.id) = some p ∧ p.heldSend ≠ some o.id ∧
      p.closed.length = n) ∧
    (∀ n ∈ [1, 2], ∃ (s : State) (o : EngineOp) (p : Port), s.ops.find? (fun x => x.id == o.id && decide (x.st = .held)) = some o ∧
      s.ports.find? (fun x => x.heldSend == some o.id || x.heldTake == some o.id) = some p ∧ p.heldSend = some o.id ∧
      p.full = decide (n = 2)) ∧
    (∃ (s : State) (r : SendRec), s.sends.find? (fun x => x.id == r.id && !routeRemote x.route) = some r ∧
      s.bindings.all (fun b => !(b.core == routeCore r.route && b.tag == r.route.setWidth 16)) = true) ∧
    (∀ n ∈ [3, 4], ∃ (s : State) (r : SendRec) (b : Binding), s.sends.find? (fun x => x.id == r.id && !routeRemote x.route) = some r ∧
      s.bindings.find? (fun b => b.core == routeCore r.route && b.tag == r.route.setWidth 16) = some b ∧
      (s.chq.filter fun q => q.core == routeCore r.route && q.chan == b.chan).length = n) ∧
    (∃ (s : State) (c : CoreId) (n : BitVec 4), s.canActivate c n = false) ∧
    (∃ (s : State) (c : CoreId) (n : BitVec 4) (b : Binding) (q : QPacket), s.canActivate c n = true ∧ s.bindingOf c n = some b ∧
      s.chq.find? (fun q => q.core == c && q.chan == n) = some q) ∧
    (∃ (s : State) (d : BitVec 2) (c : BitVec 6), (s.die d.toNat).offline.getLsbD c.toNat = true) ∧
    (∃ (s : State) (d : BitVec 2) (c : BitVec 6), (s.die d.toNat).offline.getLsbD c.toNat = false ∧ s.insts = []) ∧
    (∃ (s : State) (n : BitVec 52), s.wcs.all (·.sector != n.toNat) = true) ∧
    (∃ (s : State) (n : BitVec 52), s.wcs.any (·.sector == n.toNat) = true) ∧ ∃ s : State, s.failed = [] := by
  refine ⟨fun w _ => ?_, fun cmd hc peer hp => ?_, fun take_ st => ?_, fun n hn => ?_, fun n hn => ?_, ⟨arriving false 0, lget (arriving false 0).sends 0, by decide +kernel, by decide +kernel⟩,
    fun n hn => ?_, ⟨lane, ⟨0, 0, 0⟩, 0, by decide +kernel⟩,
    ⟨{ arriving true 1 with sends := [] }, ⟨0, 0, 0⟩, 0, _, _, by decide +kernel, rfl, rfl⟩,
    ⟨lane.setDie 0 fun d => { d with offline := 0x8000000000000000 }, 0, 63, by decide +kernel⟩, ⟨lane, 3, 63, by decide +kernel, rfl⟩,
    ⟨lane, 0, rfl⟩, ⟨{ lane with wcs := [⟨0x40, 0, 0⟩] }, 0x40, by decide +kernel⟩, lane, rfl⟩
  · refine ⟨{ lane with ops := [{ opOf (operating 0 copying .finished) with wsDie := w }] }, { opOf (operating 0 copying .finished) with wsDie := w },
      ?_, rfl, rfl, rfl⟩
    simp
  · simp only [List.mem_cons, List.not_mem_nil, or_false] at hc
    rcases hc with rfl | rfl
    · exact ⟨operating 5 copying .remote, _, opOf (operating 5 copying .remote), _, rfl, rfl, rfl, rfl⟩
    · exact ⟨operating 6 copying .remote, _, opOf (operating 6 copying .remote), _, rfl, rfl, rfl, rfl⟩
  · cases st <;> cases take_
    · exact ⟨graft false true, opOf (graft false true), lget (graft false true).ports 0, _, rfl, rfl, rfl, nofun, fun _ => ⟨rfl, by decide +kernel⟩,
        by decide +kernel⟩
    · exact ⟨graft true true, opOf (graft true true), lget (graft true true).ports 0, _, rfl, rfl, rfl, fun _ => ⟨nofun, nofun⟩, nofun,
        by decide +kernel⟩
    · exact ⟨graft false false, opOf (graft false false), lget (graft false false).ports 0, _, rfl, rfl, rfl, nofun, fun _ => ⟨rfl, by decide +kernel⟩,
        by decide +kernel⟩
    · exact ⟨graft true false, opOf (graft true false), lget (graft true false).ports 0, _, rfl, rfl, rfl, fun _ => ⟨nofun, nofun⟩, nofun,
        by decide +kernel⟩
  · exact ⟨ported true n, opOf (ported true n), lget (ported true n).ports 0, rfl, rfl, nofun, List.length_replicate ..⟩
  · exact ⟨ported false n, opOf (ported false n), lget (ported false n).ports 0, rfl, rfl, rfl, by
      simp only [List.mem_cons, List.not_mem_nil, or_false] at hn
      rcases hn with rfl | rfl <;> decide +kernel⟩
  · simp only [List.mem_cons, List.not_mem_nil, or_false] at hn
    rcases hn with rfl | rfl
    · exact ⟨arriving true 3, lget (arriving true 3).sends 0, lget (arriving true 3).bindings 0, rfl, by decide +kernel, rfl⟩
    · exact ⟨arriving true 4, lget (arriving true 4).sends 0, lget (arriving true 4).bindings 0, rfl, by decide +kernel, rfl⟩

/-- A link that is up. -/
def linked : State := (lane.setLink 13 fun l => { l with up := true }).setLink 0 fun l => { l with keys := [(0, 7)] }

/-- A flit of one byte whose check value is right. -/
def flitOf (hdr : W64) : Flit := ⟨hdr, [1], linkCheck hdr [1]⟩

/-- A sound flit of class 1 and sequence number 0, in the clear or encrypted. -/
def dataFlit (enc : Bool) : Flit := flitOf (if enc then 0x104000000040 else 0x100000000040)

theorem flitOf_check (h : W64) : ((flitOf h).check == linkCheck (flitOf h).hdr (flitOf h).payload) = true := by
  simp only [flitOf, beq_self_eq_true]

theorem dataFlit_sound (b : Bool) : flitSound (dataFlit b) = true := by
  unfold flitSound dataFlit
  rw [flitOf_check]
  cases b <;> decide +kernel

/-- A packet of one flit of class 1. -/
def wholeFlit : Flit := flitOf 0x10000000004C

theorem wholeFlit_sound : flitSound wholeFlit = true := by
  unfold flitSound wholeFlit
  rw [flitOf_check]
  decide +kernel

/-- A flit of class 3, which does not exist. -/
def badFlit : Flit := ⟨0xC0, [], 0⟩

theorem badFlit_sound : flitSound badFlit = false := by
  unfold flitSound
  generalize (badFlit.check == linkCheck badFlit.hdr badFlit.payload) = b
  cases b <;> decide +kernel

theorem witness_LinkEvents : (∃ (s : State) (n : BitVec 4), n.toNat = 13 ∧ (s.link n.toNat).up = false) ∧
    (∃ (s : State) (n : BitVec 4) (f : Flit), n.toNat = 13 ∧ (s.link n.toNat).up = true ∧ flitSound f = false) ∧
    (∃ (s : State) (n : BitVec 4) (f : Flit), n.toNat = 13 ∧ (s.link n.toNat).up = true ∧ flitSound f = true ∧ flitCls f ≠ 0 ∧
      flitSeq f ≠ (s.link n.toNat).rxSeq.toNat) ∧
    (∃ (s : State) (n : BitVec 4) (f : Flit), n.toNat = 13 ∧ (s.link n.toNat).up = true ∧ flitSound f = true ∧ flitCls f ≠ 0 ∧
      flitSeq f = (s.link n.toNat).rxSeq.toNat ∧ f.hdr.getLsbD 38 = true) ∧
    (∃ (s : State) (n : BitVec 4) (f : Flit), n.toNat = 13 ∧ (s.link n.toNat).sendK = [f] ∧ (s.link n.toNat).swreq = false) ∧
    (∃ (s : State) (n : BitVec 4), n.toNat < 14 ∧ (s.link n.toNat).up = true ∧ (s.link n.toNat).sendK = [] ∧ (s.link n.toNat).swreq = false ∧
      (s.link n.toNat).enc = false ∧ (s.link n.toNat).resend = [] ∧ (s.link n.toNat).sendU = [] ∧ (s.link n.toNat).sendB = [] ∧
      (s.link n.toNat).txFrame = [] ∧ (s.link n.toNat).openU = false ∧ (s.link n.toNat).openB = false) ∧
    (∃ (s : State) (n : BitVec 4) (cls net : BitVec 2), n.toNat < 14 ∧ (s.link n.toNat).xoff.contains (cls, net) = false) ∧
    (∃ (s : State) (n : BitVec 4), n.toNat < 14 ∧ (s.link n.toNat).rxFrame = []) ∧
    (∃ (s : State) (n : BitVec 4) (f : Flit) (fs : List Flit), n.toNat < 14 ∧ (s.link n.toNat).rxFrame = f :: fs) ∧
    (∃ (s u : State) (n : BitVec 4) (f : Flit) (cls net : BitVec 2), n.toNat = 13 ∧ (s.link n.toNat).up = true ∧ flitSound f = true ∧
      flitCls f ≠ 0 ∧ flitSeq f = (s.link n.toNat).rxSeq.toNat ∧ f.hdr.getLsbD 38 = false ∧ f.hdr.getLsbD 3 = true ∧
      f.hdr.getLsbD 2 = true ∧ cls = BitVec.ofNat 2 (flitCls f) ∧ net = BitVec.ofNat 2 (flitNet f) ∧
      u = s.setLink n.toNat (fun l => { l with rxSeq := l.rxSeq + 1, nakked := false }) ∧
      (u.link n.toNat).ctxs.all (fun c => !(c.cls == cls && c.net == net)) = true) ∧
    (∃ (s : State) (n : BitVec 4) (f : Flit), n.toNat = 13 ∧ (∀ q ∈ (s.link n.toNat).sendU ++ (s.link n.toNat).sendB, q.src = none) ∧
      (s.link n.toNat).swreq = false ∧ (s.link n.toNat).sendK = [f]) ∧
    (∃ (s : State) (n : BitVec 4) (cls net : BitVec 2), n.toNat < 14 ∧ (s.link n.toNat).xoff.contains (cls, net) = true) ∧
    (∀ x : BitVec 128, (∃ tag, x = tag) ∧ ∃ tag, x ≠ tag) ∧
    ∃ (s : State) (n : BitVec 4), n.toNat < 14 ∧ ∀ r ∈ s.requests, (s.link n.toNat).carries r.pkt = false :=
  ⟨⟨lane, 13, by decide, by decide +kernel⟩, ⟨linked, 13, badFlit, by decide, by decide +kernel, badFlit_sound⟩,
   ⟨linked.setLink 13 fun l => { l with rxSeq := 0xFFF }, 13, dataFlit false, by decide, by decide +kernel, dataFlit_sound _,
    by decide +kernel, by decide +kernel⟩,
   ⟨linked, 13, dataFlit true, by decide, by decide +kernel, dataFlit_sound _, by decide +kernel, by decide +kernel, by decide +kernel⟩,
   ⟨linked.setLink 13 fun l => { l with sendK := [dataFlit false] }, 13, dataFlit false, by decide, rfl, rfl⟩,
   ⟨linked, 13, by decide, by and_intros <;> decide +kernel⟩,
   ⟨linked, 13, 2, 2, by decide, by decide +kernel⟩, ⟨linked, 0, by decide, by decide +kernel⟩,
   ⟨linked.setLink 0 fun l => { l with rxFrame := [dataFlit true] }, 0, dataFlit true, [], by decide, rfl⟩,
   ⟨linked, _, 13, wholeFlit, _, _, by decide, by decide +kernel, wholeFlit_sound, by decide +kernel, by decide +kernel, by decide,
    by decide, by decide, rfl, rfl, rfl, by decide +kernel⟩,
   ⟨linked.setLink 13 fun l => { l with sendK := [dataFlit false] }, 13, dataFlit false, by decide, nofun, rfl, rfl⟩,
   ⟨linked.setLink 13 fun l => { l with xoff := [(2, 1)] }, 13, 2, 1, by decide, by decide +kernel⟩,
   fun x => ⟨⟨x, rfl⟩, x + 1, by simp⟩,
   linked, 0, by decide, nofun⟩

/-- A packet of an operation to a device under job key 7. -/
def packet (ddev op : Nat) : Packet :=
  ⟨BitVec.ofNat 64 (ddev * 2 ^ 48), BitVec.ofNat 64 (op * 2 ^ 56), 7 * 2 ^ 32, 0, []⟩


/-- A machine that other devices reach: VA 0x200000 of ASID 1 is a writable page with full/empty bits; one word of it may
be full. -/
def reached (full : Bool) : State :=
  { linked with
    mem := [(64, 1)], dtlb := [(0, ⟨1, 0x200000, 0x200000, 0x200000, 0x104⟩)], full := if full then [0x200000] else [] }


/-- A request of job key 7 in the form `fem`, of ASID 1, with a chain of packet 0 or after packet `prev`. -/
def requestOf (op fem : Nat) (va : W64) (data : List Byte) (prev : Nat := 0) : Packet :=
  ⟨10, BitVec.ofNat 64 (op * 2 ^ 56 + fem * 2 ^ 48 + 2 ^ 24 + min prev 1), BitVec.ofNat 64 (7 * 2 ^ 32 + prev), va, data⟩

/-- A new request that has come in for this device, tainted or not. -/
def Comes (s : State) (p : Packet) (tnt : Bool) (a : Arrival) : Prop :=
  a = { s.arrival 0 p with tnt := tnt } ∧ a.pkt.ddev = s.rid ∧ a.pkt.op ∈ [1, 2, 3] ∧
    (s.waiters ++ s.refusedWaits).all (fun w => !w.kind.remote) = true ∧ s.answers.find? (fun x => x.src == a.pkt.sdev && x.pid == a.pkt.pid) = none ∧
    s.performed.contains (a.pkt.sdev, a.pkt.pid) = false

/-- Whether its turn in its chain has come (R402). -/
def Due (s : State) (a : Arrival) : Bool :=
  a.pkt.key == 0 || a.pkt.kprv == 0 || s.performed.contains (a.pkt.sdev, a.pkt.kprv) ||
    !recentPid (s.topPid a.pkt.sdev a.pkt.pid) a.pkt.kprv

theorem comes {s : State} {p : Packet} {tnt : Bool} (h : (decide (p.ddev = s.rid) && decide (p.op ∈ [1, 2, 3]) &&
    (s.waiters ++ s.refusedWaits).all (fun w => !w.kind.remote) && decide (s.answers.find? (fun x => x.src == p.sdev && x.pid == p.pid) = none) &&
    !s.performed.contains (p.sdev, p.pid)) = true) : Comes s p tnt { s.arrival 0 p with tnt := tnt } := by
  simp only [Bool.and_eq_true, decide_eq_true_eq, Bool.not_eq_true'] at h
  exact ⟨rfl, h.1.1.1.1, h.1.1.1.2, h.1.1.2, h.1.2, h.2⟩

theorem witness_FabricRequests :
    (∃ (s : State) (p : Packet) (a : Arrival), Comes s p false a ∧ Due s a = false) ∧
    (∃ (s : State) (p : Packet) (a : Arrival), Comes s p false a ∧ Due s a = true ∧ a.pkt.key ≠ 0 ∧ a.pkt.kprv ≠ 0 ∧
      s.performed.contains (a.pkt.sdev, a.pkt.kprv) = false) ∧
    (∀ op ∈ [1, 2, 3], ∃ (s : State) (p : Packet) (a : Arrival), Comes s p true a ∧ Due s a = true ∧ a.tnt = true ∧ a.pkt.op = op) ∧
    (∃ (s t : State) (p : Packet) (a : Arrival), Comes s p false a ∧ Due s a = true ∧ a.tnt = false ∧ a.pkt.op = 1 ∧
      s.accept a.pkt.h3 a.pkt.words = some t) ∧
    (∃ (s : State) (p : Packet) (a : Arrival), Comes s p false a ∧ Due s a = true ∧ a.tnt = false ∧ a.pkt.op = 1 ∧
      s.accept a.pkt.h3 a.pkt.words = none) ∧
    (∃ (s u : State) (p : Packet) (a : Arrival) (w : Moved), Comes s p false a ∧ (Due s a = true ∧ a.tnt = false ∧ a.pkt.op = 2 ∧
      a.pkt.fem = 0 ∧ a.pkt.h3.toNat % 4096 + a.pkt.data.length = 4096) ∧
      writeRange ((s.release a).arrivalCtx a) { write := true } .other a.pkt.h3 a.pkt.data (s.release a) = (w, u) ∧ w.fault = none) ∧
    (∃ (s u : State) (p : Packet) (a : Arrival) (w : Moved) (f : OpFault), Comes s p false a ∧ (Due s a = true ∧ a.tnt = false ∧
      a.pkt.op = 2 ∧ a.pkt.fem = 0) ∧ writeRange ((s.release a).arrivalCtx a) { write := true } .other a.pkt.h3 a.pkt.data (s.release a) = (w, u) ∧
      w.fault = some f) ∧
    (∀ b ∈ [false, true], ∃ (s u : State) (p : Packet) (a : Arrival) (pa : Nat), Comes s p false a ∧ (Due s a = true ∧ a.tnt = false ∧
      a.pkt.op = 2 ∧ a.pkt.fem = 2 ∧ a.pkt.data.length = 8 ∧ a.pkt.h3.toNat % 8 = 0) ∧
      Gives (translate1 ((s.release a).arrivalCtx a) { write := true, fe := true } a.pkt.h3 8) (s.release a) pa u ∧ u.failed = [] ∧ u.isFull pa = b) ∧
    (∃ (p : Packet), p.op = 2 ∧ p.fem = 4) ∧
    (∃ (s u : State) (p : Packet) (a : Arrival) (m : Nat) (x : Moved), Comes s p false a ∧ (Due s a = true ∧ a.tnt = false ∧ a.pkt.op = 3 ∧
      a.pkt.data.length = 8) ∧ m = leNat a.pkt.data ∧ a.pkt.fem = 0 ∧ a.pkt.h3.toNat % 4096 + m ≤ 4096 ∧
      readRange ((s.release a).arrivalCtx a) ((s.release a).portReader a.link.toNat a.pos) a.pkt.h3 m (s.release a) = (x, u) ∧ x.fault = none) ∧
    (∃ (s u : State) (p : Packet) (a : Arrival) (m : Nat) (x : Moved) (f : OpFault), Comes s p false a ∧ (Due s a = true ∧ a.tnt = false ∧
      a.pkt.op = 3 ∧ a.pkt.data.length = 8) ∧ m = leNat a.pkt.data ∧ a.pkt.fem = 0 ∧ a.pkt.h3.toNat % 4096 + m ≤ 4096 ∧
      readRange ((s.release a).arrivalCtx a) ((s.release a).portReader a.link.toNat a.pos) a.pkt.h3 m (s.release a) = (x, u) ∧ x.fault = some f) ∧
    (∀ b ∈ [false, true], ∀ fem ∈ [1, 3], ∃ (s u : State) (p : Packet) (a : Arrival) (pa : Nat), Comes s p false a ∧ (Due s a = true ∧
      a.tnt = false ∧ a.pkt.op = 3 ∧ a.pkt.data.length = 8 ∧ leNat a.pkt.data = 8 ∧ a.pkt.fem = fem ∧ a.pkt.h3.toNat % 8 = 0) ∧
      Gives (translate1 ((s.release a).arrivalCtx a) { fe := true } a.pkt.h3 8) (s.release a) pa u ∧ u.failed = [] ∧ u.isFull pa = b) := by
  refine ⟨⟨reached false, requestOf 2 0 0 [] 9, _, comes (by decide +kernel), by decide +kernel⟩,
    ⟨reached false, requestOf 2 0 0 [] 0x80000001, _, comes (by decide +kernel), by decide +kernel, by decide +kernel,
      by decide +kernel, by decide +kernel⟩, fun op h => ?_,
    ⟨reached false, _, requestOf 1 0 7 [], _, comes (by decide +kernel), by decide +kernel, by decide +kernel, by decide +kernel, rfl⟩,
    ⟨{ arriving true 4 with links := linked.links }, requestOf 1 0 7 [], _, comes (by decide +kernel), by decide +kernel, by decide +kernel,
      by decide +kernel, by decide +kernel⟩,
    ⟨reached false, _, requestOf 2 0 0x200FF8 (List.replicate 8 1), _, _, comes (by decide +kernel),
      by and_intros <;> decide +kernel, rfl, by decide +kernel⟩,
    ⟨reached false, _, requestOf 2 0 0x400000 [1], _, _, (0x10, 0x400000), comes (by decide +kernel),
      by and_intros <;> decide +kernel, rfl, by decide +kernel⟩, fun b h => ?_,
    ⟨requestOf 2 4 0 [], by decide +kernel, by decide +kernel⟩,
    ⟨reached false, _, requestOf 3 0 0x200000 (leBytes 8 64), _, _, _, comes (by decide +kernel),
      by and_intros <;> decide +kernel, rfl, by decide +kernel, by decide +kernel, rfl, by decide +kernel⟩,
    ⟨reached false, _, requestOf 3 0 0x400000 (leBytes 8 64), _, _, _, (0x10, 0x400000), comes (by decide +kernel),
      by and_intros <;> decide +kernel, rfl, by decide +kernel, by decide +kernel, rfl, by decide +kernel⟩,
    fun b h fem g => ?_⟩
  · simp only [List.mem_cons, List.not_mem_nil, or_false] at h
    rcases h with rfl | rfl | rfl
    · exact ⟨reached false, requestOf 1 0 0 [], _, comes (by decide +kernel), by and_intros <;> decide +kernel⟩
    · exact ⟨reached false, requestOf 2 0 0 [], _, comes (by decide +kernel), by and_intros <;> decide +kernel⟩
    · exact ⟨reached false, requestOf 3 0 0 [], _, comes (by decide +kernel), by and_intros <;> decide +kernel⟩
  · simp only [List.mem_cons, List.not_mem_nil, or_false] at h
    rcases h with rfl | rfl
    · exact ⟨reached false, _, requestOf 2 2 0x200000 (List.replicate 8 1), _, _, comes (by decide +kernel),
        by and_intros <;> decide +kernel, gives (by decide +kernel), rfl, by decide +kernel⟩
    · exact ⟨reached true, _, requestOf 2 2 0x200000 (List.replicate 8 1), _, _, comes (by decide +kernel),
        by and_intros <;> decide +kernel, gives (by decide +kernel), rfl, by decide +kernel⟩
  · simp only [List.mem_cons, List.not_mem_nil, or_false] at h g
    rcases h with rfl | rfl <;> rcases g with rfl | rfl
    · exact ⟨reached false, _, requestOf 3 1 0x200000 (leBytes 8 8), _, _, comes (by decide +kernel),
        by and_intros <;> decide +kernel, gives (by decide +kernel), rfl, by decide +kernel⟩
    · exact ⟨reached false, _, requestOf 3 3 0x200000 (leBytes 8 8), _, _, comes (by decide +kernel),
        by and_intros <;> decide +kernel, gives (by decide +kernel), rfl, by decide +kernel⟩
    · exact ⟨reached true, _, requestOf 3 1 0x200000 (leBytes 8 8), _, _, comes (by decide +kernel),
        by and_intros <;> decide +kernel, gives (by decide +kernel), rfl, by decide +kernel⟩
    · exact ⟨reached true, _, requestOf 3 3 0x200000 (leBytes 8 8), _, _, comes (by decide +kernel),
        by and_intros <;> decide +kernel, gives (by decide +kernel), rfl, by decide +kernel⟩

theorem witness_FabricEvents :
    (∃ (s : State) (n : BitVec 4) (p : Packet) (a : Arrival), a = s.arrival n p ∧ (s.link a.link.toNat).member a.pkt.jkey = false) ∧
    (∃ (s : State) (n : BitVec 4) (cls net : BitVec 2) (p : Packet) (a : Arrival), a = s.arrivalAs n cls net p ∧
      (s.link a.link.toNat).member a.pkt.jkey = true ∧ a.pkt.ddev ≠ s.rid) ∧
    (∃ (s : State) (n : BitVec 4) (p : Packet) (a : Arrival), a = s.arrival n p ∧ (s.link a.link.toNat).member a.pkt.jkey = true ∧
      a.pkt.ddev = s.rid ∧ a.pkt.reply = true) ∧
    (∃ (s : State) (n : BitVec 4) (p : Packet) (a : Arrival), a = s.arrival n p ∧ (s.link a.link.toNat).member a.pkt.jkey = true ∧
      a.pkt.ddev = s.rid ∧ a.pkt.op ∉ [1, 2, 3, 0x10, 0x11]) ∧
    (∃ (s : State) (n : BitVec 4) (p : Packet) (a : Arrival) (x : Answer), a = s.arrival n p ∧
      (s.link a.link.toNat).member a.pkt.jkey = true ∧ a.pkt.ddev = s.rid ∧ a.pkt.op ∈ [1, 2, 3] ∧
      s.answers.find? (fun x => x.src == a.pkt.sdev && x.pid == a.pkt.pid) = some x) ∧
    (∃ (s : State) (dev : BitVec 16) (pid : BitVec 32), (s.requests.all fun r => !(r.dev == dev && r.pid == pid)) = true) ∧
    (∀ n ∈ [7, 8], ∃ (s : State) (dev : BitVec 16) (pid : BitVec 32) (r : Request),
      s.requests.find? (fun r => r.dev == dev && r.pid == pid) = some r ∧ r.sends = n) := by
  refine ⟨⟨linked, 1, packet 0 1, _, rfl, by decide +kernel⟩, ⟨linked, 0, 1, 0, packet 1 1, _, rfl, by decide +kernel, by decide +kernel⟩,
    ⟨linked, 0, packet 0 0x10, _, rfl, by decide +kernel, by decide +kernel, by decide +kernel⟩,
    ⟨linked, 0, packet 0 4, _, rfl, by decide +kernel, by decide +kernel, by decide +kernel⟩,
    ⟨{ linked with answers := [⟨0, 0, packet 0 0x11, none⟩] }, 0, packet 0 3, _, ⟨0, 0, packet 0 0x11, none⟩, rfl, by decide +kernel,
      by decide +kernel, by decide +kernel, by decide +kernel⟩, ⟨linked, 0, 0, rfl⟩, fun n _ => ?_⟩
  exact ⟨{ linked with requests := [⟨0, 0, 0, packet 1 1, false, 0, n, .send 0⟩] }, 0, 0, _, rfl, rfl⟩

/-! ## Words: the spec's own encodings -/

theorem test_decode_integer : decode 0x0810_7FC0 = .ok (.addi 1 1 0x3FC0) ∧ decode 0x0504_520D = .ok (.mulhz 16 17 18) ∧
    decode 0x0504_521B = .ok (.ext 16 17 18) ∧ decode 0x0504_111D = .ok (.crc 16 16 17) ∧
    decode 0x0502_0901 = .ok (.sub 16 8 9) ∧ decode 0x0484_5041 = .ok (.sel 8 17 16 1) ∧
    decode 0x1904_5005 = .ok (.shri 16 17 5) ∧ decode 0x1924_0002 = .ok (.shli 18 16 2) ∧
    decode 0x1D08_9ABC = .ok (.ldi 16 0x89ABC) ∧ decode 0x2103_4567 = .ok (.ldhi 16 0x34567) :=
  ⟨rfl, rfl, rfl, rfl, rfl, rfl, rfl, rfl, rfl, rfl⟩

theorem test_decode_predicate : decode 0x2812_0902 = .ok (.cmp 1 8 9 2) ∧ decode 0x2DA2_3FFF = .ok (.cmpi 3 2 8 0x3FFF) ∧
    decode 0x3100_0004 = .ok (.psave 16) := ⟨rfl, rfl, rfl⟩

theorem test_decode_control : decode 0x363F_FFFC = .ok (.bp 1 3 0xFFFFC) ∧ decode 0x3D1F_FFFB = .ok (.bnz 17 0xFFFFB) ∧
    decode 0x4400_0010 = .ok (.call 0x10) ∧ decode 0x4803_C000 = .ok (.jr 15) ∧ decode 0x4800_0002 = .ok .ret ∧
    decode 0x4800_0003 = .ok .done ∧ decode 0x4848_C006 = .ok (.trap 0x123) ∧ decode 0x4800_0007 = .ok .eret :=
  ⟨rfl, rfl, rfl, rfl, rfl, rfl, rfl, rfl⟩

theorem test_decode_registers : decode 0x4C50_0042 = .ok (.crd 5 0x042) ∧ decode 0x5100_0010 = .ok (.cwr 16 0x010) ∧
    decode 0x5040_0046 = .ok (.cwr 4 0x046) := ⟨rfl, rfl, rfl⟩

theorem test_decode_memory : decode 0x5502_3000 = .ok (.ld 16 8 3 0) ∧ decode 0x5902_5FFE = .ok (.ldz 16 9 1 0xFFE) ∧
    decode 0x5D02_7008 = .ok (.st 16 9 3 8) ∧ decode 0x6102_090F = .ok (.ldx 16 8 9 3 3) ∧
    decode 0x6102_0131 = .ok (.ldfe 16 8 1 1) ∧ decode 0x6112_0242 = .ok (.stfe 17 8 2 2) := ⟨rfl, rfl, rfl, rfl, rfl, rfl⟩

theorem test_decode_float : decode 0x6504_5215 = .ok (.fma 16 17 18 1) ∧ decode 0x6504_4449 = .ok (.fcvt 16 17 4 1) :=
  ⟨rfl, rfl⟩

theorem test_decode_long : decode 0x7405_1500 = .ok (.elds 0 20 21) ∧ decode 0x6800_0300 = .ok (.eadd 0 0 3) ∧
    decode 0x6840_0201 = .ok (.esub 4 0 2) ∧ decode 0x7005_0000 = .ok (.est 0 20 0) ∧ decode 0x6880_0302 = .ok (.emul 8 0 3) ∧
    decode 0x6910_0408 = .ok (.ecmp 2 1 0 4) ∧ decode 0x6900_020B = .ok (.ecvtf 16 0 2) ∧
    decode 0x7445_1501 = .ok (.ests 4 20 21) ∧ decode 0x6804_0010 = .ok (.precset 16) :=
  ⟨rfl, rfl, rfl, rfl, rfl, rfl, rfl, rfl, rfl⟩

theorem test_decode_vector : decode 0x7810_830D = .ok (.vfma 1 2 3 1) ∧ decode 0x7810_833E = .ok (.vsel 1 2 3 2) ∧
    decode 0x7900_0041 = .ok (.vred 16 0 0 1) ∧ decode 0x7834_0049 = .ok (.vbcast 3 16 1) ∧
    decode 0x7C02_0002 = .ok (.vld 0 8 2) ∧ decode 0x7C02_0012 = .ok (.vst 0 8 2) ∧ decode 0x7C22_0921 = .ok (.vlds 2 8 9 1) ∧
    decode 0x7C42_0542 = .ok (.vgath 4 8 5 2) ∧ decode 0x7C62_0760 = .ok (.vamo 6 8 7 0) ∧
    decode 0x8022_4001 = .ok (.vqnt 2 9 0) ∧ decode 0x80A0_0B03 = .ok (.vstat 10 0 11) ∧ decode 0x8010_0004 = .ok (.vexp2 1 0) ∧
    decode 0x8504_4000 = .ok (.lclaim 16 17) ∧ decode 0x8400_0001 = .ok .lrelease :=
  ⟨rfl, rfl, rfl, rfl, rfl, rfl, rfl, rfl, rfl, rfl, rfl, rfl, rfl, rfl⟩

theorem test_decode_matrix : decode 0x8804_0000 = .ok (.mxmode 16) ∧ decode 0x8804_4001 = .ok (.mxzp 17) ∧
    decode 0x8804_8002 = .ok (.mxwld 0 18) ∧ decode 0x8814_D403 = .ok (.mxfeed 1 19 20) ∧ decode 0x8810_0004 = .ok (.mxrun 0 1) ∧
    decode 0x8805_4005 = .ok (.mxuprog 21) ∧ decode 0x8800_0006 = .ok (.mxrec 0) ∧ decode 0x8825_9707 = .ok (.mxsacc 2 22 23) ∧
    decode 0x88A6_1908 = .ok (.mxdrain 10 24 25) ∧ decode 0x8806_8009 = .ok (.mxsave 26) ∧ decode 0x8806_800A = .ok (.mxrest 26) ∧
    decode 0x8900_000B = .ok (.mxstat 16) := ⟨rfl, rfl, rfl, rfl, rfl, rfl, rfl, rfl, rfl, rfl, rfl, rfl⟩

theorem test_decode_synchronization : decode 0x8C00_000C = .ok (.phase 3) ∧ decode 0x8C04_111D = .ok (.ctradd 16 17 3 1) ∧
    decode 0x8C04_122E = .ok (.ctrwait 16 18 3 2) ∧ decode 0x8D14_013A = .ok (.ctrrd 17 16 1 2 2) ∧
    decode 0x8D44_1544 = .ok (.trpush 20 16 21 1 0) ∧ decode 0x8D44_1654 = .ok (.trpop 20 16 22 1 0) ∧
    decode 0x8D44_0060 = .ok (.trstat 20 16 0 0) ∧ decode 0x9C04_C000 = .ok (.tagwaitany 19) ∧
    decode 0x9D04_C002 = .ok (.tagff 16 19) := ⟨rfl, rfl, rfl, rfl, rfl, rfl, rfl, rfl, rfl⟩

theorem test_decode_atomic : decode 0x9004_1109 = .ok (.aadd 0 16 17 2 1) ∧ decode 0x9124_11AD = .ok (.acas 18 16 17 3 1) ∧
    decode 0x9004_1194 = .ok (.afadd 0 16 17 1) ∧ decode 0x9004_11B4 = .ok (.ufload 0 16 17 1 0) ∧
    decode 0x9124_11C4 = .ok (.upd 18 16 17 1 0) := ⟨rfl, rfl, rfl, rfl, rfl⟩

theorem test_decode_engine : decode 0x9502_1214 = .ok (.cpy 16 8 18 5) ∧ decode 0x9404_0009 = .ok (.cpy2d 16 2) ∧
    decode 0x9404_0012 = .ok (.cpym 16 4) ∧ decode 0x9404_001F = .ok (.cpyx 16 7) ∧ decode 0x9804_0004 = .ok (.gath 16 1) ∧
    decode 0x9804_000D = .ok (.iord 16 3) ∧ decode 0x9804_4003 = .ok (.wsload 17 0) ∧ decode 0xA804_0000 = .ok (.fpbind 16 0) ∧
    decode 0xA804_000D = .ok (.fpsend 16 3) ∧ decode 0xA804_4016 = .ok (.fptake 17 5) ∧ decode 0xA804_80FF = .ok (.fpstat 18 63) :=
  ⟨rfl, rfl, rfl, rfl, rfl, rfl, rfl, rfl, rfl, rfl, rfl⟩

theorem test_decode_message : decode 0xA114_1205 = .ok (.send 17 16 18 1 1) ∧ decode 0xA110_C010 = .ok (.sendv 17 3 0 0) ∧
    decode 0xA234_1121 = .ok (.bind 35 16 17 1) ∧ decode 0xA230_0030 = .ok (.unbind 35) ∧ decode 0xA108_8040 = .ok (.chlen 16 34) ∧
    decode 0xA008_9150 = .ok (.chskip 34 17) ∧ decode 0xA004_0060 = .ok (.migrate 16) ∧ decode 0xA544_1100 = .ok (.lpatch 20 16 17) ∧
    decode 0xA544_0001 = .ok (.larm 20 16) ∧ decode 0xA544_0002 = .ok (.lcancel 20 16) :=
  ⟨rfl, rfl, rfl, rfl, rfl, rfl, rfl, rfl, rfl, rfl⟩

theorem test_decode_gaussian : decode 0xAD04_5200 = .ok (.gadd 16 17 18) ∧ decode 0xAD44_1101 = .ok (.gschur 20 16 17) ∧
    decode 0xAD55_8002 = .ok (.gdamp 21 22) ∧ decode 0xAD05_1503 = .ok (.gres 16 20 21) ∧ decode 0xAD75_0004 = .ok (.gmean 23 20) ∧
    decode 0xAD85_1905 = .ok (.gsend 24 20 25) ∧ decode 0xAD06_A206 = .ok (.gpop 16 26 34) ∧ decode 0xAD06_8006 = .ok (.gpop 16 26 0) :=
  ⟨rfl, rfl, rfl, rfl, rfl, rfl, rfl, rfl⟩

theorem test_decode_hints : decode 0xFC00_0012 = .ok (.himm 0x12) ∧ decode 0xFCC0_0001 = .ok (.hpred 0 1) ∧
    decode 0xFCC0_000A = .ok (.hpred 1 2) ∧ decode 0xFD10_0000 = .ok (.hord 1 0) := ⟨rfl, rfl, rfl, rfl⟩

/-- Words that no row has: major 0, a free member, a nonzero unused field, condition 7, size 3 of LDZ (R199, R203). -/
theorem test_decode_refuses : decode 0 = .error .reservedMajor ∧ decode 0x0400_001E = .error .unassigned ∧
    decode 0x0404_0116 = .error .unusedField ∧
    (decode 0x2F80_0000).toOption = none ∧ (decode 0x5802_3000).toOption = none := ⟨rfl, rfl, rfl, rfl, rfl⟩

/-! ## Terms that are no instructions -/

theorem test_wellFormed_conditions : wellFormed (.cmp 1 2 3 7) = false ∧ wellFormed (.cmpi 7 1 2 3) = false := ⟨rfl, rfl⟩
theorem test_wellFormed_sizes : wellFormed (.ldz 1 2 3 0) = false ∧ wellFormed (.ldzx 1 2 3 3 0) = false ∧
    wellFormed (.vld 1 2 3) = false ∧ wellFormed (.vst 1 2 3) = false ∧ wellFormed (.vlds 1 2 3 3) = false ∧
    wellFormed (.vsts 1 2 3 3) = false ∧ wellFormed (.vgath 1 2 3 3) = false ∧ wellFormed (.vscat 1 2 3 3) = false :=
  ⟨rfl, rfl, rfl, rfl, rfl, rfl, rfl, rfl⟩
theorem test_wellFormed_modes : wellFormed (.ldfe 1 2 3 2) = false ∧ wellFormed (.stfe 1 2 3 1) = false ∧
    wellFormed (.pref 1 2) = false ∧ wellFormed (.fcvt 1 2 12 0) = false ∧ wellFormed (.vamo 1 2 3 10) = false ∧
    wellFormed (.mxdrain 16 1 2) = false := ⟨rfl, rfl, rfl, rfl, rfl, rfl⟩
theorem test_wellFormed_hints : wellFormed (.hnt 3) = false ∧ wellFormed (.hintReserved 5 0) = false := ⟨rfl, rfl⟩
theorem test_wellFormed_events : wellFormed (.commandStagingWrite .host 0 .launch 3 0) = false ∧
    wellFormed (.flitSlot 14) = false ∧ wellFormed (.taskChosen ⟨0, 0, 10⟩) = false ∧
    wellFormed (.hostMemWrite 0 (List.replicate 65 0)) = false ∧ wellFormed (.idleFlit 13) = true := ⟨rfl, rfl, rfl, rfl, rfl⟩


/-! ## Witnesses of the clauses about the shared operations of the machine -/

/-- The lane task with two stores held: one word of its window and one of the control space. -/
def holdsTwo : State :=
  lane.setTask fun t => { t with held := [⟨scratchBase 0 0 + 64, leBytes 4 7⟩, ⟨0xF000000000, leBytes 8 1⟩] }

theorem witness_BoundaryEffect : holdsTwo.failed = [] ∧ Memory.wf holdsTwo.mem = true ∧
    (holdsTwo.task.held.map (·.toControl)) = [false, true] ∧
    (∀ x ∈ [scratchBase 0 0 + 63, scratchBase 0 0 + 64, scratchBase 0 0 + 67, scratchBase 0 0 + 68],
      (∀ d off, regionOf x ≠ .control d off) ∧
      ∀ h ∈ holdsTwo.task.held, h.pa ≤ x → x < h.pa + h.data.length → takesBytes h.pa = true) := by
  refine ⟨rfl, rfl, by decide +kernel, fun x hx => ?_⟩
  have hs : ∀ x ∈ [scratchBase 0 0 + 63, scratchBase 0 0 + 64, scratchBase 0 0 + 67, scratchBase 0 0 + 68],
    regionOf x = .scratch 0 0 ∧ x < 0xF000000000 := by decide +kernel
  refine ⟨fun d off e => ?_, fun h hh hl _ => ?_⟩
  · rw [(hs x hx).1] at e; cases e
  · simp only [holdsTwo, State.setTask_task, List.mem_cons, List.not_mem_nil, or_false] at hh
    rcases hh with rfl | rfl
    · decide +kernel
    · exact absurd hl (Nat.not_le.mpr (hs x hx).2)

/-- The state with a task waiting for the counter at the lane task's address to reach `n`. -/
def counted (n : W64) (w : Nat) : State :=
  { lane with mem := (leBytes 8 w).zipIdx.filterMap fun p => if p.1 = 0 then none else some (scratchBase 0 0 + 64 + p.2, p.1),
              waiters := [⟨9, scratchBase 0 0 + 64, .counter n false, 0, 0⟩] }

theorem witness_ServeNone : (counted 2 1).waiters ≠ [] ∧ (counted 2 1).waiters.find? (counted 2 1).waiterReady = none := by
  decide +kernel

theorem witness_CounterPut : ∀ u ∈ [counted 9 1, counted 9 (2 ^ 64 - 2), counted 9 (2 ^ 64 - 1)], ∃ (z : State) (pa : Nat),
    z = u.meetFailures pa 8 ∧ Memory.wf z.mem = true ∧ z.failed = [] ∧ takesBytes pa = true ∧ hasFullBits pa = true ∧
    (decide ((z.wordAt pa).toNat + BitVec.toNat (1#64) < 2 ^ 64) = decide (u ≠ counted 9 (2 ^ 64 - 1))) := by
  intro u hu
  refine ⟨_, scratchBase 0 0 + 64, rfl, ?_⟩
  revert u
  decide +kernel

theorem witness_HomePut : ∃ (u : State) (pa : Nat), Memory.wf u.mem = true ∧ u.failed = [] ∧ takesBytes pa = true ∧
    hasFullBits pa = true := ⟨counted 9 1, scratchBase 0 0 + 64, by decide +kernel⟩

/-- The lane task at another pc. -/
def lanePc (pc : W64) : State := lane.setTask fun t => { t with pc := pc }

/-- The lane task with one range entry for its pc: the place and the attributes. -/
def ranged (pa attr : Nat) : State := { tables with rtlb := [(lane.task.core, ⟨1, 0x40000000, 0x1000, pa, attr⟩)] }

/-- A mapping and where it leads are both found. -/
theorem leafs {s : State} {va : Nat} {p : AsidEntry → TlbEntry → Bool}
    (h : (match leafOf s.task.tctx va s with | .ok x _ => p x.1 x.2 | _ => false) = true) :
    ∃ a e t, Gives (leafOf s.task.tctx va) s (a, e) t ∧ p a e = true := by
  unfold Gives
  split at h
  · exact ⟨_, _, _, ‹_›, h⟩
  · contradiction

theorem witness_FetchFails : (∃ (s : State), s.agenda = [] ∧ s.task.issues = true ∧ s.task.waitOn.again = false ∧
      s.turns < turnLength ∧ ∃ c v s', fetch ({ s with turns := s.turns + 1 }).age = .error (.trap c v) s') ∧
    (∃ u : State, canonical u.task.pc = false) ∧ (∃ u : State, canonical u.task.pc = true ∧ canonical (u.task.pc + 3) = false) ∧
    (∃ u : State, canonical u.task.pc = true ∧ canonical (u.task.pc + 3) = true ∧ u.task.pc.toNat % 4 ≠ 0) ∧
    (∀ c < 4, ∃ u : State, ∃ pc : W64, pc = u.task.pc ∧ canonical pc = true ∧ canonical (pc + 3) = true ∧ pc.toNat % 4 = 0 ∧
      (c = 0 → inWindow pc.toNat = true) ∧ (c ≠ 0 → inWindow pc.toNat = false) ∧
      (c = 1 → ∃ t, leafOf u.task.tctx pc.toNat u = .error (.trap 0x10 pc) t) ∧
      (c = 2 → ∃ a e t, Gives (leafOf u.task.tctx pc.toNat) u (a, e) t ∧ decide (regionOf (e.place pc.toNat) = .hole) = true) ∧
      (c = 3 → ∃ a e t, Gives (leafOf u.task.tctx pc.toNat) u (a, e) t ∧
        decide (regionOf (e.place pc.toNat) ≠ .hole ∧ bitAt e.attr 3 = false) = true)) := by
  refine ⟨⟨lane, rfl, rfl, rfl, by decide, traps (by decide +kernel)⟩, ⟨lanePc 0x8000000000000000, by decide⟩,
    ⟨lanePc 0x007FFFFFFFFFFFFD, by decide +kernel, by decide +kernel⟩,
    ⟨lanePc 0x40000002, by decide +kernel, by decide +kernel, by decide +kernel⟩, fun c hc => ?_⟩
  have : c = 0 ∨ c = 1 ∨ c = 2 ∨ c = 3 := by omega
  rcases this with rfl | rfl | rfl | rfl
  · exact ⟨lanePc 0x7F0000000040, _, rfl, by decide +kernel, by decide +kernel, by decide +kernel, fun _ => by decide +kernel,
      nofun, nofun, nofun, nofun⟩
  · exact ⟨lane, _, rfl, by decide +kernel, by decide +kernel, by decide +kernel, nofun, fun _ => by decide +kernel,
      fun _ => ⟨_, rfl⟩, nofun, nofun⟩
  · exact ⟨ranged 0x200000000000 0xC, _, rfl, by decide +kernel, by decide +kernel, by decide +kernel, nofun,
        fun _ => by decide +kernel,
      nofun, fun _ => leafs (p := fun _ e => _) (by decide +kernel), nofun⟩
  · exact ⟨ranged 0x50000 0x4, _, rfl, by decide +kernel, by decide +kernel, by decide +kernel, nofun, fun _ => by decide +kernel,
      nofun, nofun, fun _ => leafs (p := fun _ e => _) (by decide +kernel)⟩

/-- `lane` with its context outside every mapping. -/
def homeless : State := lane.setTask fun t => { t with ctx := 0x1000 }

theorem witness_Park : (∃ (pa : Nat) (v : State), Gives (translate1 parking.task.tctx { sync := true } (parking.task.ctx + 0xF8) 8)
      parking pa v ∧ v.failed = [] ∧ v.waiters = []) ∧
    ∃ c w v, translate1 homeless.task.tctx { sync := true } (homeless.task.ctx + 0xF8) 8 homeless = .error (.trap c w) v :=
  ⟨⟨_, _, gives (by decide +kernel), rfl, rfl⟩, traps (by decide +kernel)⟩

/-- A dispatched instance of record 0 with no task left, its error noted or not. -/
def finished (bad : Bool) (st : InstState) : State :=
  { lane with insts := [{ recNo := 0, gen := 1, st := st, pending := 1, event := false, cls := 3, bad := bad }] }

/-- What is left of an instance of record 0, generation 1. -/
def spent (w : State) (i : Instance) : Bool :=
  decide (i.st = .dispatched ∧ i.parts = [] ∧ i.outside = [] ∧ i.lost = []) &&
    w.allTasks.all (fun t => t.launch != launchWord i.recNo i.gen || decide (t.status = .ended)) &&
    w.ops.all (fun o => o.launch != launchWord i.recNo i.gen) && w.bindings.all (fun b => b.launch != launchWord i.recNo i.gen)

theorem witness_Completion : (∀ all bad : Bool, ∃ (w : State) (l : W64) (i : Instance),
      w.inst (BitVec.ofNat 14 (bitsOf l.toNat 0 14)) (BitVec.ofNat 16 (bitsOf l.toNat 14 16)) = some i ∧ spent w i = all ∧
          i.bad = bad) ∧
    lane.inst 0 1 = none ∧ lane.insts.find? (fun i => i.recNo.toNat == 0 && decide (i.st = .waiting) && i.pending != 0) = none ∧
    (∃ i, (finished false .waiting).insts.find? (fun i => i.recNo.toNat == 0 && decide (i.st = .waiting) &&
        i.pending != 0) = some i) ∧
    lane.cred 0 < 255 ∧ 255 ≤ (lane.setRecField 0 0 32 8 255).cred 0 := by
  refine ⟨fun all bad => ⟨finished bad (if all then .dispatched else .waiting), 0x4000, ?_⟩, rfl, rfl, ⟨_, rfl⟩, by decide +kernel,
    by decide +kernel⟩
  cases all <;> cases bad <;> exact ⟨_, rfl, by decide +kernel, rfl⟩

/-- The lane task over a record of one lane task (record 0): the conditions it counts, its work, the event it waits for. -/
def recorded (pend work ev : Nat) : State :=
  ([(0, 24, 8, 2), (0, 8, 6, pend), (0, 14, 3, 1 - work), (3, 0, 25, work), (3, 60, 4, ev), (7, 40, 24, 16), (16, 0, 24, 1),
    (17, 32, 2, 1 - work)] : List (Nat × Nat × Nat × Nat)).foldl (fun s f => s.setRecField 0 f.1 f.2.1 f.2.2.1 f.2.2.2)
      { lane with boot := { stage := 3 } }

theorem witness_RecordOperations : (lane.arm 0 none).1 = 2 ∧ ((recorded 0 0 0).arm 0 none).1 = 0 ∧ (recorded 0 0 0).work 0 = 0 ∧
    (∀ x ∈ [(0, 0), (1, 0), (0, 2)], ((recorded x.1 1 x.2).arm 0 none).1 = 0 ∧ (recorded x.1 1 x.2).work 0 ≠ 0 ∧
      (recorded x.1 1 x.2).boot.stage = 3 ∧ (recorded x.1 1 x.2).inst 0 1 = none ∧
      (recorded x.1 1 x.2).recField 0 0 8 6 - min ((recorded x.1 1 x.2).cred 0) ((recorded x.1 1 x.2).recField 0 0 8 6) = x.1 ∧
      ((recorded x.1 1 x.2).recField 0 3 60 4 = x.2)) ∧
    (lane.insts.filter (!(fun i => decide (i.recNo.toNat ≠ 0 ∨ i.st = .dispatched)) ·)).length = 0 ∧
    ((finished false .waiting).insts.filter (!(fun i => decide (i.recNo.toNat ≠ 0 ∨ i.st = .dispatched)) ·)).length ≠ 0 ∧
    lane.live 0 = 0 ∧ (lane.setRecField 0 0 40 8 1).live 0 ≠ 0 := by decide +kernel

/-- A saved task of an instance that resumes, the cluster it ran on, a binding of the launch there. -/
def resumes (bound : Bool) (resuming : List W64) : State :=
  { State.reset with
    boot := { stage := 3 },
    insts := [{ recNo := 0, gen := 1, st := .dispatched, pending := 1, event := false, cls := 3, pre := true, resuming := resuming }],
    bindings := if bound then [⟨⟨0, 0, 8⟩, 0, 0, 4, false, launchWord 0 1, 0, vec8 fun _ => 0⟩] else [],
    tasks := [{ lane.task with key := 9, launch := launchWord 0 1, status := .saved false }] }

/-- That instance. -/
def resumed : Instance := { recNo := 0, gen := 1, st := .dispatched, pending := 1, event := false, cls := 3, pre := true, resuming := [8] }

/-- The same machine with another launch's task on the lane task's cluster. -/
def contested (bound : Bool) : State :=
  { resumes bound [8] with tasks := (resumes bound [8]).tasks ++ [{ lane.task with key := 10, launch := launchWord 5 1, jobkey := 9 }] }

theorem witness_TaskOperations : lane.unit 0 = 0 ∧ (lane.setRecField 0 0 17 3 1).unit 0 = 1 ∧
    (∃ t : Task, t = lane.task ∧ t.resident = true ∧ t.laneImage = [] ∧ lane.taskOf t.key = some t ∧
      (t.high = false → ∀ x ∈ lane.allTasks, x.key = t.key → x.high = false) ∧ t.waitOn ≠ .ownCore ∧
      ∀ k v, t.waitOn ≠ .trapped k v) ∧
    lane.inst 0 1 = none ∧ (resumes false []).inst 0 1 = some { resumed with resuming := [] } ∧
    (resumes false [8]).inst 0 1 = some resumed ∧
    (resumes false [8]).hosts resumed [0] [] = some [(0, 0)] ∧ (resumes false [8]).canHost resumed 0 = true ∧
    (contested false).hosts resumed [0] [] = some [(0, 1)] ∧
    (contested true).hosts resumed [0] [] = none ∧ (contested true).canHost resumed 0 = false ∧
    (∃ b ∈ (contested true).bindings, b.launch = launchWord resumed.recNo resumed.gen ∧ clusterId b.core = 0) ∧
    (contested true).hostFor resumed [] 0 = none ∧ (resumes false [8]).hostFor resumed [] 0 = some 0 := by
  refine ⟨by decide +kernel, by decide +kernel, ⟨_, rfl, by decide +kernel, by decide +kernel, by decide +kernel, ?_,
      by decide +kernel,
    fun _ _ h => nomatch (show WaitOn.nothing = _ from h)⟩, ?_⟩
  all_goals decide +kernel

theorem witness_MatrixRun :
    (∃ (m : Mx) (col sp r : Nat), m.bit 26 = false ∧ m.latched.1 = 0 ∧ col < 128 * m.shape.n ∧ sp < m.shape.ns ∧ r < 32) ∧
    (∃ (m : Mx) (col r : Nat), m.bit 26 = true ∧ m.latched = (0, 0) ∧ 0 < m.shape.ns ∧ col < 128 * m.shape.n ∧ r < 32) := by
  refine ⟨⟨{}, 0, 0, 31, ?_⟩, ⟨{ mxstate := 0x5190000 }, 0, 31, ?_⟩⟩ <;> decide +kernel

theorem witness_MatrixOperands :
    (∃ (mode : W64) (x r k i : Nat), x < 128 ∧ r < 128 ∧ (shapeOf mode false).int4 = false ∧ k = 128 * i + r) ∧
    (∃ (mode : W64) (x r e k i : Nat), x < 128 ∧ r < 128 ∧ e < 2 ∧ (shapeOf mode false).int4 = true ∧ k = 256 * i + 2 * r + e) ∧
    (∃ (u e i k q : Nat), u < 64 ∧ e < 4 ∧ k = 256 * i + 4 * u + e ∧ e ≠ q % 4 ∧ e = q / 4 % 4) ∧
    (∀ a < 3, ∃ mode : W64, (shapeOf mode false).asc = a) ∧
    (∀ d ∈ [31, 32, 63], ∃ (m : Mx) (x : Nat), x < 128 ∧ (32 ≤ d → m.bit 26 = decide (d = 63))) ∧
    (∃ (p : List W32) (op : Nat) (v : ProgState), progFp p = false ∧ op % 16 = 9 ∧ v.s = 1 ∧
      [v.s + v.s, v.s - v.s, v.s * v.s, v.s, v.s, v.s, v.s, 0, v.t, v.s.sshiftRight 1][op % 16]? = some 0) ∧
    ∃ (p : List W32) (op : Nat), progFp p = true ∧ op % 16 ∈ [0, 1, 2, 3, 4, 8] :=
  ⟨⟨0, 127, 127, 255, 1, by decide +kernel⟩, ⟨16, 127, 127, 1, 255, 0, by decide +kernel⟩, ⟨63, 3, 1, 511, 0xC, by decide⟩,
   fun a ha => ⟨BitVec.ofNat 64 (4096 * a), by
    have : a = 0 ∨ a = 1 ∨ a = 2 := by omega
    rcases this with rfl | rfl | rfl <;> decide +kernel⟩,
   fun d hd => by
    simp only [List.mem_cons, List.not_mem_nil, or_false] at hd
    rcases hd with rfl | rfl | rfl
    · exact ⟨{}, 127, by decide⟩
    · exact ⟨{}, 0, by decide, fun _ => by decide +kernel⟩
    · exact ⟨{ mxstate := 0x4000000 }, 0, by decide, fun _ => by decide +kernel⟩,
   ⟨[], 9, ⟨1, 0, 0⟩, by decide +kernel⟩, [0x10], 8, by decide +kernel⟩

theorem witness_RunEnd : (∃ u : State, u.task.status = .running ∧ u.task.resident = true ∧ u.task.mx.bit 24 = true ∧
      u.task.mx.finish.runFlags &&& u.task.fena.setWidth 5 ≠ 0 ∧
      (!u.task.waitOn.again && (u.die u.task.core.die.toNat).supv.getLsbD 0) = true) ∧
    (∃ u : State, u.task.status = .running ∧ u.task.resident = true ∧ u.task.mx.bit 24 = true ∧
      u.task.mx.finish.runFlags &&& u.task.fena.setWidth 5 = 0) ∧
    ∃ u : State, u.task.status = .running ∧ u.task.resident = true ∧ u.task.mx.bit 24 = true ∧
      (!u.task.waitOn.again && (u.die u.task.core.die.toNat).supv.getLsbD 0) = false :=
  ⟨⟨flagged, by decide +kernel⟩, ⟨flagged.setTask fun t => { t with fena := 30 }, by decide +kernel⟩,
   flagged.setTask fun t => { t with waitOn := .home }, by decide +kernel⟩

/-- An issuer whose recurrence runs, which is to issue a wait again: for an empty word, its destination queue full, or for a
tag that is set. -/
def rewaiting (full : Bool) : State :=
  let s : State := { flagged with withdrawn := if full then [⟨1, scratchBase 0 0 + 64, .consume 55 0, 0x7F0000000040, 0⟩] else [] }
  (s.setTask fun t => { t with waitOn := if full then .home else .tagAny 1, tags := 1 }).setCluster 0 fun c =>
    { c with queues := lset c.queues 7 [1, 2, 3, 4] }

/-- A wait that cannot be issued yet leaves the task as it is but for the mark. -/
theorem held_back {s : State} (h : (match reissueBody s with | .error .stall _ => true | _ => false) = true) :
    ∃ b, s.reissue.task = { s.task with stalled := b } := by
  unfold State.reissue State.carryOut
  cases e : reissueBody s with
  | ok x t => rw [e] at h; cases h
  | error x t =>
    cases x with
    | stall => exact ⟨t.task.stalled, rfl⟩
    | trap c v => rw [e] at h; cases h

theorem witness_RecurrenceEnd : (∀ full : Bool, ∃ t : Task, t = (rewaiting full).task ∧ t.mx.bit 24 = true ∧ t.mx.bit 26 = true ∧
      t.resident = true ∧ t.status = .running ∧ t.waitOn.again = true ∧
      ∃ v, ((rewaiting full).reissue.swapTo t.key).task = v ∧ v.key = t.key ∧
        v.status = .running ∧ v.waitOn.again = full) ∧
    ∀ st ∈ [Status.ready, .suspended], ∃ (s : State) (t : Task), t = s.task ∧ t.mx.bit 24 = true ∧ t.resident = true ∧
        t.status = st := by
  refine ⟨fun full => ⟨_, rfl, ?_⟩, fun st hs => ⟨flagged.setTask fun t => { t with status := st }, _, rfl, ?_⟩⟩
  · cases full
    · exact ⟨by decide +kernel, by decide +kernel, by decide +kernel, by decide +kernel, by decide +kernel, _, rfl,
          by decide +kernel,
        by decide +kernel, by decide +kernel⟩
    · obtain ⟨b, h⟩ := held_back (s := rewaiting true) (by decide +kernel)
      have e : (rewaiting true).reissue.swapTo (rewaiting true).task.key = (rewaiting true).reissue := by
        unfold State.swapTo; rw [if_pos (by rw [h])]
      rw [e, h]
      have hw : (rewaiting true).task.status = .running ∧ (rewaiting true).task.waitOn.again = true :=
        ⟨by decide +kernel, by decide +kernel⟩
      exact ⟨by decide +kernel, by decide +kernel, by decide +kernel, hw.1, hw.2, _, rfl, rfl, hw⟩
  · simp only [List.mem_cons, List.not_mem_nil, or_false] at hs
    rcases hs with rfl | rfl <;> exact ⟨by decide +kernel, by decide +kernel, rfl⟩

/-- A record whose event is the temperature of its die, with an instance that waits for it (R155). -/
def awaiting : State :=
  { lane.setRecField 0 3 60 4 2 with
    insts := [{ recNo := 0, gen := 1, st := .waiting, pending := 1, event := true, cls := 3 }] }

theorem witness_SensorUpdate : (awaiting.insts.filter fun i => decide (i.recNo.toNat / 4096 = 0) &&
    awaiting.recField i.recNo.toNat 3 60 4 == 2) ≠ [] := by decide +kernel

/-! ## The standards R416 names -/

/-- The example message of FIPS 180-4. -/
theorem test_sha384_abc : sha384 [0x61, 0x62, 0x63] = beBytes 48
    0xcb00753f45a35e8bb5a03d699ac65007272c32ab0eded1631a8b605a43ff5bed8086072ba1e7cc2358baeca134c825a7 := by decide +kernel

/-- The public key of RFC 8032, section 7.1, test 1. -/
def edPublic : List Byte := beBytes 32 0xd75a980182b10ab7d54bfed3c964073a0ee172f3daa62325af021a68f707511a

theorem test_ed25519_key : ed25519Key (beBytes 32 0x9d61b19deffd5a60ba844af492ec2cc44449c5697b326919703bac031cae7f60) =
    edPublic := by
  decide +kernel
theorem test_ed25519_verify : ed25519Ok edPublic [] (beBytes 64
      0xe5564300c360ac729086e2cc806e828a84877f1eb8e5d974d873e065224901555fb8821590a33bacc61e39701cf9b46bd25bf5f0595bbe24655141438e7a100b) = true := by decide +kernel

/-! ## Single steps: expected values from the spec's worked examples -/

/-- The task after an instruction. -/
def taskAfter (i : Instr) (s : State) : Task :=
  match exec i s with
  | .next t => t.task
  | _ => default

/-- A general register after an instruction. -/
def regAfter (i : Instr) (s : State) (k : Nat) : W64 := vget (taskAfter i s).g k

/-- The lane task with some general registers set. -/
def withRegs (l : List (Nat × W64)) : State := lane.setTask fun t => { t with g := vec32 fun i => (lookupKey l i).getD (vget t.g i) }

/-- R218's table. -/
theorem test_div : regAfter (.div 16 8 9) (withRegs [(8, 7), (9, -2)]) 16 = -3 ∧
    regAfter (.div 16 8 9) (withRegs [(8, 12), (9, 0)]) 16 = -1 := by decide +kernel
theorem test_rem : regAfter (.rem 16 8 9) (withRegs [(8, 7), (9, -2)]) 16 = 1 ∧
    regAfter (.rem 16 8 9) (withRegs [(8, -7), (9, 2)]) 16 = -1 := by decide +kernel
theorem test_divz : regAfter (.divz 16 8 9) (withRegs [(8, 0xFFFFFFFFFFFFFFFE), (9, 3)]) 16 = 0x5555555555555554 := by decide +kernel
theorem test_remz : regAfter (.remz 16 8 9) (withRegs [(8, 12), (9, 0)]) 16 = 12 := by decide +kernel

/-- The example of R222: LDI of 0x89ABC, then LDHI of 0x34567 under HIMM 0x12. -/
theorem test_ldi : regAfter (.ldi 16 0x89ABC) lane 16 = 0xFFFFFFFFFFF89ABC := by decide +kernel
theorem test_ldhi : regAfter (.ldhi 16 0x34567)
    ((withRegs [(16, 0xFFFFFFFFFFF89ABC)]).setTask fun t => { t with hints := { himm := some 0x12 } }) 16 = 0x123456789ABC := by
  decide +kernel

/-- The CRC-32C of eight zero bytes, from the published value 0x8C28B28A before the final XOR. -/
theorem test_crc : regAfter (.crc 16 8 9) (withRegs [(8, 0xFFFFFFFF), (9, 0)]) 16 = 0x8C28B28A ^^^ 0xFFFFFFFF := by decide +kernel

/-- 1.0 + 1.0 in binary32 (R163's table); the greatest finite value doubled overflows (R162). -/
theorem test_fadd : regAfter (.fadd 16 8 9 1) (withRegs [(8, 0x3F800000), (9, 0x3F800000)]) 16 = 0x40000000 ∧
    regAfter (.fadd 16 8 9 1) (withRegs [(8, 0x7F7FFFFF), (9, 0x7F7FFFFF)]) 16 = 0x7F800000 := by decide +kernel

/-- 1.0 by 3.0 at k = 1 under RNE (R185). -/
def third : State := lane.setTask fun t =>
  { ((t.putSlots 0 (vfEncode .rne 0 (.ofInt 1)).1).putSlots 1 (vfEncode .rne 0 (.ofInt 3)).1) with prec := 1 }

theorem test_ediv : vget (taskAfter (.ediv 8 0 1) third).e 8 = 0x17FFAAAA ∧ vget (taskAfter (.ediv 8 0 1) third).e 9 = 0xAAAAAAAB := by
  decide +kernel

/-- The difference of the two thirds loses 14 bits and traps under a guard of 63 - 17 (R184, R185): TVAL holds 14. -/
theorem test_esub_traps : (taskAfter (.esub 8 0 2) (vectored.setTask fun t =>
    { ((t.putSlots 0 [0x17FFAAAA, 0xAAAAAAAB]).putSlots 2 [0x07FFAAAA]) with prec := 0x2101 })).tval = 14 ∧
    (taskAfter (.esub 8 0 2) (vectored.setTask fun t =>
    { ((t.putSlots 0 [0x17FFAAAA, 0xAAAAAAAB]).putSlots 2 [0x07FFAAAA]) with prec := 0x2001 })).tval = 0 := by decide +kernel

/-- R276's example of VQNT: 1.7, -200.0 and a NaN with a shift of -2. -/
theorem test_vqnt :
    (((taskAfter (.vqnt 0 9 0) ((withRegs [(9, -2)]).setTask fun t => t.setVreg 0
      [0x3FD9999A, 0xC3480000, 0x7FC00000, 0, 0, 0, 0, 0])).vreg 0).take 3) = [7, 0x80, 0] := by decide +kernel

/-- A trap by TRAP goes to the handler of class 7 and saves the address of the next word; ERET returns there (R234, R377). -/
theorem test_trap : (taskAfter (.trap 7) vectored).pc = 4 ∧ (taskAfter (.trap 7) vectored).tepc = 0x40000004 ∧
    (taskAfter (.trap 7) vectored).tcause = 0x70 ∧ (taskAfter (.trap 7) vectored).tval = 7 := by decide +kernel
theorem test_eret : (taskAfter .eret inHandler).pc = 0x40000010 ∧ (taskAfter .eret inHandler).tstat = 0 := by decide +kernel

/-- A call slides the window by sixteen registers: g16-g23 of the caller are not the callee's, g24 is its g8 (R129). -/
theorem test_call : regAfter (.call 4) (withRegs [(24, 77), (16, 5)]) 8 = 77 ∧ regAfter (.call 4) (withRegs [(24, 77)]) 15 = 0x40000004 ∧
    (taskAfter (.call 4) lane).pc = 0x40000010 := by decide +kernel

/-- A store is held: the task reads it, memory does not change (R86). -/
theorem test_store : (match exec (.st 1 3 3 0) lane with
    | .next t => decide (t.mem = []) && decide ((t.readTask 8 (scratchBase 0 0 + 64) 8).1 = [5, 0, 0, 0, 0, 0, 0, 0])
    | _ => false) = true := by decide +kernel

/-- The elimination worked through after R373: GSCHUR of the factor with the message added in keeps x2 (b = 0b10). -/
theorem test_gschur : (taskAfter (.gschur 7 3 9) { ((withRegs [(9, 2)]).setTask fun t => { t with prec := 1 }) with
    mem := [(0x8100000040, 0x12), (0x8100000042, 0x14)] ++ [(0x8100000049, 0x20), (0x810000004B, 0x18)] ++ [(0x8100000053, 0x10)] ++
      [(0x8100000059, 0x20), (0x810000005B, 0x18)] ++ [(0x8100000063, 0x98)] ++ [(0x810000006B, 0x18)] }).held.flatMap (·.data) =
    leBytes 8 0x140011 ++ leBytes 8 0x18000000 ++ leBytes 8 0x17FFE000 := by decide +kernel

set_option maxRecDepth 100000 in
/-- The first block of the published vectors of AES-256-GCM with an all-zero key and IV: its ciphertext and its tag (test case
14 of the mode's own specification). -/
theorem test_gcm : gcmCrypt [0, 0, 0, 0] 0 0 0 (List.replicate 16 0) =
      [0xCE, 0xA7, 0x40, 0x3D, 0x4D, 0x60, 0x6B, 0x6E, 0x07, 0x4E, 0xC5, 0xD3, 0xBA, 0xF3, 0x9D, 0x18] ∧
    leBytes 16 (gcmTag [0, 0, 0, 0] 0 0 [] [[0xCE, 0xA7, 0x40, 0x3D, 0x4D, 0x60, 0x6B, 0x6E, 0x07, 0x4E, 0xC5, 0xD3, 0xBA, 0xF3, 0x9D,
      0x18]]).toNat = [0xD0, 0xD1, 0xC8, 0xA7, 0x99, 0x99, 0x6B, 0xF0, 0x26, 0x5B, 0x98, 0xB5, 0xD4, 0x8A, 0xB9, 0x19] := by
  decide +kernel

/-- A host read of a hole of a die's control space returns zeros, whatever its width (R413, R436). -/
theorem test_hostMemRead_hole : (match exec (.hostMemRead 0xF03FFFF003 3) { lane with hostData := [7, 7, 7] } with
    | .next t => t.hostData
    | _ => [1]) = [0, 0, 0] := by decide +kernel

end Sys2Proof.Tests
end

section
/-! SUPPORT. O30: what `CWR` writes (R204, R237). A reserved-bit check is read as a mask, each write of a control register
has its rule, and `CWR` carries the write out. -/

namespace Sys2Proof.Machine

section fields
variable {k w : Nat} {fields : List (Nat × Nat)}

/-- The bits that a list of `(lo, len)` fields covers, when no two fields overlap. -/
def fieldsMask (fields : List (Nat × Nat)) : Nat := (fields.map fun f => (2 ^ f.2 - 1) * 2 ^ f.1).sum

theorem bitsOf_mul_eq_and (w lo len : Nat) : bitsOf w lo len * 2 ^ lo = w &&& (2 ^ len - 1) * 2 ^ lo := by
  apply Nat.eq_of_testBit_eq
  intro i
  simp only [bitsOf, Nat.testBit_mul_two_pow, Nat.testBit_mod_two_pow, Nat.testBit_div_two_pow, Nat.testBit_and,
    Nat.testBit_two_pow_sub_one]
  by_cases h : lo ≤ i
  · rw [Nat.sub_add_cancel h, ← Bool.and_assoc, Bool.and_comm (w.testBit i)]
  · simp [h]

theorem add_eq_or_of_lt_of_dvd {a b : Nat} (ha : a < 2 ^ k) (hb : 2 ^ k ∣ b) : a + b = a ||| b := by
  obtain ⟨c, rfl⟩ := hb
  rw [Nat.add_comm, Nat.two_pow_add_eq_or_of_lt ha, Nat.or_comm]

theorem two_pow_dvd_fields_sum (x : Nat × Nat → Nat) (h : ∀ f ∈ fields, k ≤ f.1) :
    2 ^ k ∣ (fields.map fun f => x f * 2 ^ f.1).sum := by
  induction fields with
  | nil => exact Nat.dvd_zero _
  | cons f fs ih =>
    obtain ⟨hf, hfs⟩ := List.forall_mem_cons.mp h
    rw [List.map_cons, List.sum_cons]
    exact Nat.dvd_add (Nat.dvd_mul_left_of_dvd (Nat.pow_dvd_pow 2 hf) (x f)) (ih hfs)

theorem field_lt {x lo len : Nat} (h : x < 2 ^ len) : x * 2 ^ lo < 2 ^ (lo + len) := by
  rw [Nat.pow_add, Nat.mul_comm]
  exact Nat.mul_lt_mul_of_pos_left h (Nat.two_pow_pos lo)

/-- Fields listed upwards, one after the other, are together the bits under their mask. -/
theorem fields_sum_eq_and (h : fields.Pairwise fun f g => f.1 + f.2 ≤ g.1) :
    (fields.map fun f => bitsOf w f.1 f.2 * 2 ^ f.1).sum = w &&& fieldsMask fields := by
  induction fields with
  | nil => simp [fieldsMask]
  | cons f fs ih =>
    obtain ⟨hf, hfs⟩ := List.pairwise_cons.mp h
    have hsum := add_eq_or_of_lt_of_dvd (field_lt (Nat.mod_lt (w / 2 ^ f.1) (Nat.two_pow_pos f.2)))
      (two_pow_dvd_fields_sum (fun g => bitsOf w g.1 g.2) hf)
    have hmask := add_eq_or_of_lt_of_dvd (field_lt (Nat.sub_one_lt (Nat.ne_of_gt (Nat.two_pow_pos f.2))))
      (two_pow_dvd_fields_sum (fun g => 2 ^ g.2 - 1) hf)
    calc
      _ = bitsOf w f.1 f.2 * 2 ^ f.1 ||| (fs.map fun g => bitsOf w g.1 g.2 * 2 ^ g.1).sum := hsum
      _ = w &&& ((2 ^ f.2 - 1) * 2 ^ f.1 ||| fieldsMask fs) := by
        rw [ih hfs, bitsOf_mul_eq_and, Nat.and_or_distrib_left]
      _ = w &&& fieldsMask (f :: fs) := congrArg (w &&& ·) hmask.symm

/-- A value has its reserved bits zero exactly when the mask of the other bits keeps it. -/
theorem reservedZero_iff_and_eq {v m : W64} (h : fields.Pairwise fun f g => f.1 + f.2 ≤ g.1)
    (hm : m.toNat = fieldsMask fields) : reservedZero v.toNat fields = true ↔ v &&& m = v := by
  unfold reservedZero
  rw [beq_iff_eq, fields_sum_eq_and h, ← hm, ← BitVec.toNat_and, ← BitVec.toNat_inj, eq_comm]

end fields

section registers
variable {s s' : State} {v : W64} {n : Nat}

theorem need_of_not {c : Bool} {k : BitVec 8} (h : ¬ c = true) : need c k v s = .error (.trap k v) s := by
  rw [Bool.not_eq_true] at h
  rw [h, need_fails]

/-- The numbers of the control-register table (R204). -/
def cregNumbers : List Nat :=
  [0x000, 0x001, 0x002, 0x003, 0x004, 0x005, 0x006, 0x007, 0x008, 0x009, 0x010, 0x011, 0x012, 0x013, 0x020, 0x021, 0x030,
   0x031, 0x032, 0x040, 0x041, 0x042, 0x043, 0x044, 0x045, 0x046, 0x047, 0x048, 0x050, 0x051, 0x052, 0x053, 0x054, 0x055,
   0x056, 0x060, 0x061, 0x062, 0x063, 0x070]

/-- The numbers of the registers that software may write (R204). -/
def writableCregs : List Nat :=
  [0x010, 0x011, 0x012, 0x013, 0x031, 0x040, 0x042, 0x043, 0x044, 0x045, 0x046, 0x047, 0x048, 0x050, 0x051, 0x052, 0x053,
   0x061, 0x070]

/-- The numbers of the registers that ignore every write (R8, R204). -/
def readOnlyCregs : List Nat :=
  [0x000, 0x001, 0x002, 0x003, 0x004, 0x005, 0x006, 0x007, 0x008, 0x009, 0x020, 0x021, 0x030, 0x032, 0x041, 0x054, 0x055,
   0x056, 0x060, 0x062, 0x063]

/-- The numbers of the registers of a die, which only a management task writes (R61, R157, R165, R317). -/
def dieCregs : List Nat := [0x047, 0x053, 0x061, 0x070]

theorem mem_cregNumbers_of_readOnly : ∀ n ∈ readOnlyCregs, n ∈ cregNumbers := by decide
theorem not_mem_writableCregs_of_readOnly : ∀ n ∈ readOnlyCregs, n ∉ writableCregs := by decide
theorem mem_cregNumbers_of_die : ∀ n ∈ dieCregs, n ∈ cregNumbers := by decide

theorem State.creg_isSome (s : State) (h : n ∈ cregNumbers) : (s.creg n).isSome = true :=
  List.all_eq_true.mp (rfl : (cregNumbers.all fun n => (s.creg n).isSome) = true) n h

/-- A register that software may not write ignores the write (R8). -/
theorem writeCreg_readOnly (v : W64) (h : n ∈ readOnlyCregs) : writeCreg n v = pure () := by
  have hn := not_mem_writableCregs_of_readOnly n h
  simp only [writableCregs, List.mem_cons, List.not_mem_nil, or_false, not_or] at hn
  simp only [writeCreg, hn, if_false]

theorem writePrec_ok (h : v &&& 0x3F07 = v) : Gives (writePrec v) s () (s.setTask fun t => { t with prec := v }) :=
  bind_ok (need_of ((reservedZero_iff_and_eq (by decide) rfl).mpr h))

theorem writePrec_refused (h : v &&& 0x3F07 ≠ v) : writePrec v s = .error (.trap 0x01 v) s :=
  bind_error (need_of_not (mt (reservedZero_iff_and_eq (by decide) rfl).mp h))

theorem writeRmode_ok (h : v.toNat < 5) : Gives (writeRmode v) s () (s.setTask fun t => { t with rmode := v }) :=
  bind_ok (need_of (decide_eq_true h))

theorem writeRmode_refused (h : 5 ≤ v.toNat) : writeRmode v s = .error (.trap 0x01 v) s :=
  bind_error (need_of_not (by simpa using h))

/-- Both depths of a value for `EGDEPTH` are 1 to 8 (R330). -/
def depthsOk (v : W64) : Prop := 1 ≤ v.toNat % 16 ∧ v.toNat % 16 ≤ 8 ∧ 1 ≤ v.toNat / 16 % 16 ∧ v.toNat / 16 % 16 ≤ 8

theorem depthsOk_iff :
    depthsOk v ↔ (1 ≤ fieldOf v 0 4 ∧ fieldOf v 0 4 ≤ 8 ∧ 1 ≤ fieldOf v 4 4 ∧ fieldOf v 4 4 ≤ 8) := by
  simp [depthsOk, fieldOf, bitsOf]

theorem writeEgdepth_ok (h : depthsOk v) :
    Gives (writeEgdepth v) s () (s.setTask fun t => { t with egdepth := v &&& 0xFF }) :=
  bind_ok (need_of (decide_eq_true (depthsOk_iff.mp h)))

theorem writeEgdepth_refused (h : ¬ depthsOk v) : writeEgdepth v s = .error (.trap 0x01 v) s :=
  bind_error (need_of_not (by rwa [decide_eq_true_eq, ← depthsOk_iff]))

/-- A register of a die ignores the write of a task that is no management task. -/
theorem writeCreg_notManagement (hm : Gives isManagement s false s') (h : n ∈ dieCregs) :
    Gives (writeCreg n v) s () s' := by
  simp only [dieCregs, List.mem_cons, List.not_mem_nil, or_false] at h
  rcases h with rfl | rfl | rfl | rfl <;> exact bind_ok hm

/-- A value that `SUPV` takes: no reserved bit, and a lane core (R164, R165). -/
def supvOk (v : W64) : Prop := v &&& 0xFFFF3FF1 = v ∧ v.toNat / 16 % 16 < 8

theorem supvOk_iff :
    (reservedZero v.toNat [(0, 1), (4, 4), (8, 6), (16, 16)] && decide (fieldOf v 4 4 < 8)) = true ↔ supvOk v := by
  rw [Bool.and_eq_true, decide_eq_true_eq, reservedZero_iff_and_eq (m := 0xFFFF3FF1) (by decide) rfl]
  rfl

theorem writeSupv_ok (hm : Gives isManagement s true s') (h : supvOk v) :
    Gives (writeSupv v) s () (s'.setDie s'.task.core.die.toNat fun d => { d with supv := v }) :=
  (bind_ok hm).trans (bind_ok (need_of (supvOk_iff.mpr h)))

theorem writeSupv_refused (hm : Gives isManagement s true s') (h : ¬ supvOk v) :
    writeSupv v s = .error (.trap 0x01 v) s' :=
  (bind_ok hm).trans (bind_error (need_of_not (mt supvOk_iff.mp h)))

theorem writeWsref_moves (hm : Gives isManagement s true s') (hx : fieldOf v 32 17 ≤ 81599)
    (hc : s'.claimHeld s'.task.core.die.toNat = false) :
    Gives (writeWsref v) s () (s'.setDie s'.task.core.die.toNat fun d =>
      { d with wsShift := fieldOf v 32 17, wsPause := d.wsPause + (fieldOf v 32 17 + 81600 - d.wsShift) % 81600 }) := by
  have hno : ¬ (81599 < fieldOf v 32 17 ∨ s'.claimHeld s'.task.core.die.toNat = true) := by
    simp [hc, hx]
  unfold Gives writeWsref
  rw [bind_ok hm, if_pos rfl, get_bind, if_neg hno]
  rfl

theorem writeWsref_discarded (hm : Gives isManagement s true s')
    (h : 81599 < fieldOf v 32 17 ∨ s'.claimHeld s'.task.core.die.toNat = true) : Gives (writeWsref v) s () s' := by
  unfold Gives writeWsref
  rw [bind_ok hm, if_pos rfl, get_bind, if_pos h]
  rfl

theorem writeEbudget_ok (hm : Gives isManagement s true s') :
    Gives (writeEbudget v) s () (s'.setDie s'.task.core.die.toNat fun d =>
      { d with ebudget := if v.toNat % 2 ^ 32 = 0 then v ||| 1 else v, winEnergy := d.energy }) := by
  have hwin : fieldOf v 0 32 = v.toNat % 2 ^ 32 := by rw [fieldOf, bitsOf, Nat.pow_zero, Nat.div_one]
  unfold Gives writeEbudget
  rw [bind_ok hm, hwin]
  rfl

theorem writeErrinj_ok (hm : Gives isManagement s true s') :
    Gives (writeErrinj v) s () (s'.setDie s'.task.core.die.toNat fun d =>
      { d with errinj := v &&& 0x8000FFF7FFFFFFFF, errSeen := 0 }) := bind_ok hm

end registers

section cwr
variable {s s1 s2 : State} {d : Spec} {n : BitVec 12} {v : W64}

/-- The work of CWR on a listed register is the write of what its source holds. -/
theorem cwrBody_listed (hr : Reads d s v s1) (hn : n.toNat ∈ cregNumbers) :
    cwrBody d n s = (writeCreg n.toNat v >>= fun _ => pure Next.seq : M Next) s1 := by
  obtain ⟨hd, hv⟩ := hr
  unfold cwrBody
  rw [bind_ok (checkSrc_of hd), bind_ok hv, get_bind, bind_ok (need_of (s1.creg_isSome hn))]

theorem cwr_writes (he : s.Enabled .any {}) (hr : Reads d s v s1) (hn : n.toNat ∈ cregNumbers)
    (hw : Gives (writeCreg n.toNat v) s1 () s2) : exec (.cwr d n) s = .next (s.ends s2 .seq) :=
  issue_ok he ((cwrBody_listed hr hn).trans (bind_ok hw))

theorem cwr_refused {w : W64} {c : BitVec 8} (he : s.Enabled .any {}) (hr : Reads d s v s1) (hn : n.toNat ∈ cregNumbers)
    (hw : writeCreg n.toNat v s1 = .error (.trap c w) s2) :
    exec (.cwr d n) s = .next ((s2.restoreQueues s).takeTrap c w s.task.pc) :=
  issue_trap he ((cwrBody_listed hr hn).trans (bind_error hw))

theorem cwr_unlisted (he : s.Enabled .any {}) (hr : Reads d s v s1) (hn : s1.creg n.toNat = none) :
    exec (.cwr d n) s = .next ((s1.restoreQueues s).takeTrap 0x01 (n.setWidth 64) s.task.pc) := by
  obtain ⟨hd, hv⟩ := hr
  refine issue_trap he ?_
  show cwrBody d n s = _
  unfold cwrBody
  rw [bind_ok (checkSrc_of hd), bind_ok hv, get_bind, hn]
  rfl

theorem cwr_readOnly (he : s.Enabled .any {}) (hr : Reads d s v s1) (hn : n.toNat ∈ readOnlyCregs) :
    exec (.cwr d n) s = .next (s.ends s1 .seq) :=
  cwr_writes he hr (mem_cregNumbers_of_readOnly _ hn) (by rw [writeCreg_readOnly v hn]; rfl)

theorem cwr_notManagement (he : s.Enabled .any {}) (hr : Reads d s v s1) (hm : Gives isManagement s1 false s2)
    (hn : n.toNat ∈ dieCregs) : exec (.cwr d n) s = .next (s.ends s2 .seq) :=
  cwr_writes he hr (mem_cregNumbers_of_die _ hn) (writeCreg_notManagement hm hn)

end cwr

/-- Settles O30: CWR reads its source, checks the number and performs the register's own write; each clause is the rule of
one register's write. -/
theorem controlRegisterWrites : Obligations.ControlRegisterWrites := by
  unfold Obligations.ControlRegisterWrites
  refine ⟨?task, ?fstat, ?cflags, ?rmode, ?checked, ?die⟩
  case task =>
    rintro d v s s1 he hr sets rfl
    refine ⟨fun h => cwr_writes he hr (by decide) (writeRmode_ok h), ?_, ?_, ?_, ?_, ?_, ?_, ?_, ?_, ?_, ?_,
      fun n hn => cwr_readOnly he hr (List.mem_map_of_mem (f := BitVec.toNat) hn)⟩
    -- The other registers of the task have no check of their own.
    all_goals exact cwr_writes he hr (by decide) rfl
  case fstat =>
    rintro d v s s1 he hr t rfl
    exact cwr_writes he hr (by decide) rfl
  case cflags => exact fun d v s s1 he hr => cwr_writes he hr (by decide) rfl
  case rmode =>
    intro d v s s1 he hr hq hv
    rw [cwr_refused (n := 0x011) he hr (by decide) (writeRmode_refused hv), State.restoreQueues_of _ _ hq]
  case checked =>
    intro d v s s1 he hr
    refine ⟨fun h => cwr_writes he hr (by decide) (writePrec_ok h),
      fun h => cwr_refused he hr (by decide) (writePrec_refused h),
      fun h => cwr_refused he hr (by decide) (writeEgdepth_refused h),
      fun h1 h2 h3 h4 => cwr_writes he hr (by decide) (writeEgdepth_ok ⟨h1, h2, h3, h4⟩), fun n hn hq => ?_⟩
    rw [cwr_unlisted he hr hn, State.restoreQueues_of _ _ hq]
  case die =>
    rintro d v s s1 m s2 he hr hm done rfl
    constructor
    · rintro rfl n hn
      exact cwr_notManagement he hr hm (List.mem_map_of_mem (f := BitVec.toNat) hn)
    · rintro rfl set rfl
      refine ⟨fun h1 h2 => cwr_writes he hr (by decide) (writeSupv_ok hm ⟨h1, h2⟩),
        fun h => cwr_refused he hr (by decide) (writeSupv_refused hm ?_), ?wsref,
        cwr_writes he hr (by decide) (writeEbudget_ok hm), cwr_writes he hr (by decide) (writeErrinj_ok hm)⟩
      · rintro ⟨hmask, hcore⟩
        exact h.elim (· hmask) (by omega)
      · rintro x rfl
        exact ⟨fun hx hc => cwr_writes he hr (by decide) (writeWsref_moves hm hx hc),
          fun h => cwr_writes he hr (by decide) (writeWsref_discarded hm h)⟩

end Sys2Proof.Machine
end

section
/-! SUPPORT. O8 and O14: a false guard (R11), and the operand forms of the scalar instructions (R15, R193, R284): what a read
or a write of each form does, one rule per form. -/

namespace Sys2Proof.Machine

/-- Settles O8: every governed word runs behind its gate, and there a false guard leaves only the end of the hints and the move
to the next word. -/
theorem falseGuardHasNoEffect : Obligations.FalseGuardHasNoEffect := by
  intro i k a s hgate hcore hhints hguard
  obtain ⟨body, hexec⟩ := exec_gate i hgate
  rw [hexec, issue_guarded hcore hhints hguard]

section sources
variable {s : State} {x : Spec} {v : W64}

theorem toNat_ne_zero (h : x ≠ 0) : x.toNat ≠ 0 := fun hx => h (BitVec.eq_of_toNat_eq hx)

theorem Task.reg_toNat (t : Task) (x : Spec) : t.reg x.toNat = if x = 0 then 0 else vget t.g x.toNat := by
  unfold Task.reg
  by_cases hx : x = 0
  · subst hx
    rfl
  · rw [if_neg (toNat_ne_zero hx), if_neg hx]

theorem le_toNat_of_readsQueue {c : CoreId} (h : readsQueue c x = true) : 48 ≤ x.toNat := by
  simp only [readsQueue, Bool.or_eq_true, Bool.and_eq_true, decide_eq_true_eq] at h
  omega

theorem scalarSrcOk_of_lt (c : CoreId) (h : x.toNat < 48) : scalarSrcOk c x = true := by
  rw [scalarSrcOk, decide_eq_true h, Bool.true_or]

theorem scalarSrcOk_queue {c : CoreId} (h : readsQueue c x = true) : scalarSrcOk c x = true := by
  rw [scalarSrcOk, h, Bool.or_true]

theorem readScalar_channel (h32 : 32 ≤ x.toNat) (h48 : x.toNat < 48) : readScalar x = popChannel (x.toNat - 32) := by
  rw [readScalar, if_neg (Nat.not_lt.mpr h32), if_pos h48]

theorem readScalar_queue (h48 : 48 ≤ x.toNat) : readScalar x = popQueue (x.toNat - 48) := by
  rw [readScalar, if_neg (by omega), if_neg (Nat.not_lt.mpr h48)]

/-- The current packet on the channel gives its next two words, the first of them the low half (R15). -/
theorem popChannel_current {n : Nat} {c : BitVec 4} {lo hi : W32} {rest : List W32} (hchan : s.task.pktChan = some c)
    (hc : c.toNat = n) (hpkt : s.task.pkt = lo :: hi :: rest) :
    popChannel n s = .ok (hi ++ lo) (s.setTask fun t => { t with pkt := rest }) := by
  simp only [popChannel, get_bind, hchan, hpkt, if_pos hc]
  rfl

/-- A channel on which the task reads no packet has no next word (R15). -/
theorem popChannel_other {n : Nat} (h : ∀ c, s.task.pktChan = some c → c.toNat ≠ n) :
    popChannel n s = .error (.trap 0x30 (BitVec.ofNat 64 n)) s := by
  simp only [popChannel, get_bind]
  cases hchan : s.task.pktChan with
  | none => rfl
  | some c =>
    rcases s.task.pkt with _ | ⟨lo, _ | ⟨hi, rest⟩⟩
    · rfl
    · rfl
    · exact congrFun (if_neg (h c hchan)) s

/-- A queue that is not empty gives its oldest entry, at one position (R284, R285). -/
theorem popQueue_cons {q : Nat} {rest : List W64} (h : lget s.queues q = v :: rest) :
    popQueue q s = .ok v
      (s.setCluster (clusterId s.task.core) fun c => { c with queues := lset c.queues q rest }).nextPos.2 := by
  rw [State.queues] at h
  simp only [popQueue, get_bind, h]
  rfl

theorem reads_register (s : State) (h : x.toNat < 32) :
    Reads x s (if x = 0 then 0 else vget s.task.g x.toNat) (s.setTask (·.arrive x)) :=
  ⟨scalarSrcOk_reg _ h, by rw [readScalar_reg h, Task.reg_toNat]⟩

theorem reads_channel {c : BitVec 4} {lo hi : W32} {rest : List W32} (h32 : 32 ≤ x.toNat) (h48 : x.toNat < 48)
    (hchan : s.task.pktChan = some c) (hc : c.toNat = x.toNat - 32) (hpkt : s.task.pkt = lo :: hi :: rest) :
    Reads x s (hi ++ lo) (s.setTask fun t => { t with pkt := rest }) :=
  ⟨scalarSrcOk_of_lt _ h48, by rw [readScalar_channel h32 h48, popChannel_current hchan hc hpkt]⟩

theorem reads_queue {rest : List W64} (hx : readsQueue s.task.core x = true) (h : lget s.queues (x.toNat - 48) = v :: rest) :
    Reads x s v
      (s.setCluster (clusterId s.task.core) fun c => { c with queues := lset c.queues (x.toNat - 48) rest }).nextPos.2 :=
  ⟨scalarSrcOk_queue hx, by rw [readScalar_queue (le_toNat_of_readsQueue hx), popQueue_cons h]⟩

theorem readScalar_otherChannel (h32 : 32 ≤ x.toNat) (h48 : x.toNat < 48)
    (h : ∀ c, s.task.pktChan = some c → c.toNat ≠ x.toNat - 32) :
    readScalar x s = .error (.trap 0x30 (BitVec.ofNat 64 (x.toNat - 32))) s := by
  rw [readScalar_channel h32 h48, popChannel_other h]

end sources

section destinations
variable {s : State} {d : Spec}

/-- A register destination as a change of two fields: the pending loads, and the register but for g0 (R193, R216). -/
theorem Task.setG_arrive (t : Task) (d : Spec) (v : W64) : (t.arrive d).setG d.toNat v =
    { t with outstanding := t.outstanding.filter (· != d), g := if d = 0 then t.g else vset t.g d.toNat v } := by
  unfold Task.setG
  by_cases hd : d = 0
  · subst hd
    rfl
  · rw [if_neg (toNat_ne_zero hd), if_neg hd]
    rfl

theorem le_toNat_of_writesQueue {c : CoreId} (h : writesQueue c d = true) : 48 ≤ d.toNat := by
  simp only [writesQueue, Bool.or_eq_true, Bool.and_eq_true, decide_eq_true_eq] at h
  omega

theorem scalarDstOk_queue {c : CoreId} (h : writesQueue c d = true) : scalarDstOk c d = true := by
  rw [scalarDstOk, h, Bool.or_true]

theorem State.taskOf_current (s : State) : s.taskOf s.task.key = some s.task :=
  List.find?_cons_of_pos (beq_self_eq_true _)

/-- A queue of the current task's cluster is ready while it holds fewer than four entries (R284). -/
theorem State.destReady_queue (h48 : 48 ≤ d.toNat) :
    s.destReady s.task.key d = decide ((lget s.queues (d.toNat - 48)).length < 4) := by
  rw [State.destReady, if_neg (Nat.not_lt.mpr h48), State.taskOf_current]
  rfl

/-- A queue destination of the current task takes the value behind its entries, at one position (R284, R285). -/
theorem State.writeDest_queue (v : W64) (h48 : 48 ≤ d.toNat) : s.writeDest s.task.key d v =
    (s.setCluster (clusterId s.task.core) fun c =>
      { c with queues := lset c.queues (d.toNat - 48) (lget c.queues (d.toNat - 48) ++ [v]) }).nextPos.2 := by
  rw [State.writeDest, if_neg (by omega), State.taskOf_current]
  rfl

theorem writeScalar_queue (v : W64) (h48 : 48 ≤ d.toNat) (hroom : (lget s.queues (d.toNat - 48)).length < 4) :
    writeScalar d v s = .ok () (s.writeDest s.task.key d v) := by
  have hready : s.destReady s.task.key d = true := by rw [State.destReady_queue h48, decide_eq_true hroom]
  have hno : ¬ d.toNat < 32 := by omega
  simp only [writeScalar, if_neg hno, get_bind, if_pos hready, upd_run]

theorem writes_register (s s1 : State) (v : W64) (h : d.toNat < 32) : Writes s d v s1 (s1.setTask fun t =>
    { t with outstanding := t.outstanding.filter (· != d), g := if d = 0 then t.g else vset t.g d.toNat v }) :=
  ⟨scalarDstOk_reg _ h, by simp only [writeScalar_reg v h, Task.setG_arrive]⟩

theorem writes_queue (v : W64) (hd : writesQueue s.task.core d = true)
    (hroom : (lget s.queues (d.toNat - 48)).length < 4) :
    Writes s d v s (s.setCluster (clusterId s.task.core) fun c =>
      { c with queues := lset c.queues (d.toNat - 48) (lget c.queues (d.toNat - 48) ++ [v]) }).nextPos.2 := by
  have h48 := le_toNat_of_writesQueue hd
  exact ⟨scalarDstOk_queue hd, by rw [writeScalar_queue v h48 hroom, State.writeDest_queue v h48]⟩

end destinations

/-- Settles O14: the clause of each operand form is the rule of its read or write. -/
theorem operandForms : Obligations.OperandForms := by
  unfold Obligations.OperandForms
  refine ⟨fun s x h => reads_register s h, fun s x c lo hi rest => reads_channel, ?popped,
    fun s s1 d v h => writes_register s s1 v h, ?appended, fun s x => readScalar_otherChannel⟩
  case popped =>
    rintro s x v rest hx h u rfl
    exact reads_queue hx h
  case appended =>
    rintro s d v hd hroom u rfl
    exact writes_queue v hd hroom

end Sys2Proof.Machine
end

section
/-! SUPPORT. O32, O34 and O35: bytes put into memory (R84), and a task's held stores (R86): which bytes a list of held stores
gives, that a read by the task returns them, and what a scalar store holds. -/

namespace Sys2Proof.Machine

/-- Settles O35: no unit has failed, so a put changes the memory list at the bytes put and beside it the sector code only. -/
theorem storedBytesReadBack : Obligations.StoredBytesReadBack := by
  intro s pa data hwf hfailed hregion x hx hdata
  have htakes : takesBytes pa = true := by
    obtain ⟨hcontrol, hhole⟩ := hregion pa (Nat.le_refl pa) (Nat.lt_add_of_pos_right (List.length_pos_iff.2 hdata))
    unfold takesBytes
    split
    · exact absurd ‹_› hhole
    · exact absurd ‹_› (hcontrol _ _)
    · rfl
  obtain ⟨sectors, wcs, hput⟩ := s.putBytes_coded false pa data hfailed
  rw [State.byteAt_of_mem _ x hx, State.byteAt_of_mem _ x hx, hput, if_pos htakes]
  exact memAt_memSetBytes s.mem pa x data hwf

section held
variable {l : List HeldStore} {h k : HeldStore} {x : Nat}

/-- The latest store of a byte is the one a task reads (R86). -/
theorem heldByte_concat (hlo : k.pa ≤ x) (hhi : x < k.pa + k.data.length) :
    heldByte (l ++ [k]) x = some (k.data.getD (x - k.pa) 0) := by
  simp [heldByte, List.filter_append, hlo, hhi]

theorem length_overwrite (hin : k.inside h = true) : (h.overwrite k).data.length = h.data.length := by
  simp only [HeldStore.inside, decide_eq_true_eq] at hin
  simp only [HeldStore.overwrite, List.length_append, List.length_take, List.length_drop]
  omega

/-- A store merged into an earlier one gives its own bytes (R86). -/
theorem getD_overwrite (hin : k.inside h = true) (hlo : k.pa ≤ x) (hhi : x < k.pa + k.data.length) :
    (h.overwrite k).data.getD (x - h.pa) 0 = k.data.getD (x - k.pa) 0 := by
  simp only [HeldStore.inside, decide_eq_true_eq] at hin
  have hpre : (h.data.take (k.pa - h.pa)).length = k.pa - h.pa := by rw [List.length_take]; omega
  simp only [HeldStore.overwrite]
  rw [List.append_assoc, List.getD_eq_getElem?_getD, List.getD_eq_getElem?_getD, List.getElem?_append_right (by omega),
    List.getElem?_append_left (by omega), hpre, show x - h.pa - (k.pa - h.pa) = x - k.pa by omega]

/-- Whatever a task held before, a store added gives its own bytes from then on (R86). -/
theorem heldByte_holdOne (l : List HeldStore) (hlo : k.pa ≤ x) (hhi : x < k.pa + k.data.length) :
    heldByte (holdOne l k) x = some (k.data.getD (x - k.pa) 0) := by
  unfold holdOne
  split
  next h hfound =>
    have hin : k.inside h = true := by
      have := List.find?_some hfound
      exact (Bool.and_eq_true_iff.1 this).1
    have hlen := length_overwrite hin
    have hbytes := getD_overwrite hin hlo hhi
    simp only [HeldStore.inside, decide_eq_true_eq] at hin
    rw [← hbytes]
    exact heldByte_concat (show h.pa ≤ x by omega) (show x < h.pa + _ by omega)
  next => exact heldByte_concat hlo hhi

end held

section reads
variable {s : State} {unit pa n : Nat}

/-- What the first `k` atomic parts of an access cover, from the unit its first byte lies in. -/
theorem sum_parts (u q pa e k : Nat) (hq : q * u ≤ pa) :
    ((List.range k).map fun i => min e ((q + i + 1) * u) - max pa ((q + i) * u)).sum = min e ((q + k) * u) - pa := by
  induction k with
  | zero => simp; omega
  | succ k ih =>
    have hstep : (q + k + 1) * u = (q + k) * u + u := Nat.succ_mul _ _
    rw [List.range_succ, List.map_append, List.sum_append, ih, List.map_singleton, List.sum_singleton, ← Nat.add_assoc q k 1, hstep]
    omega

/-- The parts into which a unit cuts an access make up its bytes. -/
theorem sum_cuts (u pa n : Nat) (hu : 0 < u) :
    ((tabulate ((pa + n - 1) / u + 1 - pa / u) fun i =>
      (max pa ((pa / u + i) * u), min (pa + n) ((pa / u + i + 1) * u) - max pa ((pa / u + i) * u))).map (·.2)).sum = n := by
  have hfirst : pa / u * u ≤ pa := Nat.div_mul_le_self pa u
  have hlast : pa + n ≤ (pa / u + ((pa + n - 1) / u + 1 - pa / u)) * u :=
    calc pa + n ≤ ((pa + n - 1) / u + 1) * u := by
          have := Nat.lt_div_mul_add (a := pa + n - 1) hu
          rw [Nat.succ_mul]
          omega
      _ ≤ _ := Nat.mul_le_mul_right u (by omega)
  simp only [tabulate, List.map_map, Function.comp_def]
  rw [sum_parts u (pa / u) pa (pa + n) _ hfirst, Nat.min_eq_left hlast, Nat.add_sub_cancel_left]

/-- The atomic parts of an access make up its bytes, in the weight store as elsewhere (R84). -/
theorem sum_atomicParts (hu : 0 < unit) : ((atomicParts unit pa n).map (·.2)).sum = n :=
  sum_cuts _ pa n (by split <;> omega)

theorem length_readRule (r : Reader) : (s.readRule r pa n).1.length = n := by
  unfold State.readRule
  dsimp only
  split <;> simp [tabulate]

/-- A read answers as many bytes as it asks for (R84). -/
theorem length_readParts (r : Reader) (hu : 0 < unit) : (s.readParts r unit pa n).1.length = n := by
  have hfold (ps : List (Nat × Nat)) : ∀ x : List Candidate × State, (ps.foldl (fun x p =>
      let (b, s) := x.2.readRule r p.1 p.2
      (x.1 ++ b, s)) x).1.length = x.1.length + (ps.map (·.2)).sum := by
    induction ps with
    | nil => simp
    | cons p ps ih => intro x; rw [List.foldl_cons, ih]; simp [length_readRule, Nat.add_assoc]
  rw [State.readParts, hfold, sum_atomicParts hu]
  exact Nat.zero_add n

theorem map_zipIdx_of_held {held : Nat → Option Byte} {bs : List Candidate} {data : List Byte} (hlen : bs.length = data.length)
    (hheld : ∀ i < data.length, held i = some (data.getD i 0)) :
    (bs.zipIdx.map fun b => (held b.2).getD b.1.value) = data := by
  refine List.ext_getElem (by simp [hlen]) fun i _ hi => ?_
  simp [hheld i hi, hi]

/-- A task that holds every byte it reads gets what it holds, in memory and in the control space (R86). -/
theorem readHeld_of_held {data : List Byte} (hu : 0 < unit)
    (hheld : ∀ i < data.length, heldByte s.task.held (pa + i) = some (data.getD i 0)) :
    (s.readHeld unit pa data.length).1 = data := by
  unfold State.readHeld
  dsimp only
  split
  · refine List.ext_getElem (by simp [tabulate]) fun i _ hi => ?_
    simp [tabulate, hheld i hi, hi]
  · exact map_zipIdx_of_held (length_readParts _ hu) hheld

end reads

/-- Settles O34: a store added to the held list gives each of its bytes, and a read takes the held byte before any other. -/
theorem loadSeesOwnHeldStore : Obligations.LoadSeesOwnHeldStore := by
  intro s unit pa data hunit
  refine readHeld_of_held hunit fun i hi => ?_
  have := heldByte_holdOne (k := ⟨pa, data⟩) s.task.held (Nat.le_add_right pa i) (Nat.add_lt_add_left hi pa)
  rwa [Nat.add_sub_cancel_left] at this

theorem length_leBytes (n v : Nat) : (leBytes n v).length = n := by
  induction n generalizing v with
  | zero => rfl
  | succ n ih => simp [leBytes, ih]

section stores
variable {c : Ctx} {a : Access} {va : W64} {n pa : Nat} {s s1 s2 : State}

/-- An operation that succeeds did so in each of its two halves. -/
theorem bind_eq_ok {α β : Type} {m : M α} {f : α → M β} {y : β} (h : (m >>= f) s = .ok y s2) :
    ∃ x s1, m s = .ok x s1 ∧ f x s1 = .ok y s2 := by
  cases hm : m s with
  | ok x s1 => exact ⟨x, s1, rfl, by rwa [bind_ok hm] at h⟩
  | error e s1 => rw [bind_error hm] at h; cases h

theorem need_bind_eq_ok {α : Type} {b : Bool} {k : BitVec 8} {v : W64} {m : M α} {y : α}
    (h : (need b k v >>= fun _ => m) s = .ok y s1) : b = true ∧ m s = .ok y s1 := by
  cases b
  · cases h
  · exact ⟨rfl, h⟩

/-- What follows an operation depends on its outcome alone. -/
theorem bind_run_congr {α β : Type} {m m' : M α} {f : α → M β} (h : m s = m' s1) : (m >>= f) s = (m' >>= f) s1 := by
  show EStateM.bind m f s = EStateM.bind m' f s1
  unfold EStateM.bind
  rw [h]

/-- An aligned access whose size divides a page lies in one page (R36). -/
theorem page_of_aligned (hn : n ∣ 4096) (hva : n ∣ va.toNat) : va.toNat % 4096 + n ≤ 4096 := by
  obtain ⟨i, hi⟩ := (Nat.dvd_mod_iff hn).2 hva
  obtain ⟨m, hm⟩ := hn
  have hlt : n * i < n * m := by omega
  have := Nat.mul_le_mul_left n (Nat.lt_of_mul_lt_mul_left hlt : i < m)
  rw [Nat.mul_succ] at this
  omega

theorem pieces_of_page {x : Nat} (hpos : 0 < n) (hpage : x % 4096 + n ≤ 4096) : pieces (n / 4096 + 2) x n = [(x, n)] := by
  have hmin : min n (4096 - x % 4096) = n := by omega
  simp [pieces, hmin, Nat.ne_of_gt hpos]

/-- A translation in one page of a size that divides it is the whole translation of an aligned access (R36). -/
theorem translate_of_translate1 (hn : n ∣ 4096) (h : translate1 c a va n s = .ok pa s1) :
    translate c a va n n s = .ok [(pa, n)] s1 := by
  have hpos : 0 < n := Nat.pos_of_dvd_of_pos hn (by decide)
  obtain ⟨ps, t, hps, hpa⟩ := bind_eq_ok h
  have htrans := hps
  unfold translate at hps
  obtain ⟨-, hps⟩ := need_bind_eq_ok hps
  obtain ⟨halign, hps⟩ := need_bind_eq_ok hps
  rw [pieces_of_page hpos (page_of_aligned hn (Nat.dvd_of_mod_eq_zero (beq_iff_eq.1 halign))), List.mapM_cons] at hps
  obtain ⟨p, _, hp, hps⟩ := bind_eq_ok hps
  obtain ⟨q, _, -, hp⟩ := bind_eq_ok hp
  cases hp
  cases hps
  cases hpa
  exact htrans

/-- A scalar store that translates holds its bytes at the PA (R86, R239). -/
theorem storeNat_run (v : Nat) (hn : n ∣ 4096) (h : Gives (translate1 s.task.tctx { write := true } va n) s pa s1) :
    storeNat va n v s = holdStores va [⟨pa, leBytes n v⟩] s1 := by
  unfold storeNat storeBytes myCtx
  rw [length_leBytes, bind_assoc, get_bind, pure_bind, bind_ok (translate_of_translate1 hn h)]
  simp [splitData, List.take_of_length_le, length_leBytes]

theorem holdStores_fits (k : HeldStore) (h : (heldLines (holdOne s.task.held k)).length ≤ 64 + s.task.spillLines) :
    holdStores va [k] s = .ok () (s.setTask fun t => { t with held := holdOne t.held k }) := by
  unfold holdStores
  rw [get_bind]
  exact bind_ok (need_of (decide_eq_true h))

/-- A store beyond the private and the spill area is refused (R88). -/
theorem holdStores_overflows (k : HeldStore) (h : 64 + s.task.spillLines < (heldLines (holdOne s.task.held k)).length) :
    holdStores va [k] s = .error (.trap 0x40 va) s := by
  unfold holdStores
  rw [get_bind]
  exact bind_error (need_of_not (mt of_decide_eq_true (Nat.not_le.2 h)))

end stores

section store_instructions
variable {s s0 s1 s2 : State} {d a b : Spec} {z : BitVec 2} {x y v : W64} {pa : Nat}

/-- Reading an operand changes of its task only what it waits for and what is left of its packet (R15, R216). -/
theorem readScalar_task (h : readScalar a s = .ok x s1) :
    s1.task = { s.task with outstanding := s1.task.outstanding, pkt := s1.task.pkt } := by
  unfold readScalar at h
  split at h
  · cases h; rfl
  split at h
  · unfold popChannel at h
    rw [get_bind] at h
    rcases hc : s.task.pktChan with _ | c <;> rcases hp : s.task.pkt with _ | ⟨lo, _ | ⟨hi, rest⟩⟩ <;> rw [hc, hp] at h
    case some.cons.cons =>
      dsimp only at h
      split at h <;> cases h
      rfl
    all_goals cases h
  · unfold popQueue at h
    rw [get_bind] at h
    rcases hq : lget (s.cluster (clusterId s.task.core)).queues (a.toNat - 48) with _ | ⟨v, rest⟩ <;> rw [hq] at h <;> cases h
    rfl

theorem readScalar_hints (h : readScalar a s = .ok x s1) : s1.task.hints = s.task.hints := by
  rw [readScalar_task h]

theorem sizeBytes_dvd_page (z : BitVec 2) : sizeBytes z ∣ 4096 :=
  Nat.pow_dvd_pow (n := 12) 2 (by have := z.isLt; omega)

/-- ST reads its address and its data, then holds the bytes of its size (R239, R241). -/
theorem stBody_run (o : BitVec 12) (hr : Reads2 a d s x v s1)
    (ht : Gives (translate1 s1.task.tctx { write := true } (x + immediateOf s.task.hints o) (2 ^ z.toNat)) s1 pa s2) :
    stBody d a z o s = (holdStores (x + immediateOf s.task.hints o) [⟨pa, leBytes (2 ^ z.toNat) v.toNat⟩] >>= fun _ =>
      pure .seq : M Next) s2 := by
  obtain ⟨hd, s0, ⟨ha, hx⟩, hv⟩ := hr
  have hhints : s.task.hints = s1.task.hints := ((readScalar_hints hv).trans (readScalar_hints hx)).symm
  rw [hhints] at ht ⊢
  unfold stBody
  rw [bind_ok (checkSrc_of ha), bind_ok (checkSrc_of hd), bind_ok hx, bind_ok hv,
    bind_ok (immediate_run o s1 (by decide) (by decide))]
  exact bind_run_congr (storeNat_run v.toNat (sizeBytes_dvd_page z) ht)

/-- STX does the same at the address of its two operands (R240, R241). -/
theorem stxBody_run (h : BitVec 2) (hr : Reads2 a b s x y s0) (hd : scalarSrcOk s.task.core d = true)
    (hv : readScalar d s0 = .ok v s1)
    (ht : Gives (translate1 s1.task.tctx { write := true } (x + (y <<< h.toNat)) (2 ^ z.toNat)) s1 pa s2) :
    stxBody d a b z h s = (holdStores (x + (y <<< h.toNat)) [⟨pa, leBytes (2 ^ z.toNat) v.toNat⟩] >>= fun _ =>
      pure .seq : M Next) s2 := by
  obtain ⟨hb, _, ⟨ha, hx⟩, hy⟩ := hr
  unfold stxBody
  rw [bind_ok (checkSrc_of ha), bind_ok (checkSrc_of hb), bind_ok (checkSrc_of hd), bind_ok hx, bind_ok hy, bind_ok hv]
  exact bind_run_congr (storeNat_run v.toNat (sizeBytes_dvd_page z) ht)

end store_instructions

/-- Settles O32: ST and STX come down to one held store, which fits or is refused. -/
theorem storeResults : Obligations.StoreResults := by
  unfold Obligations.StoreResults
  constructor
  · intro d a z o x v pa s s1 s2 he hr ht
    have hbody := stBody_run o hr ht
    exact ⟨fun hfits => issue_ok he (hbody.trans (bind_ok (holdStores_fits _ hfits))),
      fun hover => issue_trap he (hbody.trans (bind_error (holdStores_overflows _ hover)))⟩
  · intro d a b z h x y v pa s s0 s1 s2 he hr hd hv ht hfits
    exact issue_ok he ((stxBody_run h hr hd hv ht).trans (bind_ok (holdStores_fits _ hfits)))

end Sys2Proof.Machine
end

section
/-! SUPPORT. O10: how an instruction ends (R195), and what a governing HLIVE may change (R132; log entry 8). -/

namespace Sys2Proof.Machine

theorem vget_vec32 {α : Type} [Inhabited α] (f : Nat → α) {k : Nat} (hk : k < 32) : vget (vec32 f) k = f k := by
  have hlist : (vec32 f).toArray = ((List.range 32).map f).toArray := rfl
  have hlen : k < ((List.range 32).map f).toArray.size := by rwa [List.size_toArray, List.length_map, List.length_range]
  rw [vget, hlist, Array.getD_eq_getD_getElem?, Array.getElem?_eq_getElem hlen, Option.getD_some, List.getElem_toArray,
    List.getElem_map, List.getElem_range]

section liveness
variable (t : Task) (p : BitVec 22) (keep : Nat → Bool)

/-- A register keeps its value unless its payload bit is 0, and then it may read zero (R132, R195; log entry 8). -/
theorem Task.kill_reg {k : Nat} (hk : k < 32) :
    vget (t.kill p keep).g k = vget t.g k ∨ (vget (t.kill p keep).g k = 0 ∧
      ((16 ≤ k ∧ p.getLsbD (k - 16) = false) ∨ (4 ≤ k ∧ k < 8 ∧ p.getLsbD (k + 12) = false))) := by
  simp only [Task.kill, vget_vec32 _ hk]
  split
  next hdead =>
    simp only [Bool.and_eq_true, Bool.or_eq_true, Bool.not_eq_true', decide_eq_true_eq] at hdead
    obtain ⟨⟨hrange, hbit⟩ | ⟨hrange, hbit⟩, -⟩ := hdead
    · exact .inr ⟨rfl, .inl ⟨hrange.1, hbit⟩⟩
    · exact .inr ⟨rfl, .inr ⟨hrange.1, hrange.2, hbit⟩⟩
  next => exact .inl rfl

/-- The vector registers keep their values unless bit 20 is 0 (R132, R195). -/
theorem Task.kill_vectors : (t.kill p keep).lanes = t.lanes ∨
    (p.getLsbD 20 = false ∧ (t.kill p keep).lanes = t.lanes.map fun _ => Vector.replicate 32 0) := by
  simp only [Task.kill]
  split
  next hdead => exact .inr ⟨by simpa using (Bool.and_eq_true_iff.1 hdead).1, rfl⟩
  next => exact .inl rfl

/-- The e-slots keep their values unless bit 21 is 0 (R132, R195). -/
theorem Task.kill_slots : (t.kill p keep).e = t.e ∨
    (p.getLsbD 21 = false ∧ (t.kill p keep).e = Vector.replicate 64 0) := by
  simp only [Task.kill]
  split
  next hdead => exact .inr ⟨by simpa using (Bool.and_eq_true_iff.1 hdead).1, rfl⟩
  next => exact .inl rfl

end liveness

/-- A governing HLIVE takes one free choice, which says of each dead register whether it reads zero (R132; log entry 8). -/
theorem State.applyLive_some (s : State) {h : Hints} {p : BitVec 22} (hl : h.hlive = some p) :
    s.applyLive h = { s with task := s.task.kill p fun i => Config.freeKeep (64 * s.tick + i), tick := s.tick + 1 } := by
  unfold State.applyLive
  rw [hl]
  rfl

/-- The next word under a governing HLIVE: beside the hints and the pc only what it declares dead changes (R132). -/
theorem State.ends_seq_live (s s' : State) {p : BitVec 22} (hl : s.task.hints.hlive = some p) (hq : s'.queues = s.queues)
    (hf : s'.failed = s.failed) : s.ends s' .seq =
      { s' with
        task := ({ s'.task with hints := {}, pc := s.task.pc + 4, stalled := false } : Task).kill p fun i =>
          Config.freeKeep (64 * s'.tick + i)
        tick := s'.tick + 1 } := by
  show ((s'.setTask _).applyLive _).serveQueues s = _
  rw [State.applyLive_some _ hl]
  exact State.serveQueues_of _ _ hq hf

/-- Settles O10: without HLIVE an instruction ends with its hints and its pc alone; with one, the task that ends it is the
worked-on task after `Task.kill`, whose registers, lanes and slots are each as they were or dead. -/
theorem howAnInstructionEnds : Obligations.HowAnInstructionEnds := by
  unfold Obligations.HowAnInstructionEnds
  constructor
  · intro s s' hl hq hf
    exact ⟨s.ends_seq s' hl hq hf, fun pc => s.ends_goto s' pc hl hq hf, s.ends_gone s' hq hf⟩
  · intro s s' p hl hq hf
    exact ⟨_, s.ends_seq_live s' hl hq hf, rfl, rfl, rfl, fun k hk => Task.kill_reg _ p _ hk, Task.kill_vectors _ p _,
      Task.kill_slots _ p _⟩

end Sys2Proof.Machine
end

section
/-! SUPPORT. O25: what CALL does when the stack has room (R129, R230), and a state in which the retry list holds a wait of the
current task itself (R78, R98). -/

namespace Sys2Proof.Machine

section calls
variable {s : State} {x : W64}

/-- A call with room leaves the frame, lets what waits go on, and slides the window with the address of the word after the
call as it issued (R129, R230). -/
theorem enterCall_room (hroom : s.task.callLimit ≤ s.task.slim.toNat) :
    Gives (enterCall x) s (.goto x) (s.leaveFrame.serve.setTask (·.slide (s.task.pc + 4))) := by
  unfold Gives enterCall
  rw [get_bind, bind_ok (need_of (decide_eq_true hroom))]
  rfl

theorem call_room {o : BitVec 26} (he : s.Enabled .any { imm := true }) (hroom : s.task.callLimit ≤ s.task.slim.toNat) :
    exec (.call o) s =
      .next (s.ends (s.leaveFrame.serve.setTask (·.slide (s.task.pc + 4))) (.goto (targetOf s o))) :=
  issue_ok he ((bind_ok (branchTarget_run o s (by decide) (by decide))).trans (enterCall_room hroom))

/-- A slide that ends at a target leaves its return address in g15 (R129, R230). -/
theorem ends_slide_g15 {u : State} (ret : Task → W64) (hl : s.task.hints.hlive = none) (hq : u.queues = s.queues)
    (hf : u.failed = s.failed) :
    vget (s.ends (u.setTask fun t => t.slide (ret t)) (.goto x)).task.g 15 = ret u.task := by
  rw [State.ends_goto s (u.setTask fun t => t.slide (ret t)) x hl hq hf]
  rfl

end calls

/-- A RUNNING task of a lane core with room on its stack, while the retry list holds a wait of its own for a counter that has
reached its target. -/
def ownWait : State :=
  { State.reset with
    nextKey := 2
    task := { key := 1, status := .running, pc := 0x40000000, sbase := 0x100000, slim := 0x200000 }
    waiters := [⟨1, 0x300000, .counter 0 false, 0, 0⟩] }

theorem ownWait_enabled : ownWait.Enabled .any { imm := true } := ⟨rfl, rfl, rfl⟩

/-- Serving the retry list completes that wait, which moves the pc of the current task (R98, R134). -/
theorem ownWait_serve_pc : ownWait.leaveFrame.serve.task.pc = ownWait.task.pc + 4 := by decide +kernel

theorem ownWait_serve_queues : ownWait.leaveFrame.serve.queues = ownWait.queues := by decide +kernel

theorem ownWait_serve_failed : ownWait.leaveFrame.serve.failed = ownWait.failed := by decide +kernel

/-- Refutes O25: the callee's g15 is the address after the call as it issued, but the statement takes the pc that serving the
retry list leaves, and no hypothesis keeps a wait of the current task itself out of that list. In `ownWait` serving moves the
pc on by one word, so that the two return addresses differ. -/
theorem not_callsSlideTheWindow : ¬ Obligations.CallsSlideTheWindow := by
  unfold Obligations.CallsSlideTheWindow
  intro h
  obtain ⟨-, hcall, -⟩ := h _ rfl _ rfl
  have hroom : ownWait.task.callLimit ≤ ownWait.task.slim.toNat := by decide
  have hstate := Host.Outcome.next.inj ((call_room ownWait_enabled hroom).symm.trans ((hcall 0 ownWait ownWait_enabled).1 hroom))
  have hreg (ret : Task → W64) := ends_slide_g15 (x := targetOf ownWait 0#26) ret (s := ownWait) rfl ownWait_serve_queues
    ownWait_serve_failed
  have hret :=
    calc ownWait.task.pc + 4
        = _ := (hreg fun _ => ownWait.task.pc + 4).symm
      _ = _ := congrArg (fun u : State => vget u.task.g 15) hstate
      _ = ownWait.leaveFrame.serve.task.pc + 4 := hreg fun t => t.pc + 4
  rw [ownWait_serve_pc] at hret
  exact absurd hret (by decide)

end Sys2Proof.Machine
end

section
/-! SUPPORT. O38: the floating-point members of one, two and three sources (R162-R166, R246, R247), each read under the rounding
mode the task has when its instruction starts. -/

namespace Sys2Proof.Machine

section members
variable {s s0 s1 s2 : State} {a b d : Spec} {x y z : W64}

/-- Reading an operand leaves the task its rounding mode. -/
theorem readScalar_rmode (h : readScalar a s = .ok x s1) : s1.task.rmode = s.task.rmode := by
  by_cases h32 : a.toNat < 32
  · rw [readScalar_reg h32] at h
    cases h
    rfl
  by_cases h48 : a.toNat < 48
  · rw [readScalar_channel (by omega) h48] at h
    by_cases hchan : ∃ c, s.task.pktChan = some c ∧ c.toNat = a.toNat - 32
    · obtain ⟨c, hc, hn⟩ := hchan
      rcases hp : s.task.pkt with _ | ⟨lo, _ | ⟨hi, rest⟩⟩
      · simp only [popChannel, get_bind, hc, hp] at h
        cases h
      · simp only [popChannel, get_bind, hc, hp] at h
        cases h
      · rw [popChannel_current hc hn hp] at h
        cases h
        rfl
    · rw [popChannel_other fun c hc hn => hchan ⟨c, hc, hn⟩] at h
      cases h
  · rw [readScalar_queue (by omega)] at h
    cases hq : lget s.queues (a.toNat - 48) with
    | nil =>
      rw [State.queues] at hq
      simp only [popQueue, get_bind, hq] at h
      cases h
    | cons v rest =>
      rw [popQueue_cons hq] at h
      cases h
      rfl

theorem rounding_run : rounding s = .ok (rmOf s.task.rmode) s := rfl

theorem writeFlagged_run {r : Nat × Flg} (hw : writeScalar d (BitVec.ofNat 64 r.1) s = .ok () s1) :
    writeFlagged d r s = .ok (.flags r.2) s1 := bind_ok hw

theorem fpUnary_run {f : Rm → Nat → Nat × Flg} (hr : Reads a s x s1)
    (hw : Writes s d (BitVec.ofNat 64 (f (rmOf s.task.rmode) x.toNat).1) s1 s2) :
    Gives (fpUnary d a f) s (.flags (f (rmOf s.task.rmode) x.toNat).2) s2 := by
  obtain ⟨ha, hx⟩ := hr
  obtain ⟨hd, hw⟩ := hw
  unfold Gives fpUnary
  rw [bind_ok (checkSrc_of ha), bind_ok (checkDst_of hd), bind_ok hx, bind_ok rounding_run, readScalar_rmode hx]
  exact writeFlagged_run hw

theorem fpBinary_run {f : Rm → Nat → Nat → Nat × Flg} (hr : Reads2 a b s x y s1)
    (hw : Writes s d (BitVec.ofNat 64 (f (rmOf s.task.rmode) x.toNat y.toNat).1) s1 s2) :
    Gives (fpBinary d a b f) s (.flags (f (rmOf s.task.rmode) x.toNat y.toNat).2) s2 := by
  obtain ⟨hb, s0, ⟨ha, hx⟩, hy⟩ := hr
  obtain ⟨hd, hw⟩ := hw
  unfold Gives fpBinary
  rw [bind_ok (checkSrc_of ha), bind_ok (checkSrc_of hb), bind_ok (checkDst_of hd), bind_ok hx, bind_ok hy,
    bind_ok rounding_run, readScalar_rmode hy, readScalar_rmode hx]
  exact writeFlagged_run hw

theorem fpTernary_run {f : Rm → Nat → Nat → Nat → Nat × Flg} (hr : Reads2 a b s x y s0)
    (hsrc : scalarSrcOk s.task.core d = true) (hz : readScalar d s0 = .ok z s1)
    (hw : Writes s d (BitVec.ofNat 64 (f (rmOf s.task.rmode) x.toNat y.toNat z.toNat).1) s1 s2) :
    Gives (fpTernary d a b f) s (.flags (f (rmOf s.task.rmode) x.toNat y.toNat z.toNat).2) s2 := by
  obtain ⟨hb, s', ⟨ha, hx⟩, hy⟩ := hr
  obtain ⟨hd, hw⟩ := hw
  unfold Gives fpTernary
  rw [bind_ok (checkSrc_of ha), bind_ok (checkSrc_of hb), bind_ok (checkSrc_of hsrc), bind_ok (checkDst_of hd), bind_ok hx,
    bind_ok hy, bind_ok hz, bind_ok rounding_run, readScalar_rmode hz, readScalar_rmode hy, readScalar_rmode hx]
  exact writeFlagged_run hw

end members

/-- Settles O38: every member is `fpUnary`, `fpBinary` or `fpTernary` of its exact function, which rounds once in the mode the
instruction starts with. -/
theorem floatArithmeticResults : Obligations.FloatArithmeticResults := by
  unfold Obligations.FloatArithmeticResults
  refine ⟨?two, ?three, ?one⟩
  case two =>
    rintro p hp d a b n x y s s1 s2 he hr r rfl hw
    simp only [List.mem_cons, List.not_mem_nil, or_false] at hp
    rcases hp with rfl | rfl | rfl | rfl | rfl | rfl <;> exact issue_ok he (fpBinary_run hr hw)
  case three =>
    rintro p hp d a b n x y z s s0 s1 s2 he hr hsrc hz r rfl hw
    simp only [List.mem_cons, List.not_mem_nil, or_false] at hp
    rcases hp with rfl | rfl | rfl <;> exact issue_ok he (fpTernary_run hr hsrc hz hw)
  case one =>
    rintro d a n x s s1 s2 he hr r rfl hw
    exact issue_ok he (fpUnary_run hr hw)

end Sys2Proof.Machine
end

section
/-! SUPPORT. O41: what raised flags leave (R166, R168): `FSTAT`, the cluster's `CFLAGS`, and nothing that makes a waiting access
ready. -/

namespace Sys2Proof.Machine

theorem State.cluster_id (s : State) (n : Nat) : (s.cluster n).id = n := by
  unfold State.cluster
  cases hc : s.clusters.find? (·.id == n) with
  | none => rfl
  | some c => simpa using List.find?_some hc

/-- A cluster reads as it was changed. -/
theorem State.cluster_setCluster (s : State) (n : Nat) (f : Cluster → Cluster) (hf : (f (s.cluster n)).id = n) :
    (s.setCluster n f).cluster n = f (s.cluster n) := by
  have hfind : (f (s.cluster n) :: s.clusters.filter (·.id != n)).find? (·.id == n) = some (f (s.cluster n)) :=
    List.find?_cons_of_pos (by simpa using hf)
  exact congrArg (·.getD { id := n }) hfind

section flags
variable (s : State) (f : BitVec 5)

theorem State.raiseFlags_queues : (s.raiseFlags f).queues = s.queues := by
  unfold State.raiseFlags
  dsimp only
  split
  · rfl
  · exact (congrArg Cluster.queues (State.cluster_setCluster (s.setTask _) _ _ (State.cluster_id _ _))).trans rfl

theorem State.raiseFlags_failed : (s.raiseFlags f).failed = s.failed := by
  unfold State.raiseFlags
  dsimp only
  split <;> rfl

theorem State.raiseFlags_dies : (s.raiseFlags f).dies = s.dies := by
  unfold State.raiseFlags
  dsimp only
  split <;> rfl

theorem State.raiseFlags_task : (s.raiseFlags f).task = { s.task with fstat := s.task.fstat ||| f.setWidth 64 } := by
  unfold State.raiseFlags
  dsimp only
  split <;> rfl

end flags

/-- The work `s'` of an instruction of `s` that raises `f`, gone on to the next word with its flags recorded (R166, R168,
R195). -/
def State.flagged (s s' : State) (f : BitVec 5) : State :=
  (s'.setTask fun t => { t with hints := {}, pc := s.task.pc + 4, stalled := false }).raiseFlags f

section ends
variable {s s' : State} {f : BitVec 5}

theorem State.ends_flags (hl : s.task.hints.hlive = none) :
    s.ends s' (.flags f) =
      (if f &&& s'.task.fena.setWidth 5 ≠ 0 ∧ (s'.die s'.task.core.die.toNat).supv.getLsbD 0 = true
        then (s.flagged s' f).park (f &&& s'.task.fena.setWidth 5) s.task.pc else s.flagged s' f).serveQueues s := by
  unfold State.ends State.retire State.flagged
  dsimp only
  rw [State.applyLive_none _ _ hl, State.die, State.raiseFlags_dies, State.raiseFlags_task]
  rfl

/-- Flags that park no task leave the next word's turn (R166). -/
theorem State.ends_flags_on (hl : s.task.hints.hlive = none) (hq : s'.queues = s.queues) (hf : s'.failed = s.failed)
    (h : (s'.die s'.task.core.die.toNat).supv.getLsbD 0 = false ∨ f &&& s'.task.fena.setWidth 5 = 0) :
    s.ends s' (.flags f) = s.flagged s' f := by
  rw [State.ends_flags hl, if_neg]
  · exact State.serveQueues_of _ _ ((State.raiseFlags_queues _ _).trans hq) ((State.raiseFlags_failed _ _).trans hf)
  · rintro ⟨hon, hv⟩
    rcases h with h | h
    · rw [h] at hv
      cases hv
    · exact hon h

end ends

/-- Settles O41: `State.flagged` is the record of the flags, which no waiting access reads; where they park the task,
`State.park_effect` says what that leaves. -/
theorem raisedFlagsAreRecorded : Obligations.RaisedFlagsAreRecorded := by
  unfold Obligations.RaisedFlagsAreRecorded
  refine ⟨?_, State.park_effect⟩
  rintro s s' f t hl hq hf ht
  obtain rfl : t = s.flagged s' f := ht
  refine ⟨State.ends_flags_on hl hq hf, fun hv hon => ?_⟩
  rw [State.ends_flags hl, if_pos ⟨hon, hv⟩]

end Sys2Proof.Machine
end

section
/-! SUPPORT. O40: rounding a value that a format represents (R161-R163, R169, R182). A finite value is a whole number of units
of its exponent; at that unit nothing is cut, so that the code it was read from comes back. -/

namespace Sys2Proof.Machine

section scaled
variable {m a b : Nat}

/-- A whole number of units `2 ^ q` as a fraction of two powers. -/
theorem Exact.ofScaled_eq (neg : Bool) (m : Nat) (q : Int) :
    Exact.ofScaled neg m q = .fin neg (m * 2 ^ q.toNat) (2 ^ (-q).toNat) := by
  unfold Exact.ofScaled
  split
  next h => rw [Int.toNat_of_nonpos (by omega : q ≤ 0), Nat.pow_zero, Nat.mul_one]
  next h => rw [Int.toNat_of_nonpos (by omega : -q ≤ 0), Nat.pow_zero]

theorem roundsUp_zero (rm : Rm) (neg : Bool) (m : Nat) {d : Nat} (hd : 0 < d) : roundsUp rm neg m 0 d = false := by
  unfold roundsUp
  cases rm <;> simp <;> omega

/-- A whole number of units is not cut when it is rounded to that unit. -/
theorem roundAt_scaled (rm : Rm) (neg : Bool) (m a b : Nat) :
    roundAt rm neg (m * 2 ^ a) (2 ^ b) ((a : Int) - b) = (m, false) := by
  have hexact : ∀ n d, 0 < d → n = m * d →
      (if roundsUp rm neg (n / d) (n % d) d then n / d + 1 else n / d, decide (n % d ≠ 0)) = (m, false) := by
    rintro n d hd rfl
    rw [Nat.mul_div_cancel _ hd, Nat.mul_mod_left, roundsUp_zero _ _ _ hd]
    rfl
  unfold roundAt
  refine hexact _ _ ?_ ?_
  · split
    next h => exact Nat.two_pow_pos b
    next h => exact Nat.mul_pos (Nat.two_pow_pos b) (Nat.two_pow_pos _)
  · split
    next h => rw [Nat.mul_assoc, ← Nat.pow_add]; congr 2; omega
    next h => rw [← Nat.pow_add]; congr 2; omega

theorem mul_two_pow_ne_zero (hm : m ≠ 0) (a : Nat) : m * 2 ^ a ≠ 0 :=
  Nat.mul_ne_zero hm (Nat.ne_of_gt (Nat.two_pow_pos a))

theorem log2_mul_two_pow (hm : m ≠ 0) : Nat.log2 (m * 2 ^ a) = Nat.log2 m + a := by
  rw [Nat.log2_eq_iff (mul_two_pow_ne_zero hm a), Nat.pow_add, Nat.add_right_comm, Nat.pow_add]
  have hpos := Nat.two_pow_pos a
  exact ⟨Nat.mul_le_mul_right _ (Nat.log2_self_le hm), Nat.mul_lt_mul_of_pos_right Nat.lt_log2_self hpos⟩

theorem floorLog2_scaled (hm : m ≠ 0) : floorLog2 (m * 2 ^ a) (2 ^ b) = Nat.log2 m + ((a : Int) - b) := by
  have hle : 2 ^ (Nat.log2 m + a) ≤ m * 2 ^ a := by
    rw [Nat.pow_add]
    exact Nat.mul_le_mul_right _ (Nat.log2_self_le hm)
  unfold floorLog2
  rw [log2_mul_two_pow hm, Nat.log2_two_pow]
  dsimp only
  rw [if_pos]
  · omega
  split
  next h =>
    calc 2 ^ b = 2 ^ (Nat.log2 m + a) * 2 ^ (-(((Nat.log2 m + a : Nat) : Int) - b)).toNat := by
          rw [← Nat.pow_add]; congr 1; omega
      _ ≤ _ := Nat.mul_le_mul_right _ hle
  next h =>
    rw [← Nat.pow_add]
    exact Nat.le_trans (Nat.pow_le_pow_right (by decide) (by omega)) hle

/-- Rounding keeps a number of units of the exponent to which it rounds (R182). -/
theorem roundFin_scaled {q : Int} (p : Nat) (emin : Int) (rm : Rm) (neg : Bool) (hm : m ≠ 0)
    (hq : q = max (Nat.log2 m + q) emin - ((p : Int) - 1)) :
    ∃ tiny, roundFin p emin rm neg (m * 2 ^ q.toNat) (2 ^ (-q).toNat) = ⟨m, q, false, tiny⟩ := by
  have hunit : ((q.toNat : Nat) : Int) - ((-q).toNat : Nat) = q := by omega
  unfold roundFin
  rw [floorLog2_scaled hm, hunit]
  dsimp only
  rw [← hq]
  have hround := roundAt_scaled rm neg m q.toNat (-q).toNat
  rw [hunit] at hround
  rw [hround]
  exact ⟨_, rfl⟩

end scaled

section finite
variable {f : Fmt} {rm : Rm} {neg : Bool} {x : Exact} {c e m n : Nat} {q : Int}

/-- A finite value whose one rounding in a format packs the code `c` and raises no flag (R163, R182). -/
def Fmt.Rounds (f : Fmt) (rm : Rm) (neg : Bool) (x : Exact) (c : Nat) : Prop :=
  ∃ num den, x = .fin neg num den ∧
    if num = 0 then c = 0
    else f.pack (roundFin f.p f.emin rm neg num den) = c ∧ (roundFin f.p f.emin rm neg num den).flags = 0

theorem Fmt.Rounds.encode (h : f.Rounds rm neg x c) (htop : c < f.top) : f.encode rm x = (f.signBit neg + c, 0) := by
  obtain ⟨num, den, rfl, h⟩ := h
  unfold Fmt.encode
  dsimp only
  by_cases hnum : num = 0
  · rw [if_pos hnum] at h
    rw [if_pos hnum, h]
    rfl
  · rw [if_neg hnum] at h
    rw [if_neg hnum, h.1, if_neg (Nat.not_le_of_lt htop), h.2]

theorem Fmt.Rounds.saturate {most nan : Nat} (h : f.Rounds rm neg x c) (hmost : c ≤ most) :
    f.saturate most nan rm x = (f.signBit neg + c, 0) := by
  obtain ⟨num, den, rfl, h⟩ := h
  unfold Fmt.saturate
  dsimp only
  by_cases hnum : num = 0
  · rw [if_pos hnum] at h
    rw [if_pos hnum, h]
    rfl
  · rw [if_neg hnum] at h
    rw [if_neg hnum, h.1, if_neg (Nat.not_lt_of_le hmost), h.2]

theorem Fmt.rounds_scaled (hn : n ≠ 0) (hq : q = max (Nat.log2 n + q) f.emin - f.fb) :
    f.Rounds rm neg (.ofScaled neg n q) ((q - (f.emin - f.fb)).toNat * 2 ^ f.fb + n) := by
  obtain ⟨tiny, hr⟩ := roundFin_scaled f.p f.emin rm neg hn (q := q) (by unfold Fmt.p; omega)
  refine ⟨_, _, Exact.ofScaled_eq neg n q, ?_⟩
  rw [if_neg (mul_two_pow_ne_zero hn _), hr]
  exact ⟨rfl, by simp [Rounded.flags, flagIf]⟩

/-- The value of an exponent field and a fraction rounds to them (R161, R169). -/
theorem Fmt.rounds_finite (hm : m < 2 ^ f.fb) : f.Rounds rm neg (f.finite neg e m) (e * 2 ^ f.fb + m) := by
  unfold Fmt.finite
  by_cases he : e = 0
  · rw [if_pos he, he, Nat.zero_mul, Nat.zero_add]
    by_cases hz : m = 0
    · exact ⟨_, _, Exact.ofScaled_eq _ _ _, by rw [hz, Nat.zero_mul, if_pos rfl]⟩
    · have hlog : Nat.log2 m < f.fb := (Nat.log2_lt hz).mpr hm
      simpa using Fmt.rounds_scaled (f := f) (rm := rm) (neg := neg) (q := f.emin - f.fb) hz (by omega)
  · have hnz : 2 ^ f.fb + m ≠ 0 := by omega
    have hlog : Nat.log2 (2 ^ f.fb + m) = f.fb := by
      rw [Nat.log2_eq_iff hnz]
      omega
    have hemin : f.emin = 1 - f.bias := rfl
    have hcode : (((e : Int) - f.bias - f.fb) - (f.emin - f.fb)).toNat * 2 ^ f.fb + (2 ^ f.fb + m) = e * 2 ^ f.fb + m := by
      obtain ⟨k, rfl⟩ := Nat.exists_eq_succ_of_ne_zero he
      rw [show (((k.succ : Nat) : Int) - f.bias - f.fb - (f.emin - f.fb)).toNat = k by omega, Nat.succ_mul, Nat.add_assoc]
    rw [if_neg he, ← hcode]
    exact Fmt.rounds_scaled hnz (by omega)

theorem Fmt.finite_ne_nan (f : Fmt) (neg : Bool) (e m : Nat) : f.finite neg e m ≠ .nan := by
  unfold Fmt.finite Exact.ofScaled
  split <;> split <;> exact Exact.noConfusion

end finite

/-- A number of a format's width is its sign, its exponent and its fraction. -/
theorem Fmt.code_eq (f : Fmt) {w : Nat} (hw : w < 2 ^ f.width) :
    f.signBit (bitAt w (f.eb + f.fb)) + (bitsOf w f.fb f.eb * 2 ^ f.fb + bitsOf w 0 f.fb) = w := by
  have hlow : bitsOf w f.fb f.eb * 2 ^ f.fb + bitsOf w 0 f.fb = w % 2 ^ (f.eb + f.fb) := by
    unfold bitsOf
    rw [Nat.pow_zero, Nat.div_one, Nat.add_comm f.eb, Nat.pow_add, Nat.mod_mul, Nat.mul_comm, Nat.add_comm]
  have hsign : f.signBit (bitAt w (f.eb + f.fb)) = 2 ^ (f.eb + f.fb) * (w / 2 ^ (f.eb + f.fb)) := by
    have hlt : w / 2 ^ (f.eb + f.fb) < 2 := by
      rw [Nat.div_lt_iff_lt_mul (Nat.two_pow_pos _), ← Nat.pow_succ']
      exact Nat.lt_of_lt_of_eq hw (congrArg (2 ^ ·) (by unfold Fmt.width; omega))
    unfold Fmt.signBit bitAt bitsOf
    rcases Nat.le_one_iff_eq_zero_or_eq_one.mp (Nat.le_of_lt_succ hlt) with h | h <;> simp [h]
  rw [hlow, hsign, Nat.add_comm, Nat.mod_add_div]

/-- A value of a format is delivered as the code it was read from, a NaN as the canonical one (R161-R163). -/
theorem Fmt.encode_decode (f : Fmt) (rm : Rm) {w : Nat} (hw : w < 2 ^ f.width) :
    f.encode rm (f.decode w).val = (if (f.decode w).val = .nan then f.canon else w, 0) := by
  have hcode := f.code_eq hw
  have hm : bitsOf w 0 f.fb < 2 ^ f.fb := Nat.mod_lt _ (Nat.two_pow_pos _)
  have he : bitsOf w f.fb f.eb < 2 ^ f.eb := Nat.mod_lt _ (Nat.two_pow_pos _)
  unfold Fmt.decode
  dsimp only
  by_cases htop : bitsOf w f.fb f.eb = 2 ^ f.eb - 1
  · rw [if_pos htop]
    by_cases hz : bitsOf w 0 f.fb = 0
    · rw [htop, hz, Nat.add_zero] at hcode
      rw [if_pos hz, if_neg Exact.noConfusion]
      exact congrArg (·, 0) hcode
    · rw [if_neg hz, if_pos rfl]
      rfl
  · have hfin : bitsOf w f.fb f.eb * 2 ^ f.fb + bitsOf w 0 f.fb < f.top :=
      calc _ < bitsOf w f.fb f.eb * 2 ^ f.fb + 2 ^ f.fb := Nat.add_lt_add_left hm _
        _ = (bitsOf w f.fb f.eb + 1) * 2 ^ f.fb := (Nat.succ_mul ..).symm
        _ ≤ f.top := Nat.mul_le_mul_right _ (by omega)
    rw [if_neg htop, if_neg (f.finite_ne_nan _ _ _), (Fmt.rounds_finite hm).encode hfin, hcode]

/-- An E4M3 byte is delivered as it was read, a NaN as the format's one (R169, R170). -/
theorem encode_decode_e4m3 (rm : Rm) {w : Nat} (hw : w < 256) :
    encodeE4m3 rm (decodeE4m3 w).val = (if w % 128 = 127 then 0x7F else w, 0) := by
  have hcode : e4m3.signBit (bitAt w 7) + (bitsOf w 3 4 * 2 ^ 3 + bitsOf w 0 3) = w := e4m3.code_eq hw
  unfold decodeE4m3
  by_cases hn : w % 128 = 127
  · rw [if_pos (by simpa [bitsOf] using hn), if_pos hn]
    rfl
  · rw [if_neg (by simpa [bitsOf] using hn), if_neg hn]
    have hmost : bitsOf w 3 4 * 2 ^ 3 + bitsOf w 0 3 ≤ 0x7E := by
      unfold bitsOf
      omega
    exact ((Fmt.rounds_finite (Nat.mod_lt _ (by decide))).saturate hmost).trans (congrArg (·, 0) hcode)

/-- Settles O40: each format's own bound on its canonical NaN is a small fact; everything else holds of every format. -/
theorem representableValuesAreExact : Obligations.RepresentableValuesAreExact := by
  unfold Obligations.RepresentableValuesAreExact
  refine ⟨fun n rm w hw => ?_, fun rm w hw => ⟨encode_decode_e4m3 rm hw, e5m2.encode_decode rm hw⟩⟩
  have hcanon : ∀ n : Fin 4, [0x7E00, 0x7FC00000, 0x7FF8000000000000, 0x7FC0].getD n.val 0 = (fmtOf n.val).canon := by
    decide
  rw [hcanon]
  exact (fmtOf n.val).encode_decode rm hw

end Sys2Proof.Machine
end

section
/-! SUPPORT. O42: how a long-float member of one source runs (R130, R181, R182, R252), and a state in which the retry list
holds a wait of the current task itself (R78, R98), whose registers its context area gives (R386). -/

namespace Sys2Proof.Machine

section long
variable {s u : State} {a d : Spec} {x : Exact} {v : Exact × Flg} {f : Rm → Exact → Exact × Flg}

theorem State.takeSlots_in (h : s.task.slotsIn = true) : s.takeSlots = s := if_pos h

/-- An element is read once the slots are in the long-slot file: its length code and its words (R130, R181). -/
theorem readSlots_run (hu : u = s.takeSlots) {k : Nat} (hk : k = bitsOf (vget u.task.e a.toNat).toNat 28 3)
    (hfits : a.toNat + k ≤ 63) :
    readSlots a s = .ok (k, tabulate (k + 1) fun j => vget u.task.e (a.toNat + j)) u := by
  subst hu hk
  unfold readSlots
  rw [upd_bind, get_bind, bind_ok (need_of (decide_eq_true hfits))]
  rfl

theorem readVf_run (hu : u = s.takeSlots) {k : Nat} (hk : k = bitsOf (vget u.task.e a.toNat).toNat 28 3)
    (hfits : a.toNat + k ≤ 63) :
    Gives (readVf a) s (vfValue (tabulate (k + 1) fun j => vget u.task.e (a.toNat + j))) u :=
  bind_ok (readSlots_run hu hk hfits)

theorem koutOf_run : koutOf s = .ok (fieldOf s.task.prec 0 3) s := rfl

theorem checkVf_run (h : d.toNat + fieldOf s.task.prec 0 3 ≤ 63) : checkVf d s = .ok () s := need_of (decide_eq_true h)

theorem putElement_run (hin : s.task.slotsIn = true) (ws : List W32) :
    putElement d ws s = .ok () (s.setTask (·.putSlots d.toNat ws)) := by
  unfold putElement
  rw [upd_bind, State.takeSlots_in hin]
  rfl

/-- A result is rounded once, in the mode and to the length that the task has when it is written (R182). -/
theorem writeVf_run (hin : s.task.slotsIn = true) {r : List W32 × Flg}
    (hr : r = vfEncode (rmOf s.task.rmode) (fieldOf s.task.prec 0 3) v.1) :
    writeVf d v s = .ok (.flags (v.2 ||| r.2)) (s.setTask (·.putSlots d.toNat r.1)) := by
  subst hr
  unfold writeVf
  rw [bind_ok rounding_run, bind_ok koutOf_run]
  exact bind_ok (putElement_run hin _)

theorem longUnary_run (hx : Gives (readVf a) s x u) (hin : u.task.slotsIn = true)
    (hfits : d.toNat + fieldOf u.task.prec 0 3 ≤ 63) {r : List W32 × Flg}
    (hr : r = vfEncode (rmOf u.task.rmode) (fieldOf u.task.prec 0 3) (f (rmOf u.task.rmode) x).1) :
    Gives (longUnary d a f) s (.flags ((f (rmOf u.task.rmode) x).2 ||| r.2)) (u.setTask (·.putSlots d.toNat r.1)) := by
  unfold Gives longUnary
  rw [bind_ok hx, bind_ok (checkVf_run hfits), bind_ok rounding_run]
  exact writeVf_run hin hr

end long

/-- Flags that park no task leave the e-slots as the instruction has written them. -/
theorem State.ends_putSlots {s u : State} {f : BitVec 5} (n : Nat) (ws : List W32) (hl : s.task.hints.hlive = none)
    (hq : u.queues = s.queues) (hf : u.failed = s.failed) (hv : (u.die u.task.core.die.toNat).supv.getLsbD 0 = false) :
    (s.ends (u.setTask (·.putSlots n ws)) (.flags f)).task.e = (u.task.putSlots n ws).e := by
  rw [State.ends_flags_on (s' := u.setTask (·.putSlots n ws)) hl hq hf (.inl hv), State.flagged, State.raiseFlags_task]
  rfl

/-- A RUNNING task with the length code 1 in `PREC`, whose registers stand in a context area that holds zeros, while the retry
list holds a wait of its own for a counter that has reached its target. -/
def ownSlots : State :=
  { State.reset with
    nextKey := 2
    task := { key := 1, status := .running, pc := 0x40000000, ctx := 0x7F0000001000, prec := 1, resident := false }
    waiters := [⟨1, 0x300000, .counter 0 false, 0, 0⟩] }

theorem ownSlots_enabled : ownSlots.Enabled .any {} := ⟨rfl, rfl, rfl⟩

/-- Taking the slots serves that wait, which loads `PREC` and `RMODE` from the context area (R78, R386). -/
theorem ownSlots_prec : ownSlots.takeSlots.task.prec = 0 ∧ ownSlots.takeSlots.task.rmode = 0 := by decide +kernel

theorem ownSlots_e : ownSlots.takeSlots.task.e = Vector.replicate 64 0 := by decide +kernel

theorem ownSlots_in : ownSlots.takeSlots.task.slotsIn = true := by decide +kernel

theorem ownSlots_parts : ownSlots.takeSlots.queues = ownSlots.queues ∧ ownSlots.takeSlots.failed = ownSlots.failed ∧
    (ownSlots.takeSlots.die ownSlots.takeSlots.task.core.die.toNat).supv.getLsbD 0 = false := by decide +kernel

/-- e0 holds the header 0, the long float +0 of length code 0. -/
theorem ownSlots_read : Gives (readVf 0) ownSlots (vfValue [0]) ownSlots.takeSlots := by
  have hread := readVf_run (s := ownSlots) (a := 0) (k := 0) rfl (by rw [ownSlots_e]; decide) (by decide)
  rwa [ownSlots_e] at hread

/-- An instruction of `ownSlots` that writes words to e0 and on leaves them there. -/
theorem ownSlots_ends (ws : List W32) (f : BitVec 5) :
    vget (ownSlots.ends (ownSlots.takeSlots.setTask (·.putSlots (0 : Spec).toNat ws)) (.flags f)).task.e 0 =
      vget (({ e := Vector.replicate 64 0 } : Task).putSlots 0 ws).e 0 := by
  obtain ⟨hq, hf, hv⟩ := ownSlots_parts
  rw [State.ends_putSlots _ ws rfl hq hf hv, Task.putSlots, ownSlots_e]
  rfl

/-- Refutes O42: a member rounds to the length that `PREC` sets once its slots are there, but the statement takes the `PREC` it
issued with, and no hypothesis keeps a wait of the current task itself out of the retry list that taking the slots serves. In
`ownSlots` serving loads another `PREC`, so that EMOV writes a header of length code 0 and not 1. -/
theorem not_longArithmeticResults : ¬ Obligations.LongArithmeticResults := by
  unfold Obligations.LongArithmeticResults
  intro h
  obtain ⟨-, h⟩ := h ownSlots ownSlots_enabled _ rfl 1 rfl
  obtain ⟨-, -, -, hmov, -⟩ := h _ rfl 0 0 (by decide) _ ownSlots_read
  obtain ⟨hprec, hrmode⟩ := ownSlots_prec
  have hbody : Gives (longUnary 0 0 fun _ x => (x, 0)) ownSlots _ _ :=
    longUnary_run ownSlots_read ownSlots_in (by rw [hprec]; decide) rfl
  have hstate := Host.Outcome.next.inj ((issue_ok ownSlots_enabled hbody).symm.trans hmov)
  have hslots := congrArg (fun u : State => vget u.task.e 0) hstate
  rw [ownSlots_ends, ownSlots_ends, hprec, hrmode] at hslots
  exact absurd hslots (by decide +kernel)

end Sys2Proof.Machine
end

section
/-! SUPPORT. O51: the members of the MX group (R286-R300) once the run in progress has ended (R286; log entry 6): each reads its
operands in the state that end leaves, passes its checks and changes the matrix unit. -/

namespace Sys2Proof.Machine

section wait
variable {s r : State} {body : M Next}

/-- Where no run is in progress there is nothing to end (R286). -/
theorem State.runEnd_idle (h : s.task.mx.bit 24 = false) (rec : Bool) : s.runEnd s.task.key rec = s := by
  unfold State.runEnd
  rw [State.taskOf_current]
  dsimp only
  rw [show s.task.mx.running = false from h, Bool.false_and, if_neg Bool.false_ne_true]

/-- A member is executed where the run has ended (R286; log entry 6). -/
theorem afterRun_run (hr : r = s.runEnd s.task.key (s.task.mx.bit 26)) (hrun : r.task.status = .running) :
    afterRun body s = body r := by
  unfold afterRun
  rw [upd_bind, get_bind, ← hr, if_pos hrun]

/-- A member that waits for the run only under a condition is executed where that has ended, else at once (R286). -/
theorem afterRun_where {r' : State} {c : Prop} [Decidable c] (hr : r = s.runEnd s.task.key (s.task.mx.bit 26))
    (hr' : r' = if c then r else s) (hrun : r'.task.status = .running) :
    (if c then afterRun body else body) s = body r' := by
  split at hr' <;> subst hr'
  next hc => rw [if_pos hc, afterRun_run hr hrun]
  next hc => rw [if_neg hc]

/-- A member whose issuer is parked or ended by the end of the run is left (R166, R167; log entry 27). -/
theorem afterRun_left (hr : r = s.runEnd s.task.key (s.task.mx.bit 26)) (hrun : r.task.status ≠ .running) :
    Gives (afterRun body) s .gone r := by
  unfold Gives afterRun
  rw [upd_bind, get_bind, ← hr, if_neg hrun]
  rfl

theorem mxNow_bind {α : Type} (f : Mx → M α) : (mxNow >>= f) s = f s.task.mx s := rfl

theorem myCtx_bind {α : Type} (f : Ctx → M α) : (myCtx >>= f) s = f s.task.tctx s := rfl

theorem mxNeed_of {c : Bool} (h : c = true) : mxNeed c s = .ok () s := need_of h

/-- A check that is made only outside a condition. -/
theorem mxNeed_unless {p : Prop} [Decidable p] {c : Bool} (h : ¬ p → c = true) (k : Unit → M Next) :
    (if p then k () else mxNeed c >>= fun u => k u) s = k () s := by
  by_cases hp : p
  · rw [if_pos hp]
  · rw [if_neg hp, bind_ok (mxNeed_of (h hp))]

end wait

section left
variable {s r : State} {a : Spec} {body : M Next}

/-- The same of a member that checks its source before it waits (R199). -/
theorem sourced_left (ha : scalarSrcOk s.task.core a = true) (hr : r = s.runEnd s.task.key (s.task.mx.bit 26))
    (hrun : r.task.status ≠ .running) : Gives (checkSrc a >>= fun _ => afterRun body) s .gone r :=
  (bind_ok (checkSrc_of ha)).trans (afterRun_left hr hrun)

/-- No member is executed when the end of the run leaves the issuer not RUNNING. -/
theorem members_left (he : s.Enabled .issuer {}) (ha : scalarSrcOk s.task.core a = true)
    (hr : r = s.runEnd s.task.key (s.task.mx.bit 26)) (hrun : r.task.status ≠ .running) :
    ∀ i ∈ [Instr.mxmode a, .mxzp a, .mxwld 0 a, .mxuprog a, .mxsave a, .mxrest a], exec i s = .next (s.ends r .gone) := by
  have left {i : Instr} {body : M Next} :
      issue .issuer plain i (checkSrc a >>= fun _ => afterRun body) s = .next (s.ends r .gone) :=
    issue_ok he (sourced_left ha hr hrun)
  simp only [List.forall_mem_cons]
  exact ⟨left, left, left, left, left, left, fun _ h => absurd h List.not_mem_nil⟩

end left

section one_source
variable {s r t t1 t2 : State} {a : Spec} {x : W64} {b : List Byte}
variable (hr : r = s.runEnd s.task.key (s.task.mx.bit 26)) (hrun : r.task.status = .running)
variable (ha : scalarSrcOk s.task.core a = true) (hx : readScalar a r = .ok x t)
include hr hrun ha hx

/-- What a member of one source does with its value, read where the run has ended. -/
theorem sourced_run (f : W64 → M Next) :
    (checkSrc a >>= fun _ => afterRun (readScalar a >>= f)) s = f x t := by
  rw [bind_ok (checkSrc_of ha), afterRun_run hr hrun, bind_ok hx]

theorem mxmode_run (hmode : modeOk x = true) : Gives (mxmodeBody a) s .seq (t.setMx fun m =>
    (((({ m with mode := x, bcells := [], desc := [], latch := [], scales := [], half0 := [], half1 := [] }.put 0 16
      x.toNat).put 16 3 0).put 20 2 0).put 27 1 0)) := by
  unfold Gives mxmodeBody
  rw [sourced_run hr hrun ha hx, bind_ok (need_of hmode)]
  rfl

theorem mxzp_run
    (hb : Gives (acqBytes x (512 * t.task.mx.shape.n * t.task.mx.shape.ng) 4 (descFault t.task.mx.shape.int4)) t b t1) :
    Gives (mxzpBody a) s .seq (t1.setMx fun m => (m.withDescs (wordsOfBytes b)).put 18 1 1) := by
  unfold Gives mxzpBody
  rw [sourced_run hr hrun ha hx, mxNow_bind, bind_ok hb]
  rfl

theorem mxwld_run {sp : BitVec 1} (hsp : ¬(sp = 1 ∧ t.task.mx.shape.int4 = true))
    (hb : Gives (acqBytes x (32 * if sp = 1 then 24576 else 16384) 64 fun b =>
      if sp = 1 then (sparseFault b).map (BitVec.ofNat 64) else none) t b t1) :
    Gives (mxwldBody sp a) s .seq (t1.setMx fun m => ({ m with bcells := b }.put 16 1 1).put 17 1 sp.toNat) := by
  have hok : (!(sp == 1 && t.task.mx.shape.int4)) = true := by
    rw [Bool.not_eq_true', ← Bool.not_eq_true, Bool.and_eq_true, beq_iff_eq]
    exact hsp
  unfold Gives mxwldBody
  rw [sourced_run hr hrun ha hx, mxNow_bind, bind_ok (mxNeed_of hok), bind_ok hb]
  rfl

theorem mxuprog_run (hb : Gives (loadBytes x 32 8) t b t1) (hprog : progFault true (wordsOfBytes b) = none) :
    Gives (mxuprogBody a) s .seq (t1.setMx fun m => { m with uprog := wordsOfBytes b }.put 19 1 1) := by
  unfold Gives mxuprogBody
  rw [sourced_run hr hrun ha hx, bind_ok hb]
  simp only [hprog]
  rfl

theorem mxsave_run {ws : List (List (Nat × List Byte))} (hpage : x.toNat % 4096 = 0)
    (hws : Gives (t.task.mx.areas.mapM fun p => do
      let ps ← translate t.task.tctx { write := true } (x + BitVec.ofNat 64 p.1) p.2.length 8
      pure (pieceWrites ps p.2)) t ws t1)
    (hput : Gives (directWrites ws.flatten) t1 () t2) : Gives (mxsaveBody a) s .seq t2 := by
  unfold Gives mxsaveBody
  rw [sourced_run hr hrun ha hx, bind_ok (need_of (beq_iff_eq.2 hpage)), mxNow_bind, myCtx_bind, bind_ok hws, bind_ok hput]
  rfl

theorem mxrest_run (hpage : x.toNat % 4096 = 0)
    (hb : Gives (acqBytes x 0x599000 4096 fun b => if imageOk b then none else some t.task.mx.mxstate) t b t1) :
    Gives (mxrestBody a) s .seq (t1.setMx fun m => Mx.ofImage (cutOf b) m.runPc []).resumeRun := by
  unfold Gives mxrestBody
  rw [sourced_run hr hrun ha hx, bind_ok (need_of (beq_iff_eq.2 hpage)), mxNow_bind, bind_ok hb]
  rfl

end one_source

section runs
variable {s r : State} {h : BitVec 1}

/-- What starting a run leaves (R293, R298). -/
theorem startRun_run (rec : Bool) : Gives (startRun h rec) r .seq (r.setMx fun m =>
    ((((({ m with runPc := r.task.pc, latch := [], latched := (0, 0) }.put 27 1 0).put 24 1 1).put 26 1 rec.toNat).put 25 1
      h.toNat).put 32 6 0).put 44 13 0) := rfl

variable (hr : r = s.runEnd s.task.key (s.task.mx.bit 26)) (hrun : r.task.status = .running)
include hr hrun

theorem mxrun_run {sp : BitVec 1} (hw : r.task.mx.bit 16 = true) (hfed : r.task.mx.bit (20 + h.toNat) = true)
    (hsp : sp = 1 ↔ r.task.mx.bit 17 = true) : mxrunBody sp h s = startRun h false r := by
  have hok : (r.task.mx.bit 16 && r.task.mx.bit (20 + h.toNat) && (sp == 1) == r.task.mx.bit 17) = true := by
    rw [hw, hfed, Bool.true_and, Bool.true_and, beq_iff_eq, Bool.eq_iff_iff, beq_iff_eq]
    exact hsp
  unfold mxrunBody
  rw [afterRun_run hr hrun, mxNow_bind, bind_ok (mxNeed_of hok)]

theorem mxrec_run (hw : r.task.mx.bit 16 = true) (hfed : r.task.mx.bit (20 + h.toNat) = true)
    (hprog : r.task.mx.bit 19 = true) (hdense : r.task.mx.bit 17 = false) : mxrecBody h s = startRun h true r := by
  have hok : (r.task.mx.bit 19 && r.task.mx.bit 16 && !r.task.mx.bit 17 && r.task.mx.bit (20 + h.toNat)) = true := by
    rw [hprog, hw, hdense, hfed]
    rfl
  unfold mxrecBody
  rw [afterRun_run hr hrun, mxNow_bind, bind_ok (mxNeed_of hok)]

theorem mxstat_run {d : Spec} {s1 : State} (hw : Writes s d r.task.mx.mxstate r s1) : Gives (mxstatBody d) s .seq s1 := by
  obtain ⟨hd, hw⟩ := hw
  unfold Gives mxstatBody
  rw [bind_ok (checkDst_of hd), afterRun_run hr hrun, mxNow_bind, bind_ok hw]
  rfl

end runs

section two_sources
variable {s r r' s1 t t1 t2 : State} {a b : Spec} {x y : W64}
variable (ha : scalarSrcOk s.task.core a = true) (hb : scalarSrcOk s.task.core b = true)
include ha hb

/-- Only a run on the half to be fed holds MXFEED up (R286, R292). -/
theorem mxfeed_run {h : BitVec 1} {n : Nat} {ps : List (List (Nat × Nat))} {bs : List Byte}
    (hr : r = s.runEnd s.task.key (s.task.mx.bit 26)) (hr' : r' = if fieldOf s.task.mx.mxstate 25 1 = h.toNat then r else s)
    (hrun : r'.task.status = .running) (hx : readScalar a r' = .ok x s1) (hy : readScalar b s1 = .ok y t)
    (hn : n = t.task.mx.shape.codeBytes + t.task.mx.shape.scaleBytes) (hx4 : x.toNat % 4 = 0) (hy4 : y.toNat % 4 = 0)
    (hny : n ≤ y.toNat)
    (hps : Gives ((List.range 32).mapM fun r => translate t.task.tctx {} (x + BitVec.ofNat 64 r * y) n 4) t ps t1)
    (hbs : Gives (acqPieces ps.flatten 4 fun _ => none) t1 bs t2) :
    Gives (mxfeedBody h a b) s .seq
      (t2.setMx fun m => (m.setHalf h.toNat (chunks n 32 bs)).put (20 + h.toNat) 1 1) := by
  subst hn
  unfold Gives mxfeedBody
  rw [bind_ok (checkSrc_of ha), bind_ok (checkSrc_of hb), mxNow_bind]
  rw [afterRun_where hr hr' hrun, bind_ok hx, bind_ok hy, mxNow_bind,
    bind_ok (need_of (beq_iff_eq.2 hx4)), bind_ok (need_of (beq_iff_eq.2 hy4)), bind_ok (need_of (decide_eq_true hny)),
    myCtx_bind, bind_ok hps, bind_ok hbs]
  rfl

variable (hr : r = s.runEnd s.task.key (s.task.mx.bit 26)) (hrun : r.task.status = .running)
variable (hx : readScalar a r = .ok x s1) (hy : readScalar b s1 = .ok y t)
include hr hrun hx hy

theorem mxsacc_run {t' : BitVec 3} {cells : List (Nat × Flg)} (hlv : t.task.mx.bit 27 = true)
    (hdot : t.task.mx.bit 26 = false) (hgroup : x.toNat < t.task.mx.shape.n) (hb0 : t.task.mx.shape.asc = 0 → b = 0)
    (hscale : scaleFault t.task.mx y = none)
    (hcells : cells = tabulate 4096 fun i => saccCell t.task.mx (rmOf t.task.rmode) y x.toNat (i / 128) (i % 128)
      (t.task.mx.tiles.getD (4096 * t'.toNat + i) 0).toNat) :
    Gives (mxsaccBody t' a b) s (.flags (cells.foldl (fun f c => f ||| c.2) 0)) (t.setMx fun m =>
      { m with
        tiles := (padTo 32768 0 t.task.mx.tiles).take (4096 * t'.toNat) ++ cells.map (fun c => BitVec.ofNat 32 c.1) ++
          (padTo 32768 0 t.task.mx.tiles).drop (4096 * t'.toNat + 4096) }) := by
  have hok : (t.task.mx.bit 27 && !t.task.mx.bit 26 && decide (x.toNat < t.task.mx.shape.n)) = true := by
    rw [hlv, hdot, decide_eq_true hgroup]
    rfl
  have hbase : (t.task.mx.shape.asc != 0 || b == 0) = true := by
    rw [Bool.or_eq_true, bne_iff_ne, beq_iff_eq]
    exact (Decidable.em (t.task.mx.shape.asc = 0)).elim (fun h => .inr (hb0 h)) .inl
  unfold Gives mxsaccBody
  rw [bind_ok (checkSrc_of ha), bind_ok (checkSrc_of hb), afterRun_run hr hrun, bind_ok hx, bind_ok hy, mxNow_bind]
  rw [bind_ok (mxNeed_of hok), bind_ok (need_of hbase)]
  simp only [hscale]
  rw [hcells]
  rfl

theorem mxdrain_run {d : Spec} {ps : List (List (Nat × Nat))}
    (hraw : 32 ≤ d.toNat → t.task.mx.bit 27 = true ∧ d.toNat % 32 < t.task.mx.shape.n)
    (hx4 : x.toNat % 4 = 0) (hy4 : y.toNat % 4 = 0) (hy512 : 512 ≤ y.toNat)
    (hps : Gives ((List.range 32).mapM fun r =>
      translate t.task.tctx { write := true } (x + BitVec.ofNat 64 r * y) 512 4) t ps t1)
    (hput : Gives (directWrites ((ps.zipIdx.map fun p =>
      pieceWrites p.1 (bytesOfWords (drainRow t.task.mx d.toNat p.2))).flatten)) t1 () t2) :
    Gives (mxdrainBody d a b) s .seq (if d.toNat < 32 ∧ d.toNat / 8 % 2 = 1 then t2.setMx fun m =>
      { m with
        tiles := (padTo 32768 0 t.task.mx.tiles).take (4096 * (d.toNat % 8)) ++ List.replicate 4096 0 ++
          (padTo 32768 0 t.task.mx.tiles).drop (4096 * (d.toNat % 8) + 4096) } else t2) := by
  have hok : ¬ d.toNat < 32 → (t.task.mx.bit 27 && decide (d.toNat % 32 < t.task.mx.shape.n)) = true := fun hd => by
    obtain ⟨hlv, hgroup⟩ := hraw (Nat.le_of_not_lt hd)
    rw [hlv, decide_eq_true hgroup]
    rfl
  unfold Gives mxdrainBody
  rw [bind_ok (checkSrc_of ha), bind_ok (checkSrc_of hb), afterRun_run hr hrun, bind_ok hx, bind_ok hy, mxNow_bind]
  refine (mxNeed_unless hok _).trans ?_
  rw [bind_ok (need_of (beq_iff_eq.2 hx4)), bind_ok (need_of (beq_iff_eq.2 hy4)), bind_ok (need_of (decide_eq_true hy512)),
    myCtx_bind, bind_ok hps, bind_ok hput]
  by_cases hclear : d.toNat < 32 ∧ d.toNat / 8 % 2 = 1
  · rw [if_pos hclear, if_pos hclear]
    rfl
  · rw [if_neg hclear, if_neg hclear]
    rfl

end two_sources

/-- Settles O51: a member is executed where the run in progress has ended (`afterRun_run`) or is left there (`afterRun_left`);
what that end and the unit's functions give are the laws of the matrix unit, cited one for each clause. -/
theorem matrixResults : Obligations.MatrixResults := by
  unfold Obligations.MatrixResults
  refine ⟨?members, Mx.finish_effect, aCode_value, bValue_value, saccCell_steps, drainRow_word, progOp_table,
    State.runEnd_effect⟩
  rintro s he done rfl r hr ok rfl
  refine ⟨?idle, ?left, ?one, ?feed, ?run, ?sacc, ?drain, ?stat⟩
  case idle =>
    intro h
    rw [hr, State.runEnd_idle h]
  case left =>
    intro hleft
    exact ⟨issue_ok he (afterRun_left hr hleft), fun a ha => members_left he ha hr hleft⟩
  case one =>
    intro hrun a x t ha hx
    exact ⟨fun hmode => issue_ok he (mxmode_run hr hrun ha hx hmode),
      fun b t1 hb => issue_ok he (mxzp_run hr hrun ha hx hb),
      fun sp b t1 hsp hb => issue_ok he (mxwld_run hr hrun ha hx hsp hb),
      fun b t1 hb hprog => issue_ok he (mxuprog_run hr hrun ha hx hb hprog),
      fun ws t1 t2 hpage hws hput => issue_ok he (mxsave_run hr hrun ha hx hpage hws hput),
      fun b t1 hpage hb => issue_ok he (mxrest_run hr hrun ha hx hpage hb)⟩
  case feed =>
    intro h r' hr' hrun a b x y s1 t n ps t1 bs t2 ha hb hx hy hn hx4 hy4 hny hps hbs
    exact issue_ok he (mxfeed_run ha hb hr hr' hrun hx hy hn hx4 hy4 hny hps hbs)
  case run =>
    rintro hrun h hw hfed start rfl
    exact ⟨fun sp hsp => issue_ok he ((mxrun_run hr hrun hw hfed hsp).trans (startRun_run false)),
      fun hprog hdense => issue_ok he ((mxrec_run hr hrun hw hfed hprog hdense).trans (startRun_run true))⟩
  case sacc =>
    intro hrun t' a b x y s1 t cells ha hb hx hy hlv hdot hgroup hb0 hscale hcells
    exact issue_ok he (mxsacc_run ha hb hr hrun hx hy hlv hdot hgroup hb0 hscale hcells)
  case drain =>
    intro hrun d a b x y s1 t ps t1 t2 ha hb hx hy _ hraw hx4 hy4 hy512 hps hput
    exact issue_ok he (mxdrain_run ha hb hr hrun hx hy hraw hx4 hy4 hy512 hps hput)
  case stat =>
    intro hrun d s1 hw
    exact issue_ok he (mxstat_run hr hrun hw)

end Sys2Proof.Machine
end
